-- ==== Sys2Proof/Word.lean ====
section
/-! DEFINITION. The widths of the spec's data (00_scope.md R9, R14): the 32-bit word, the 16-bit halfword, the
8-bit byte, and the 5-bit field that names a register. -/

namespace Sys2Proof

/-- A word: 32 bits (R14). -/
abbrev Word := BitVec 32

/-- A halfword: 16 bits (R14). -/
abbrev Half := BitVec 16

/-- A byte: 8 bits, the addressable unit (R9, R14). -/
abbrev Byte := BitVec 8

/-- A 5-bit register specifier (R123). -/
abbrev Reg := BitVec 5

end Sys2Proof
end

