-- ==== Sys2Proof/Config.lean ====
section
/-! DEFINITION. What the spec leaves to the implementation: the free values ("any value", 93_implementation_defined.md)
and the content of PRId, which the manual does not give (R12, R58). Neither has a body, so no proof can see a value. -/

namespace Sys2Proof

/-- The free values. The n-th value the manual leaves undefined in a run (U4, U9, U10, U13, U14, U21, U26, D15, D16,
D23) is this constant at n; `State.freeIndex` counts them, so no two of them are the same one. Log entry 1. -/
opaque Config.freeWord : Nat → Word

/-- `PRID_VALUE`, the content of the PRId register (R58, D32): constant for a chip, not given. Log entry 2. -/
opaque Config.pridValue : Word

end Sys2Proof
end

