-- ==== Sys2Proof/Machine/State.lean ====
section
/-! DEFINITION. The machine's state as plain data (10_state.md), the reasons a step can stop, and the state after
reset (R69). Every update and every read with a special behaviour is in Machine/Ops.lean and the files beside it. -/

namespace Sys2Proof.Machine

/-! ### Registers of CP0 (R36 to R60) -/

/-- The status register SR, field by field (R40). RFU bits are not stored: they read 0 and ignore writes (R44). -/
structure Status where
  /-- CU, bits 31:28: bit z of this field is Cu z, coprocessor z usable (R41). -/
  cu : BitVec 4
  /-- RE, bit 25: reverses the byte order of user-mode accesses (R42, R80). -/
  re : Bool
  /-- BEV, bit 22: the bootstrap exception vector is used (R43). -/
  bev : Bool
  /-- CM, bit 19: the last isolated load missed (R45); means something only while `isc` holds. -/
  cm : Bool
  /-- SwC, bit 17: the caches are swapped (R46). -/
  swc : Bool
  /-- IsC, bit 16: the data cache is isolated (R47). -/
  isc : Bool
  /-- IntMask, bits 15:8 (R48). -/
  intMask : BitVec 8
  /-- KUo, bit 5: old mode, true for user (R49). -/
  kuo : Bool
  /-- IEo, bit 4: old interrupt enable. -/
  ieo : Bool
  /-- KUp, bit 3: previous mode. -/
  kup : Bool
  /-- IEp, bit 2: previous interrupt enable. -/
  iep : Bool
  /-- KUc, bit 1: current mode, true for user. -/
  kuc : Bool
  /-- IEc, bit 0: current interrupt enable. -/
  iec : Bool
  deriving DecidableEq, Repr

/-- The Cause register, field by field (R51). IP is not stored: it is the INT pins (R54). -/
structure Cause where
  /-- BD, bit 31: the last exception was in a branch delay slot (R52). -/
  bd : Bool
  /-- CE, bits 29:28: the unit of the last coprocessor-unusable exception (R53). -/
  ce : BitVec 2
  /-- SW, bits 9:8: the software interrupt requests (R55). -/
  sw : BitVec 2
  /-- ExcCode, bits 5:2 (R56). -/
  excCode : BitVec 4
  deriving DecidableEq, Repr

/-- The fields of CP0 that MTC0 can write, as one step sees them (R255, R260). -/
structure Cp0View where
  sr : Status
  sw : BitVec 2
  /-- Context.PTEBase (R60). -/
  pteBase : BitVec 11
  deriving DecidableEq, Repr

/-! ### Caches, write buffer, bus -/

/-- An entry of a cache whose tags have `t` bits (R63, R64, R100, R114). -/
inductive CacheEntry (t : Nat) where
  /-- The valid bit, the tag and the data word. -/
  | line (valid : Bool) (tag : BitVec t) (data : Word)
  /-- Left by an isolated store: valid bit, tag and data are any values at each look (R100). -/
  | unknown
  deriving DecidableEq, Repr

/-- The instruction cache: entries by index (0 to 1023), 20-bit tags (R63). Indices strictly rising; an index that is
not listed is an invalid entry whose tag and data are any values, as after reset (R403). -/
abbrev ICache := List (Nat × CacheEntry 20)

/-- The data cache: entries by index (0 to 255), 22-bit tags (R64); listed as the instruction cache is. -/
abbrev DCache := List (Nat × CacheEntry 22)

/-- Physical memory `PMem` (R77): bytes by physical address. Addresses strictly rising and no byte 0 listed: an
address that is not listed reads 0 (log entry 4). -/
abbrev Memory := List Host.Cell

/-- One entry of the write buffer (R61, R103): the address the bus shows (its low two bits the lowest byte address of
the store, R320), the lane mask and the lanes. The access type is the number of mask bits less one. -/
structure WriteEntry where
  addr : Word
  mask : BitVec 4
  data : Word
  deriving DecidableEq, Repr

/-- A word of memory that a store changed: its physical address, and what it was before the store (R110(e)). -/
structure StoredWord where
  addr : Word
  before : Word
  deriving DecidableEq, Repr

/-- What ACTY[2:0] shows in a read cycle (R304). -/
inductive ReadType where
  /-- 0xx: uncached region, with the data length the core requests (bytes less one). -/
  | uncached (length : BitVec 2)
  /-- 1x0: a data-cache refill. -/
  | dataRefill
  /-- 1x1: an instruction-cache refill. -/
  | instrRefill
  deriving DecidableEq, Repr

/-- One bus cycle as a device or another master sees it (R312 to R314, R340). -/
inductive BusCycle where
  /-- A single read: the address shown and the access type. -/
  | read (addr : Word) (type : ReadType)
  /-- A block read of four words from a multiple of 16 (BLKRD active). -/
  | blockRead (addr : Word) (type : ReadType)
  /-- A write: the address shown, ACTY[1:0], and for each valid lane its number (lane i is D[8i+7:8i]) and byte. -/
  | write (addr : Word) (length : BitVec 2) (lanes : List (Nat × Byte))
  deriving DecidableEq, Repr

/-! ### What is behind the bus (R77) -/

/-- What answers at a physical address (R77). -/
inductive Answer where
  /-- Ordinary memory: a read returns the last byte written. -/
  | memory
  /-- Read-only memory: a read returns what it holds, a write cycle completes and changes nothing. -/
  | readOnly
  /-- A device: its cycles complete, a read returns any value, a write changes no byte of memory (log entry 33). -/
  | device
  /-- Nothing answers: RDY is never asserted, the cycle never completes. -/
  | absent
  deriving DecidableEq, Repr

/-- A range of physical addresses, both ends included, and what the platform puts there. -/
structure Region where
  first : Word
  last : Word
  answer : Answer
  deriving DecidableEq, Repr

/-- The bus, apart from a hold (R77, R330). -/
inductive BusState where
  /-- No cycle is stuck. -/
  | free
  /-- A write that nothing answers is on the bus; the core runs on until it needs the bus. -/
  | writeStuck
  /-- The core waits for a cycle that never completes: for its own read, or behind a write. Only RESET ends this. -/
  | coreStuck
  deriving DecidableEq, Repr

/-! ### Pins and environment -/

/-- The seven mode pins, sampled once at reset (R10, R66, R404); true is level 1. -/
structure ModePins where
  /-- BIGEND: level 1 little-endian, level 0 big-endian. -/
  bigend : Bool
  /-- ISTREAM: instruction streaming. -/
  istream : Bool
  /-- STPART: a partial store reads, merges and writes the data cache line. -/
  stpart : Bool
  /-- IBLOCK: 4-word refill of the instruction cache. -/
  iblock : Bool
  /-- DBLOCK: 4-word refill of the data cache. -/
  dblock : Bool
  /-- DBUSSIZ: dynamic sizing is 16 bits wide (level 0: 8 bits). -/
  dbussiz : Bool
  /-- SBUSSIZ: fixed 16-bit data bus. -/
  sbussiz : Bool
  deriving DecidableEq, Repr

/-- The pins a step samples, true for asserted, the pace of the BIU, and how far the pipeline
has fetched ahead when an exception aborts it (R18, R88(d), R98, R300, R326, R331, R362). -/
structure Inputs where
  /-- INT[5:0], 1 for a request (R54). -/
  int : BitVec 6
  /-- ICCLR: clears the instruction cache (R98). -/
  icclr : Bool
  /-- DCCLR: clears the data cache (R98). -/
  dcclr : Bool
  /-- The bus is granted to another master (HLDAK active, R326 to R329). -/
  hold : Bool
  /-- SIZRQ at the single read of the step's own instruction fetch: the platform asks for dynamic sizing of this access
  (R331). -/
  fetchSizrq : Bool
  /-- SIZRQ at the single read of a load (R331). -/
  dataSizrq : Bool
  /-- How many write-buffer entries the BIU writes to memory before the step (R18(b), R103); at least one once the
  schedule has ended (R430(b)). -/
  biuWrites : Nat
  /-- The instructions after one that raises an exception in this step that the pipeline has begun to fetch before they are
  aborted, nearest first, at most four of them (R88(d)): for each, whether SIZRQ asks for dynamic sizing of its single read
  (R331). -/
  abortedFetches : List Bool
  deriving DecidableEq, Repr

/-- `RESET_GARBAGE` (R12, R402): what the registers that reset leaves undefined hold after it. -/
structure ResetGarbage where
  regs : Vector Word 32
  hi : Word
  lo : Word
  sr : Status
  cause : Cause
  epc : Word
  badVAddr : Word
  pteBase : BitVec 11
  deriving DecidableEq, Repr

/-- A RESET pulse: the levels of the mode pins sampled after it, and the undefined register contents (R400 to R404). -/
structure ResetPulse where
  mode : ModePins
  garbage : ResetGarbage
  deriving DecidableEq, Repr

/-- What the environment does in one step: the pin levels, the bytes that another master writes while it holds the bus
(R109), a RESET pulse (R27(1)), and whether the core acts as well: the BIU, the other masters and the pins have steps of
their own, as many as they like between two of the core (R18, R114). -/
structure EnvStep where
  inputs : Inputs
  masterWrites : List (Word × Byte)
  reset : Option ResetPulse
  core : Bool
  deriving DecidableEq, Repr

/-! ### The state -/

/-- The state of one V_R3800 with the memory behind its bus. -/
structure State where
  /-- GPR[0] to GPR[31] (R20); slot 0 is never read and never written (R21). -/
  regs : Vector Word 32
  /-- HI (R25). -/
  hi : Word
  /-- LO (R25). -/
  lo : Word
  /-- The address of the instruction being executed (R26). -/
  pc : Word
  /-- The address of the instruction executed after it (R26). -/
  npc : Word
  /-- The instruction at `pc` follows a jump or branch (R29). -/
  inDelaySlot : Bool
  /-- The register that the preceding instruction loaded (R30). -/
  ldSlot : Option Reg
  /-- Instructions completed since the last MFHI, saturating at 2 (R33). -/
  sinceMfhi : Fin 3
  /-- Instructions completed since the last MFLO, saturating at 2 (R33). -/
  sinceMflo : Fin 3
  /-- From a multiply or divide until the next MFHI, MFLO, MTHI or MTLO (R210). -/
  mdFresh : Bool
  /-- Instructions completed since the last store, saturating at 2 (R247). -/
  sinceStore : Fin 3
  /-- For each of the last instructions, at most four, latest first, the word of memory that it stored to, if any: an
  instruction that follows within four may have been fetched before that store (R110(e)). -/
  recentStores : List (Option StoredWord)
  /-- `after_mtc0` (R262): the preceding instruction was MTC0; it holds the values from before that write, which the
  uses of this step may still see (R255, D23). -/
  afterMtc0 : Option Cp0View
  /-- The preceding instruction was a load or store (R262). -/
  prevMem : Bool
  /-- SR, CP0 register 12 (R40). -/
  sr : Status
  /-- Cause, CP0 register 13 (R51). -/
  cause : Cause
  /-- EPC, CP0 register 14 (R57). -/
  epc : Word
  /-- BadVAddr, CP0 register 8 (R59). -/
  badVAddr : Word
  /-- Context.PTEBase, CP0 register 4 bits 31:21 (R60); a read of VPN is any value and is not stored. -/
  pteBase : BitVec 11
  /-- The write buffer, oldest entry first (R61). -/
  writeBuffer : List WriteEntry
  /-- The instruction cache (R63). -/
  icache : ICache
  /-- The data cache (R64). -/
  dcache : DCache
  /-- Physical memory (R77). -/
  mem : Memory
  /-- What answers at which physical address (R77): the first region that holds the address counts, an address in none
  is ordinary memory. The platform fixes it; no step changes it. -/
  platform : List Region
  /-- A bus cycle that never completes, if one is on the bus (R77). -/
  bus : BusState
  /-- The core asked for a read of the bus while another master held it: the read goes before buffered writes once the hold
  has ended (R104, R329, R430(b)). The model's own cell, log entry 38. -/
  readWaiting : Bool
  /-- The mode pins as latched at reset (R66). -/
  mode : ModePins
  /-- The pins as last sampled (R18(d)). -/
  inputs : Inputs
  /-- What the environment does in the coming steps; after the last entry a hold is released, the other pins keep their
  levels, and every step is one of the core (R430). -/
  schedule : List EnvStep
  /-- The bus cycles done so far, latest first: what a platform observes (R340). -/
  trace : List BusCycle
  /-- How many free values have been used (the model's own field, log entry 1). -/
  freeIndex : Nat
  deriving DecidableEq, Repr

/-! ### Stops -/

/-- The machine stops. -/
inductive Fault where
  /-- Raised where the core waits for a bus cycle that nothing answers and nothing is left in the schedule that could
  reset the chip: the access is stuck (R77). Safe: the chip waits for ever. -/
  | noAnswer
  deriving DecidableEq, Repr

/-- The model claims nothing about the step. Each is safe: the model stops where the hardware goes on in a way that
the manual calls undefined or does not describe. -/
inductive Refusal where
  /-- Raised by `exec` alone, for an instruction that has no meaning yet. Safe. -/
  | notModelled (mnemonic : String)
  /-- Raised by the step: the forbidden combination SBUSSIZ = 1 with IBLOCK, DBLOCK or DBUSSIZ = 1 (U17, R336). Safe. -/
  | forbiddenModePins
  /-- Raised by the step: a cached instruction fetch while SR.SwC = 1 (U13, R101). Safe. -/
  | swappedFetch
  /-- Raised by the step: a word with no row for which R139 prescribes a refusal: a blank BCOND cell or a non-zero
  constant field (U27, R132, R135). Safe. -/
  | unlistedWord
  /-- Raised by the step: an unlisted COP0 word with CP0 usable (U24, R251). Safe. -/
  | unlistedCop0
  /-- Raised by every jump and branch that stands in a delay slot (U5, R216). Safe. -/
  | jumpInDelaySlot
  /-- Raised by JALR with rs = rd (U6, R219). Safe. -/
  | jalrSameRegister
  /-- Raised by MULT, MULTU, DIV, DIVU, MTHI and MTLO within two instructions of MFHI or MFLO (U8, R209). Safe. -/
  | hiLoWriteTooSoon
  /-- Raised by a load or store right after MTC0 (U11, R255, R417). Safe. -/
  | memoryAfterMtc0
  /-- Raised by RFE right after a load or store (U12, R257, R420). Safe. -/
  | rfeAfterMemory
  /-- Raised by MTC0 and MFC0 naming a register that the chip does not have or that the manual never mentions
  (U3, U25, R260). Safe. -/
  | absentCp0Register (rd : Reg)
  /-- Raised by words of coprocessor z = 1 to 3 while SR.Cu[z] = 1 (U1, R249, R250). Safe. -/
  | absentCoprocessor (z : BitVec 2)
  /-- Raised by LWC0 and SWC0 with CP0 usable (R250, D19). Safe. -/
  | cop0LoadStore
  /-- Raised by TLBR, TLBWI, TLBWR and TLBP with CP0 usable (U2, R259). Safe. -/
  | removedTlbInstruction
  deriving DecidableEq, Repr

/-! ### Reset -/

/-- The machine right after reset (R69, R400 to R404), its memory with nothing listed. SR.SwC, KUc, IEc and BEV, the
pc, the caches, the write buffer and the hazard cells are the spec's; a register that the spec leaves undefined holds
zero (log entry 3), the mode pins are all at level 0 (log entry 5), the pins inactive (log entry 6), every address is
ordinary memory (log entry 33). -/
def State.reset : State where
  regs := Vector.replicate 32 0
  hi := 0
  lo := 0
  pc := 0xBFC00000
  npc := 0xBFC00004
  inDelaySlot := false
  ldSlot := none
  sinceMfhi := 2
  sinceMflo := 2
  mdFresh := false
  sinceStore := 2
  recentStores := []
  afterMtc0 := none
  prevMem := false
  sr :=
    { cu := 0, re := false, bev := true, cm := false, swc := false, isc := false, intMask := 0, kuo := false,
      ieo := false, kup := false, iep := false, kuc := false, iec := false }
  cause := { bd := false, ce := 0, sw := 0, excCode := 0 }
  epc := 0
  badVAddr := 0
  pteBase := 0
  writeBuffer := []
  icache := []
  dcache := []
  mem := []
  platform := []
  bus := .free
  readWaiting := false
  mode :=
    { bigend := false, istream := false, stpart := false, iblock := false, dblock := false, dbussiz := false,
      sbussiz := false }
  inputs :=
    { int := 0, icclr := false, dcclr := false, hold := false, fetchSizrq := false, dataSizrq := false, biuWrites := 1,
      abortedFetches := [] }
  schedule := []
  trace := []
  freeIndex := 0

end Sys2Proof.Machine
end

