-- ==== Sys2Proof/Machine/Ops.lean ====
section
/-! DEFINITION. The named operations over the state: sparse tables and memory, free values, general registers with
the load delay, CP0 registers with the latency of MTC0, taking an exception and returning from one, the completion of
an instruction. -/

namespace Sys2Proof.Machine

/-! ### Sparse tables: lists of (key, value) with strictly rising keys -/

/-- The value listed under a key. -/
def tableGet {α : Type} (k : Nat) : List (Nat × α) → Option α
  | [] => none
  | (j, x) :: t => if k = j then some x else tableGet k t

/-- The table with the key listed with this value, or not listed. -/
def tableSet {α : Type} (k : Nat) (v : Option α) : List (Nat × α) → List (Nat × α)
  | [] =>
    match v with
    | none => []
    | some x => [(k, x)]
  | (j, y) :: t =>
    if k < j then
      match v with
      | none => (j, y) :: t
      | some x => (k, x) :: (j, y) :: t
    else if k = j then
      match v with
      | none => t
      | some x => (k, x) :: t
    else (j, y) :: tableSet k v t

/-- The keys of a table rise strictly. -/
abbrev tableRising {α : Type} (t : List (Nat × α)) : Prop := t.Pairwise (fun x y => x.1 < y.1)

/-! ### Memory (R77, R82) -/

/-- What an address that is not listed reads as (log entry 4). -/
def unlistedByte : Byte := 0

/-- The byte of physical memory at an address. -/
def Memory.read (m : Memory) (a : Nat) : Byte := (tableGet a m).getD unlistedByte

/-- Memory with one byte written, in canonical form. -/
def Memory.write (m : Memory) (a : Nat) (b : Byte) : Memory :=
  tableSet a (if b = unlistedByte then none else some b) m

/-- The canonical form: addresses strictly rising and inside the 32-bit physical space, no unlisted byte listed. -/
abbrev Memory.wf (m : Memory) : Prop :=
  tableRising m ∧ ∀ c ∈ m, c.1 < 2 ^ 32 ∧ c.2 ≠ unlistedByte

/-- The aligned word address of an address: `A[31:2] || 0b00` (R92). -/
def wordAddr (a : Word) : Word := a.extractLsb' 2 30 ++ 0#2

/-- The lane (0 is D[7:0]) that carries the byte at offset `k` of its word (R82); its own inverse. -/
def laneOf (bigEndianMem : Bool) (k : Nat) : Nat := if bigEndianMem then 3 - k else k

/-- Lane `i` of a word image. -/
def laneByte (w : Word) (i : Nat) : Byte := w.extractLsb' (8 * i) 8

/-- The word image `W(A)` of the aligned word at `A` (R82). -/
def wordImage (bigEndianMem : Bool) (m : Memory) (a : Word) : Word :=
  let b := fun i => m.read (a.toNat + laneOf bigEndianMem i)
  b 3 ++ b 2 ++ b 1 ++ b 0

/-- Memory with the byte at offset `k` of the word at `a` written, if its lane is in the mask (R93). -/
def writeLane (bigEndianMem : Bool) (a : Word) (mask : BitVec 4) (w : Word) (k : Nat) (m : Memory) : Memory :=
  let i := laneOf bigEndianMem k
  if mask.getLsbD i then m.write (a.toNat + k) (laneByte w i) else m

/-- Memory with the lanes in the mask written into the word at `a` (R93). -/
def writeLanes (bigEndianMem : Bool) (m : Memory) (a : Word) (mask : BitVec 4) (w : Word) : Memory :=
  writeLane bigEndianMem a mask w 3 (writeLane bigEndianMem a mask w 2
    (writeLane bigEndianMem a mask w 1 (writeLane bigEndianMem a mask w 0 m)))

/-- Lane `i` from `w` where mask bit `i` is set, from `old` elsewhere (R96). -/
def mergeLanes (old : Word) (mask : BitVec 4) (w : Word) : Word :=
  let b := fun i => if mask.getLsbD i then laneByte w i else laneByte old i
  b 3 ++ b 2 ++ b 1 ++ b 0

/-! ### What answers at an address (R77) -/

/-- The region holds the word of an address. -/
def Region.holds (r : Region) (a : Word) : Bool :=
  decide (r.first.toNat ≤ (wordAddr a).toNat ∧ (wordAddr a).toNat ≤ r.last.toNat)

/-- What a platform has at the word of a physical address. -/
def answerAt : List Region → Word → Answer
  | [], _ => .memory
  | r :: rest, a => if r.holds a then r.answer else answerAt rest a

/-- What answers at the word of a physical address. -/
def State.answer (s : State) (a : Word) : Answer := answerAt s.platform a

/-- Memory, ordinary or read-only, stands behind the word of a physical address: a read returns what it holds. -/
def State.backed (s : State) (a : Word) : Bool := s.answer a == .memory || s.answer a == .readOnly

/-! ### Mode pins and byte order (R79) -/

/-- The byte order of the memory system: the BIGEND pin at level 0 is big-endian (R10, R79). -/
def ModePins.bigEndianMem (p : ModePins) : Bool := !p.bigend

/-- The mode pins are an allowed combination (R10, R336). -/
def ModePins.legal (p : ModePins) : Bool := !(p.sbussiz && (p.iblock || p.dblock || p.dbussiz))

/-- The byte order an instruction sees: reversed while SR.RE and SR.KUc are both 1 (R79). -/
def State.bigEndianCPU (s : State) : Bool := s.mode.bigEndianMem ^^ (s.sr.re && s.sr.kuc)

/-! ### Free values (log entry 1) -/

/-- A free word: any value. -/
def State.freshWord (s : State) : Word × State :=
  (Config.freeWord s.freeIndex, { s with freeIndex := s.freeIndex + 1 })

/-- A free choice. -/
def State.freshBit (s : State) : Bool × State := (s.freshWord.1.getLsbD 0, s.freshWord.2)

/-! ### General registers (R20 to R22) and the load delay (R30, R163, R411) -/

/-- What a general register holds; r0 is zero (R21). -/
def State.readGpr (s : State) (r : Reg) : Word := if r = 0 then 0 else s.regs[r.toNat]

/-- A general register written; a write to r0 is discarded (R21). If the preceding instruction loaded the register, this write
is the later one and wins (R410, R411). DEDUCED where R163 says any value: log entry 12. -/
def State.setGpr (s : State) (r : Reg) (v : Word) : State :=
  if r = 0 then s else { s with regs := s.regs.set r.toNat v }

/-- A source operand: a register that the preceding instruction loaded reads any value (R30, R163, U4). -/
def State.readSrc (s : State) (r : Reg) : Word × State :=
  if s.ldSlot = some r then s.freshWord else (s.readGpr r, s)

/-! ### CP0 registers (R36 to R60) -/

/-- A Boolean as one bit. -/
def bit (b : Bool) : BitVec 1 := BitVec.ofBool b

/-- SR as a word (R40), its CM bit given: RFU bits read 0. -/
def Status.toWord (sr : Status) (cm : Bool) : Word :=
  sr.cu ++ 0#2 ++ bit sr.re ++ 0#2 ++ bit sr.bev ++ 0#2 ++ bit cm ++ 0#1 ++ bit sr.swc ++ bit sr.isc ++ sr.intMask ++
    0#2 ++ bit sr.kuo ++ bit sr.ieo ++ bit sr.kup ++ bit sr.iep ++ bit sr.kuc ++ bit sr.iec

/-- SR after a word is written to it (R50): every read/write field from its bit; RFU bits and CM ignore the write. -/
def Status.written (sr : Status) (w : Word) : Status :=
  { cu := w.extractLsb' 28 4, re := w.getLsbD 25, bev := w.getLsbD 22, cm := sr.cm, swc := w.getLsbD 17,
    isc := w.getLsbD 16, intMask := w.extractLsb' 8 8, kuo := w.getLsbD 5, ieo := w.getLsbD 4, kup := w.getLsbD 3,
    iep := w.getLsbD 2, kuc := w.getLsbD 1, iec := w.getLsbD 0 }

/-- Cause as a word (R51), with the INT pins as IP and the SW bits given. -/
def Cause.toWord (c : Cause) (ip : BitVec 6) (sw : BitVec 2) : Word :=
  bit c.bd ++ 0#1 ++ c.ce ++ 0#12 ++ ip ++ sw ++ 0#2 ++ c.excCode ++ 0#2

/-- Context as a word (R60), with the VPN field given. -/
def contextWord (pteBase : BitVec 11) (vpn : BitVec 19) : Word := pteBase ++ vpn ++ 0#2

/-- The CP0 fields that MTC0 can write, as they stand. -/
def State.cp0View (s : State) : Cp0View := { sr := s.sr, sw := s.cause.sw, pteBase := s.pteBase }

/-- A use of CP0 in a step: in the step right after an MTC0 each use of a written field sees the old or the new value,
a free choice of its own (R255, D23); otherwise the value as it stands. -/
def State.useCp0 {α : Type} [DecidableEq α] (s : State) (f : Cp0View → α) : α × State :=
  match s.afterMtc0 with
  | none => (f s.cp0View, s)
  | some old =>
    if f old = f s.cp0View then (f s.cp0View, s)
    else (if s.freshBit.1 then f old else f s.cp0View, s.freshBit.2)

/-- CP0 is unusable: user mode with Cu0 = 0 (R258). -/
def State.cp0Unusable (s : State) : Bool × State := s.useCp0 (fun v => v.sr.kuc && !v.sr.cu.getLsbD 0)

/-- What MFC0 reads from CP0 register `rd`, and the state with the free values used (R260); `none` for a register that
the chip does not have. -/
def State.readCp0 (s : State) (rd : Reg) : Option (Word × State) :=
  let view := s.useCp0 id
  let s1 := view.2
  match rd.toNat with
  | 4 => some (contextWord view.1.pteBase (s1.freshWord.1.extractLsb' 0 19), s1.freshWord.2)
  | 8 => some (s.badVAddr, s)
  | 12 =>
    if view.1.sr.isc then some (view.1.sr.toWord view.1.sr.cm, s1)
    else some (view.1.sr.toWord s1.freshBit.1, s1.freshBit.2)
  | 13 => some (s.cause.toWord s.inputs.int view.1.sw, s1)
  | 14 => some (s.epc, s)
  | 15 => some (Config.pridValue, s)
  | _ => none

/-- CP0 register `rd` written by MTC0 (R260): Context.PTEBase, the fields of SR, Cause.SW; EPC, PRId and BadVAddr
ignore the write (D9); `none` for a register that the chip does not have. CM, any value while IsC = 0, is still any
value when IsC becomes 1 and no isolated load has set it (R45, R100). -/
def State.writeCp0 (s : State) (rd : Reg) (v : Word) : Option State :=
  match rd.toNat with
  | 4 => some { s with pteBase := v.extractLsb' 21 11 }
  | 8 => some s
  | 12 =>
    if (s.sr.written v).isc && !s.sr.isc then
      some { s.freshBit.2 with sr := { s.sr.written v with cm := s.freshBit.1 } }
    else some { s with sr := s.sr.written v }
  | 13 => some { s with cause := { s.cause with sw := v.extractLsb' 8 2 } }
  | 14 => some s
  | 15 => some s
  | _ => none

/-! ### Exceptions (R350, R370 to R374) -/

/-- The exceptions other than reset, with what each records (R350). -/
inductive Exc where
  | interrupt
  | adel (badVAddr : Word)
  | ades (badVAddr : Word)
  | sys
  | bp
  | ri
  | cpu (unit : BitVec 2)
  | ov
  deriving DecidableEq, Repr

/-- ExcCode (R350). -/
def Exc.code : Exc → BitVec 4
  | .interrupt => 0
  | .adel _ => 4
  | .ades _ => 5
  | .sys => 8
  | .bp => 9
  | .ri => 10
  | .cpu _ => 11
  | .ov => 12

/-- What Cause.CE receives: the unit on CpU, any value otherwise (R374, U21). -/
def State.entryCe (s : State) : Exc → BitVec 2 × State
  | .cpu unit => (unit, s)
  | _ => (s.freshWord.1.extractLsb' 0 2, s.freshWord.2)

/-- What BadVAddr holds after the entry: the bad address on AdEL and AdES, else what it held (R355). -/
def Exc.badVAddrAfter (old : Word) : Exc → Word
  | .adel bad => bad
  | .ades bad => bad
  | _ => old

/-- The SR push: p to o, c to p, kernel mode with interrupts disabled (R373). The pushed levels are the ones this step
sees (kup, iep, kuc, iec). -/
def Status.push (sr : Status) (seen : Bool × Bool × Bool × Bool) : Status :=
  { sr with
    kuo := seen.1, ieo := seen.2.1, kup := seen.2.2.1, iep := seen.2.2.2, kuc := false, iec := false }

/-- The SR pop of RFE: p to c, o to p, o stays (R257). The popped levels are the ones this step sees
(kuo, ieo, kup, iep). -/
def Status.pop (sr : Status) (seen : Bool × Bool × Bool × Bool) : Status :=
  { sr with kup := seen.1, iep := seen.2.1, kuc := seen.2.2.1, iec := seen.2.2.2 }

/-- The general exception vector (R372). -/
def exceptionVector (bev : Bool) : Word := if bev then 0xBFC00180 else 0x80000080

/-- Taking an exception, what it does to the registers (R370): EPC and BD from the delay-slot cell, Cause, BadVAddr, the SR
push, the vector; the per-step hazard cells are cleared and the saturating counters keep their values (R422). The handler's
instructions are fetched after every earlier store (R110(e)). A read that the instruction still waited for is not done. -/
def State.enter (s : State) (x : Exc) : State :=
  let seen := s.useCp0 (fun v => (v.sr.kup, v.sr.iep, v.sr.kuc, v.sr.iec))
  let bev := seen.2.useCp0 (fun v => v.sr.bev)
  let ce := bev.2.entryCe x
  { ce.2 with
    epc := if s.inDelaySlot then s.pc - 4 else s.pc
    cause := { bd := s.inDelaySlot, ce := ce.1, sw := s.cause.sw, excCode := x.code }
    badVAddr := x.badVAddrAfter s.badVAddr
    sr := s.sr.push seen.1
    pc := exceptionVector bev.1
    npc := exceptionVector bev.1 + 4
    inDelaySlot := false
    ldSlot := none
    recentStores := []
    afterMtc0 := none
    prevMem := false
    readWaiting := false }

/-- Returning from an exception, the SR side of it (R257, R380): RFE pops the KU/IE stack. -/
def State.popModes (s : State) : State :=
  let seen := s.useCp0 (fun v => (v.sr.kuo, v.sr.ieo, v.sr.kup, v.sr.iep))
  { seen.2 with sr := s.sr.pop seen.1 }

/-! ### Reset (R400 to R404) -/

/-- SR after reset: SwC, KUc and IEc are 0, BEV is 1, the other fields are left undefined (R402). -/
def Status.afterReset (garbage : Status) : Status :=
  { garbage with swc := false, kuc := false, iec := false, bev := true }

/-- The state after a RESET pulse (R69, R400): that of `State.reset` with the pulse's mode pins and undefined register
contents; main memory is not touched, what the write buffer held is lost (R403), a hold is ended (R330, R405), and so is
a bus cycle that nothing answers. -/
def State.resetBy (s : State) (r : ResetPulse) : State :=
  { State.reset with
    regs := r.garbage.regs.set 0 0
    hi := r.garbage.hi
    lo := r.garbage.lo
    sr := r.garbage.sr.afterReset
    cause := r.garbage.cause
    epc := r.garbage.epc
    badVAddr := r.garbage.badVAddr
    pteBase := r.garbage.pteBase
    mem := s.mem
    platform := s.platform
    mode := r.mode
    inputs := { s.inputs with hold := false }
    schedule := s.schedule
    trace := s.trace
    freeIndex := s.freeIndex }

/-! ### Completion of an instruction (R27, R29, R30, R212, R247, R262) -/

/-- What an instruction that completes leaves behind for the sequencing and the hazard cells. -/
structure Retire where
  /-- `pc <- t` (R15): the address after the delay slot. -/
  target : Option Word := none
  /-- A jump or branch, taken or not (R29). -/
  branch : Bool := false
  /-- The register a load or MFC0 loaded (R30). -/
  load : Option Reg := none
  /-- MFHI (R212). -/
  mfhi : Bool := false
  /-- MFLO (R212). -/
  mflo : Bool := false
  /-- A store (R247). -/
  store : Bool := false
  /-- The word of memory that a store stored to (R110(e)). -/
  overwrote : Option StoredWord := none
  /-- A load or store (R262). -/
  memory : Bool := false
  /-- MTC0, with the CP0 fields from before its write (R255, R262). -/
  mtc0 : Option Cp0View := none

/-- A counter of completed instructions, saturating at 2 (R33). -/
def saturate (n : Fin 3) : Fin 3 := if n = 0 then 1 else 2

/-- The counter after an instruction that resets it or not. -/
def countFrom (resets : Bool) (n : Fin 3) : Fin 3 := if resets then 0 else saturate n

/-- The state after the instruction at `pc` has completed (R27), every read that it waited for done. -/
def State.retire (s : State) (r : Retire) : State :=
  { s with
    pc := s.npc
    npc := r.target.getD (s.npc + 4)
    inDelaySlot := r.branch
    ldSlot := r.load.filter (· ≠ 0)
    sinceMfhi := countFrom r.mfhi s.sinceMfhi
    sinceMflo := countFrom r.mflo s.sinceMflo
    sinceStore := countFrom r.store s.sinceStore
    recentStores := (r.overwrote :: s.recentStores).take 4
    afterMtc0 := r.mtc0
    prevMem := r.memory
    readWaiting := false }

/-! ### Outcomes of the parts of a step -/

/-- What a part of a step answers. -/
inductive Act (α : Type) where
  /-- It is done, with a result. -/
  | done (a : α) (s : State)
  /-- An exception is raised; the state holds what the part did before (free values used). -/
  | raise (x : Exc) (s : State)
  /-- It needs the bus while another master holds it (R329): for a read, or else for a write. -/
  | stall (read : Bool)
  /-- It waits for a bus cycle that never completes (R77); the state holds what the bus did before. -/
  | stuck (s : State)
  /-- The model claims nothing. -/
  | refuse (r : Refusal)

/-- One part after another. -/
def Act.bind {α β : Type} (a : Act α) (f : α → State → Act β) : Act β :=
  match a with
  | .done x s => f x s
  | .raise x s => .raise x s
  | .stall read => .stall read
  | .stuck s => .stuck s
  | .refuse r => .refuse r

/-- The core waits for a held bus, with nothing done: the next step asks again, and a read then goes before buffered writes
(R104, R329). -/
def State.stalled (s : State) (read : Bool) : State := { s with readWaiting := read }

/-- A step in which the core waits for a bus cycle that never completes (R77): only RESET ends the wait, and with nothing
left in the schedule it lasts for ever. -/
def State.waits (s : State) : Host.Outcome State Fault Refusal :=
  if s.schedule.isEmpty then .fault .noAnswer else .next s

end Sys2Proof.Machine
end

