-- ==== Sys2Proof/Machine/Bus.lean ====
section
/-! DEFINITION. The bus interface unit: the bus cycles of a write-buffer entry and of a read (50_bus_interface.md), the
drain of the write buffer, and `BusRead` with its same-address rule (20_memory.md R103 to R105). -/

namespace Sys2Proof.Machine

/-! ### Write cycles (R313, R320, R335, R338) -/

/-- How many of the four lanes a mask selects. -/
def laneCount (mask : BitVec 4) : Nat :=
  (mask.getLsbD 0).toNat + (mask.getLsbD 1).toNat + (mask.getLsbD 2).toNat + (mask.getLsbD 3).toNat

/-- The access type of a write: ACTY[1:0] = number of bytes less one (R304, R320). -/
def accessType (mask : BitVec 4) : BitVec 2 := BitVec.ofNat 2 (laneCount mask - 1)

/-- The lowest byte offset that a mask selects: the low address bits the bus shows (R320). -/
def lowestOffset (bigEndianMem : Bool) (mask : BitVec 4) : BitVec 2 :=
  if mask.getLsbD (laneOf bigEndianMem 0) then 0
  else if mask.getLsbD (laneOf bigEndianMem 1) then 1
  else if mask.getLsbD (laneOf bigEndianMem 2) then 2
  else 3

/-- The valid lanes of a write on the 32-bit bus, with their bytes (R320). -/
def lanes32 (e : WriteEntry) : List (Nat × Byte) :=
  ([0, 1, 2, 3].filter (e.mask.getLsbD ·)).map (fun i => (i, laneByte e.data i))

/-- The valid lanes of a write cycle on the 16-bit bus, for the half of the word at offset `h` (0 or 2): the even
offset is on D[15:8] in big-endian memory and on D[7:0] in little-endian memory (R338). -/
def lanes16 (bigEndianMem : Bool) (e : WriteEntry) (h : Nat) : List (Nat × Byte) :=
  ([h, h + 1].filter (fun k => e.mask.getLsbD (laneOf bigEndianMem k))).map
    (fun k => (if bigEndianMem then h + 1 - k else k - h, laneByte e.data (laneOf bigEndianMem k)))

/-- The access type of the second cycle of a two-cycle write on the 16-bit bus (R335). -/
def secondAccessType (e : WriteEntry) : BitVec 2 :=
  if laneCount e.mask = 4 then 1 else if e.addr.getLsbD 0 then 2 else 0

/-- The bus cycles of a write-buffer entry, in the order in which they are done: one on the 32-bit bus; on the 16-bit
bus a second one where the entry starts in the lower half and reaches into the upper (R335). -/
def writeCycles (p : ModePins) (e : WriteEntry) : List BusCycle :=
  if p.sbussiz then
    let big := p.bigEndianMem
    let first := BusCycle.write e.addr (accessType e.mask) (lanes16 big e (if e.addr.getLsbD 1 then 2 else 0))
    if !e.addr.getLsbD 1 && !(lanes16 big e 2).isEmpty then
      [first, .write (e.addr.extractLsb' 2 30 ++ 2#2) (secondAccessType e) (lanes16 big e 2)]
    else [first]
  else [.write e.addr (accessType e.mask) (lanes32 e)]

/-- The lanes of the two bytes at offsets 2 and 3. -/
def upperHalfMask (bigEndianMem : Bool) : BitVec 4 := if bigEndianMem then 0b0011 else 0b1100

/-- The lanes that the write cycles of an entry carry to memory: all of its mask, but on the 16-bit bus an entry that
starts in the upper half writes that half only (R335, a merged partial store). -/
def busMask (p : ModePins) (e : WriteEntry) : BitVec 4 :=
  if p.sbussiz && e.addr.getLsbD 1 then e.mask &&& upperHalfMask p.bigEndianMem else e.mask

/-- Memory after the write cycles of an entry: ordinary memory takes its lanes, nothing else changes (R77). -/
def landed (p : ModePins) (platform : List Region) (e : WriteEntry) (m : Memory) : Memory :=
  if answerAt platform e.addr = .memory then writeLanes p.bigEndianMem m (wordAddr e.addr) (busMask p e) e.data else m

/-- Memory after these write-buffer entries, oldest first: ordinary memory takes their lanes (R77, R103). -/
def performed (p : ModePins) (platform : List Region) (entries : List WriteEntry) (m : Memory) : Memory :=
  entries.foldl (fun m e => landed p platform e m) m

/-- Memory once every buffered write has been performed (R103). -/
def State.settled (s : State) : Memory := performed s.mode s.platform s.writeBuffer s.mem

/-- The BIU performs the write at the head of the buffer and removes it (R103). Where nothing answers, the cycle starts
and never completes; the entry stays, and from then on the BIU performs nothing (R77). -/
def State.biuWrite (s : State) : State :=
  match s.writeBuffer with
  | [] => s
  | e :: rest =>
    if s.bus = .free then
      if s.answer e.addr = .absent then
        { s with bus := .writeStuck, trace := (writeCycles s.mode e).take 1 ++ s.trace }
      else
        { s with
          writeBuffer := rest
          mem := landed s.mode s.platform e s.mem
          trace := (writeCycles s.mode e).reverse ++ s.trace }
    else s

/-- The BIU performs `n` writes. -/
def State.biuWriteN : Nat → State → State
  | 0, s => s
  | n + 1, s => State.biuWriteN n s.biuWrite

/-- The BIU performs writes, oldest first, while an entry of the given kind is buffered, at most `n` of them (R105). -/
def State.forceOut (p : WriteEntry → Bool) : Nat → State → State
  | 0, s => s
  | n + 1, s => if s.writeBuffer.any p then State.forceOut p n s.biuWrite else s

/-- CpCond0: the write buffer is empty (R65, R247). -/
def State.cpCond0 (s : State) : Bool := s.writeBuffer.isEmpty

/-! ### Read cycles (R312, R314, R331 to R334) -/

/-- The low address bits of the cycles of one single read (R312, R332 to R334): one, four or two cycles; `sized` is SIZRQ
for this access (R331). -/
def readOffsets (p : ModePins) (sized : Bool) : List (BitVec 2) :=
  if sized && !p.dbussiz then [0, 1, 2, 3]
  else if sized || p.sbussiz then [0, 2]
  else [0]

/-- The bus cycles of one single read of the word at `a`, in order. -/
def readCycles (p : ModePins) (sized : Bool) (a : Word) (type : ReadType) : List BusCycle :=
  (readOffsets p sized).map (fun k => .read (a.extractLsb' 2 30 ++ k) type)

/-- The aligned 16-byte block of an address: `A[31:4] || 0b0000` (R95). -/
def blockAddr (a : Word) : Word := a.extractLsb' 4 28 ++ 0#4

/-- The core waits for a cycle that never completes, the given cycles being started last. -/
def State.halt (s : State) (cycles : List BusCycle) : State := { s with bus := .coreStuck, trace := cycles ++ s.trace }

/-- What a read cycle at the word of an address finds: what memory holds there (R82), any value where there is none. -/
def State.readWord (s : State) (a : Word) : Word × State :=
  if s.backed a then (wordImage s.mode.bigEndianMem s.mem (wordAddr a), s) else s.freshWord

/-- `BusRead(A)`, one word (R105): entries for the same word go out first; then the word image of memory. Behind a write
that nothing answers, or where nothing answers, the core waits for ever (R77). -/
def State.busRead (s : State) (sized : Bool) (a : Word) (type : ReadType) : Act Word :=
  if s.inputs.hold then .stall true
  else
    let t := s.forceOut (fun e => wordAddr e.addr == wordAddr a) s.writeBuffer.length
    let cycles := readCycles t.mode sized a type
    if t.bus ≠ .free then .stuck (t.halt [])
    else if t.answer a = .absent then .stuck (t.halt (cycles.take 1))
    else .done (t.readWord a).1 { (t.readWord a).2 with trace := cycles.reverse ++ t.trace }

/-- The address of word `k` of the block of an address. -/
def blockWord (a : Word) (k : Nat) : Word := blockAddr a + BitVec.ofNat 32 (4 * k)

/-- The words of a block read, in ascending order. -/
def State.readBlock (s : State) (a : Word) : Vector Word 4 × State :=
  let r0 := s.readWord (blockWord a 0)
  let r1 := r0.2.readWord (blockWord a 1)
  let r2 := r1.2.readWord (blockWord a 2)
  let r3 := r2.2.readWord (blockWord a 3)
  (#v[r0.1, r1.1, r2.1, r3.1], r3.2)

/-- A block read (R105, R314): entries for any word of the block go out first; then the block is read from memory. RDY
is sampled for the first word only, so the cycle never completes where nothing answers there. -/
def State.busReadBlock (s : State) (a : Word) (type : ReadType) : Act (Vector Word 4) :=
  if s.inputs.hold then .stall true
  else
    let t := s.forceOut (fun e => blockAddr e.addr == blockAddr a) s.writeBuffer.length
    let cycle := BusCycle.blockRead (blockAddr a) type
    if t.bus ≠ .free then .stuck (t.halt [])
    else if t.answer (blockAddr a) = .absent then .stuck (t.halt [cycle])
    else .done (t.readBlock a).1 { (t.readBlock a).2 with trace := cycle :: t.trace }

/-- `WriteBufferAppend` (R103): the entry goes to the tail; a full buffer waits until the BIU has removed one, which it
cannot do while another master holds the bus (R329) or behind a write that nothing answers (R77). -/
def State.appendWrite (s : State) (e : WriteEntry) : Act Unit :=
  if s.writeBuffer.length < 4 then .done () { s with writeBuffer := s.writeBuffer ++ [e] }
  else if s.inputs.hold then .stall false
  else if s.biuWrite.bus ≠ .free then .stuck (s.biuWrite.halt [])
  else .done () { s.biuWrite with writeBuffer := s.biuWrite.writeBuffer ++ [e] }

end Sys2Proof.Machine
end

