-- ==== Sys2Proof/Machine/Cache.lean ====
section
/-! DEFINITION. The two caches (20_memory.md R95 to R101): look-up, refill, the data cache's part of a store, clearing,
isolated and swapped caches. -/

namespace Sys2Proof.Machine

/-- One of the two cache arrays. -/
inductive CacheSide where
  | instr
  | data
  deriving DecidableEq, Repr

/-- The array that cached data accesses use: the instruction cache while SR.SwC = 1 (R101). -/
def State.dataSide (s : State) : CacheSide := if s.sr.swc then .instr else .data

/-- Index in the instruction cache: A[11:2] (R63). -/
def icacheIndex (a : Word) : Nat := (a.extractLsb' 2 10).toNat
/-- Tag in the instruction cache: A[31:12] (R63). -/
def icacheTag (a : Word) : BitVec 20 := a.extractLsb' 12 20
/-- Index in the data cache: A[9:2] (R64). -/
def dcacheIndex (a : Word) : Nat := (a.extractLsb' 2 8).toNat
/-- Tag in the data cache: A[31:10] (R64). -/
def dcacheTag (a : Word) : BitVec 22 := a.extractLsb' 10 22

/-- The clear pin of an array is active: its valid bits are held at 0 (R98). -/
def State.clearing (s : State) : CacheSide → Bool
  | .instr => s.inputs.icclr
  | .data => s.inputs.dcclr

/-! ### Look-up -/

/-- What a tag comparison finds. -/
inductive Look where
  | hit (data : Word)
  | miss
  /-- An entry in the unknown state: hit or miss, any data (R100). -/
  | unknown

/-- The comparison of an entry with a tag; an entry that is not listed is invalid. -/
def lookEntry {t : Nat} (e : Option (CacheEntry t)) (tag : BitVec t) : Look :=
  match e with
  | none => .miss
  | some .unknown => .unknown
  | some (.line valid tag' data) => if valid && tag' == tag then .hit data else .miss

/-- The look-up of an address in an array; while the clear pin is active every access misses (R98). -/
def State.look (s : State) (side : CacheSide) (a : Word) : Look :=
  if s.clearing side then .miss
  else
    match side with
    | .instr => lookEntry (tableGet (icacheIndex a) s.icache) (icacheTag a)
    | .data => lookEntry (tableGet (dcacheIndex a) s.dcache) (dcacheTag a)

/-! ### Changes of an entry -/

/-- The entry of an address set to a line with the address's tag. -/
def State.putLine (s : State) (side : CacheSide) (a : Word) (valid : Bool) (data : Word) : State :=
  match side with
  | .instr => { s with icache := tableSet (icacheIndex a) (some (.line valid (icacheTag a) data)) s.icache }
  | .data => { s with dcache := tableSet (dcacheIndex a) (some (.line valid (dcacheTag a) data)) s.dcache }

/-- The entry of an address set to the unknown state (R100), or, if cleared, to an invalid entry whose tag and data are
any values, that is, one not listed. -/
def State.putUnknown (s : State) (side : CacheSide) (a : Word) (cleared : Bool) : State :=
  match side with
  | .instr => { s with icache := tableSet (icacheIndex a) (if cleared then none else some .unknown) s.icache }
  | .data => { s with dcache := tableSet (dcacheIndex a) (if cleared then none else some .unknown) s.dcache }

/-- An entry with its valid bit cleared; an unknown entry stays unknown (R96, R100). -/
def invalidEntry {t : Nat} : Option (CacheEntry t) → Option (CacheEntry t)
  | some (.line _ tag data) => some (.line false tag data)
  | e => e

/-- The entry of an address with its valid bit cleared, whatever its tag (R96). -/
def State.invalidate (s : State) (side : CacheSide) (a : Word) : State :=
  match side with
  | .instr =>
    { s with icache := tableSet (icacheIndex a) (invalidEntry (tableGet (icacheIndex a) s.icache)) s.icache }
  | .data =>
    { s with dcache := tableSet (dcacheIndex a) (invalidEntry (tableGet (dcacheIndex a) s.dcache)) s.dcache }

/-- A cache with every valid bit cleared; tags and data words stay; an unknown entry becomes an invalid one whose tag
and data are any values, that is, one not listed (R98, R100). -/
def clearCache {t : Nat} (c : List (Nat × CacheEntry t)) : List (Nat × CacheEntry t) :=
  c.filterMap fun e =>
    match e.2 with
    | .line _ tag data => some (e.1, .line false tag data)
    | .unknown => none

/-- The clear pins as sampled act on the caches (R98). -/
def State.applyClearPins (s : State) : State :=
  { s with
    icache := if s.inputs.icclr then clearCache s.icache else s.icache
    dcache := if s.inputs.dcclr then clearCache s.dcache else s.dcache }

/-! ### Cached reads (R95) -/

/-- The access type that a refill of an array shows (R304). -/
def CacheSide.refillType : CacheSide → ReadType
  | .instr => .instrRefill
  | .data => .dataRefill

/-- The array is refilled by a 4-word block read (R10, R95). -/
def State.blockRefill (s : State) : CacheSide → Bool
  | .instr => s.mode.iblock
  | .data => s.mode.dblock

/-- A word read for a refill enters the array, unless the clear pin is active: then the refill is dropped (R98). -/
def State.fill (s : State) (side : CacheSide) (a data : Word) : State :=
  if s.clearing side then s else s.putLine side a true data

/-- The refill after a miss: one word, or the aligned block of four (R95); `sized` is SIZRQ for a read of one word. -/
def State.refill (s : State) (sized : Bool) (side : CacheSide) (a : Word) : Act Word :=
  if s.blockRefill side then
    (s.busReadBlock a side.refillType).bind fun block t =>
      .done (block[(a.extractLsb' 2 2).toNat]'(a.extractLsb' 2 2).isLt)
        ((((t.fill side (blockWord a 0) block[0]).fill side (blockWord a 1) block[1]).fill side (blockWord a 2)
          block[2]).fill side (blockWord a 3) block[3])
  else (s.busRead sized a side.refillType).bind fun w t => .done w (t.fill side a w)

/-- A cached read with what it does on a miss (R95): a hit answers the entry's word without a bus cycle; an unknown entry
hits or misses, a free choice, and on a hit answers any value and stays unknown (R100). -/
def State.cacheRead (s : State) (side : CacheSide) (a : Word) (miss : State → Act Word) : Act Word :=
  match s.look side a with
  | .hit data => .done data s
  | .miss => miss s
  | .unknown =>
    if s.freshBit.1 then .done s.freshBit.2.freshWord.1 s.freshBit.2.freshWord.2 else miss s.freshBit.2

/-- `CacheLoad` (R95): a miss refills. -/
def State.cacheLoad (s : State) (sized : Bool) (side : CacheSide) (a : Word) : Act Word :=
  s.cacheRead side a fun t => t.refill sized side a

/-! ### The data cache's part of a store (R96) -/

/-- `DCacheStore` (R96), on the array that data accesses use (R101): the mask and lanes that go to the write buffer. -/
def State.dcacheStore (s : State) (a : Word) (mask : BitVec 4) (w : Word) : (BitVec 4 × Word) × State :=
  let side := s.dataSide
  if mask = 0b1111 then ((mask, w), s.putLine side a (!s.clearing side) w)
  else if s.mode.stpart then
    match s.look side a with
    | .hit old => ((0b1111, mergeLanes old mask w), s.putLine side a true (mergeLanes old mask w))
    | .miss => ((mask, w), s)
    | .unknown =>
      if s.freshBit.1 then
        ((0b1111, mergeLanes s.freshBit.2.freshWord.1 mask w), s.freshBit.2.freshWord.2)
      else ((mask, w), s.freshBit.2)
  else ((mask, w), s.invalidate side a)

/-- The data cache's part of a store through kseg1: a valid entry of the same word is made invalid, so that the store is
seen through every alias (R97, R106(b), D21). DEDUCED, log entry 35: the operation of R93 has no step for it, and no word
enters the cache through kseg1 (R72). With the caches swapped, where R97 promises nothing, there is none. -/
def State.dropAlias (s : State) (a : Word) : State :=
  if s.sr.swc then s
  else
    match lookEntry (tableGet (dcacheIndex a) s.dcache) (dcacheTag a) with
    | .hit _ => s.invalidate .data a
    | .miss => s
    | .unknown => s

/-! ### Isolated caches (R100) -/

/-- What an isolated load finds in an entry: whether it counts as a miss and its data word; `none` is any value. -/
def isolatedEntry {t : Nat} (e : Option (CacheEntry t)) (tag : BitVec t) (cleared : Bool) : Option Bool × Option Word :=
  match e with
  | none => (some true, none)
  | some .unknown => (if cleared then some true else none, none)
  | some (.line valid tag' data) => (some (!(valid && !cleared && tag' == tag)), some data)

/-- `IsolatedLoad` (R100): no bus cycle and no tag comparison for the data; SR.CM records whether it missed. -/
def State.isolatedLoad (s : State) (a : Word) : Word × State :=
  let found :=
    match s.dataSide with
    | .instr => isolatedEntry (tableGet (icacheIndex a) s.icache) (icacheTag a) (s.clearing .instr)
    | .data => isolatedEntry (tableGet (dcacheIndex a) s.dcache) (dcacheTag a) (s.clearing .data)
  let cm := match found.1 with
    | some m => (m, s)
    | none => s.freshBit
  let data := match found.2 with
    | some d => (d, cm.2)
    | none => cm.2.freshWord
  (data.1, { data.2 with sr := { s.sr with cm := cm.1 } })

/-- `IsolatedStore` (R100): the entry becomes unknown; nothing reaches the write buffer or memory. While the clear pin
of the array is active its valid bit is kept cleared (R98), so that the entry is an invalid one whose tag and data are any
values. DEDUCED, log entry 32: no rule speaks of an isolated store during a clear. -/
def State.isolatedStore (s : State) (a : Word) : State := s.putUnknown s.dataSide a (s.clearing s.dataSide)

end Sys2Proof.Machine
end

