-- ==== Sys2Proof/Machine/Operands.lean ====
section
/-! DEFINITION. Every operand form: immediates (R124), jump and branch targets (R125, R227), effective addresses
(R150), shift amounts (R126), the lanes of byte, halfword and unaligned-word accesses (R90, R91, R156 to R162). -/

namespace Sys2Proof.Machine

/-- `sext_16` (R15). -/
def sext16 (imm : Half) : Word := imm.signExtend 32

/-- `zext_16` (R15). -/
def zext16 (imm : Half) : Word := 0#16 ++ imm

/-- LUI's operand: `immediate || 0^16` (R178). -/
def upperImmediate (imm : Half) : Word := imm ++ 0#16

/-- `sext_18(offset || 0b00)` (R124). -/
def branchOffset (offset : Half) : Word := (offset ++ 0#2 : BitVec 18).signExtend 32

/-- The branch target: relative to the delay-slot instruction (R227). -/
def branchTarget (pc : Word) (offset : Half) : Word := pc + 4 + branchOffset offset

/-- The target of J and JAL: in the 256 MB region of the delay-slot instruction (R125, D3). -/
def jumpTarget (pc : Word) (target : BitVec 26) : Word := (pc + 4).extractLsb' 28 4 ++ target ++ 0#2

/-- The link value (R228). -/
def linkAddr (pc : Word) : Word := pc + 8

/-- The effective address of a load or store (R150). -/
def effectiveAddr (base : Word) (offset : Half) : Word := base + sext16 offset

/-- The amount of a variable shift: the low five bits (R126). -/
def shiftAmount (v : Word) : Nat := (v.extractLsb' 0 5).toNat

/-! ### Lanes -/

/-- The width of an access that can be misaligned (R83, R90, R91). -/
inductive Size where
  | byte
  | half
  | word
  deriving DecidableEq, Repr

/-- The alignment an access needs (R83). -/
def aligned (n : Size) (va : Word) : Bool :=
  match n with
  | .byte => true
  | .half => !va.getLsbD 0
  | .word => va.extractLsb' 0 2 == 0

/-- ACTY[1:0] and `accessType`: bytes less one (R17, R86). -/
def Size.accessType : Size → BitVec 2
  | .byte => 0
  | .half => 1
  | .word => 3

/-- The lowest lane of a byte: `vaddr[1:0] xor BigEndian^2` (R90); also the `byte` of LWL, LWR, SWL, SWR. -/
def byteLane (bigEndianCPU : Bool) (va : Word) : Nat :=
  (va.extractLsb' 0 2 ^^^ (if bigEndianCPU then 0b11#2 else 0b00#2)).toNat

/-- The lowest lane of a halfword: `vaddr[1:0] xor (BigEndian || 0)` (R90). -/
def halfLane (bigEndianCPU : Bool) (va : Word) : Nat :=
  (va.extractLsb' 0 2 ^^^ (if bigEndianCPU then 0b10#2 else 0b00#2)).toNat

/-- The byte that a byte load selects from the word image (R90). -/
def selectByte (bigEndianCPU : Bool) (va w : Word) : Byte := w.extractLsb' (8 * byteLane bigEndianCPU va) 8

/-- The halfword that a halfword load selects from the word image (R90). -/
def selectHalf (bigEndianCPU : Bool) (va w : Word) : Half := w.extractLsb' (8 * halfLane bigEndianCPU va) 16

/-- The lanes and lane data of a store of size `n` (R91). -/
def storeLanesOf (n : Size) (bigEndianCPU : Bool) (va v : Word) : BitVec 4 × Word :=
  match n with
  | .byte => (0b0001#4 <<< byteLane bigEndianCPU va, (v &&& 0xFF#32) <<< (8 * byteLane bigEndianCPU va))
  | .half => (0b0011#4 <<< halfLane bigEndianCPU va, (v &&& 0xFFFF#32) <<< (8 * halfLane bigEndianCPU va))
  | .word => (0b1111#4, v)

/-- LWL: `w[7+8*byte : 0] || old[23-8*byte : 0]` (R156). -/
def lwlMerge (byte : Nat) (w old : Word) : Word :=
  match byte with
  | 0 => w.extractLsb' 0 8 ++ old.extractLsb' 0 24
  | 1 => w.extractLsb' 0 16 ++ old.extractLsb' 0 16
  | 2 => w.extractLsb' 0 24 ++ old.extractLsb' 0 8
  | _ => w

/-- LWR: `old[31 : 32-8*byte] || w[31 : 8*byte]` (R157). -/
def lwrMerge (byte : Nat) (w old : Word) : Word :=
  match byte with
  | 0 => w
  | 1 => old.extractLsb' 24 8 ++ w.extractLsb' 8 24
  | 2 => old.extractLsb' 16 16 ++ w.extractLsb' 16 16
  | _ => old.extractLsb' 8 24 ++ w.extractLsb' 24 8

/-- SWL: lanes 0 to `byte`, holding the top of the register (R161). -/
def swlLanes (byte : Nat) (v : Word) : BitVec 4 × Word :=
  (BitVec.ofNat 4 (2 ^ (byte + 1) - 1), v >>> (24 - 8 * byte))

/-- SWR: lanes `byte` to 3, holding the bottom of the register (R162). -/
def swrLanes (byte : Nat) (v : Word) : BitVec 4 × Word := (0b1111#4 <<< byte, v <<< (8 * byte))

end Sys2Proof.Machine
end

