-- ==== Sys2Proof/Machine/Access.lean ====
section
/-! DEFINITION. Address translation (R71, R72) and the data primitives `MemRead`, `MemWrite`, `LoadWord`, `StoreLanes`
(20_memory.md R90 to R93). -/

namespace Sys2Proof.Machine

/-- `Translate` (R71): the physical address and whether the caches are not used; `none` where user mode references an
address with bit 31 set, which the caller reports as AdEL or AdES. -/
def translate (user : Bool) (va : Word) : Option (Word × Bool) :=
  if user && va.getLsbD 31 then none
  else
    match (va.extractLsb' 29 3).toNat with
    | 4 => some (0#3 ++ va.extractLsb' 0 29, false)
    | 5 => some (0#3 ++ va.extractLsb' 0 29, true)
    | _ => some (va, false)

/-- `LoadWord` (R92): the word image that contains `va`; no alignment check. -/
def State.loadWord (s : State) (va : Word) (length : BitVec 2) : Act Word :=
  match translate s.sr.kuc va with
  | none => .raise (.adel va) s
  | some (pa, uncached) =>
    if s.sr.isc then .done (s.isolatedLoad (wordAddr pa)).1 (s.isolatedLoad (wordAddr pa)).2
    else if uncached then s.busRead s.inputs.dataSizrq (wordAddr pa) (.uncached length)
    else s.cacheLoad s.inputs.dataSizrq s.dataSide (wordAddr pa)

/-- The bytes that a load of size `n` selects from the word image; a byte or halfword stands in the low bits (R90). -/
def selectLoaded (n : Size) (bigEndianCPU : Bool) (va w : Word) : Word :=
  match n with
  | .byte => (selectByte bigEndianCPU va w).setWidth 32
  | .half => (selectHalf bigEndianCPU va w).setWidth 32
  | .word => w

/-- `MemRead` (R90). -/
def State.memRead (s : State) (va : Word) (n : Size) : Act Word :=
  if aligned n va then
    (s.loadWord va n.accessType).bind fun w t => .done (selectLoaded n s.bigEndianCPU va w) t
  else .raise (.adel va) s

/-- `StoreLanes` (R93): no alignment check. The address that the entry shows has the lowest selected byte offset in
its low two bits (R320, R321), also when the data cache widens the store to the whole word (R96). A store through kseg1
leaves no stale entry in the data cache (R97, R106(b)). -/
def State.storeLanes (s : State) (va : Word) (mask : BitVec 4) (w : Word) : Act Unit :=
  match translate s.sr.kuc va with
  | none => .raise (.ades va) s
  | some (pa, uncached) =>
    if s.sr.isc then .done () (s.isolatedStore (wordAddr pa))
    else
      let shown := pa.extractLsb' 2 30 ++ lowestOffset s.mode.bigEndianMem mask
      if uncached then (s.dropAlias (wordAddr pa)).appendWrite { addr := shown, mask := mask, data := w }
      else
        let r := s.dcacheStore (wordAddr pa) mask w
        r.2.appendWrite { addr := shown, mask := r.1.1, data := r.1.2 }

/-- `MemWrite` (R91). -/
def State.memWrite (s : State) (va : Word) (n : Size) (v : Word) : Act Unit :=
  if aligned n va then
    s.storeLanes va (storeLanesOf n s.bigEndianCPU va v).1 (storeLanesOf n s.bigEndianCPU va v).2
  else .raise (.ades va) s

end Sys2Proof.Machine
end

