-- ==== Sys2Proof/Machine/Fetch.lean ====
section
/-! DEFINITION. The fetch of an instruction word (20_memory.md R94, R110). -/

namespace Sys2Proof.Machine

/-- The stores that a fetch from a physical address was done before: those of the last `n` instructions, `n` a free choice
up to four; none where none of them was to its block. The pipeline fetches an instruction before up to four earlier ones
have stored (R110(e)). DEDUCED, log entry 36. -/
def State.storesAhead (s : State) (a : Word) : List (Option StoredWord) × State :=
  if s.recentStores.any (fun e => e.any fun x => blockAddr x.addr == blockAddr a) then
    (s.recentStores.take s.freshWord.1.toNat, s.freshWord.2)
  else ([], s)

/-- The word at an address as it was before these stores, latest first: what the earliest of them to it found. -/
def wordBefore (stores : List (Option StoredWord)) (a w : Word) : Word :=
  stores.foldl
    (fun w e =>
      match e with
      | some x => if x.addr = a then x.before else w
      | none => w)
    w

/-- A refill of the instruction cache for an address reads this word: the block of four, or the one word (R95). -/
def State.refillReads (s : State) (a b : Word) : Bool :=
  if s.blockRefill .instr then (List.range 4).any fun k => b == blockWord a k else b == a

/-- The instruction cache after a refill that was done before these stores: their words of it are as they were. -/
def State.refillBefore (s : State) (stores : List (Option StoredWord)) (a : Word) : State :=
  stores.foldl
    (fun s e =>
      match e with
      | some x => if s.refillReads a x.addr then s.fill .instr x.addr x.before else s
      | none => s)
    s

/-- The refill of a fetch that misses, done before these stores (R95, R110(c), (e)); `sized` is SIZRQ for a read of one word
(R331). -/
def State.fetchRefill (s : State) (sized : Bool) (stores : List (Option StoredWord)) (a : Word) : Act Word :=
  (s.refill sized .instr a).bind fun w t => .done (wordBefore stores a w) (t.refillBefore stores a)

/-- `Fetch(va)`: the instruction word, which is the word image in the reset byte order (R112). A cached fetch with
SR.SwC = 1 is refused (R101). A word read from memory may be one from before the last stores (R110(e)); `sized` is SIZRQ
for a single read (R331). -/
def State.fetchFrom (s : State) (sized : Bool) (va : Word) : Act Word :=
  let user := s.useCp0 (fun v => v.sr.kuc)
  if !aligned .word va then .raise (.adel va) s
  else
    match translate user.1 va with
    | none => .raise (.adel va) user.2
    | some (pa, uncached) =>
      let ahead := user.2.storesAhead pa
      if uncached then
        (ahead.2.busRead sized pa (.uncached Size.word.accessType)).bind fun w t =>
          .done (wordBefore ahead.1 pa w) t
      else
        let swapped := ahead.2.useCp0 (fun v => v.sr.swc)
        if swapped.1 then .refuse .swappedFetch
        else swapped.2.cacheRead .instr pa fun t => t.fetchRefill sized ahead.1 pa

/-- `Fetch(pc)` (R94), its single read sized as the platform asks for it (R331). -/
def State.fetchWord (s : State) : Act Word := s.fetchFrom s.inputs.fetchSizrq s.pc

end Sys2Proof.Machine
end

