-- ==== Sys2Proof/Machine/Exception.lean ====
section
/-! DEFINITION. Taking an exception as a whole: the fetches that it aborts (20_memory.md R88(d)), then the entry
(`State.enter` of Machine/Ops.lean); and the outcome of an instruction. -/

namespace Sys2Proof.Machine

/-- The fetch of an instruction that an exception aborts (R88(d)): what it does to the bus and the instruction cache stays,
its word goes nowhere; `sized` is SIZRQ for its single read (R331). An exception of its own is dropped with it, and it is
not done while another master holds the bus, nor from a cached address with SR.SwC = 1. DEDUCED, log entry 37. -/
def State.fetchAborted (s : State) (va : Word) (sized : Bool) : State :=
  match s.fetchFrom sized va with
  | .done _ t => t
  | .raise _ t => t
  | .stuck t => t
  | .stall _ => s
  | .refuse _ => s

/-- The addresses that the pipeline fetches from behind the instruction that an exception is raised at, nearest first: the
instruction at the pc, which an interrupt aborts too, and the words after it (R88(d)). -/
def State.wordsAhead (s : State) : Exc → List Word
  | .interrupt => [s.pc, s.npc, s.npc + 4, s.npc + 8]
  | _ => [s.npc, s.npc + 4, s.npc + 8, s.npc + 12]

/-- The fetches that an exception aborts, as many as the pipeline has begun (R88(d)), each with its own request for sizing
(R331). -/
def State.abortFetches (s : State) (x : Exc) : State :=
  ((s.wordsAhead x).zip s.inputs.abortedFetches).foldl (fun t f => t.fetchAborted f.1 f.2) s

/-- Taking an exception: the instructions in the pipeline are aborted (R88(d)), then the entry (R370). -/
def State.takeException (s : State) (x : Exc) : State := (s.abortFetches x).enter x

/-- The outcome of an instruction that started in state `s`: it completes, takes an exception (R351: nothing else of
it happens), waits, or is refused. One that waits for a held bus leaves the state as it was when it asked, but that a read is
remembered, so that the next step asks again (R104, R329). -/
def State.finish (s : State) (a : Act Retire) : Host.Outcome State Fault Refusal :=
  match a with
  | .done r t => .next (t.retire r)
  | .raise x t => .next (t.takeException x)
  | .stall read => .next (s.stalled read)
  | .stuck t => t.waits
  | .refuse r => .refused r

end Sys2Proof.Machine
end

