-- ==== Sys2Proof/Machine/Flags.lean ====
section
/-! DEFINITION. The conditions that instructions compute. The machine has no flags register (R31): these are the
overflow conditions that raise Ov (R195), the comparisons that write 0 or 1 (R173, R174, R183, R184), the conditions of
the branches (R221 to R230), and the arithmetic of multiply and divide (R200 to R203). -/

namespace Sys2Proof.Machine

/-- Two's-complement overflow of a sum: outside [-2^31, 2^31 - 1] (R195). -/
def addOverflow (a b : Word) : Bool := a.getLsbD 31 == b.getLsbD 31 && (a + b).getLsbD 31 != a.getLsbD 31

/-- Two's-complement overflow of a difference (R195). -/
def subOverflow (a b : Word) : Bool := a.getLsbD 31 != b.getLsbD 31 && (a - b).getLsbD 31 != a.getLsbD 31

/-- 1 or 0 in a register (R31). -/
def flagWord (b : Bool) : Word := if b then 1 else 0

/-- Signed comparison as a register value (R173, R183). -/
def setLess (a b : Word) : Word := flagWord (decide (a.toInt < b.toInt))

/-- Unsigned comparison as a register value (R174, R184). -/
def setLessU (a b : Word) : Word := flagWord (decide (a.toNat < b.toNat))

/-- The sign bit is set (R225, R229). -/
def isNegative (a : Word) : Bool := a.getLsbD 31

/-- Negative or zero (R223). -/
def isNonPositive (a : Word) : Bool := a.getLsbD 31 || a == 0

/-- Shift right arithmetic: the sign fills the vacated bits (R191). -/
def shiftRightArith (v : Word) (n : Nat) : Word := v.sshiftRight n

/-- The signed 64-bit product, as (HI, LO) (R200). -/
def productSigned (a b : Word) : Word × Word :=
  let t : BitVec 64 := BitVec.ofInt 64 (a.toInt * b.toInt)
  (t.extractLsb' 32 32, t.extractLsb' 0 32)

/-- The unsigned 64-bit product, as (HI, LO) (R201). -/
def productUnsigned (a b : Word) : Word × Word :=
  let t : BitVec 64 := BitVec.ofNat 64 (a.toNat * b.toNat)
  (t.extractLsb' 32 32, t.extractLsb' 0 32)

/-- The signed division has a result that the manual gives: the divisor is not zero and the quotient fits (R211). -/
def divDefined (a b : Word) : Bool := b != 0 && !(a == 0x80000000#32 && b == 0xFFFFFFFF#32)

/-- Remainder and quotient of the signed division, truncated toward zero, as (HI, LO) (R202, D6). -/
def divideSigned (a b : Word) : Word × Word :=
  (BitVec.ofInt 32 (a.toInt.tmod b.toInt), BitVec.ofInt 32 (a.toInt.tdiv b.toInt))

/-- Remainder and quotient of the unsigned division, as (HI, LO) (R203). -/
def divideUnsigned (a b : Word) : Word × Word :=
  (BitVec.ofNat 32 (a.toNat % b.toNat), BitVec.ofNat 32 (a.toNat / b.toNat))

end Sys2Proof.Machine
end

