-- ==== Sys2Proof/Machine/Alu.lean ====
section
/-! DEFINITION. The computational instructions (42_computational.md): ALU immediate, three-operand register, shifts.
Each reads its sources, then writes one general register (R170); only ADD, ADDI and SUB can raise Ov (R195). -/

namespace Sys2Proof.Machine

/-- One source register, one destination. -/
def State.unary (s : State) (src dst : Reg) (f : Word → Word) : Act Retire :=
  let a := s.readSrc src
  .done {} (a.2.setGpr dst (f a.1))

/-- Two source registers, one destination. -/
def State.binary (s : State) (rs rt rd : Reg) (f : Word → Word → Word) : Act Retire :=
  let a := s.readSrc rs
  let b := a.2.readSrc rt
  .done {} (b.2.setGpr rd (f a.1 b.1))

/-- One source register and a constant, with an overflow test before the destination is written (R195). -/
def State.unaryOv (s : State) (src dst : Reg) (c : Word) (overflow : Word → Word → Bool) (f : Word → Word → Word) :
    Act Retire :=
  let a := s.readSrc src
  if overflow a.1 c then .raise .ov a.2 else .done {} (a.2.setGpr dst (f a.1 c))

/-- Two source registers, with an overflow test before the destination is written (R195). -/
def State.binaryOv (s : State) (rs rt rd : Reg) (overflow : Word → Word → Bool) (f : Word → Word → Word) :
    Act Retire :=
  let a := s.readSrc rs
  let b := a.2.readSrc rt
  if overflow a.1 b.1 then .raise .ov b.2 else .done {} (b.2.setGpr rd (f a.1 b.1))

/-! ### ALU immediate -/

/-- ADDI (R171). -/
def execAddi (rs rt : Reg) (imm : Half) (s : State) : Host.Outcome State Fault Refusal :=
  s.finish (s.unaryOv rs rt (sext16 imm) addOverflow (· + ·))

/-- ADDIU (R172). -/
def execAddiu (rs rt : Reg) (imm : Half) (s : State) : Host.Outcome State Fault Refusal :=
  s.finish (s.unary rs rt (· + sext16 imm))

/-- SLTI (R173). -/
def execSlti (rs rt : Reg) (imm : Half) (s : State) : Host.Outcome State Fault Refusal :=
  s.finish (s.unary rs rt (setLess · (sext16 imm)))

/-- SLTIU: the immediate is sign-extended, then compared unsigned (R174). -/
def execSltiu (rs rt : Reg) (imm : Half) (s : State) : Host.Outcome State Fault Refusal :=
  s.finish (s.unary rs rt (setLessU · (sext16 imm)))

/-- ANDI (R175). -/
def execAndi (rs rt : Reg) (imm : Half) (s : State) : Host.Outcome State Fault Refusal :=
  s.finish (s.unary rs rt (· &&& zext16 imm))

/-- ORI (R176). -/
def execOri (rs rt : Reg) (imm : Half) (s : State) : Host.Outcome State Fault Refusal :=
  s.finish (s.unary rs rt (· ||| zext16 imm))

/-- XORI (R177). -/
def execXori (rs rt : Reg) (imm : Half) (s : State) : Host.Outcome State Fault Refusal :=
  s.finish (s.unary rs rt (· ^^^ zext16 imm))

/-- LUI: reads no register (R178). -/
def execLui (rt : Reg) (imm : Half) (s : State) : Host.Outcome State Fault Refusal :=
  s.finish (.done {} (s.setGpr rt (upperImmediate imm)))

/-! ### Three-operand register -/

/-- ADD (R179). -/
def execAdd (rs rt rd : Reg) (s : State) : Host.Outcome State Fault Refusal :=
  s.finish (s.binaryOv rs rt rd addOverflow (· + ·))

/-- ADDU (R180). -/
def execAddu (rs rt rd : Reg) (s : State) : Host.Outcome State Fault Refusal :=
  s.finish (s.binary rs rt rd (· + ·))

/-- SUB (R181). -/
def execSub (rs rt rd : Reg) (s : State) : Host.Outcome State Fault Refusal :=
  s.finish (s.binaryOv rs rt rd subOverflow (· - ·))

/-- SUBU (R182). -/
def execSubu (rs rt rd : Reg) (s : State) : Host.Outcome State Fault Refusal :=
  s.finish (s.binary rs rt rd (· - ·))

/-- AND (R185). -/
def execAnd (rs rt rd : Reg) (s : State) : Host.Outcome State Fault Refusal :=
  s.finish (s.binary rs rt rd (· &&& ·))

/-- OR (R186). -/
def execOr (rs rt rd : Reg) (s : State) : Host.Outcome State Fault Refusal :=
  s.finish (s.binary rs rt rd (· ||| ·))

/-- XOR (R187). -/
def execXor (rs rt rd : Reg) (s : State) : Host.Outcome State Fault Refusal :=
  s.finish (s.binary rs rt rd (· ^^^ ·))

/-- NOR (R188). -/
def execNor (rs rt rd : Reg) (s : State) : Host.Outcome State Fault Refusal :=
  s.finish (s.binary rs rt rd (fun a b => ~~~(a ||| b)))

/-- SLT (R183). -/
def execSlt (rs rt rd : Reg) (s : State) : Host.Outcome State Fault Refusal :=
  s.finish (s.binary rs rt rd setLess)

/-- SLTU (R184). -/
def execSltu (rs rt rd : Reg) (s : State) : Host.Outcome State Fault Refusal :=
  s.finish (s.binary rs rt rd setLessU)

/-! ### Shifts: the value shifted is `rt` -/

/-- SLL (R189). -/
def execSll (rt rd : Reg) (sa : BitVec 5) (s : State) : Host.Outcome State Fault Refusal :=
  s.finish (s.unary rt rd (· <<< sa.toNat))

/-- SRL (R190). -/
def execSrl (rt rd : Reg) (sa : BitVec 5) (s : State) : Host.Outcome State Fault Refusal :=
  s.finish (s.unary rt rd (· >>> sa.toNat))

/-- SRA (R191). -/
def execSra (rt rd : Reg) (sa : BitVec 5) (s : State) : Host.Outcome State Fault Refusal :=
  s.finish (s.unary rt rd (shiftRightArith · sa.toNat))

/-- SLLV: the amount is `rs`'s low five bits (R192). -/
def execSllv (rs rt rd : Reg) (s : State) : Host.Outcome State Fault Refusal :=
  s.finish (s.binary rs rt rd (fun a b => b <<< shiftAmount a))

/-- SRLV: zero fill (R193). -/
def execSrlv (rs rt rd : Reg) (s : State) : Host.Outcome State Fault Refusal :=
  s.finish (s.binary rs rt rd (fun a b => b >>> shiftAmount a))

/-- SRAV (R194). -/
def execSrav (rs rt rd : Reg) (s : State) : Host.Outcome State Fault Refusal :=
  s.finish (s.binary rs rt rd (fun a b => shiftRightArith b (shiftAmount a)))

end Sys2Proof.Machine
end

