-- ==== Sys2Proof/Machine/JumpBranch.lean ====
section
/-! DEFINITION. Jumps and branches (44_jump_branch.md). The transfer takes effect after the delay slot: `target` of the
completion becomes `npc` (R15, R27). -/

namespace Sys2Proof.Machine

/-- Every jump and branch is refused in a delay slot (R216). -/
def State.transfer (s : State) (body : Act Retire) : Act Retire :=
  if s.inDelaySlot then .refuse .jumpInDelaySlot else body

/-- The completion of a branch, taken or not (R29, R227). -/
def branchTo (taken : Bool) (target : Word) : Retire :=
  { target := if taken then some target else none, branch := true }

/-- A branch on one register (R223 to R226). -/
def State.branch1 (s : State) (rs : Reg) (offset : Half) (cond : Word → Bool) : Act Retire :=
  s.transfer (.done (branchTo (cond (s.readSrc rs).1) (branchTarget s.pc offset)) (s.readSrc rs).2)

/-- A branch on two registers (R221, R222). -/
def State.branch2 (s : State) (rs rt : Reg) (offset : Half) (cond : Word → Word → Bool) : Act Retire :=
  let a := s.readSrc rs
  let b := a.2.readSrc rt
  s.transfer (.done (branchTo (cond a.1 b.1) (branchTarget s.pc offset)) b.2)

/-- A branch on one register that links: the condition is read before r31 is written, and r31 is written whether or not
the branch is taken (R228 to R230). -/
def State.branchLink (s : State) (rs : Reg) (offset : Half) (cond : Word → Bool) : Act Retire :=
  s.transfer
    (.done (branchTo (cond (s.readSrc rs).1) (branchTarget s.pc offset))
      ((s.readSrc rs).2.setGpr 31 (linkAddr s.pc)))

/-! ### Jumps -/

/-- J (R217). -/
def execJ (target : BitVec 26) (s : State) : Host.Outcome State Fault Refusal :=
  s.finish (s.transfer (.done (branchTo true (jumpTarget s.pc target)) s))

/-- JAL (R218). -/
def execJal (target : BitVec 26) (s : State) : Host.Outcome State Fault Refusal :=
  s.finish (s.transfer (.done (branchTo true (jumpTarget s.pc target)) (s.setGpr 31 (linkAddr s.pc))))

/-- JR (R220). -/
def execJr (rs : Reg) (s : State) : Host.Outcome State Fault Refusal :=
  s.finish (s.transfer (.done (branchTo true (s.readSrc rs).1) (s.readSrc rs).2))

/-- JALR: refused with rs = rd (R219). -/
def execJalr (rs rd : Reg) (s : State) : Host.Outcome State Fault Refusal :=
  s.finish
    (s.transfer
      (if rs = rd then .refuse .jalrSameRegister
      else .done (branchTo true (s.readSrc rs).1) ((s.readSrc rs).2.setGpr rd (linkAddr s.pc))))

/-! ### Conditional branches -/

/-- BEQ (R221). -/
def execBeq (rs rt : Reg) (offset : Half) (s : State) : Host.Outcome State Fault Refusal :=
  s.finish (s.branch2 rs rt offset (· == ·))

/-- BNE (R222). -/
def execBne (rs rt : Reg) (offset : Half) (s : State) : Host.Outcome State Fault Refusal :=
  s.finish (s.branch2 rs rt offset (· != ·))

/-- BLEZ (R223). -/
def execBlez (rs : Reg) (offset : Half) (s : State) : Host.Outcome State Fault Refusal :=
  s.finish (s.branch1 rs offset isNonPositive)

/-- BGTZ (R224). -/
def execBgtz (rs : Reg) (offset : Half) (s : State) : Host.Outcome State Fault Refusal :=
  s.finish (s.branch1 rs offset (fun a => !isNonPositive a))

/-- BLTZ (R225). -/
def execBltz (rs : Reg) (offset : Half) (s : State) : Host.Outcome State Fault Refusal :=
  s.finish (s.branch1 rs offset isNegative)

/-- BGEZ (R226). -/
def execBgez (rs : Reg) (offset : Half) (s : State) : Host.Outcome State Fault Refusal :=
  s.finish (s.branch1 rs offset (fun a => !isNegative a))

/-- BLTZAL (R229). -/
def execBltzal (rs : Reg) (offset : Half) (s : State) : Host.Outcome State Fault Refusal :=
  s.finish (s.branchLink rs offset isNegative)

/-- BGEZAL (R230). -/
def execBgezal (rs : Reg) (offset : Half) (s : State) : Host.Outcome State Fault Refusal :=
  s.finish (s.branchLink rs offset (fun a => !isNegative a))

end Sys2Proof.Machine
end

