-- ==== Sys2Proof/Machine/Coproc.lean ====
section
/-! DEFINITION. BC0F and BC0T, and the words of the coprocessors that the chip does not have (46_coprocessor.md). -/

namespace Sys2Proof.Machine

/-- The part before every coprocessor-0 instruction: CpU with unit 0 if CP0 is unusable (R248, R258). -/
def State.withCp0 (s : State) (k : State → Act Retire) : Act Retire :=
  if s.cp0Unusable.1 then .raise (.cpu 0) s.cp0Unusable.2 else k s.cp0Unusable.2

/-! ### BC0F and BC0T -/

/-- An address in a cached segment: any but kseg1 (R72). -/
def cachedSegment (va : Word) : Bool := va.extractLsb' 29 3 != 0b101#3

/-- The test of CpCond0 is reliable: two instructions after the last store, and with block refill and streaming of the
instruction cache not at 16n or 16n+4 of a cached segment (R247). -/
def State.condReliable (s : State) : Bool :=
  s.sinceStore == 2 && !(s.mode.iblock && s.mode.istream && cachedSegment s.pc && !s.pc.getLsbD 3)

/-- The condition that BC0F and BC0T test: CpCond0, or any value when the test is not reliable (R247). -/
def State.testCond (s : State) : Bool × State := if s.condReliable then (s.cpCond0, s) else s.freshBit

/-- BC0F (R245). -/
def execBc0f (offset : Half) (s : State) : Host.Outcome State Fault Refusal :=
  s.finish
    (s.withCp0 fun t =>
      t.transfer (.done (branchTo (!t.testCond.1) (branchTarget t.pc offset)) t.testCond.2))

/-- BC0T (R246). -/
def execBc0t (offset : Half) (s : State) : Host.Outcome State Fault Refusal :=
  s.finish
    (s.withCp0 fun t =>
      t.transfer (.done (branchTo t.testCond.1 (branchTarget t.pc offset)) t.testCond.2))

/-! ### Coprocessors 1 to 3, LWCz, SWCz -/

/-- A word of coprocessor z = 1 to 3: CpU with unit z while Cu[z] = 0, in either mode; else undefined (R249, R250).
No address is formed and no memory touched. -/
def State.absentUnit (s : State) (z : BitVec 2) : Act Retire :=
  let usable := s.useCp0 (fun v => v.sr.cu.getLsbD z.toNat)
  if usable.1 then .refuse (.absentCoprocessor z) else .raise (.cpu z) usable.2

/-- LWC0 and SWC0: the usability test of CP0, else nothing is given (R250). -/
def State.cop0Transfer (s : State) : Act Retire := s.withCp0 fun _ => .refuse .cop0LoadStore

/-- A COP1 word (R249). -/
def execCop1 (_cofun : BitVec 26) (s : State) : Host.Outcome State Fault Refusal := s.finish (s.absentUnit 1)

/-- A COP2 word (R249). -/
def execCop2 (_cofun : BitVec 26) (s : State) : Host.Outcome State Fault Refusal := s.finish (s.absentUnit 2)

/-- A COP3 word (R249). -/
def execCop3 (_cofun : BitVec 26) (s : State) : Host.Outcome State Fault Refusal := s.finish (s.absentUnit 3)

/-- LWC0 (R250). -/
def execLwc0 (_base _rt : Reg) (_offset : Half) (s : State) : Host.Outcome State Fault Refusal :=
  s.finish s.cop0Transfer

/-- LWC1 (R250). -/
def execLwc1 (_base _rt : Reg) (_offset : Half) (s : State) : Host.Outcome State Fault Refusal :=
  s.finish (s.absentUnit 1)

/-- LWC2 (R250). -/
def execLwc2 (_base _rt : Reg) (_offset : Half) (s : State) : Host.Outcome State Fault Refusal :=
  s.finish (s.absentUnit 2)

/-- LWC3 (R250). -/
def execLwc3 (_base _rt : Reg) (_offset : Half) (s : State) : Host.Outcome State Fault Refusal :=
  s.finish (s.absentUnit 3)

/-- SWC0 (R250). -/
def execSwc0 (_base _rt : Reg) (_offset : Half) (s : State) : Host.Outcome State Fault Refusal :=
  s.finish s.cop0Transfer

/-- SWC1 (R250). -/
def execSwc1 (_base _rt : Reg) (_offset : Half) (s : State) : Host.Outcome State Fault Refusal :=
  s.finish (s.absentUnit 1)

/-- SWC2 (R250). -/
def execSwc2 (_base _rt : Reg) (_offset : Half) (s : State) : Host.Outcome State Fault Refusal :=
  s.finish (s.absentUnit 2)

/-- SWC3 (R250). -/
def execSwc3 (_base _rt : Reg) (_offset : Half) (s : State) : Host.Outcome State Fault Refusal :=
  s.finish (s.absentUnit 3)

end Sys2Proof.Machine
end

