-- ==== Sys2Proof/Machine/LoadStore.lean ====
section
/-! DEFINITION. The load and store instructions (41_load_store.md) over the primitives of Machine/Access.lean. -/

namespace Sys2Proof.Machine

/-! ### Shared parts -/

/-- The part before every load and store: refused right after MTC0 (R417); then the effective address (R150), the base
being a source read. -/
def State.access (s : State) (base : Reg) (offset : Half) (k : Word → State → Act Retire) : Act Retire :=
  if s.afterMtc0.isSome then .refuse .memoryAfterMtc0
  else k (effectiveAddr (s.readSrc base).1 offset) (s.readSrc base).2

/-- The end of every load: the load-delay cell is set (R163). -/
def loaded (rt : Reg) (s : State) : Act Retire := .done { load := some rt, memory := true } s

/-- The word of memory that a store to a virtual address stores to, with what it is before, all buffered writes performed
(R110(e)); none for an isolated store, which reaches no memory (R100), and where there is no memory. -/
def State.overwritten (s : State) (va : Word) : Option StoredWord :=
  match translate s.sr.kuc va with
  | none => none
  | some (pa, _) =>
    if s.sr.isc || !s.backed pa then none
    else some { addr := wordAddr pa, before := wordImage s.mode.bigEndianMem s.settled (wordAddr pa) }

/-- The end of every store, with the word that it stored to (R110(e), R247, R262). -/
def stored (overwrote : Option StoredWord) (s : State) : Act Retire :=
  .done { store := true, memory := true, overwrote := overwrote } s

/-- A load of size `n` whose bytes become a register value by `extend` (R151 to R155); right after another load into the same
register it is a write in the load delay (R163, R411). -/
def State.load (s : State) (n : Size) (extend : Word → Word) (base rt : Reg) (offset : Half) : Act Retire :=
  s.access base offset fun va t => (t.memRead va n).bind fun w u => loaded rt (u.setGpr rt (extend w))

/-- LWL and LWR: the word image that contains the address, merged into the register, whose old value includes that of
the load just before (R156, R157, R163). -/
def State.loadPart (s : State) (length : Nat → BitVec 2) (merge : Nat → Word → Word → Word) (base rt : Reg)
    (offset : Half) : Act Retire :=
  s.access base offset fun va t =>
    (t.loadWord va (length (byteLane s.bigEndianCPU va))).bind fun w u =>
      loaded rt (u.setGpr rt (merge (byteLane s.bigEndianCPU va) w (s.readGpr rt)))

/-- A store of size `n` (R158 to R160): base and `rt` are source reads. -/
def State.store (s : State) (n : Size) (base rt : Reg) (offset : Half) : Act Retire :=
  s.access base offset fun va t =>
    ((t.readSrc rt).2.memWrite va n (t.readSrc rt).1).bind fun _ u => stored (t.overwritten va) u

/-- SWL and SWR: the lanes that `lanes` selects (R161, R162). -/
def State.storePart (s : State) (lanes : Nat → Word → BitVec 4 × Word) (base rt : Reg) (offset : Half) : Act Retire :=
  s.access base offset fun va t =>
    ((t.readSrc rt).2.storeLanes va (lanes (byteLane s.bigEndianCPU va) (t.readSrc rt).1).1
      (lanes (byteLane s.bigEndianCPU va) (t.readSrc rt).1).2).bind fun _ u => stored (t.overwritten va) u

/-- The sign-extension of the low byte. -/
def sextByte (w : Word) : Word := (w.extractLsb' 0 8).signExtend 32

/-- The sign-extension of the low halfword. -/
def sextHalf (w : Word) : Word := (w.extractLsb' 0 16).signExtend 32

/-! ### Loads -/

/-- LB (R151). -/
def execLb (base rt : Reg) (offset : Half) (s : State) : Host.Outcome State Fault Refusal :=
  s.finish (s.load .byte sextByte base rt offset)

/-- LBU (R152). -/
def execLbu (base rt : Reg) (offset : Half) (s : State) : Host.Outcome State Fault Refusal :=
  s.finish (s.load .byte id base rt offset)

/-- LH (R153). -/
def execLh (base rt : Reg) (offset : Half) (s : State) : Host.Outcome State Fault Refusal :=
  s.finish (s.load .half sextHalf base rt offset)

/-- LHU (R154). -/
def execLhu (base rt : Reg) (offset : Half) (s : State) : Host.Outcome State Fault Refusal :=
  s.finish (s.load .half id base rt offset)

/-- LW (R155). -/
def execLw (base rt : Reg) (offset : Half) (s : State) : Host.Outcome State Fault Refusal :=
  s.finish (s.load .word id base rt offset)

/-- LWL: `byte` + 1 bytes are wanted (R156). -/
def execLwl (base rt : Reg) (offset : Half) (s : State) : Host.Outcome State Fault Refusal :=
  s.finish (s.loadPart (fun byte => BitVec.ofNat 2 byte) lwlMerge base rt offset)

/-- LWR: 4 - `byte` bytes are wanted, access type WORD-byte (R157). -/
def execLwr (base rt : Reg) (offset : Half) (s : State) : Host.Outcome State Fault Refusal :=
  s.finish (s.loadPart (fun byte => BitVec.ofNat 2 (3 - byte)) lwrMerge base rt offset)

/-! ### Stores -/

/-- SB (R158). -/
def execSb (base rt : Reg) (offset : Half) (s : State) : Host.Outcome State Fault Refusal :=
  s.finish (s.store .byte base rt offset)

/-- SH (R159). -/
def execSh (base rt : Reg) (offset : Half) (s : State) : Host.Outcome State Fault Refusal :=
  s.finish (s.store .half base rt offset)

/-- SW (R160). -/
def execSw (base rt : Reg) (offset : Half) (s : State) : Host.Outcome State Fault Refusal :=
  s.finish (s.store .word base rt offset)

/-- SWL (R161). -/
def execSwl (base rt : Reg) (offset : Half) (s : State) : Host.Outcome State Fault Refusal :=
  s.finish (s.storePart swlLanes base rt offset)

/-- SWR (R162). -/
def execSwr (base rt : Reg) (offset : Half) (s : State) : Host.Outcome State Fault Refusal :=
  s.finish (s.storePart swrLanes base rt offset)

end Sys2Proof.Machine
end

