-- ==== Sys2Proof/Machine/MulDiv.lean ====
section
/-! DEFINITION. Multiply, divide and the moves of HI and LO (43_multiply_divide.md), with the hazards of R209 and
R210. The result stands in HI and LO in the instruction's own step (R208). -/

namespace Sys2Proof.Machine

/-- MULT, MULTU, DIV, DIVU: refused within two instructions of MFHI or MFLO (R209); both sources are read, HI and LO
written and `md_fresh` set (R210). -/
def State.multiplyDivide (s : State) (rs rt : Reg) (result : Word → Word → State → (Word × Word) × State) :
    Act Retire :=
  if s.sinceMfhi ≠ 2 ∨ s.sinceMflo ≠ 2 then .refuse .hiLoWriteTooSoon
  else
    let a := s.readSrc rs
    let b := a.2.readSrc rt
    let r := result a.1 b.1 b.2
    .done {} { r.2 with hi := r.1.1, lo := r.1.2, mdFresh := true }

/-- The quotient and remainder where they are given, else any value in HI and LO (R211). -/
def divideOr (defined : Bool) (r : Word × Word) (s : State) : (Word × Word) × State :=
  if defined then (r, s)
  else ((s.freshWord.1, s.freshWord.2.freshWord.1), s.freshWord.2.freshWord.2)

/-- MULT (R200). -/
def execMult (rs rt : Reg) (s : State) : Host.Outcome State Fault Refusal :=
  s.finish (s.multiplyDivide rs rt fun a b t => (productSigned a b, t))

/-- MULTU (R201). -/
def execMultu (rs rt : Reg) (s : State) : Host.Outcome State Fault Refusal :=
  s.finish (s.multiplyDivide rs rt fun a b t => (productUnsigned a b, t))

/-- DIV (R202, R211). -/
def execDiv (rs rt : Reg) (s : State) : Host.Outcome State Fault Refusal :=
  s.finish (s.multiplyDivide rs rt fun a b t => divideOr (divDefined a b) (divideSigned a b) t)

/-- DIVU (R203, R211). -/
def execDivu (rs rt : Reg) (s : State) : Host.Outcome State Fault Refusal :=
  s.finish (s.multiplyDivide rs rt fun a b t => divideOr (b != 0) (divideUnsigned a b) t)

/-- MFHI (R204): usable by the next instruction. -/
def execMfhi (rd : Reg) (s : State) : Host.Outcome State Fault Refusal :=
  s.finish (.done { mfhi := true } { s.setGpr rd s.hi with mdFresh := false })

/-- MFLO (R205). -/
def execMflo (rd : Reg) (s : State) : Host.Outcome State Fault Refusal :=
  s.finish (.done { mflo := true } { s.setGpr rd s.lo with mdFresh := false })

/-- A register that becomes any value if a multiply or divide was the last to write HI and LO (R210). -/
def State.spoilt (s : State) (v : Word) : Word × State := if s.mdFresh then s.freshWord else (v, s)

/-- MTHI (R206): refused within two instructions of MFHI. -/
def execMthi (rs : Reg) (s : State) : Host.Outcome State Fault Refusal :=
  s.finish
    (if s.sinceMfhi ≠ 2 then .refuse .hiLoWriteTooSoon
    else
      let a := s.readSrc rs
      let other := a.2.spoilt s.lo
      .done {} { other.2 with hi := a.1, lo := other.1, mdFresh := false })

/-- MTLO (R207): refused within two instructions of MFLO. -/
def execMtlo (rs : Reg) (s : State) : Host.Outcome State Fault Refusal :=
  s.finish
    (if s.sinceMflo ≠ 2 then .refuse .hiLoWriteTooSoon
    else
      let a := s.readSrc rs
      let other := a.2.spoilt s.hi
      .done {} { other.2 with hi := other.1, lo := a.1, mdFresh := false })

end Sys2Proof.Machine
end

