-- ==== Sys2Proof/Machine/Special.lean ====
section
/-! DEFINITION. SYSCALL and BREAK (45_special.md): each takes its exception, in any mode. -/

namespace Sys2Proof.Machine

/-- SYSCALL (R240). -/
def execSyscall (s : State) : Host.Outcome State Fault Refusal := s.finish (.raise .sys s)

/-- BREAK: the code field is not examined and copied nowhere (R241). -/
def execBreak (_code : BitVec 20) (s : State) : Host.Outcome State Fault Refusal := s.finish (.raise .bp s)

end Sys2Proof.Machine
end

