-- ==== Sys2Proof/Machine/SystemControl.lean ====
section
/-! DEFINITION. MTC0, MFC0, RFE and the removed TLB instructions (47_cp0.md). The usability test comes first (R258,
R260). -/

namespace Sys2Proof.Machine

/-- MTC0 (R255): `rt` is a source read; what was written is seen with the latency that `afterMtc0` keeps. -/
def execMtc0 (rt rd : Reg) (s : State) : Host.Outcome State Fault Refusal :=
  s.finish
    (s.withCp0 fun t =>
      match (t.readSrc rt).2.writeCp0 rd (t.readSrc rt).1 with
      | none => .refuse (.absentCp0Register rd)
      | some u => .done { mtc0 := some s.cp0View } u)

/-- MFC0 (R256): a load for the load-delay rule (R412), and like a second load itself a write in the delay of a load just before
(R163, R411). -/
def execMfc0 (rt rd : Reg) (s : State) : Host.Outcome State Fault Refusal :=
  s.finish
    (s.withCp0 fun t =>
      match t.readCp0 rd with
      | none => .refuse (.absentCp0Register rd)
      | some r => .done { load := some rt } (r.2.setGpr rt r.1))

/-- RFE (R257): refused right after a load or store (R420). -/
def execRfe (s : State) : Host.Outcome State Fault Refusal :=
  s.finish (s.withCp0 fun t => if t.prevMem then .refuse .rfeAfterMemory else .done {} t.popModes)

/-- TLBR, TLBWI, TLBWR, TLBP with CP0 usable have no behaviour (R259). -/
def State.removedTlb (s : State) : Act Retire := s.withCp0 fun _ => .refuse .removedTlbInstruction

/-- TLBR (R259). -/
def execTlbr (s : State) : Host.Outcome State Fault Refusal := s.finish s.removedTlb

/-- TLBWI (R259). -/
def execTlbwi (s : State) : Host.Outcome State Fault Refusal := s.finish s.removedTlb

/-- TLBWR (R259). -/
def execTlbwr (s : State) : Host.Outcome State Fault Refusal := s.finish s.removedTlb

/-- TLBP (R259). -/
def execTlbp (s : State) : Host.Outcome State Fault Refusal := s.finish s.removedTlb

end Sys2Proof.Machine
end

