-- ==== Sys2Proof/Syntax.lean ====
section
/-! DEFINITION. The instructions: one constructor per row of spec/opcode_table.json, the operand fields in the order
in which they stand in the word, high bits first (30_encoding.md R121 to R134, R137). -/

namespace Sys2Proof

/-- An instruction word that has a row in the opcode table: the 63 instructions (R5, R134) and the 15 word groups
that are no instructions of this chip but whose treatment the spec states (R137). -/
inductive Instr where
  -- loads and stores (R150 to R162): base, rt, offset
  | lb (base rt : Reg) (offset : Half)
  | lh (base rt : Reg) (offset : Half)
  | lwl (base rt : Reg) (offset : Half)
  | lw (base rt : Reg) (offset : Half)
  | lbu (base rt : Reg) (offset : Half)
  | lhu (base rt : Reg) (offset : Half)
  | lwr (base rt : Reg) (offset : Half)
  | sb (base rt : Reg) (offset : Half)
  | sh (base rt : Reg) (offset : Half)
  | swl (base rt : Reg) (offset : Half)
  | sw (base rt : Reg) (offset : Half)
  | swr (base rt : Reg) (offset : Half)
  -- ALU immediate (R171 to R178): rs, rt, immediate
  | addi (rs rt : Reg) (immediate : Half)
  | addiu (rs rt : Reg) (immediate : Half)
  | slti (rs rt : Reg) (immediate : Half)
  | sltiu (rs rt : Reg) (immediate : Half)
  | andi (rs rt : Reg) (immediate : Half)
  | ori (rs rt : Reg) (immediate : Half)
  | xori (rs rt : Reg) (immediate : Half)
  | lui (rt : Reg) (immediate : Half)
  -- three-operand register (R179 to R188): rs, rt, rd
  | add (rs rt rd : Reg)
  | addu (rs rt rd : Reg)
  | sub (rs rt rd : Reg)
  | subu (rs rt rd : Reg)
  | and (rs rt rd : Reg)
  | or (rs rt rd : Reg)
  | xor (rs rt rd : Reg)
  | nor (rs rt rd : Reg)
  | slt (rs rt rd : Reg)
  | sltu (rs rt rd : Reg)
  -- shifts (R189 to R194): rt, rd, sa for a constant amount, rs, rt, rd for a variable one
  | sll (rt rd : Reg) (sa : BitVec 5)
  | srl (rt rd : Reg) (sa : BitVec 5)
  | sra (rt rd : Reg) (sa : BitVec 5)
  | sllv (rs rt rd : Reg)
  | srlv (rs rt rd : Reg)
  | srav (rs rt rd : Reg)
  -- multiply and divide (R200 to R207)
  | mult (rs rt : Reg)
  | multu (rs rt : Reg)
  | div (rs rt : Reg)
  | divu (rs rt : Reg)
  | mfhi (rd : Reg)
  | mthi (rs : Reg)
  | mflo (rd : Reg)
  | mtlo (rs : Reg)
  -- jumps and branches (R217 to R230)
  | j (target : BitVec 26)
  | jal (target : BitVec 26)
  | jr (rs : Reg)
  | jalr (rs rd : Reg)
  | beq (rs rt : Reg) (offset : Half)
  | bne (rs rt : Reg) (offset : Half)
  | blez (rs : Reg) (offset : Half)
  | bgtz (rs : Reg) (offset : Half)
  | bltz (rs : Reg) (offset : Half)
  | bgez (rs : Reg) (offset : Half)
  | bltzal (rs : Reg) (offset : Half)
  | bgezal (rs : Reg) (offset : Half)
  -- special (R240, R241)
  | syscall
  | brk (code : BitVec 20)
  -- coprocessor 0 (R245, R246, R255 to R257)
  | mfc0 (rt rd : Reg)
  | mtc0 (rt rd : Reg)
  | bc0f (offset : Half)
  | bc0t (offset : Half)
  | rfe
  -- words of the absent coprocessors (R249, R250)
  | cop1 (cofun : BitVec 26)
  | cop2 (cofun : BitVec 26)
  | cop3 (cofun : BitVec 26)
  | lwc0 (base rt : Reg) (offset : Half)
  | lwc1 (base rt : Reg) (offset : Half)
  | lwc2 (base rt : Reg) (offset : Half)
  | lwc3 (base rt : Reg) (offset : Half)
  | swc0 (base rt : Reg) (offset : Half)
  | swc1 (base rt : Reg) (offset : Half)
  | swc2 (base rt : Reg) (offset : Half)
  | swc3 (base rt : Reg) (offset : Half)
  -- the removed TLB instructions (R259)
  | tlbr
  | tlbwi
  | tlbwr
  | tlbp
  deriving DecidableEq, Repr

end Sys2Proof
end

