-- ==== Sys2Proof/Decode.lean ====
section
/-! DEFINITION. The decoder, total on 32-bit words and rejecting by name, and the encoder, both written from the
opcode maps and field positions of 30_encoding.md (R121, R130 to R139) and spec/opcode_table.json. -/

namespace Sys2Proof

/-! ### Fields (R121) -/

/-- `op` = instr[31:26]. -/
def opField (w : Word) : BitVec 6 := w.extractLsb' 26 6
/-- `rs` = instr[25:21], also `base`. -/
def rsField (w : Word) : Reg := w.extractLsb' 21 5
/-- `rt` = instr[20:16]. -/
def rtField (w : Word) : Reg := w.extractLsb' 16 5
/-- `rd` = instr[15:11]. -/
def rdField (w : Word) : Reg := w.extractLsb' 11 5
/-- `sa` = instr[10:6]. -/
def saField (w : Word) : BitVec 5 := w.extractLsb' 6 5
/-- `funct` = instr[5:0]. -/
def functField (w : Word) : BitVec 6 := w.extractLsb' 0 6
/-- `immediate` = instr[15:0], also `offset`. -/
def immField (w : Word) : Half := w.extractLsb' 0 16
/-- `target` = instr[25:0]. -/
def targetField (w : Word) : BitVec 26 := w.extractLsb' 0 26
/-- `code` = instr[25:6] of BREAK (R129). -/
def codeField (w : Word) : BitVec 20 := w.extractLsb' 6 20

/-! ### Decoding -/

/-- Why a word has no row in the opcode table (R139). -/
inductive Reject where
  /-- A reserved major opcode or a reserved SPECIAL function: the word raises RI (R136). -/
  | reservedInstruction
  /-- Another word of the COP0 space: CpU if CP0 is unusable, else no behaviour is given (R251). -/
  | unlistedCop0
  /-- A blank cell of the BCOND `rt` table (R132). -/
  | blankBcond
  /-- A listed instruction with a non-zero bit in a field that its format shows as 0 (R135). -/
  | nonzeroConstantField
  deriving DecidableEq, Repr

/-- The instruction if its constant fields are all zero, else the rejection of R135. -/
def whenZero (fieldsAreZero : Bool) (i : Instr) : Except Reject Instr :=
  if fieldsAreZero then .ok i else .error .nonzeroConstantField

/-- The words with `op` = 000000, by `funct` (R131). -/
def decodeSpecial (w : Word) : Except Reject Instr :=
  let rs := rsField w
  let rt := rtField w
  let rd := rdField w
  let sa := saField w
  match (functField w).toNat with
  | 0 => whenZero (rs == 0) (.sll rt rd sa)
  | 2 => whenZero (rs == 0) (.srl rt rd sa)
  | 3 => whenZero (rs == 0) (.sra rt rd sa)
  | 4 => whenZero (sa == 0) (.sllv rs rt rd)
  | 6 => whenZero (sa == 0) (.srlv rs rt rd)
  | 7 => whenZero (sa == 0) (.srav rs rt rd)
  | 8 => whenZero (rt == 0 && rd == 0 && sa == 0) (.jr rs)
  | 9 => whenZero (rt == 0 && sa == 0) (.jalr rs rd)
  | 12 => whenZero (rs == 0 && rt == 0 && rd == 0 && sa == 0) .syscall
  | 13 => .ok (.brk (codeField w))
  | 16 => whenZero (rs == 0 && rt == 0 && sa == 0) (.mfhi rd)
  | 17 => whenZero (rt == 0 && rd == 0 && sa == 0) (.mthi rs)
  | 18 => whenZero (rs == 0 && rt == 0 && sa == 0) (.mflo rd)
  | 19 => whenZero (rt == 0 && rd == 0 && sa == 0) (.mtlo rs)
  | 24 => whenZero (rd == 0 && sa == 0) (.mult rs rt)
  | 25 => whenZero (rd == 0 && sa == 0) (.multu rs rt)
  | 26 => whenZero (rd == 0 && sa == 0) (.div rs rt)
  | 27 => whenZero (rd == 0 && sa == 0) (.divu rs rt)
  | 32 => whenZero (sa == 0) (.add rs rt rd)
  | 33 => whenZero (sa == 0) (.addu rs rt rd)
  | 34 => whenZero (sa == 0) (.sub rs rt rd)
  | 35 => whenZero (sa == 0) (.subu rs rt rd)
  | 36 => whenZero (sa == 0) (.and rs rt rd)
  | 37 => whenZero (sa == 0) (.or rs rt rd)
  | 38 => whenZero (sa == 0) (.xor rs rt rd)
  | 39 => whenZero (sa == 0) (.nor rs rt rd)
  | 42 => whenZero (sa == 0) (.slt rs rt rd)
  | 43 => whenZero (sa == 0) (.sltu rs rt rd)
  | _ => .error .reservedInstruction

/-- The words with `op` = 000001, by the `rt` field (R132). -/
def decodeBcond (w : Word) : Except Reject Instr :=
  match (rtField w).toNat with
  | 0 => .ok (.bltz (rsField w) (immField w))
  | 1 => .ok (.bgez (rsField w) (immField w))
  | 16 => .ok (.bltzal (rsField w) (immField w))
  | 17 => .ok (.bgezal (rsField w) (immField w))
  | _ => .error .blankBcond

/-- The words with `op` = 010000, by the `rs` field (R133); any word of this space without a row is R251's. -/
def decodeCop0 (w : Word) : Except Reject Instr :=
  match (rsField w).toNat with
  | 0 =>
    if saField w == 0 && functField w == 0 then .ok (.mfc0 (rtField w) (rdField w)) else .error .unlistedCop0
  | 4 =>
    if saField w == 0 && functField w == 0 then .ok (.mtc0 (rtField w) (rdField w)) else .error .unlistedCop0
  | 8 =>
    match (rtField w).toNat with
    | 0 => .ok (.bc0f (immField w))
    | 1 => .ok (.bc0t (immField w))
    | _ => .error .unlistedCop0
  | 16 =>
    if rtField w == 0 && rdField w == 0 && saField w == 0 then
      match (functField w).toNat with
      | 1 => .ok .tlbr
      | 2 => .ok .tlbwi
      | 6 => .ok .tlbwr
      | 8 => .ok .tlbp
      | 16 => .ok .rfe
      | _ => .error .unlistedCop0
    else .error .unlistedCop0
  | _ => .error .unlistedCop0

/-- The decoder (R139): the instruction whose row matches the word, or why none does. -/
def decode (w : Word) : Except Reject Instr :=
  let rs := rsField w
  let rt := rtField w
  let imm := immField w
  match (opField w).toNat with
  | 0 => decodeSpecial w
  | 1 => decodeBcond w
  | 2 => .ok (.j (targetField w))
  | 3 => .ok (.jal (targetField w))
  | 4 => .ok (.beq rs rt imm)
  | 5 => .ok (.bne rs rt imm)
  | 6 => whenZero (rt == 0) (.blez rs imm)
  | 7 => whenZero (rt == 0) (.bgtz rs imm)
  | 8 => .ok (.addi rs rt imm)
  | 9 => .ok (.addiu rs rt imm)
  | 10 => .ok (.slti rs rt imm)
  | 11 => .ok (.sltiu rs rt imm)
  | 12 => .ok (.andi rs rt imm)
  | 13 => .ok (.ori rs rt imm)
  | 14 => .ok (.xori rs rt imm)
  | 15 => whenZero (rs == 0) (.lui rt imm)
  | 16 => decodeCop0 w
  | 17 => .ok (.cop1 (targetField w))
  | 18 => .ok (.cop2 (targetField w))
  | 19 => .ok (.cop3 (targetField w))
  | 32 => .ok (.lb rs rt imm)
  | 33 => .ok (.lh rs rt imm)
  | 34 => .ok (.lwl rs rt imm)
  | 35 => .ok (.lw rs rt imm)
  | 36 => .ok (.lbu rs rt imm)
  | 37 => .ok (.lhu rs rt imm)
  | 38 => .ok (.lwr rs rt imm)
  | 40 => .ok (.sb rs rt imm)
  | 41 => .ok (.sh rs rt imm)
  | 42 => .ok (.swl rs rt imm)
  | 43 => .ok (.sw rs rt imm)
  | 46 => .ok (.swr rs rt imm)
  | 48 => .ok (.lwc0 rs rt imm)
  | 49 => .ok (.lwc1 rs rt imm)
  | 50 => .ok (.lwc2 rs rt imm)
  | 51 => .ok (.lwc3 rs rt imm)
  | 56 => .ok (.swc0 rs rt imm)
  | 57 => .ok (.swc1 rs rt imm)
  | 58 => .ok (.swc2 rs rt imm)
  | 59 => .ok (.swc3 rs rt imm)
  | _ => .error .reservedInstruction

/-- The word whose four bytes stand at ascending addresses: the first is the most significant in big-endian memory
and the least significant in little-endian memory (R78, R82, R112). -/
def wordOfBytes (bigEndianMem : Bool) (b0 b1 b2 b3 : Byte) : Word :=
  if bigEndianMem then b0 ++ b1 ++ b2 ++ b3 else b3 ++ b2 ++ b1 ++ b0

/-- The byte of a word that stands at offset `k` (0 to 3) of its address (R82). -/
def byteOfWord (bigEndianMem : Bool) (w : Word) (k : Nat) : Byte :=
  w.extractLsb' (8 * (if bigEndianMem then 3 - k else k)) 8

/-- Decoding of four bytes at ascending addresses. -/
def decodeBytes (bigEndianMem : Bool) (b0 b1 b2 b3 : Byte) : Except Reject Instr :=
  decode (wordOfBytes bigEndianMem b0 b1 b2 b3)

/-- What the decoder reads from an instruction whose bits are `w`, numbered as the opcode table numbers them; bits
at `nbits` and above are 0. The word is laid out in big-endian memory, as State.reset's mode pins have it. -/
def decodeTableWord (nbits w : Nat) : Option Instr :=
  let word : Word := BitVec.ofNat 32 (w % 2 ^ nbits)
  match decodeBytes true (byteOfWord true word 0) (byteOfWord true word 1) (byteOfWord true word 2)
      (byteOfWord true word 3) with
  | .ok i => some i
  | .error _ => none

/-! ### Encoding -/

/-- An I-type word (R121). -/
def iType (op : BitVec 6) (rs rt : Reg) (immediate : Half) : Word := op ++ rs ++ rt ++ immediate

/-- An R-type word (R121). -/
def rType (op : BitVec 6) (rs rt rd sa : BitVec 5) (funct : BitVec 6) : Word := op ++ rs ++ rt ++ rd ++ sa ++ funct

/-- A J-type word (R121). -/
def jType (op : BitVec 6) (target : BitVec 26) : Word := op ++ target

/-- The word of an instruction, from the rows of R134 and R137. -/
def encode : Instr → Word
  | .lb base rt offset => iType 0b100000#6 base rt offset
  | .lh base rt offset => iType 0b100001#6 base rt offset
  | .lwl base rt offset => iType 0b100010#6 base rt offset
  | .lw base rt offset => iType 0b100011#6 base rt offset
  | .lbu base rt offset => iType 0b100100#6 base rt offset
  | .lhu base rt offset => iType 0b100101#6 base rt offset
  | .lwr base rt offset => iType 0b100110#6 base rt offset
  | .sb base rt offset => iType 0b101000#6 base rt offset
  | .sh base rt offset => iType 0b101001#6 base rt offset
  | .swl base rt offset => iType 0b101010#6 base rt offset
  | .sw base rt offset => iType 0b101011#6 base rt offset
  | .swr base rt offset => iType 0b101110#6 base rt offset
  | .addi rs rt imm => iType 0b001000#6 rs rt imm
  | .addiu rs rt imm => iType 0b001001#6 rs rt imm
  | .slti rs rt imm => iType 0b001010#6 rs rt imm
  | .sltiu rs rt imm => iType 0b001011#6 rs rt imm
  | .andi rs rt imm => iType 0b001100#6 rs rt imm
  | .ori rs rt imm => iType 0b001101#6 rs rt imm
  | .xori rs rt imm => iType 0b001110#6 rs rt imm
  | .lui rt imm => iType 0b001111#6 0 rt imm
  | .add rs rt rd => rType 0 rs rt rd 0 0b100000#6
  | .addu rs rt rd => rType 0 rs rt rd 0 0b100001#6
  | .sub rs rt rd => rType 0 rs rt rd 0 0b100010#6
  | .subu rs rt rd => rType 0 rs rt rd 0 0b100011#6
  | .and rs rt rd => rType 0 rs rt rd 0 0b100100#6
  | .or rs rt rd => rType 0 rs rt rd 0 0b100101#6
  | .xor rs rt rd => rType 0 rs rt rd 0 0b100110#6
  | .nor rs rt rd => rType 0 rs rt rd 0 0b100111#6
  | .slt rs rt rd => rType 0 rs rt rd 0 0b101010#6
  | .sltu rs rt rd => rType 0 rs rt rd 0 0b101011#6
  | .sll rt rd sa => rType 0 0 rt rd sa 0b000000#6
  | .srl rt rd sa => rType 0 0 rt rd sa 0b000010#6
  | .sra rt rd sa => rType 0 0 rt rd sa 0b000011#6
  | .sllv rs rt rd => rType 0 rs rt rd 0 0b000100#6
  | .srlv rs rt rd => rType 0 rs rt rd 0 0b000110#6
  | .srav rs rt rd => rType 0 rs rt rd 0 0b000111#6
  | .mult rs rt => rType 0 rs rt 0 0 0b011000#6
  | .multu rs rt => rType 0 rs rt 0 0 0b011001#6
  | .div rs rt => rType 0 rs rt 0 0 0b011010#6
  | .divu rs rt => rType 0 rs rt 0 0 0b011011#6
  | .mfhi rd => rType 0 0 0 rd 0 0b010000#6
  | .mthi rs => rType 0 rs 0 0 0 0b010001#6
  | .mflo rd => rType 0 0 0 rd 0 0b010010#6
  | .mtlo rs => rType 0 rs 0 0 0 0b010011#6
  | .j target => jType 0b000010#6 target
  | .jal target => jType 0b000011#6 target
  | .jr rs => rType 0 rs 0 0 0 0b001000#6
  | .jalr rs rd => rType 0 rs 0 rd 0 0b001001#6
  | .beq rs rt offset => iType 0b000100#6 rs rt offset
  | .bne rs rt offset => iType 0b000101#6 rs rt offset
  | .blez rs offset => iType 0b000110#6 rs 0 offset
  | .bgtz rs offset => iType 0b000111#6 rs 0 offset
  | .bltz rs offset => iType 0b000001#6 rs 0b00000#5 offset
  | .bgez rs offset => iType 0b000001#6 rs 0b00001#5 offset
  | .bltzal rs offset => iType 0b000001#6 rs 0b10000#5 offset
  | .bgezal rs offset => iType 0b000001#6 rs 0b10001#5 offset
  | .syscall => rType 0 0 0 0 0 0b001100#6
  | .brk code => 0#6 ++ code ++ 0b001101#6
  | .mfc0 rt rd => rType 0b010000#6 0b00000#5 rt rd 0 0
  | .mtc0 rt rd => rType 0b010000#6 0b00100#5 rt rd 0 0
  | .bc0f offset => iType 0b010000#6 0b01000#5 0b00000#5 offset
  | .bc0t offset => iType 0b010000#6 0b01000#5 0b00001#5 offset
  | .rfe => rType 0b010000#6 0b10000#5 0 0 0 0b010000#6
  | .cop1 cofun => jType 0b010001#6 cofun
  | .cop2 cofun => jType 0b010010#6 cofun
  | .cop3 cofun => jType 0b010011#6 cofun
  | .lwc0 base rt offset => iType 0b110000#6 base rt offset
  | .lwc1 base rt offset => iType 0b110001#6 base rt offset
  | .lwc2 base rt offset => iType 0b110010#6 base rt offset
  | .lwc3 base rt offset => iType 0b110011#6 base rt offset
  | .swc0 base rt offset => iType 0b111000#6 base rt offset
  | .swc1 base rt offset => iType 0b111001#6 base rt offset
  | .swc2 base rt offset => iType 0b111010#6 base rt offset
  | .swc3 base rt offset => iType 0b111011#6 base rt offset
  | .tlbr => rType 0b010000#6 0b10000#5 0 0 0 0b000001#6
  | .tlbwi => rType 0b010000#6 0b10000#5 0 0 0 0b000010#6
  | .tlbwr => rType 0b010000#6 0b10000#5 0 0 0 0b000110#6
  | .tlbp => rType 0b010000#6 0b10000#5 0 0 0 0b001000#6

end Sys2Proof
end

