-- ==== Sys2Proof/Machine/Phase.lean ====
section
/-! DEFINITION. What a step does before its instruction is executed (10_state.md R27): the environment and the pins,
the drain of the write buffer, reset, the interrupt test, the fetch and the decoding. -/

namespace Sys2Proof.Machine

/-! ### Environment -/

/-- Bytes written by another master (R109): ordinary memory takes them, neither cache sees them. -/
def masterWrite (platform : List Region) : List (Word × Byte) → Memory → Memory
  | [], m => m
  | (a, b) :: rest, m => masterWrite platform rest (if answerAt platform a = .memory then m.write a.toNat b else m)

/-- Another master holds the bus in this entry of the schedule: not in a RESET, which ends a hold at once (R330, R405),
and not while a bus cycle is not complete (R327). -/
def State.granted (s : State) (e : EnvStep) : Bool := e.inputs.hold && e.reset.isNone && s.bus == .free

/-- The environment's part of a step: the pins are sampled, and another master writes while it holds the bus (D36). Once
the schedule has ended, a hold is released (R430(d)). -/
def State.environment (s : State) : State :=
  match s.schedule with
  | [] => { s with inputs := { s.inputs with hold := false } }
  | e :: rest =>
    { s with
      inputs := { e.inputs with hold := s.granted e }
      schedule := rest
      mem := if s.granted e then masterWrite s.platform e.masterWrites s.mem else s.mem }

/-- How many writes the BIU performs in a step: what the schedule says, and at least one once it has ended, so that
every buffered write is performed in the end (R430(b), R432; log entry 34). A waiting read goes first (`State.drain`). -/
def State.pace (s : State) : Nat := if s.schedule.isEmpty then max 1 s.inputs.biuWrites else s.inputs.biuWrites

/-- The BIU's part of a step: it performs writes, but none while another master holds the bus, nor while a read of the core
that a hold made wait is still to be done: hold, then read, then write (R104, R430(b); log entry 38). -/
def State.drain (s : State) : State := if s.inputs.hold || s.readWaiting then s else s.biuWriteN s.pace

/-- Pins sampled (R18(d)), caches cleared by their pins (R98), the write buffer drained (R18(b)). -/
def State.sample (s : State) : State := s.environment.applyClearPins.drain

/-- The RESET pulse of this step, if any (R27(1)). -/
def State.resetPulse (s : State) : Option ResetPulse :=
  match s.schedule with
  | [] => none
  | e :: _ => e.reset

/-- The step is one of the BIU and the environment alone: the core does nothing in it (R18). -/
def State.coreIdle (s : State) : Bool :=
  match s.schedule with
  | [] => false
  | e :: _ => !e.core

/-! ### Interrupts (R361) -/

/-- `IntRequest`: IEc = 1 and a pending bit that IntMask enables; `pending` is IP || SW. -/
def intRequest (ip : BitVec 6) (v : Cp0View) : Bool := v.sr.iec && (ip ++ v.sw) &&& v.sr.intMask != 0

/-- The interrupt test of a step, with the SR and Cause values it sees. -/
def State.interrupted (s : State) : Bool × State := s.useCp0 (intRequest s.inputs.int)

/-- What a word without a row does (R136, R139): RI for a reserved opcode or SPECIAL function; for another COP0 word
CpU if CP0 is unusable (R251); a refusal for the rest (R132, R135). -/
def State.rejected (s : State) (r : Reject) : Host.Outcome State Fault Refusal :=
  match r with
  | .reservedInstruction => .next (s.takeException .ri)
  | .unlistedCop0 =>
    if s.cp0Unusable.1 then .next (s.cp0Unusable.2.takeException (.cpu 0)) else .refused .unlistedCop0
  | .blankBcond => .refused .unlistedWord
  | .nonzeroConstantField => .refused .unlistedWord

/-! ### The phase before execution -/

/-- What precedes execution leads to. -/
inductive Fetched where
  /-- An instruction to execute in a state. -/
  | run (i : Instr) (s : State)
  /-- The step ends without one. -/
  | ended (o : Host.Outcome State Fault Refusal)

/-- The fetch and the decoding, in a state where no interrupt is taken. -/
def State.fetchDecode (s : State) : Fetched :=
  match s.fetchWord with
  | .done w t =>
    match decode w with
    | .ok i => .run i t
    | .error r => .ended (t.rejected r)
  | .raise x t => .ended (.next (t.takeException x))
  | .stall read => .ended (.next (s.stalled read))
  | .stuck t => .ended t.waits
  | .refuse r => .ended (.refused r)

/-- A step up to the execution of an instruction (R27, in the order of R366): reset, interrupt, fetch. In a step with a
RESET nothing else happens. A forbidden combination of mode pins is refused, at the reset that samples it and afterwards
(R336). A core that waits for a bus cycle that never completes goes on waiting (R77). In a step of the BIU and the environment
alone nothing else happens (R18). -/
def State.fetchPhase (s : State) : Fetched :=
  let t := s.sample
  match s.resetPulse with
  | some r =>
    if r.mode.legal then .ended (.next (s.environment.resetBy r)) else .ended (.refused .forbiddenModePins)
  | none =>
    if !t.mode.legal then .ended (.refused .forbiddenModePins)
    else if t.bus = .coreStuck then .ended t.waits
    else if s.coreIdle then .ended (.next t)
    else if t.interrupted.1 then .ended (.next (t.interrupted.2.takeException .interrupt))
    else t.interrupted.2.fetchDecode

/-! ### Placing an instruction where the next fetch reads it -/

/-- An instruction word stored at the physical address that `pc` fetches from, where the platform then has memory: its
four bytes in the reset byte order, no buffered write left to that word and no recent store to it, and for a cached
address no entry in the instruction cache at its index. -/
def State.storeFetchWord (s : State) (w : Word) : State :=
  match translate false s.pc with
  | none => s
  | some (pa, uncached) =>
    { s with
      mem := writeLanes s.mode.bigEndianMem s.mem (wordAddr pa) 0b1111 w
      platform := if s.backed pa then s.platform else ⟨wordAddr pa, wordAddr pa, .memory⟩ :: s.platform
      writeBuffer := s.writeBuffer.filter (fun e => wordAddr e.addr != wordAddr pa)
      recentStores := s.recentStores.map fun e => e.filter (fun x => x.addr != wordAddr pa)
      icache := if uncached then s.icache else tableSet (icacheIndex pa) none s.icache }

end Sys2Proof.Machine
end

