-- ==== Sys2Proof/Machine/Step.lean ====
section
/-! DEFINITION. One step (10_state.md R27), and the placing of an instruction where the next step fetches it. -/

namespace Sys2Proof.Machine

/-- One step: what precedes execution (Machine/Phase.lean), then the instruction. -/
def step (s : State) : Host.Outcome State Fault Refusal :=
  match s.fetchPhase with
  | .run i t => exec i t
  | .ended o => o

/-- The state with an instruction, its bits numbered as the opcode table numbers them and those at `nbits` and above
zero, stored where `step` fetches its next instruction. -/
def State.withFetchWord (s : State) (nbits w : Nat) : State := s.storeFetchWord (BitVec.ofNat 32 (w % 2 ^ nbits))

end Sys2Proof.Machine
end

