-- ==== Sys2Proof/Safety.lean ====
section
/-! DEFINITION. The terms in which claims about runs are stated: what a state must satisfy, what an instruction leaves
unchanged, what memory holds once the write buffer has drained, when the data cache agrees with it. -/

namespace Sys2Proof.Machine

/-! ### The invariant -/

/-- The lane masks that stores produce (R93): SB, SH, SW, SWL, SWR and no other. -/
def storeMask (m : BitVec 4) : Bool :=
  m == 0b0001 || m == 0b0010 || m == 0b0100 || m == 0b1000 || m == 0b0011 || m == 0b1100 || m == 0b1111 ||
    m == 0b0111 || m == 0b1110

/-- The unused 1 GB of physical addresses, 0x80000000 to 0xBFFFFFFF, which the chip never drives (R74). -/
def unusedSpace (a : Word) : Bool := a.extractLsb' 30 2 == 0b10#2

/-- What every step keeps, whatever the state it starts from: memory and both caches in their canonical form, at most
four buffered writes (R61) with masks that stores produce and addresses outside the unused space, no hold while a bus
cycle is not complete (R327), no load delay on r0 (R30), `npc` four past `pc` outside delay slots (R27), at most four
recent stores (R110(e)), an allowed combination of mode pins (R336). -/
structure Inv (s : State) : Prop where
  memory : s.mem.wf
  icache : tableRising s.icache ∧ ∀ e ∈ s.icache, e.1 < 1024
  dcache : tableRising s.dcache ∧ ∀ e ∈ s.dcache, e.1 < 256
  buffer : s.writeBuffer.length ≤ 4
  entries : ∀ e ∈ s.writeBuffer, storeMask e.mask = true ∧ unusedSpace e.addr = false
  held : s.inputs.hold = true → s.bus = .free
  loadSlot : s.ldSlot ≠ some 0
  sequence : s.inDelaySlot = false → s.npc = s.pc + 4
  recent : s.recentStores.length ≤ 4
  mode : s.mode.legal = true

/-- The address that a bus cycle shows. -/
def BusCycle.addr : BusCycle → Word
  | .read a _ => a
  | .blockRead a _ => a
  | .write a _ _ => a

/-! ### What an instruction reads, writes and leaves -/

/-- `a` may be what a source operand read of register `r` gives: the register's content, or any value while the
preceding instruction loaded `r` (R30, U4). -/
def State.Reads (s : State) (r : Reg) (a : Word) : Prop := s.ldSlot ≠ some r → a = s.readGpr r

/-- From `s` to `t` an instruction wrote register `r` with `v`, and no other general register changed: a write to r0 is
discarded (R21). Right after a load into `r` the write wins as well (R411; log entry 12, DEDUCED). -/
structure WritesOnly (s t : State) (r : Reg) (v : Word) : Prop where
  value : r ≠ 0 → t.readGpr r = v
  zero : t.readGpr 0 = 0
  others : ∀ q, q ≠ r → t.readGpr q = s.readGpr q

/-- No general register changed. -/
def SameGprs (s t : State) : Prop := ∀ q, t.readGpr q = s.readGpr q

/-- HI and LO, and the cell that tells who wrote them last, are unchanged. -/
structure SameHiLo (s t : State) : Prop where
  hi : t.hi = s.hi
  lo : t.lo = s.lo
  mdFresh : t.mdFresh = s.mdFresh

/-- Every CP0 register is unchanged. -/
structure SameCp0 (s t : State) : Prop where
  sr : t.sr = s.sr
  cause : t.cause = s.cause
  epc : t.epc = s.epc
  badVAddr : t.badVAddr = s.badVAddr
  pteBase : t.pteBase = s.pteBase

/-- Every byte of memory, the write buffer, the caches and the bus are unchanged. -/
structure SameMemory (s t : State) : Prop where
  bytes : ∀ a, t.mem.read a = s.mem.read a
  writeBuffer : t.writeBuffer = s.writeBuffer
  icache : t.icache = s.icache
  dcache : t.dcache = s.dcache
  trace : t.trace = s.trace

/-- The pins, what is behind the bus, and what the environment will do are unchanged; no bus cycle has got stuck. -/
structure SamePins (s t : State) : Prop where
  platform : t.platform = s.platform
  bus : t.bus = s.bus
  mode : t.mode = s.mode
  inputs : t.inputs = s.inputs
  schedule : t.schedule = s.schedule

/-- How an instruction that completes moves on: `pc` and `npc` (R27), and the cells that the next steps test (R29, R30,
R33, R104, R110(e), R247, R262). -/
structure Completes (s t : State) (r : Retire) : Prop where
  pc : t.pc = s.npc
  npc : t.npc = r.target.getD (s.npc + 4)
  inDelaySlot : t.inDelaySlot = r.branch
  ldSlot : t.ldSlot = if r.load = some 0 then none else r.load
  sinceMfhi : (t.sinceMfhi : Nat) = if r.mfhi then 0 else min 2 ((s.sinceMfhi : Nat) + 1)
  sinceMflo : (t.sinceMflo : Nat) = if r.mflo then 0 else min 2 ((s.sinceMflo : Nat) + 1)
  sinceStore : (t.sinceStore : Nat) = if r.store then 0 else min 2 ((s.sinceStore : Nat) + 1)
  recentStores : t.recentStores = (r.overwrote :: s.recentStores).take 4
  afterMtc0 : t.afterMtc0 = r.mtc0
  prevMem : t.prevMem = r.memory
  readWaiting : t.readWaiting = false

/-- The CP0 values that a use in this step may see: those that stand, or in the step right after an MTC0 those from
before it (R255, D23). -/
def State.MaySee (s : State) (v : Cp0View) : Prop := v = s.cp0View ∨ s.afterMtc0 = some v

/-- CP0 is unusable (R258), whichever values the step sees. -/
def State.NoCp0 (s : State) : Prop := ∀ v, s.MaySee v → v.sr.kuc = true ∧ v.sr.cu.getLsbD 0 = false

/-- CP0 is usable (R258), whichever values the step sees. -/
def State.HasCp0 (s : State) : Prop := ∀ v, s.MaySee v → v.sr.kuc = false ∨ v.sr.cu.getLsbD 0 = true

/-- The six fields of the KU/IE stack of `t` are these, and every other field of SR is that of `s`. -/
structure StackIs (s t : State) (kuo ieo kup iep kuc iec : Bool) : Prop where
  kuo : t.sr.kuo = kuo
  ieo : t.sr.ieo = ieo
  kup : t.sr.kup = kup
  iep : t.sr.iep = iep
  kuc : t.sr.kuc = kuc
  iec : t.sr.iec = iec
  rest : t.sr.cu = s.sr.cu ∧ t.sr.re = s.sr.re ∧ t.sr.bev = s.sr.bev ∧ t.sr.cm = s.sr.cm ∧ t.sr.swc = s.sr.swc ∧
    t.sr.isc = s.sr.isc ∧ t.sr.intMask = s.sr.intMask

/-! ### The frames of the instruction groups -/

/-- A computational instruction (R170): register `rd` receives `v`, and nothing else changes but how the pc moves on. -/
structure Computes (s t : State) (rd : Reg) (v : Word) : Prop where
  result : WritesOnly s t rd v
  hiLo : SameHiLo s t
  cp0 : SameCp0 s t
  memory : SameMemory s t
  pins : SamePins s t
  completes : Completes s t {}

/-- An instruction that writes HI and LO: nothing else changes but how the pc moves on (R213). -/
structure KeepsAllButHiLo (s t : State) : Prop where
  gprs : SameGprs s t
  cp0 : SameCp0 s t
  memory : SameMemory s t
  pins : SamePins s t
  completes : Completes s t {}

/-- A jump, or a branch taken or not: after the delay slot the pc is at `target` if taken, else behind the delay slot;
nothing changes but the pc and perhaps a link register (R215, R227). -/
structure Transfers (s t : State) (taken : Bool) (target : Word) : Prop where
  hiLo : SameHiLo s t
  cp0 : SameCp0 s t
  memory : SameMemory s t
  pins : SamePins s t
  completes : Completes s t { target := if taken then some target else none, branch := true }

/-! ### Memory as the program sees it -/

/-- The byte at a physical address once every buffered write has been performed. -/
def State.seenByte (s : State) (a : Word) : Byte := s.settled.read a.toNat

/-- The halfword of the two bytes at an even physical address, in the reset byte order (R78). -/
def State.seenHalf (s : State) (a : Word) : Half :=
  if s.mode.bigEndianMem then s.seenByte a ++ s.seenByte (a + 1) else s.seenByte (a + 1) ++ s.seenByte a

/-- The word of the four bytes at an aligned physical address, in the reset byte order (R78). -/
def State.seenWord (s : State) (a : Word) : Word :=
  if s.mode.bigEndianMem then s.seenByte a ++ s.seenByte (a + 1) ++ s.seenByte (a + 2) ++ s.seenByte (a + 3)
  else s.seenByte (a + 3) ++ s.seenByte (a + 2) ++ s.seenByte (a + 1) ++ s.seenByte a

/-- User-mode accesses have their byte order reversed (R80). -/
def State.reversed (s : State) : Bool := s.sr.re && s.sr.kuc

/-- The physical address that a reference of a size touches: while the byte order is reversed, bit 1 of a halfword
reference and bits 1 and 0 of a byte reference are inverted, a word reference is not (R80). -/
def State.touched (s : State) (n : Size) (pa : Word) : Word :=
  if s.reversed then
    match n with
    | .byte => pa ^^^ 3
    | .half => pa ^^^ 2
    | .word => pa
  else pa

/-- The data cache agrees with memory (R97): no entry is in the unknown state, and every valid entry of an address with
memory behind it holds the word that memory holds there once the write buffer has drained. -/
structure Coherent (s : State) : Prop where
  known : ∀ e ∈ s.dcache, e.2 ≠ .unknown
  agrees : ∀ (k : Nat) (tag : BitVec 22) (d : Word), tableGet k s.dcache = some (.line true tag d) →
    s.backed (tag ++ BitVec.ofNat 8 k ++ 0#2) = true → d = s.seenWord (tag ++ BitVec.ofNat 8 k ++ 0#2)

/-- A data access to a virtual address is allowed in the current mode (R71, R73). -/
def State.mayAccess (s : State) (va : Word) : Bool := !(s.sr.kuc && va.getLsbD 31)

/-- The physical address of a virtual address, by segment (R72). -/
def physical (va : Word) : Word :=
  if va.extractLsb' 30 2 = 0b10#2 then va &&& 0x1FFFFFFF else va

/-- A virtual address in kseg1, the segment that does not use the caches (R72). -/
def inKseg1 (va : Word) : Bool := va.extractLsb' 29 3 == 0b101#3

/-- Data accesses to a virtual address see memory as the program wrote it: the segment does not use the caches, or the
data cache agrees with memory and is not swapped (R97). -/
def State.SeesMemory (s : State) (va : Word) : Prop := inKseg1 va = true ∨ (Coherent s ∧ s.sr.swc = false)

/-- A load or store with this base and offset goes to memory at `va`: the base is not still being loaded, no MTC0 just
before (R417), the caches are not isolated (R100), the mode may use the address (R73). -/
structure Addresses (s : State) (base : Reg) (offset : Half) (va : Word) : Prop where
  settled : s.ldSlot ≠ some base
  addr : va = s.readGpr base + offset.signExtend 32
  mtc0 : s.afterMtc0 = none
  isolated : s.sr.isc = false
  mode : s.mayAccess va = true
  sees : s.SeesMemory va

/-- The BIU performs whatever it is asked for: no hold, no cycle stuck, and something answers every buffered write (R77,
R329). -/
structure State.BusReady (s : State) : Prop where
  hold : s.inputs.hold = false
  bus : s.bus = .free
  answered : ∀ e ∈ s.writeBuffer, s.answer e.addr ≠ .absent

/-- A read of a virtual address, by a block read if `block` holds and the segment uses the caches, is answered, and by
memory: the BIU is ready, memory stands behind the word, and something answers the first word of the block (R77, R314). -/
structure State.Readable (s : State) (block : Bool) (va : Word) : Prop where
  ready : s.BusReady
  backed : s.backed (physical va) = true
  block : block = true → inKseg1 va = false → s.answer (blockAddr (physical va)) ≠ .absent

/-- The write buffer takes another entry, if need be after the BIU has performed the oldest one (R103, R329). -/
def State.HasRoom (s : State) : Prop :=
  s.writeBuffer.length < 4 ∨
    (s.inputs.hold = false ∧ s.bus = .free ∧ ∀ e, s.writeBuffer.head? = some e → s.answer e.addr ≠ .absent)

/-- What a load leaves but for its register: no byte of memory as the program sees it changes, and nothing else but the
data cache, the bus and how the pc moves on (R163, R167). -/
structure LoadFrame (s t : State) (rt : Reg) : Prop where
  bytes : ∀ a, t.seenByte a = s.seenByte a
  icache : t.icache = s.icache
  hiLo : SameHiLo s t
  cp0 : SameCp0 s t
  pins : SamePins s t
  completes : Completes s t { load := some rt, memory := true }

/-- A load: register `rt` receives `v`. -/
structure Loads (s t : State) (rt : Reg) (v : Word) : Prop where
  result : WritesOnly s t rt v
  frame : LoadFrame s t rt

/-- The byte that a store puts into lane `j` of the word at its address, `none` where it stores none, from register value
`v` in the byte order in force (R82, R93, R158 to R162). -/
def storedLane (big : Bool) (va v : Word) (i : Instr) (j : Nat) : Option Byte :=
  let k := if big then 3 - va.toNat % 4 else va.toNat % 4
  let h := if big then 2 - va.toNat % 4 else va.toNat % 4
  match i with
  | .sb _ _ _ => if j = k then some (laneByte v 0) else none
  | .sh _ _ _ => if h ≤ j ∧ j < h + 2 then some (laneByte v (j - h)) else none
  | .sw _ _ _ => some (laneByte v j)
  | .swl _ _ _ => if j ≤ k then some (laneByte v (3 - k + j)) else none
  | .swr _ _ _ => if k ≤ j then some (laneByte v (j - k)) else none
  | _ => none

/-- The loads of a base, register and offset that may use an address, but for LWL and LWR, each with the value that it
loads from there (R80, R83, R151 to R155). -/
def State.loadsAt (s : State) (base rt : Reg) (offset : Half) (va : Word) : List (Instr × Word) :=
  [(.lb base rt offset, (s.seenByte (s.touched .byte (physical va))).signExtend 32),
    (.lbu base rt offset, (s.seenByte (s.touched .byte (physical va))).setWidth 32)] ++
  (if va.getLsbD 0 then []
   else
    [(.lh base rt offset, (s.seenHalf (s.touched .half (physical va))).signExtend 32),
      (.lhu base rt offset, (s.seenHalf (s.touched .half (physical va))).setWidth 32)]) ++
  (if va.extractLsb' 0 2 = 0#2 then [(.lw base rt offset, s.seenWord (physical va))] else [])

/-- The stores of a base, register and offset that may use an address (R83, R158 to R162). -/
def storesAt (base rt : Reg) (offset : Half) (va : Word) : List Instr :=
  [.sb base rt offset, .swl base rt offset, .swr base rt offset] ++
  (if va.getLsbD 0 then [] else [.sh base rt offset]) ++
  (if va.extractLsb' 0 2 = 0#2 then [.sw base rt offset] else [])

/-- The loads of a base, register and offset that may use an address, LWL and LWR among them (R83, R151 to R157). -/
def loadInstrsAt (base rt : Reg) (offset : Half) (va : Word) : List Instr :=
  [.lb base rt offset, .lbu base rt offset, .lwl base rt offset, .lwr base rt offset] ++
  (if va.getLsbD 0 then [] else [.lh base rt offset, .lhu base rt offset]) ++
  (if va.extractLsb' 0 2 = 0#2 then [.lw base rt offset] else [])

/-- The value that a load at an address takes from the word that it found there, in the byte order in force: LB, LBU, LH and
LHU extend its bytes, LWL and LWR merge them with the register's old content (R90, R151 to R157). -/
def loadedFrom (big : Bool) (va word old : Word) (i : Instr) : Word :=
  let k := if big then 3 - va.toNat % 4 else va.toNat % 4
  let h := if big then 2 - va.toNat % 4 else va.toNat % 4
  let left := fun j => if 3 - k ≤ j then laneByte word (j - (3 - k)) else laneByte old j
  let right := fun j => if j + k ≤ 3 then laneByte word (j + k) else laneByte old j
  match i with
  | .lb _ _ _ => (laneByte word k).signExtend 32
  | .lbu _ _ _ => (laneByte word k).setWidth 32
  | .lh _ _ _ => (laneByte word (h + 1) ++ laneByte word h).signExtend 32
  | .lhu _ _ _ => (laneByte word (h + 1) ++ laneByte word h).setWidth 32
  | .lwl _ _ _ => left 3 ++ left 2 ++ left 1 ++ left 0
  | .lwr _ _ _ => right 3 ++ right 2 ++ right 1 ++ right 0
  | _ => word

/-- What a store to a physical address leaves for the fetches after it, which may have been done before it: the word that it
stores to, with what it was (R110(e)); nothing where there is no memory. -/
def State.overwrites (s : State) (pa : Word) : Option StoredWord :=
  if s.backed pa then some { addr := wordAddr pa, before := s.seenWord (wordAddr pa) } else none

/-- A store to a virtual address, but for the bytes of memory that it changes: nothing else but the write buffer, the data
cache, the bus and how the pc moves on (R167). -/
structure StoresOnly (s t : State) (va : Word) : Prop where
  gprs : SameGprs s t
  icache : t.icache = s.icache
  hiLo : SameHiLo s t
  cp0 : SameCp0 s t
  pins : SamePins s t
  completes : Completes s t { store := true, memory := true, overwrote := s.overwrites (physical va) }

/-- From `s` to `t` the bus may have worked (memory, write buffer and trace), and free values may have been used, but
no byte of memory as the program sees it changed, and nothing else did. -/
structure OnlyBus (s t : State) : Prop where
  rest : t = { s with
    mem := t.mem, writeBuffer := t.writeBuffer, trace := t.trace, freeIndex := t.freeIndex }
  seen : ∀ a, t.seenByte a = s.seenByte a

/-! ### Steps -/

/-- An enabled interrupt is requested: IEc, and a bit of IntMask whose pending bit is set, bits 1:0 being SW and bits 7:2
the INT pins (R361). -/
def State.Requested (s : State) (v : Cp0View) : Prop :=
  v.sr.iec = true ∧ ∃ k < 8, v.sr.intMask.getLsbD k = true ∧
    (if k < 2 then v.sw.getLsbD k else s.inputs.int.getLsbD (k - 2)) = true

/-- From `s` a step of the core starts (R18), its environment's part leading to `t`: no RESET, an allowed combination of
mode pins (R27, R336), the core not waiting for a bus cycle that never completes (R77). -/
structure Starts (s t : State) : Prop where
  sampled : t = s.sample
  noReset : s.resetPulse = none
  legal : t.mode.legal = true
  running : t.bus ≠ .coreStuck
  core : s.coreIdle = false

/-- No interrupt is requested, whichever CP0 values the step sees (R361). -/
def State.Undisturbed (s : State) : Prop := ∀ v, s.MaySee v → ¬ s.Requested v

/-- An address may be fetched from: a word boundary, and not an address with bit 31 set in user mode, whichever mode the
step sees (R94, R352). -/
def State.FetchableAt (s : State) (va : Word) : Prop :=
  va.extractLsb' 0 2 = 0#2 ∧ ∀ v, s.MaySee v → v.sr.kuc = true → va.getLsbD 31 = false

/-- The pc may be fetched from. -/
def State.Fetchable (s : State) : Prop := s.FetchableAt s.pc

/-- A fetch from an address is cached: not in kseg1, and with the caches not swapped (R72, R101), whichever value the step
sees. -/
def State.CachedAt (s : State) (va : Word) : Prop :=
  inKseg1 va = false ∧ ∀ v, s.MaySee v → v.sr.swc = false

/-- The fetch from the pc is cached. -/
def State.CachedFetch (s : State) : Prop := s.CachedAt s.pc

/-- The entry of the instruction cache that a physical address selects (R63): bits 11:2. -/
def State.icacheEntry (s : State) (pa : Word) : Option (CacheEntry 20) := tableGet (pa.extractLsb' 2 10).toNat s.icache

/-- The entry of the data cache that a physical address selects (R64): bits 9:2. -/
def State.dcacheEntry (s : State) (pa : Word) : Option (CacheEntry 22) := tableGet (pa.extractLsb' 2 8).toNat s.dcache

/-- A cached access of a physical address misses in the instruction cache (R95, R98). -/
def State.MissesInstr (s : State) (pa : Word) : Prop :=
  s.inputs.icclr = true ∨ s.icacheEntry pa = none ∨ ∃ valid tag w, s.icacheEntry pa = some (.line valid tag w) ∧
    (valid = false ∨ tag ≠ pa.extractLsb' 12 20)

/-- A cached access of a physical address misses in the data cache (R95, R98). -/
def State.MissesData (s : State) (pa : Word) : Prop :=
  s.inputs.dcclr = true ∨ s.dcacheEntry pa = none ∨ ∃ valid tag w, s.dcacheEntry pa = some (.line valid tag w) ∧
    (valid = false ∨ tag ≠ pa.extractLsb' 10 22)

/-- What a load finds at an aligned physical address: what memory holds once the write buffer has drained (R105). -/
def State.Finds (s : State) (a w : Word) : Prop := w = s.seenWord a

/-- What an instruction fetch may find at an aligned physical address: what memory holds once the write buffer has drained,
or what it held before a store of one of the last four instructions, which may have been fetched before it was executed
(R110(b), (c), (e)). -/
def State.MayFetch (s : State) (a w : Word) : Prop :=
  w = s.seenWord a ∨ some { addr := a, before := w } ∈ s.recentStores

/-- The words that a refill for an aligned address reads: its own, or with `block` the four of its 16-byte block (R95). -/
def refillWord (block : Bool) (pa a : Word) : Prop :=
  a = pa ∨ (block = true ∧ a.extractLsb' 0 2 = 0#2 ∧ a.extractLsb' 4 28 = pa.extractLsb' 4 28)

/-- A cache whose entries are selected by `index` and compared by `tag`, after these words of memory were filled in (R95),
or with its clear pin active, when the refill is dropped (R98): a filled entry of a word with memory behind it is valid
with the tag and a word that the read of its address may find, every other entry is as before. -/
structure Refilled {n : Nat} (s : State) (index : Word → Nat) (tag : Word → BitVec n) (words : Word → Prop)
    (finds : Word → Word → Prop) (cleared : Bool) (old new : List (Nat × CacheEntry n)) : Prop where
  dropped : cleared = true → new = old
  filled : cleared = false → ∀ a, words a → s.backed a = true →
    ∃ w, finds a w ∧ tableGet (index a) new = some (.line true (tag a) w)
  others : ∀ k, (∀ a, words a → k ≠ index a) → tableGet k new = tableGet k old

/-- What an isolated load finds in the entry that it selects, whatever its tag: the word `d`, and whether it records a miss
(R100). Where the entry is not listed or unknown the word is any value, and on an unknown entry so is the miss, unless the
clear pin is active (R98). -/
structure IsolatedFinds {n : Nat} (entry : Option (CacheEntry n)) (tag : BitVec n) (cleared : Bool) (d : Word)
    (missed : Bool) : Prop where
  line : ∀ valid tag' e, entry = some (.line valid tag' e) → d = e ∧ missed = !(valid && !cleared && decide (tag' = tag))
  unlisted : entry = none → missed = true
  clearing : entry = some .unknown → cleared = true → missed = true

/-- The entry that a store selects in a cache, from the bytes that it puts into the lanes of its word (R96): a store of the
whole word allocates it; a part invalidates it whatever its tag, or with STPART = 1 is merged on a hit and leaves it on a
miss. -/
structure StoredLine {n : Nat} (stpart : Bool) (tag : BitVec n) (lanes : Nat → Option Byte)
    (old new : Option (CacheEntry n)) : Prop where
  whole : (∀ j < 4, lanes j ≠ none) → ∃ d, new = some (.line true tag d) ∧ ∀ j < 4, lanes j = some (laneByte d j)
  invalidated : (∃ j < 4, lanes j = none) → stpart = false → ∀ valid tag' d, old = some (.line valid tag' d) →
    new = some (.line false tag' d)
  missed : (∃ j < 4, lanes j = none) → stpart = true → ∀ valid tag' d, old = some (.line valid tag' d) →
    (valid = false ∨ tag' ≠ tag) → new = old
  merged : (∃ j < 4, lanes j = none) → stpart = true → ∀ d, old = some (.line true tag d) →
    ∃ e, new = some (.line true tag e) ∧ ∀ j < 4, laneByte e j = (lanes j).getD (laneByte d j)
  unlisted : (∃ j < 4, lanes j = none) → old = none → new = none

/-- From `t` to `u` a word was fetched: nothing changed but the bus (memory, write buffer, trace), used free values and,
on a cached miss, the entries of the instruction cache that the refill fills; no byte of memory as the program sees it
changed (R94, R95). -/
structure FetchedOnly (t u : State) : Prop where
  bus : OnlyBus t { u with icache := t.icache }
  kept : inKseg1 t.pc = true ∨ ¬ t.MissesInstr (physical t.pc) → u.icache = t.icache
  filled : inKseg1 t.pc = false → t.MissesInstr (physical t.pc) →
    Refilled t icacheIndex icacheTag (refillWord t.mode.iblock (physical t.pc)) t.MayFetch t.inputs.icclr t.icache
      u.icache

/-- The fetch answers this word and no other: it reads memory in kseg1, it hits in the instruction cache, or it reads memory
on a miss (R94, R95, R110). -/
def State.Fetches (s : State) (w : Word) : Prop :=
  (inKseg1 s.pc = true ∧ s.Readable false s.pc ∧ ∀ v, s.MayFetch (physical s.pc) v → v = w) ∨
  (s.CachedFetch ∧ s.inputs.icclr = false ∧
    s.icacheEntry (physical s.pc) = some (.line true ((physical s.pc).extractLsb' 12 20) w)) ∨
  (s.CachedFetch ∧ s.MissesInstr (physical s.pc) ∧ s.Readable s.mode.iblock s.pc ∧
    ∀ v, s.MayFetch (physical s.pc) v → v = w)

/-! ### Exceptions -/

/-- The bus cycles of one single read of an aligned word, latest first, `sized` telling whether the platform asks for dynamic
sizing of this access (R331): four with 8-bit sizing, two with 16-bit sizing, dynamic or fixed, else one (R332 to R334). -/
def shownReads (p : ModePins) (sized : Bool) (a : Word) (type : ReadType) : List BusCycle :=
  if sized = true ∧ p.dbussiz = false then [.read (a + 3) type, .read (a + 2) type, .read (a + 1) type, .read a type]
  else if sized = true ∨ p.sbussiz = true then [.read (a + 2) type, .read a type]
  else [.read a type]

/-- The fetches that the pipeline has begun when an exception is taken, nearest first, each with its request for sizing: of the
words after the instruction, and before them of the instruction itself if an interrupt is taken instead of it; as many as
the state's inputs say, at most four (R88(d), R331; log entry 37). -/
def State.begun (s : State) (interrupt : Bool) : List (Word × Bool) :=
  (((if interrupt then [s.pc] else []) ++ [s.npc, s.npc + 4, s.npc + 8, s.npc + 12]).take 4).zip s.inputs.abortedFetches

/-- These fetches, each an address and its request for sizing, were aborted (R88(d)): their reads were done and their refills
stay, no byte of memory as the program sees it changed, and the bus may be left with a read that nothing answers (R77). A
fetch alone that reads memory shows its cycles in kseg1, sized as it asks (R331), and fills its entry of the instruction
cache on a miss elsewhere. -/
structure Aborts (s t : State) (fetches : List (Word × Bool)) : Prop where
  bytes : ∀ a, t.seenByte a = s.seenByte a
  dcache : t.dcache = s.dcache
  icache : ∀ k, tableGet k t.icache = tableGet k s.icache ∨ ∃ f ∈ fetches, inKseg1 f.1 = false ∧
    ∃ a w, refillWord s.mode.iblock (physical f.1) a ∧ k = icacheIndex a ∧
      tableGet k t.icache = some (.line true (icacheTag a) w) ∧ (s.backed a = true → s.MayFetch a w)
  buffer : ∀ e ∈ t.writeBuffer, e ∈ s.writeBuffer
  trace : ∃ cycles, t.trace = cycles ++ s.trace
  bus : t.bus = s.bus ∨ t.bus = .coreStuck
  goesOn : s.BusReady →
    (∀ f ∈ fetches, s.answer (physical f.1) ≠ .absent ∧ s.answer (blockAddr (physical f.1)) ≠ .absent) → t.bus = .free
  others : t.platform = s.platform ∧ t.mode = s.mode ∧ t.inputs = s.inputs ∧ t.schedule = s.schedule
  none : fetches = [] → SameMemory s t ∧ t.bus = s.bus
  read : ∀ va sized, fetches = [(va, sized)] → s.FetchableAt va → inKseg1 va = true → s.Readable false va →
    ∃ drained, t.trace = shownReads s.mode sized (physical va) (.uncached 3) ++ drained ++ s.trace
  filled : ∀ va sized, fetches = [(va, sized)] → s.FetchableAt va → s.CachedAt va → s.inputs.icclr = false →
    s.MissesInstr (physical va) → s.Readable s.mode.iblock va →
    ∃ w, s.MayFetch (physical va) w ∧
      t.icacheEntry (physical va) = some (.line true ((physical va).extractLsb' 12 20) w)

/-- The state after an exception entry (R370 to R374): what is saved, where the pc goes, what is cleared, and that
nothing else changes but by the fetches that it aborts (R88(d)); `ce` is given for CpU only, `bad` for address errors, and
code 0 is an interrupt. -/
structure Enters (s t : State) (code : BitVec 4) (ce : Option (BitVec 2)) (bad : Option Word) : Prop where
  epc : t.epc = if s.inDelaySlot then s.pc - 4 else s.pc
  bd : t.cause.bd = s.inDelaySlot
  excCode : t.cause.excCode = code
  ce : ∀ z, ce = some z → t.cause.ce = z
  sw : t.cause.sw = s.cause.sw
  badVAddr : t.badVAddr = bad.getD s.badVAddr
  stack : ∃ v, s.MaySee v ∧ StackIs s t v.sr.kup v.sr.iep v.sr.kuc v.sr.iec false false
  pc : ∃ v, s.MaySee v ∧ t.pc = if v.sr.bev then 0xBFC00180 else 0x80000080
  npc : t.npc = t.pc + 4
  inDelaySlot : t.inDelaySlot = false
  ldSlot : t.ldSlot = none
  recentStores : t.recentStores = []
  afterMtc0 : t.afterMtc0 = none
  prevMem : t.prevMem = false
  readWaiting : t.readWaiting = false
  counters : t.sinceMfhi = s.sinceMfhi ∧ t.sinceMflo = s.sinceMflo ∧ t.sinceStore = s.sinceStore
  gprs : SameGprs s t
  hiLo : SameHiLo s t
  pteBase : t.pteBase = s.pteBase
  aborts : Aborts s t (s.begun (code == 0))

/-- Base register and offset of a store (R150). -/
def storeOperand : Instr → Option (Reg × Half)
  | .sb base _ offset => some (base, offset)
  | .sh base _ offset => some (base, offset)
  | .sw base _ offset => some (base, offset)
  | .swl base _ offset => some (base, offset)
  | .swr base _ offset => some (base, offset)
  | _ => none

/-- If the instruction is a store through the data cache, the word that it addresses, whatever it may read as its base, is
not read-only memory, which would not take what the cache takes. -/
def State.StoresSeen (s : State) (i : Instr) : Prop :=
  ∀ base offset a va, storeOperand i = some (base, offset) → s.Reads base a → va = a + offset.signExtend 32 →
    inKseg1 va = false → s.answer (physical va) ≠ .readOnly

/-- No entry of another master's writes stands at the head of the schedule (R109). -/
def State.NoMasterWrites (s : State) : Prop := ∀ e, s.schedule.head? = some e → e.masterWrites = []

end Sys2Proof.Machine
end

