-- ==== Sys2Proof/Certificates/Slice0/Obligations.lean ====
section
/-! DEFINITION. The statements for the provers. Each is about the machine, for every state that meets its hypotheses;
`s` is the state before, `t` the state after. Frames are in the terms of Safety.lean. A source read is written
`s.Reads r a`: `a` is the register's content, or any value if the preceding instruction loaded the register (R30). -/

section
open Sys2Proof Sys2Proof.Machine

/-! ### Encoding -/

/-- Decoding the word of an instruction gives the instruction, whatever its operands (R134, R137). -/
def Obligations.EncodeThenDecode : Prop := ∀ i : Instr, decode (encode i) = .ok i

/-- A word that decodes to an instruction is that instruction's word: the decoder ignores no bit (R134, R135, R137). -/
def Obligations.DecodeThenEncode : Prop := ∀ (w : Word) (i : Instr), decode w = .ok i → encode i = w

/-- Words of 95_test_vectors.md section 2.1, one or two of each family, decode to the instructions they stand for. -/
def Obligations.PublishedWordsDecode : Prop :=
  decode 0x8C627FFC#32 = .ok (.lw 3 2 0x7FFC) ∧ decode 0xA0620001#32 = .ok (.sb 3 2 1) ∧
  decode 0x24621234#32 = .ok (.addiu 3 2 0x1234) ∧ decode 0x3C02BFC0#32 = .ok (.lui 2 0xBFC0) ∧
  decode 0x00432023#32 = .ok (.subu 2 3 4) ∧ decode 0x00032403#32 = .ok (.sra 3 4 16) ∧
  decode 0x0043001A#32 = .ok (.div 2 3) ∧ decode 0x00002012#32 = .ok (.mflo 4) ∧
  decode 0x00402009#32 = .ok (.jalr 2 4) ∧ decode 0x0451FFFF#32 = .ok (.bgezal 2 0xFFFF) ∧
  decode 0x0048D14D#32 = .ok (.brk 0x12345) ∧ decode 0x4100FFFF#32 = .ok (.bc0f 0xFFFF) ∧
  decode 0x40886000#32 = .ok (.mtc0 8 12) ∧ decode 0x42000010#32 = .ok .rfe

/-- The words that raise RI are those of the reserved major opcodes, and of the reserved functions of SPECIAL whatever
their other fields hold, and no other word (R136). -/
def Obligations.ReservedWords : Prop :=
  ∀ w : Word, decode w = .error .reservedInstruction ↔
    (w.extractLsb' 26 6).toNat ∈ [0x14, 0x15, 0x16, 0x17, 0x18, 0x19, 0x1A, 0x1B, 0x1C, 0x1D, 0x1E, 0x1F, 0x27, 0x2C,
      0x2D, 0x2F, 0x34, 0x35, 0x36, 0x37, 0x3C, 0x3D, 0x3E, 0x3F] ∨
    ((w.extractLsb' 26 6).toNat = 0 ∧ (w.extractLsb' 0 6).toNat ∈ [0x01, 0x05, 0x0A, 0x0B, 0x0E, 0x0F, 0x14, 0x15, 0x16,
      0x17, 0x1C, 0x1D, 0x1E, 0x1F, 0x28, 0x29, 0x2C, 0x2D, 0x2E, 0x2F, 0x30, 0x31, 0x32, 0x33, 0x34, 0x35, 0x36, 0x37,
      0x38, 0x39, 0x3A, 0x3B, 0x3C, 0x3D, 0x3E, 0x3F])

/-! ### The step: environment, interrupt, fetch -/

/-- A step in which no interrupt is requested executes the instruction that the bytes at the pc decode to: read from
memory in kseg1, taken from a valid entry of the instruction cache on a hit, read from memory into the instruction
cache on a miss (R27, R94, R95), which fills the entry, with block refill the four entries of the block, and with the
clear pin active none (R98). What is read is what memory holds with every earlier store performed (R110(b), (c)); only where
one of the last four instructions stored to that very word may it be what the word was before that store, the pipeline
having fetched it (R110(e); the form is log entry 36, DEDUCED). A cached fetch with the caches swapped is refused (R101,
U13). The environment's part leads from `s` to `t`; the fetch changes nothing else that the program sees. -/
def Obligations.StepRunsDecoded : Prop :=
  ∀ s t : State, Starts s t → t.Undisturbed → t.Fetchable →
    (inKseg1 t.pc = true → t.Readable false t.pc →
      ∃ w u, t.MayFetch (physical t.pc) w ∧ FetchedOnly t u ∧ ∀ i, decode w = .ok i → step s = exec i u) ∧
    (∀ w i, t.CachedFetch → t.inputs.icclr = false →
      t.icacheEntry (physical t.pc) = some (.line true ((physical t.pc).extractLsb' 12 20) w) → decode w = .ok i →
      ∃ u, u = { t with freeIndex := u.freeIndex } ∧ step s = exec i u) ∧
    (t.CachedFetch → t.MissesInstr (physical t.pc) → t.Readable t.mode.iblock t.pc →
      ∃ w u, t.MayFetch (physical t.pc) w ∧ FetchedOnly t u ∧
        (t.inputs.icclr = false →
          u.icacheEntry (physical t.pc) = some (.line true ((physical t.pc).extractLsb' 12 20) w)) ∧
        ∀ i, decode w = .ok i → step s = exec i u) ∧
    (inKseg1 t.pc = false → (∀ v, t.MaySee v → v.sr.swc = true) → step s = .refused .swappedFetch)

/-- What the environment and the BIU do in a step. No other master writing, memory as the program sees it stays, and
every bit of state but the pins, the schedule, memory, buffer, trace, caches and a stuck write; while another master
holds the bus, or a read that a hold made wait is still to be done, no write leaves the buffer (the arbiter: hold, then
read, then write: R104, R430(b); the cell that remembers the read is log entry 38, DEDUCED), a hold is not granted while a
bus cycle is not complete (R327), and a clear pin clears the valid bits of its cache and nothing else (R98). After the
schedule a hold is released and the BIU performs at least one buffered write in each step in which it can and no read
waits (R430(b), (d), R432; that form is log entry 34). A
byte that another master writes while it holds the bus enters ordinary memory and no cache (R109; a device's bytes stay:
log entry 33). In a step of the BIU and the environment alone the core does nothing (R18; the form is log entry 7). -/
def Obligations.SampleTouchesBusAndCaches : Prop :=
  (∀ s t : State, t = s.sample → s.NoMasterWrites →
    (∀ a, t.seenByte a = s.seenByte a) ∧
    t = { s with
      inputs := t.inputs, schedule := t.schedule, mem := t.mem, writeBuffer := t.writeBuffer, trace := t.trace,
      icache := t.icache, dcache := t.dcache, bus := t.bus } ∧
    (t.inputs.hold = true ∨ s.readWaiting = true →
      t.mem = s.mem ∧ t.writeBuffer = s.writeBuffer ∧ t.trace = s.trace ∧ t.bus = s.bus) ∧
    (s.schedule ≠ [] → s.bus ≠ .free → t.inputs.hold = false) ∧
    (t.inputs.icclr = false → t.icache = s.icache) ∧ (t.inputs.dcclr = false → t.dcache = s.dcache) ∧
    (t.inputs.icclr = true → ∀ k valid tag w, (k, CacheEntry.line valid tag w) ∈ t.icache ↔
      valid = false ∧ ∃ v, (k, CacheEntry.line v tag w) ∈ s.icache) ∧
    (t.inputs.dcclr = true → ∀ k valid tag w, (k, CacheEntry.line valid tag w) ∈ t.dcache ↔
      valid = false ∧ ∃ v, (k, CacheEntry.line v tag w) ∈ s.dcache) ∧
    (s.schedule = [] → t.inputs.hold = false ∧
      (s.bus = .free → s.readWaiting = false → (∀ e ∈ s.writeBuffer, s.answer e.addr ≠ .absent) → s.writeBuffer ≠ [] →
        t.writeBuffer.length < s.writeBuffer.length))) ∧
  (∀ (s t : State) (e : EnvStep) (rest : List EnvStep) (a : Word) (b : Byte), t = s.sample → s.mem.wf →
    s.schedule = e :: rest → e.reset = none → e.inputs.hold = true → s.bus = .free → e.masterWrites = [(a, b)] →
    t.writeBuffer = s.writeBuffer ∧ (e.inputs.dcclr = false → t.dcache = s.dcache) ∧
      (e.inputs.icclr = false → t.icache = s.icache) ∧
      ∀ c : Word, t.mem.read c.toNat = if c = a ∧ s.answer a = .memory then b else s.mem.read c.toNat) ∧
  (∀ s : State, s.coreIdle = true → s.resetPulse = none → s.sample.mode.legal = true → s.sample.bus ≠ .coreStuck →
    step s = .next s.sample)

/-- An interrupt that is requested and enabled is taken, and the instruction at the pc is not executed (R361, R370). That
the test comes before the fetch and wins over a fetch error is the spec's own choice (D4, D5), as is which pending bit
each IntMask bit enables (G12): log entry 26, DESIGN CHOICE. The fetches from the pc on that it aborts (R88(d)), and that
they stay done, are log entry 37, DEDUCED. -/
def Obligations.InterruptTaken : Prop :=
  ∀ s t : State, Starts s t → (∀ v, t.MaySee v → t.Requested v) → ∃ u, step s = .next u ∧ Enters t u 0 none none

/-- A fetch from a pc that is no multiple of 4, or from an address with bit 31 set in user mode, raises AdEL with
BadVAddr the pc (R94, R352). The fetches behind it that the entry aborts (R88(d)) are log entry 37, DEDUCED. -/
def Obligations.FetchAddressError : Prop :=
  ∀ s t : State, Starts s t → t.Undisturbed →
    (t.pc.extractLsb' 0 2 ≠ 0#2 ∨ t.pc.getLsbD 31 = true ∧ ∀ v, t.MaySee v → v.sr.kuc = true) →
    ∃ u, step s = .next u ∧ Enters t u 4 none (some t.pc)

/-- A fetched word without a row, whether it is read from memory in kseg1, hits in the instruction cache or misses in it:
a reserved word raises RI (R136, R357). The rest is the spec's own choice (D8, D18; log entry 27): another word of the COP0
space raises CpU with unit 0 if CP0 is unusable, else the step is refused (R251); a blank BCOND cell and a non-zero constant
field are refused (R132, R135). The fetches that an entry aborts (R88(d)) are log entry 37, DEDUCED. -/
def Obligations.WordsWithoutRow : Prop :=
  ∀ (s t : State) (w : Word), Starts s t → t.Undisturbed → t.Fetchable → t.Fetches w →
    (decode w = .error .reservedInstruction → ∃ u v, FetchedOnly t u ∧ step s = .next v ∧ Enters u v 10 none none) ∧
    (decode w = .error .unlistedCop0 →
      (t.NoCp0 → ∃ u v, FetchedOnly t u ∧ step s = .next v ∧ Enters u v 11 (some 0) none) ∧
      (t.HasCp0 → step s = .refused .unlistedCop0)) ∧
    (decode w = .error .blankBcond ∨ decode w = .error .nonzeroConstantField → step s = .refused .unlistedWord)

/-- Waiting for the bus. While another master holds it, every load in kseg1 or that misses, every store that finds the
buffer full, a fetch in kseg1 and one that misses wait, with nothing changed but the cell that says whether a read waits
(R329; the form is log entry 8, and the cell, by which the read goes before the buffered writes once the hold ends (R104,
R430(b)), log entry 38, DEDUCED). A load's read in kseg1 leaves the write buffer alone if it holds no entry of that word
(R104, R105). A load in kseg1, or one that misses, whose read nothing answers never completes (R77, log entry 33): the core
waits, step after step, until a RESET, and without one to come the machine stops. -/
def Obligations.HoldStalls : Prop :=
  (∀ (s : State) (base rt : Reg) (offset : Half) (va : Word), Addresses s base offset va → s.inputs.hold = true →
    (inKseg1 va = true ∨ s.MissesData (physical va) →
      ∀ i ∈ loadInstrsAt base rt offset va, exec i s = .next { s with readWaiting := true }) ∧
    (4 ≤ s.writeBuffer.length →
      ∀ i ∈ storesAt base rt offset va, exec i s = .next { s with readWaiting := false })) ∧
  (∀ s t : State, Starts s t → t.Undisturbed → t.Fetchable → t.inputs.hold = true →
    inKseg1 t.pc = true ∨ (t.CachedFetch ∧ t.MissesInstr (physical t.pc)) →
    ∃ u, u = { t with freeIndex := u.freeIndex, readWaiting := true } ∧ step s = .next u) ∧
  (∀ (s : State) (base rt : Reg) (offset : Half) (va : Word), Addresses s base offset va → inKseg1 va = true →
    s.Readable false va → (∀ e ∈ s.writeBuffer, wordAddr e.addr ≠ wordAddr (physical va)) →
    ∀ i ∈ loadInstrsAt base rt offset va, ∃ t, exec i s = .next t ∧ t.writeBuffer = s.writeBuffer ∧ t.mem = s.mem) ∧
  (∀ (s : State) (base rt : Reg) (offset : Half) (va : Word), Addresses s base offset va → s.BusReady →
    (inKseg1 va = true ∧ s.answer (physical va) = .absent ∨
      inKseg1 va = false ∧ s.MissesData (physical va) ∧
        s.answer (if s.mode.dblock then blockAddr (physical va) else physical va) = .absent) →
    ∀ i ∈ loadInstrsAt base rt offset va,
      (s.schedule ≠ [] → ∃ t, exec i s = .next t ∧ t.bus = .coreStuck ∧ t.pc = s.pc ∧ SameGprs s t ∧ SameCp0 s t) ∧
      (s.schedule = [] → exec i s = .fault .noAnswer)) ∧
  (∀ s : State, s.bus = .coreStuck → s.resetPulse = none → s.mode.legal = true →
    (s.sample.schedule ≠ [] → step s = .next s.sample) ∧ (s.sample.schedule = [] → step s = .fault .noAnswer))

/-! ### Reset -/

/-- What reset defines, at the machine's reset state (R69). -/
def Obligations.ResetState : Prop :=
  State.reset.pc = 0xBFC00000 ∧ State.reset.npc = 0xBFC00004 ∧ State.reset.inDelaySlot = false ∧
  State.reset.ldSlot = none ∧ State.reset.sinceMfhi = 2 ∧ State.reset.sinceMflo = 2 ∧ State.reset.sinceStore = 2 ∧
  State.reset.mdFresh = false ∧ State.reset.afterMtc0 = none ∧ State.reset.prevMem = false ∧
  State.reset.sr.swc = false ∧ State.reset.sr.kuc = false ∧ State.reset.sr.iec = false ∧
  State.reset.sr.bev = true ∧ State.reset.icache = [] ∧ State.reset.dcache = [] ∧ State.reset.writeBuffer = [] ∧
  State.reset.readGpr 0 = 0

/-- A RESET pulse, whatever the state: the vector, kernel mode, interrupts disabled, both caches invalid, the hazard cells
as at reset, the pulse's mode pins latched, every register the reset leaves undefined with the pulse's content, a hold
ended, main memory untouched; a forbidden combination of mode pins is refused (R330, R400 to R405). That what the write
buffer holds is lost, so that it is empty and memory is as before the step, is the spec's own choice (D24), and that a
pulse takes a whole step is the model's: log entry 24, DESIGN CHOICE. -/
def Obligations.ResetPulseResets : Prop :=
  ∀ (s : State) (r : ResetPulse), s.resetPulse = some r →
    (r.mode.legal = false → step s = .refused .forbiddenModePins) ∧
    (r.mode.legal = true → ∃ t, step s = .next t ∧
      t.pc = 0xBFC00000 ∧ t.npc = 0xBFC00004 ∧ t.inDelaySlot = false ∧ t.ldSlot = none ∧ t.sinceMfhi = 2 ∧
      t.sinceMflo = 2 ∧ t.sinceStore = 2 ∧ t.mdFresh = false ∧ t.afterMtc0 = none ∧ t.prevMem = false ∧
      t.readWaiting = false ∧ t.sr = { r.garbage.sr with swc := false, kuc := false, iec := false, bev := true } ∧
      t.cause = r.garbage.cause ∧ t.epc = r.garbage.epc ∧ t.badVAddr = r.garbage.badVAddr ∧
      t.pteBase = r.garbage.pteBase ∧ t.hi = r.garbage.hi ∧ t.lo = r.garbage.lo ∧ t.readGpr 0 = 0 ∧
      (∀ q : Reg, q ≠ 0 → t.readGpr q = r.garbage.regs[q.toNat]) ∧
      t.icache = [] ∧ t.dcache = [] ∧ t.writeBuffer = [] ∧ t.mode = r.mode ∧ t.mem = s.mem ∧ t.inputs.hold = false ∧
      t.bus = .free ∧ t.platform = s.platform ∧ t.trace = s.trace)

/-! ### Invariants -/

/-- The state after reset meets the invariant, and its data cache agrees with memory. -/
def Obligations.ResetMeetsInvariants : Prop := Inv State.reset ∧ Coherent State.reset

/-- Every step keeps the invariant: canonical memory and caches, at most four buffered writes with the masks of R93, no
hold while a bus cycle is not complete, no load delay on r0, `npc` four past `pc` outside delay slots, allowed mode
pins. -/
def Obligations.StepKeepsInv : Prop := ∀ s t : State, Inv s → step s = .next t → Inv t

/-- With the caches neither isolated nor swapped and no other master writing, every step keeps the data cache in
agreement with memory, what R97 derives. That a store through kseg1 keeps it too, by making a valid entry of its word
invalid, is the model's choice where R93 has no step for it (D21; log entry 35, DEDUCED). A store through the cache must
not be to read-only memory. A core that waits for a bus cycle that never completes is left out: its store may have reached
the cache and not the buffer, and only RESET, which clears the cache, ends the wait (R77, R403). -/
def Obligations.StepKeepsCoherent : Prop :=
  ∀ s t : State, Inv s → s.bus = .coreStuck ∨ Coherent s → (∀ v, s.MaySee v → v.sr.isc = false ∧ v.sr.swc = false) →
    s.NoMasterWrites → (∀ i u, s.fetchPhase = .run i u → u.StoresSeen i) → step s = .next t →
    t.bus = .coreStuck ∨ Coherent t

/-- The low 512 MB of physical memory are reached from three virtual ranges, cached through kuseg and kseg0 and uncached
through kseg1; no virtual address translates into the physical addresses from 0x80000000 to 0xBFFFFFFF, so that no step
drives one of them on the bus (R74). -/
def Obligations.BusNeverDrivesUnusedSpace : Prop :=
  (∀ x : BitVec 29, (∀ user, Machine.translate user (0b000#3 ++ x) = some (0b000#3 ++ x, false)) ∧
    Machine.translate false (0b100#3 ++ x) = some (0b000#3 ++ x, false) ∧
    Machine.translate false (0b101#3 ++ x) = some (0b000#3 ++ x, true)) ∧
  (∀ (user uncached : Bool) (va pa : Word), Machine.translate user va = some (pa, uncached) → unusedSpace pa = false) ∧
  ∀ s t : State, Inv s → (∀ c ∈ s.trace, unusedSpace c.addr = false) → step s = .next t →
    ∀ c ∈ t.trace, unusedSpace c.addr = false

/-! ### Computational instructions -/

/-- ADDIU, SLTI, SLTIU: the immediate is sign-extended; SLTIU then compares unsigned (R172 to R174). If the
instruction just before loaded the destination, the later write wins (R411, R410; R163 says any value: log entry 12,
DEDUCED). -/
def Obligations.ImmediateArithmetic : Prop :=
  ∀ (s : State) (rs rt : Reg) (imm : Half),
    (∃ a t, s.Reads rs a ∧ exec (.addiu rs rt imm) s = .next t ∧ Computes s t rt (a + imm.signExtend 32)) ∧
    (∃ a t, s.Reads rs a ∧ exec (.slti rs rt imm) s = .next t ∧
      Computes s t rt (if a.toInt < (imm.signExtend 32).toInt then 1 else 0)) ∧
    (∃ a t, s.Reads rs a ∧ exec (.sltiu rs rt imm) s = .next t ∧
      Computes s t rt (if a.toNat < (imm.signExtend 32).toNat then 1 else 0))

/-- ANDI, ORI, XORI: the immediate is zero-extended; LUI: it is the upper half, and no register is read (R175 to
R178). If the instruction just before loaded the destination, the later write wins (R411, R410; R163 says any value:
log entry 12, DEDUCED). -/
def Obligations.ImmediateLogic : Prop :=
  ∀ (s : State) (rs rt : Reg) (imm : Half),
    (∃ a t, s.Reads rs a ∧ exec (.andi rs rt imm) s = .next t ∧ Computes s t rt (a &&& imm.setWidth 32)) ∧
    (∃ a t, s.Reads rs a ∧ exec (.ori rs rt imm) s = .next t ∧ Computes s t rt (a ||| imm.setWidth 32)) ∧
    (∃ a t, s.Reads rs a ∧ exec (.xori rs rt imm) s = .next t ∧ Computes s t rt (a ^^^ imm.setWidth 32)) ∧
    (∃ t, exec (.lui rt imm) s = .next t ∧ Computes s t rt (imm ++ 0#16))

/-- ADDU, SUBU, SLT, SLTU (R180, R182 to R184): nothing raises. If the instruction just before loaded the destination,
the later write wins (R411, R410; R163 says any value: log entry 12, DEDUCED). -/
def Obligations.RegisterArithmetic : Prop :=
  ∀ (s : State) (rs rt rd : Reg),
    (∃ a b t, s.Reads rs a ∧ s.Reads rt b ∧ exec (.addu rs rt rd) s = .next t ∧ Computes s t rd (a + b)) ∧
    (∃ a b t, s.Reads rs a ∧ s.Reads rt b ∧ exec (.subu rs rt rd) s = .next t ∧ Computes s t rd (a - b)) ∧
    (∃ a b t, s.Reads rs a ∧ s.Reads rt b ∧ exec (.slt rs rt rd) s = .next t ∧
      Computes s t rd (if a.toInt < b.toInt then 1 else 0)) ∧
    (∃ a b t, s.Reads rs a ∧ s.Reads rt b ∧ exec (.sltu rs rt rd) s = .next t ∧
      Computes s t rd (if a.toNat < b.toNat then 1 else 0))

/-- AND, OR, XOR, NOR (R185 to R188). If the instruction just before loaded the destination, the later write wins
(R411, R410; R163 says any value: log entry 12, DEDUCED). -/
def Obligations.RegisterLogic : Prop :=
  ∀ (s : State) (rs rt rd : Reg),
    (∃ a b t, s.Reads rs a ∧ s.Reads rt b ∧ exec (.and rs rt rd) s = .next t ∧ Computes s t rd (a &&& b)) ∧
    (∃ a b t, s.Reads rs a ∧ s.Reads rt b ∧ exec (.or rs rt rd) s = .next t ∧ Computes s t rd (a ||| b)) ∧
    (∃ a b t, s.Reads rs a ∧ s.Reads rt b ∧ exec (.xor rs rt rd) s = .next t ∧ Computes s t rd (a ^^^ b)) ∧
    (∃ a b t, s.Reads rs a ∧ s.Reads rt b ∧ exec (.nor rs rt rd) s = .next t ∧ Computes s t rd (~~~(a ||| b)))

/-- SLL, SRL, SRA bit by bit: bit `k` of the result is bit `k - sa` or `k + sa` of rt, the vacated bits zero, for SRA
the sign (R189 to R191). If the instruction just before loaded the destination, the later write wins (R411, R410; R163
says any value: log entry 12, DEDUCED). -/
def Obligations.ShiftsByConstant : Prop :=
  ∀ (s : State) (rt rd : Reg) (sa : BitVec 5),
    (∃ b v t, s.Reads rt b ∧ exec (.sll rt rd sa) s = .next t ∧ Computes s t rd v ∧
      ∀ k < 32, v.getLsbD k = (decide (sa.toNat ≤ k) && b.getLsbD (k - sa.toNat))) ∧
    (∃ b v t, s.Reads rt b ∧ exec (.srl rt rd sa) s = .next t ∧ Computes s t rd v ∧
      ∀ k < 32, v.getLsbD k = (decide (k + sa.toNat < 32) && b.getLsbD (k + sa.toNat))) ∧
    (∃ b v t, s.Reads rt b ∧ exec (.sra rt rd sa) s = .next t ∧ Computes s t rd v ∧
      ∀ k < 32, v.getLsbD k = if k + sa.toNat < 32 then b.getLsbD (k + sa.toNat) else b.getLsbD 31)

/-- SLLV, SRLV, SRAV: as the shifts by a constant, the amount being the low five bits of rs (R192 to R194; SRAV, whose
page is missing, is the spec's inference from R191, R193 and Table 7-5). If the instruction just before loaded the
destination, the later write wins (R411, R410; R163 says any value: log entry 12, DEDUCED). -/
def Obligations.ShiftsByRegister : Prop :=
  ∀ (s : State) (rs rt rd : Reg),
    (∃ a b v t, s.Reads rs a ∧ s.Reads rt b ∧ exec (.sllv rs rt rd) s = .next t ∧ Computes s t rd v ∧
      ∀ k < 32, v.getLsbD k = (decide (a.toNat % 32 ≤ k) && b.getLsbD (k - a.toNat % 32))) ∧
    (∃ a b v t, s.Reads rs a ∧ s.Reads rt b ∧ exec (.srlv rs rt rd) s = .next t ∧ Computes s t rd v ∧
      ∀ k < 32, v.getLsbD k = (decide (k + a.toNat % 32 < 32) && b.getLsbD (k + a.toNat % 32))) ∧
    (∃ a b v t, s.Reads rs a ∧ s.Reads rt b ∧ exec (.srav rs rt rd) s = .next t ∧ Computes s t rd v ∧
      ∀ k < 32, v.getLsbD k = if k + a.toNat % 32 < 32 then b.getLsbD (k + a.toNat % 32) else b.getLsbD 31)

/-- ADD, SUB, ADDI: the exact signed result if it fits in 32 bits; else Ov, the destination not written (R171, R179,
R181, R195, R358). The fetches that the entry aborts (R88(d)) are log entry 37, DEDUCED. If the instruction just
before loaded the destination, the later write wins (R411, R410; R163 says any value: log entry 12, DEDUCED). -/
def Obligations.OverflowTraps : Prop :=
  ∀ (s : State) (rs rt rd : Reg) (imm : Half),
    (∃ a b t, s.Reads rs a ∧ s.Reads rt b ∧ exec (.add rs rt rd) s = .next t ∧
      if -2 ^ 31 ≤ a.toInt + b.toInt ∧ a.toInt + b.toInt < 2 ^ 31 then
        Computes s t rd (BitVec.ofInt 32 (a.toInt + b.toInt))
      else Enters s t 12 none none) ∧
    (∃ a b t, s.Reads rs a ∧ s.Reads rt b ∧ exec (.sub rs rt rd) s = .next t ∧
      if -2 ^ 31 ≤ a.toInt - b.toInt ∧ a.toInt - b.toInt < 2 ^ 31 then
        Computes s t rd (BitVec.ofInt 32 (a.toInt - b.toInt))
      else Enters s t 12 none none) ∧
    (∃ a t, s.Reads rs a ∧ exec (.addi rs rt imm) s = .next t ∧
      if -2 ^ 31 ≤ a.toInt + imm.toInt ∧ a.toInt + imm.toInt < 2 ^ 31 then
        Computes s t rt (BitVec.ofInt 32 (a.toInt + imm.toInt))
      else Enters s t 12 none none)

/-! ### Multiply and divide -/

/-- MULT and MULTU, not within two instructions of MFHI or MFLO: HI and LO together are the exact 64-bit product (R200,
R201; MULTU, whose page is missing, is the spec's inference from R200 and Table 7-6). -/
def Obligations.MultiplyWritesHiLo : Prop :=
  ∀ (s : State) (rs rt : Reg), s.sinceMfhi = 2 → s.sinceMflo = 2 →
    (∃ a b t, s.Reads rs a ∧ s.Reads rt b ∧ exec (.mult rs rt) s = .next t ∧
      (t.hi ++ t.lo : BitVec 64).toInt = a.toInt * b.toInt ∧ t.mdFresh = true ∧ KeepsAllButHiLo s t) ∧
    (∃ a b t, s.Reads rs a ∧ s.Reads rt b ∧ exec (.multu rs rt) s = .next t ∧
      (t.hi ++ t.lo : BitVec 64).toNat = a.toNat * b.toNat ∧ t.mdFresh = true ∧ KeepsAllButHiLo s t)

/-- DIV and DIVU, not within two instructions of MFHI or MFLO: quotient in LO and remainder in HI where the manual gives
them (R202, R203), any values otherwise, and the instruction completes in every case (R211). That the signed quotient
is truncated toward zero, the remainder having the dividend's sign, is the spec's own choice (D6, log entry 14). -/
def Obligations.DivideWritesHiLo : Prop :=
  ∀ (s : State) (rs rt : Reg), s.sinceMfhi = 2 → s.sinceMflo = 2 →
    (∃ a b t, s.Reads rs a ∧ s.Reads rt b ∧ exec (.div rs rt) s = .next t ∧ t.mdFresh = true ∧ KeepsAllButHiLo s t ∧
      (b ≠ 0 → ¬ (a = 0x80000000 ∧ b = 0xFFFFFFFF) →
        t.lo.toInt * b.toInt + t.hi.toInt = a.toInt ∧ t.hi.toInt.natAbs < b.toInt.natAbs ∧
          (t.hi = 0 ∨ (t.hi.toInt < 0 ↔ a.toInt < 0)))) ∧
    (∃ a b t, s.Reads rs a ∧ s.Reads rt b ∧ exec (.divu rs rt) s = .next t ∧ t.mdFresh = true ∧ KeepsAllButHiLo s t ∧
      (b ≠ 0 → t.lo.toNat * b.toNat + t.hi.toNat = a.toNat ∧ t.hi.toNat < b.toNat))

/-- MFHI and MFLO move HI and LO to a general register, restart their counter and end the freshness of a product or
quotient (R204, R205). If the instruction just before loaded the destination, the later write wins (R411, R410; R163
says any value: log entry 12, DEDUCED). -/
def Obligations.MoveFromHiLo : Prop :=
  ∀ (s : State) (rd : Reg),
    (∃ t, exec (.mfhi rd) s = .next t ∧ WritesOnly s t rd s.hi ∧ t.hi = s.hi ∧ t.lo = s.lo ∧ t.mdFresh = false ∧
      SameCp0 s t ∧ SameMemory s t ∧ SamePins s t ∧ Completes s t { mfhi := true }) ∧
    (∃ t, exec (.mflo rd) s = .next t ∧ WritesOnly s t rd s.lo ∧ t.hi = s.hi ∧ t.lo = s.lo ∧ t.mdFresh = false ∧
      SameCp0 s t ∧ SameMemory s t ∧ SamePins s t ∧ Completes s t { mflo := true })

/-- MTHI and MTLO write their register; the other one keeps its value unless a multiply or divide was the last to write
the pair, when it is any value (R206, R207, R210). -/
def Obligations.MoveToHiLo : Prop :=
  ∀ (s : State) (rs : Reg),
    (s.sinceMfhi = 2 → ∃ a t, s.Reads rs a ∧ exec (.mthi rs) s = .next t ∧ t.hi = a ∧
      (s.mdFresh = false → t.lo = s.lo) ∧ t.mdFresh = false ∧ KeepsAllButHiLo s t) ∧
    (s.sinceMflo = 2 → ∃ a t, s.Reads rs a ∧ exec (.mtlo rs) s = .next t ∧ t.lo = a ∧
      (s.mdFresh = false → t.hi = s.hi) ∧ t.mdFresh = false ∧ KeepsAllButHiLo s t)

/-- What the manual calls undefined for want of distance is refused: MULT, MULTU, DIV, DIVU within two instructions of
MFHI or MFLO, MTHI within two of MFHI, MTLO within two of MFLO (R209); a load or store in the step right after an MTC0
(R255, R417). -/
def Obligations.HazardsRefused : Prop :=
  ∀ (s : State) (rs rt : Reg) (offset : Half),
    (s.sinceMfhi ≠ 2 ∨ s.sinceMflo ≠ 2 →
      ∀ i ∈ [Instr.mult rs rt, .multu rs rt, .div rs rt, .divu rs rt], exec i s = .refused .hiLoWriteTooSoon) ∧
    (s.sinceMfhi ≠ 2 → exec (.mthi rs) s = .refused .hiLoWriteTooSoon) ∧
    (s.sinceMflo ≠ 2 → exec (.mtlo rs) s = .refused .hiLoWriteTooSoon) ∧
    (s.afterMtc0 ≠ none → ∀ i ∈ [Instr.lb rs rt offset, .lbu rs rt offset, .lh rs rt offset, .lhu rs rt offset,
        .lw rs rt offset, .lwl rs rt offset, .lwr rs rt offset, .sb rs rt offset, .sh rs rt offset, .sw rs rt offset,
        .swl rs rt offset, .swr rs rt offset],
      exec i s = .refused .memoryAfterMtc0)

/-! ### Jumps and branches -/

/-- J and JAL: the target lies in the 256 MB region of the delay slot (R217; the choice of the delay slot's region is
D3), JAL links in r31 (R218, R228). If the instruction just before loaded the link's register, the later write wins
(R411, R410; R163 says any value: log entry 12, DEDUCED). -/
def Obligations.JumpAndLink : Prop :=
  ∀ (s : State) (target : BitVec 26), s.inDelaySlot = false →
    (∃ t, exec (.j target) s = .next t ∧ SameGprs s t ∧
      Transfers s t true ((s.pc + 4).extractLsb' 28 4 ++ target ++ 0#2)) ∧
    (∃ t, exec (.jal target) s = .next t ∧ WritesOnly s t 31 (s.pc + 8) ∧
      Transfers s t true ((s.pc + 4).extractLsb' 28 4 ++ target ++ 0#2))

/-- JR and JALR: the target is the register as it is read in the jump's own step, whatever its low bits; JALR links in
rd, and with rs = rd its result is undefined and the model refuses it (R219, R220, R231). If the instruction just
before loaded the link's register, the later write wins (R411, R410; R163 says any value: log entry 12, DEDUCED). -/
def Obligations.JumpRegister : Prop :=
  ∀ (s : State) (rs rd : Reg), s.inDelaySlot = false →
    (∃ a t, s.Reads rs a ∧ exec (.jr rs) s = .next t ∧ SameGprs s t ∧ Transfers s t true a) ∧
    (rs ≠ rd → ∃ a t, s.Reads rs a ∧ exec (.jalr rs rd) s = .next t ∧ WritesOnly s t rd (s.pc + 8) ∧
      Transfers s t true a) ∧
    exec (.jalr rs rs) s = .refused .jalrSameRegister

/-- BEQ and BNE compare two registers; the target is relative to the delay slot (R221, R222, R227; the pages are missing,
and R221 and R222 are the spec's inference from R227 and Table 7-8). -/
def Obligations.BranchOnEqual : Prop :=
  ∀ (s : State) (rs rt : Reg) (offset : Half), s.inDelaySlot = false →
    (∃ a b t, s.Reads rs a ∧ s.Reads rt b ∧ exec (.beq rs rt offset) s = .next t ∧ SameGprs s t ∧
      Transfers s t (decide (a = b)) (s.pc + 4 + (offset ++ 0#2 : BitVec 18).signExtend 32)) ∧
    (∃ a b t, s.Reads rs a ∧ s.Reads rt b ∧ exec (.bne rs rt offset) s = .next t ∧ SameGprs s t ∧
      Transfers s t (decide (a ≠ b)) (s.pc + 4 + (offset ++ 0#2 : BitVec 18).signExtend 32))

/-- BLEZ, BGTZ, BLTZ, BGEZ compare a register with zero as a signed number (R223 to R227). -/
def Obligations.BranchOnSign : Prop :=
  ∀ (s : State) (rs : Reg) (offset : Half), s.inDelaySlot = false →
    (∃ a t, s.Reads rs a ∧ exec (.blez rs offset) s = .next t ∧ SameGprs s t ∧
      Transfers s t (decide (a.toInt ≤ 0)) (s.pc + 4 + (offset ++ 0#2 : BitVec 18).signExtend 32)) ∧
    (∃ a t, s.Reads rs a ∧ exec (.bgtz rs offset) s = .next t ∧ SameGprs s t ∧
      Transfers s t (decide (0 < a.toInt)) (s.pc + 4 + (offset ++ 0#2 : BitVec 18).signExtend 32)) ∧
    (∃ a t, s.Reads rs a ∧ exec (.bltz rs offset) s = .next t ∧ SameGprs s t ∧
      Transfers s t (decide (a.toInt < 0)) (s.pc + 4 + (offset ++ 0#2 : BitVec 18).signExtend 32)) ∧
    (∃ a t, s.Reads rs a ∧ exec (.bgez rs offset) s = .next t ∧ SameGprs s t ∧
      Transfers s t (decide (0 ≤ a.toInt)) (s.pc + 4 + (offset ++ 0#2 : BitVec 18).signExtend 32))

/-- BLTZAL and BGEZAL link in r31 whether or not the branch is taken, and test the register as it was before, r31
included (R227 to R230). If the instruction just before loaded the link's register, the later write wins (R411, R410;
R163 says any value: log entry 12, DEDUCED). -/
def Obligations.BranchAndLink : Prop :=
  ∀ (s : State) (rs : Reg) (offset : Half), s.inDelaySlot = false →
    (∃ a t, s.Reads rs a ∧ exec (.bltzal rs offset) s = .next t ∧ WritesOnly s t 31 (s.pc + 8) ∧
      Transfers s t (decide (a.toInt < 0)) (s.pc + 4 + (offset ++ 0#2 : BitVec 18).signExtend 32)) ∧
    (∃ a t, s.Reads rs a ∧ exec (.bgezal rs offset) s = .next t ∧ WritesOnly s t 31 (s.pc + 8) ∧
      Transfers s t (decide (0 ≤ a.toInt)) (s.pc + 4 + (offset ++ 0#2 : BitVec 18).signExtend 32))

/-- A jump or branch in a delay slot is undefined, and refused; BC0F and BC0T raise CpU first where CP0 is unusable
(R216; the order is log entry 21). -/
def Obligations.JumpInDelaySlotRefused : Prop :=
  ∀ (s : State) (rs rt rd : Reg) (offset : Half) (target : BitVec 26), s.inDelaySlot = true →
    (∀ i ∈ [Instr.j target, .jal target, .jr rs, .jalr rs rd, .beq rs rt offset, .bne rs rt offset, .blez rs offset,
        .bgtz rs offset, .bltz rs offset, .bgez rs offset, .bltzal rs offset, .bgezal rs offset],
      exec i s = .refused .jumpInDelaySlot) ∧
    (s.HasCp0 → ∀ i ∈ [Instr.bc0f offset, .bc0t offset], exec i s = .refused .jumpInDelaySlot)

/-! ### SYSCALL, BREAK, coprocessors -/

/-- SYSCALL raises Sys and BREAK raises Bp, in every state, and that is all they do; BREAK's code is copied nowhere
(R240 to R242, R359, R360). The fetches that the entry aborts stay done: reads on the bus, entries of the instruction cache
filled (R88(d)); how many, and from where, is log entry 37, DEDUCED. -/
def Obligations.SyscallAndBreakTrap : Prop :=
  ∀ (s : State) (code : BitVec 20),
    (∃ t, exec .syscall s = .next t ∧ Enters s t 8 none none) ∧
    (∃ t, exec (.brk code) s = .next t ∧ Enters s t 9 none none)

/-- BC0F branches while the write buffer holds data and BC0T while it is empty, if the test is reliable: two instructions
after the last store (the manual says two clocks; one clock counting as one instruction is the spec's own choice, D37, log
entry 21), and with block refill and streaming of the instruction cache not at 16n or 16n+4 of a cached segment; else each
branches or not, any choice (R245 to R247). -/
def Obligations.BranchOnWriteBuffer : Prop :=
  ∀ (s : State) (offset : Half), s.HasCp0 → s.inDelaySlot = false →
    ∃ f c t u, exec (.bc0f offset) s = .next t ∧ SameGprs s t ∧
      Transfers s t f (s.pc + 4 + (offset ++ 0#2 : BitVec 18).signExtend 32) ∧
      exec (.bc0t offset) s = .next u ∧ SameGprs s u ∧
      Transfers s u c (s.pc + 4 + (offset ++ 0#2 : BitVec 18).signExtend 32) ∧
      (s.sinceStore = 2 →
        ¬ (s.mode.iblock = true ∧ s.mode.istream = true ∧ inKseg1 s.pc = false ∧ s.pc.getLsbD 3 = false) →
        (f = true ↔ s.writeBuffer ≠ []) ∧ (c = true ↔ s.writeBuffer = []))

/-- In user mode with Cu0 = 0 every instruction of coprocessor 0 raises CpU with unit 0 and does nothing else (but for
the fetches that every entry aborts: R88(d), log entry 37, DEDUCED): MTC0, MFC0, RFE, BC0F, BC0T, LWC0, SWC0 and the
removed TLB instructions, for the last two groups the one effect that the spec gives them (R248, R250, R258, R259,
R356). The manual says nothing of LWC0 and SWC0: that they raise it is the spec's own choice (D19; log entry 27,
PRESUMED, as their opcodes are, G5). That BC0F and BC0T do so in a delay slot too, before the refusal of R216, is the
model's order: log entry 21, DEDUCED. -/
def Obligations.Cop0Unusable : Prop :=
  ∀ (s : State) (rt rd base : Reg) (offset : Half), s.NoCp0 →
    ∀ i ∈ [Instr.mtc0 rt rd, .mfc0 rt rd, .rfe, .bc0f offset, .bc0t offset, .lwc0 base rt offset, .swc0 base rt offset,
        .tlbr, .tlbwi, .tlbwr, .tlbp],
      ∃ t, exec i s = .next t ∧ Enters s t 11 (some 0) none

/-- Every word of coprocessors 1 to 3 raises CpU with its unit while the unit's Cu bit is 0, in either mode, and does
nothing else (R249, R250, R356), but for the fetches that every entry aborts (R88(d); log entry 37, DEDUCED). The
opcodes of LWCz and SWCz are general knowledge (G5; log entry 27, PRESUMED). -/
def Obligations.AbsentCoprocessorsTrap : Prop :=
  ∀ (s : State) (z : BitVec 2) (cofun : BitVec 26) (base rt : Reg) (offset : Half),
    (∀ v, s.MaySee v → v.sr.cu.getLsbD z.toNat = false) →
    ∀ i, (z, i) ∈ [(1#2, Instr.cop1 cofun), (2#2, .cop2 cofun), (3#2, .cop3 cofun), (1#2, .lwc1 base rt offset),
        (2#2, .lwc2 base rt offset), (3#2, .lwc3 base rt offset), (1#2, .swc1 base rt offset),
        (2#2, .swc2 base rt offset), (3#2, .swc3 base rt offset)] →
      ∃ t, exec i s = .next t ∧ Enters s t 11 (some z) none

/-- What the manual leaves undefined in the coprocessor space is refused: the words of coprocessors 1 to 3 with their
Cu bit set; with CP0 usable LWC0, SWC0, the removed TLB instructions, and MTC0 and MFC0 naming a register that the
chip does not have (R249, R250, R259, R260). That the step is refused is the spec's own choice: D19 for coprocessors 1
to 3, LWC0 and SWC0 (log entry 27, PRESUMED), D10 for the registers (log entry 20, DESIGN CHOICE). -/
def Obligations.CoprocessorRefusals : Prop :=
  ∀ (s : State) (cofun : BitVec 26) (base rt rd : Reg) (offset : Half),
    (∀ (z : BitVec 2) (i : Instr), (∀ v, s.MaySee v → v.sr.cu.getLsbD z.toNat = true) →
      (z, i) ∈ [(1#2, Instr.cop1 cofun), (2#2, .cop2 cofun), (3#2, .cop3 cofun), (1#2, .lwc1 base rt offset),
        (2#2, .lwc2 base rt offset), (3#2, .lwc3 base rt offset), (1#2, .swc1 base rt offset),
        (2#2, .swc2 base rt offset), (3#2, .swc3 base rt offset)] → exec i s = .refused (.absentCoprocessor z)) ∧
    (s.HasCp0 → exec (.lwc0 base rt offset) s = .refused .cop0LoadStore ∧
      exec (.swc0 base rt offset) s = .refused .cop0LoadStore ∧
      (∀ i ∈ [Instr.tlbr, .tlbwi, .tlbwr, .tlbp], exec i s = .refused .removedTlbInstruction) ∧
      (rd ∉ [4#5, 8#5, 12#5, 13#5, 14#5, 15#5] → exec (.mtc0 rt rd) s = .refused (.absentCp0Register rd) ∧
        exec (.mfc0 rt rd) s = .refused (.absentCp0Register rd)))

/-! ### CP0 -/

/-- MTC0 writes the writable fields of the six CP0 registers and nothing else: PTEBase of Context, every field of SR but
CM, SW of Cause (R255, R260). The places of the bits are general knowledge (G1 to G3): log entry 28, PRESUMED. That CM
(D30) and EPC, PRId and BadVAddr (D9) ignore the write is the spec's own choice: log entry 20. -/
def Obligations.Mtc0Writes : Prop :=
  ∀ (s : State) (rt rd : Reg), s.HasCp0 → rd ∈ [4#5, 8#5, 12#5, 13#5, 14#5, 15#5] →
    ∃ w t, s.Reads rt w ∧ exec (.mtc0 rt rd) s = .next t ∧
      t.pteBase = (if rd = 4#5 then w.extractLsb' 21 11 else s.pteBase) ∧
      t.cause = (if rd = 13#5 then { s.cause with sw := w.extractLsb' 8 2 } else s.cause) ∧
      (rd ≠ 12#5 → t.sr = s.sr) ∧
      (rd = 12#5 → t.sr =
          { cu := w.extractLsb' 28 4, re := w.getLsbD 25, bev := w.getLsbD 22, cm := t.sr.cm, swc := w.getLsbD 17,
            isc := w.getLsbD 16, intMask := w.extractLsb' 8 8, kuo := w.getLsbD 5, ieo := w.getLsbD 4,
            kup := w.getLsbD 3, iep := w.getLsbD 2, kuc := w.getLsbD 1, iec := w.getLsbD 0 } ∧
        (s.sr.isc = true → t.sr.cm = s.sr.cm)) ∧
      t.epc = s.epc ∧ t.badVAddr = s.badVAddr ∧ SameGprs s t ∧ SameHiLo s t ∧ SameMemory s t ∧ SamePins s t ∧
      Completes s t { mtc0 := some s.cp0View }

/-- MFC0 loads a CP0 register, field by field, with the delay of a load, and changes nothing else (R163, R256, R260):
EPC, BadVAddr and PRId whole; of Context PTEBase; of Cause the INT pins as IP; the reserved bits 0; CM while IsC = 1.
The places of the fields are general knowledge (G1 to G3): log entry 28, PRESUMED. If the instruction just before
loaded the destination, the later write wins (R411, R410; R163 says any value: log entry 12, DEDUCED). -/
def Obligations.Mfc0Reads : Prop :=
  ∀ (s : State) (rt rd : Reg), s.HasCp0 → rd ∈ [4#5, 8#5, 12#5, 13#5, 14#5, 15#5] →
    ∃ w t, exec (.mfc0 rt rd) s = .next t ∧ WritesOnly s t rt w ∧ SameHiLo s t ∧ SameCp0 s t ∧ SameMemory s t ∧
      SamePins s t ∧ Completes s t { load := some rt } ∧
      (rd = 8#5 → w = s.badVAddr) ∧ (rd = 14#5 → w = s.epc) ∧ (rd = 15#5 → w = Config.pridValue) ∧
      (rd = 4#5 → ∃ v, s.MaySee v ∧ w.extractLsb' 21 11 = v.pteBase ∧ w.extractLsb' 0 2 = 0#2) ∧
      (rd = 13#5 → ∃ v, s.MaySee v ∧ w.getLsbD 31 = s.cause.bd ∧ w.getLsbD 30 = false ∧
        w.extractLsb' 28 2 = s.cause.ce ∧ w.extractLsb' 16 12 = 0#12 ∧ w.extractLsb' 10 6 = s.inputs.int ∧
        w.extractLsb' 8 2 = v.sw ∧ w.extractLsb' 6 2 = 0#2 ∧ w.extractLsb' 2 4 = s.cause.excCode ∧
        w.extractLsb' 0 2 = 0#2) ∧
      (rd = 12#5 → ∃ v, s.MaySee v ∧ w.extractLsb' 28 4 = v.sr.cu ∧ w.extractLsb' 26 2 = 0#2 ∧
        w.getLsbD 25 = v.sr.re ∧ w.extractLsb' 23 2 = 0#2 ∧ w.getLsbD 22 = v.sr.bev ∧ w.extractLsb' 20 2 = 0#2 ∧
        (v.sr.isc = true → w.getLsbD 19 = v.sr.cm) ∧ w.getLsbD 18 = false ∧ w.getLsbD 17 = v.sr.swc ∧
        w.getLsbD 16 = v.sr.isc ∧ w.extractLsb' 8 8 = v.sr.intMask ∧ w.extractLsb' 6 2 = 0#2 ∧
        w.getLsbD 5 = v.sr.kuo ∧ w.getLsbD 4 = v.sr.ieo ∧ w.getLsbD 3 = v.sr.kup ∧ w.getLsbD 2 = v.sr.iep ∧
        w.getLsbD 1 = v.sr.kuc ∧ w.getLsbD 0 = v.sr.iec)

/-- RFE pops the KU/IE stack and changes nothing else (R257): KUc, IEc from KUp, IEp; KUp, IEp from KUo, IEo; KUo, IEo
stay. Right after a load or store it is refused (R420). -/
def Obligations.RfePops : Prop :=
  ∀ s : State, s.HasCp0 →
    (s.prevMem = false → ∃ v t, s.MaySee v ∧ exec .rfe s = .next t ∧
      StackIs s t s.sr.kuo s.sr.ieo v.sr.kuo v.sr.ieo v.sr.kup v.sr.iep ∧ t.cause = s.cause ∧ t.epc = s.epc ∧
      t.badVAddr = s.badVAddr ∧ t.pteBase = s.pteBase ∧ SameGprs s t ∧ SameHiLo s t ∧ SameMemory s t ∧
      SamePins s t ∧ Completes s t {}) ∧
    (s.prevMem = true → exec .rfe s = .refused .rfeAfterMemory)

/-! ### Loads and stores -/

/-- LB, LBU, LH, LHU, LW: the register receives the byte, halfword or word that memory holds at the address once the
write buffer has drained, sign- or zero-extended; with the byte order reversed the low address bits are inverted (R80,
R90, R150 to R155). If the instruction just before loaded the destination, the later write wins (R411, R410; R163 says
any value: log entry 12, DEDUCED). -/
def Obligations.LoadsFromMemory : Prop :=
  ∀ (s : State) (base rt : Reg) (offset : Half) (va : Word), Addresses s base offset va → s.Readable s.mode.dblock va →
    (∃ t, exec (.lb base rt offset) s = .next t ∧
      Loads s t rt ((s.seenByte (s.touched .byte (physical va))).signExtend 32)) ∧
    (∃ t, exec (.lbu base rt offset) s = .next t ∧
      Loads s t rt ((s.seenByte (s.touched .byte (physical va))).setWidth 32)) ∧
    (va.getLsbD 0 = false → ∃ t, exec (.lh base rt offset) s = .next t ∧
      Loads s t rt ((s.seenHalf (s.touched .half (physical va))).signExtend 32)) ∧
    (va.getLsbD 0 = false → ∃ t, exec (.lhu base rt offset) s = .next t ∧
      Loads s t rt ((s.seenHalf (s.touched .half (physical va))).setWidth 32)) ∧
    (va.extractLsb' 0 2 = 0#2 → ∃ t, exec (.lw base rt offset) s = .next t ∧ Loads s t rt (s.seenWord (physical va)))

/-- LWL and LWR, byte by byte of the register: with `k` the low address bits in the byte order in force, LWL takes bytes
0 to `k` of the addressed word into the top of the register, LWR bytes `k` to 3 into its bottom, the rest of the register
stays, the value of a load just before included (R156, R157, R163). -/
def Obligations.LoadWordParts : Prop :=
  ∀ (s : State) (base rt : Reg) (offset : Half) (va : Word) (k : Nat), Addresses s base offset va →
    s.Readable s.mode.dblock va → k = (if s.bigEndianCPU then 3 - va.toNat % 4 else va.toNat % 4) →
    (∃ v t, exec (.lwl base rt offset) s = .next t ∧ Loads s t rt v ∧ ∀ j < 4, laneByte v j =
      if 3 - k ≤ j then laneByte (s.seenWord (wordAddr (physical va))) (j - (3 - k)) else laneByte (s.readGpr rt) j) ∧
    (∃ v t, exec (.lwr base rt offset) s = .next t ∧ Loads s t rt v ∧ ∀ j < 4, laneByte v j =
      if j + k ≤ 3 then laneByte (s.seenWord (wordAddr (physical va))) (j + k) else laneByte (s.readGpr rt) j)

/-- The pair LWL, LWR loads the word of the four bytes at any address, with no instruction between them: LWL at the
address and LWR at the address plus 3 in big-endian order, LWR and then LWL in little-endian order (R84, R166). -/
def Obligations.UnalignedLoadPair : Prop :=
  ∀ (s : State) (base rt : Reg) (offset offset' : Half) (va : Word), Addresses s base offset va →
    Addresses s base offset' (va + 3) → s.Readable s.mode.dblock va → s.Readable s.mode.dblock (va + 3) → rt ≠ base →
    rt ≠ 0 →
    (s.bigEndianCPU = true → ∃ t u, exec (.lwl base rt offset) s = .next t ∧ exec (.lwr base rt offset') t = .next u ∧
      u.readGpr rt = s.seenByte (s.touched .byte (physical va)) ++ s.seenByte (s.touched .byte (physical (va + 1))) ++
        s.seenByte (s.touched .byte (physical (va + 2))) ++ s.seenByte (s.touched .byte (physical (va + 3)))) ∧
    (s.bigEndianCPU = false → ∃ t u, exec (.lwr base rt offset) s = .next t ∧ exec (.lwl base rt offset') t = .next u ∧
      u.readGpr rt = s.seenByte (s.touched .byte (physical (va + 3))) ++ s.seenByte (s.touched .byte (physical (va + 2))) ++
        s.seenByte (s.touched .byte (physical (va + 1))) ++ s.seenByte (s.touched .byte (physical va)))

/-- SB, SH, SW: the bytes at the address, and no others, become those of the register, as memory stands once the write
buffer has drained, where the platform has ordinary memory (R80, R91, R93, R158 to R160). Nothing changes where it has
read-only memory or none (R77). That nothing changes where it has a device either is the model's choice and no rule's: R77
says only that a device's writes have side effects (log entry 33, DESIGN CHOICE, unsafe for claims that lean on it). -/
def Obligations.StoresToMemory : Prop :=
  ∀ (s : State) (base rt : Reg) (offset : Half) (va : Word), Addresses s base offset va → s.mem.wf → s.HasRoom →
    (∃ v t, s.Reads rt v ∧ exec (.sb base rt offset) s = .next t ∧ StoresOnly s t va ∧
      ∀ a, t.seenByte a =
        if a = s.touched .byte (physical va) ∧ s.answer a = .memory then v.extractLsb' 0 8 else s.seenByte a) ∧
    (va.getLsbD 0 = false → ∃ v t, s.Reads rt v ∧ exec (.sh base rt offset) s = .next t ∧ StoresOnly s t va ∧
      (s.answer (physical va) = .memory → t.seenHalf (s.touched .half (physical va)) = v.extractLsb' 0 16) ∧
      ∀ a, (a ≠ s.touched .half (physical va) ∧ a ≠ s.touched .half (physical va) + 1) ∨ s.answer a ≠ .memory →
        t.seenByte a = s.seenByte a) ∧
    (va.extractLsb' 0 2 = 0#2 → ∃ v t, s.Reads rt v ∧ exec (.sw base rt offset) s = .next t ∧ StoresOnly s t va ∧
      (s.answer (physical va) = .memory → t.seenWord (physical va) = v) ∧
      ∀ a, wordAddr a ≠ physical va ∨ s.answer a ≠ .memory → t.seenByte a = s.seenByte a)

/-- SWL and SWR, byte by byte of memory: with `k` the low address bits in the byte order in force and `i` the position of
a byte in its word, SWL stores the top of the register into bytes 0 to `k` of the addressed word, SWR its bottom into
bytes `k` to 3, where the platform has ordinary memory; every other byte of memory stays (R77, R93, R161, R162). That the
bytes of a device stay too is the model's choice and no rule's: R77 says only that a device's writes have side effects (log
entry 33, DESIGN CHOICE, unsafe for claims that lean on it). -/
def Obligations.StoreWordParts : Prop :=
  ∀ (s : State) (base rt : Reg) (offset : Half) (va : Word) (k : Nat), Addresses s base offset va → s.mem.wf →
    s.HasRoom → k = (if s.bigEndianCPU then 3 - va.toNat % 4 else va.toNat % 4) →
    (∃ v t, s.Reads rt v ∧ exec (.swl base rt offset) s = .next t ∧ StoresOnly s t va ∧ ∀ (a : Word) (i : Nat),
      i = laneOf s.mode.bigEndianMem (a.toNat % 4) →
      t.seenByte a = if wordAddr a = wordAddr (physical va) ∧ i ≤ k ∧ s.answer a = .memory then laneByte v (3 - k + i)
        else s.seenByte a) ∧
    (∃ v t, s.Reads rt v ∧ exec (.swr base rt offset) s = .next t ∧ StoresOnly s t va ∧ ∀ (a : Word) (i : Nat),
      i = laneOf s.mode.bigEndianMem (a.toNat % 4) →
      t.seenByte a = if wordAddr a = wordAddr (physical va) ∧ k ≤ i ∧ s.answer a = .memory then laneByte v (i - k)
        else s.seenByte a)

/-- A load or store that is misaligned, or that references an address with bit 31 set in user mode, raises AdEL or AdES
with BadVAddr the address and does nothing else; LB, LBU, LWL, LWR, SB, SWL, SWR have no alignment condition (R73, R83,
R353, R354). The fetches that the entry aborts (R88(d)) are log entry 37, DEDUCED. -/
def Obligations.DataAddressErrors : Prop :=
  ∀ (s : State) (base rt : Reg) (offset : Half) (va : Word), s.ldSlot ≠ some base → s.afterMtc0 = none →
    va = s.readGpr base + offset.signExtend 32 →
    (s.mayAccess va = false →
      (∀ i ∈ [Instr.lb base rt offset, .lbu base rt offset, .lh base rt offset, .lhu base rt offset, .lw base rt offset,
        .lwl base rt offset, .lwr base rt offset], ∃ t, exec i s = .next t ∧ Enters s t 4 none (some va)) ∧
      (∀ i ∈ [Instr.sb base rt offset, .sh base rt offset, .sw base rt offset, .swl base rt offset, .swr base rt offset],
        ∃ t, exec i s = .next t ∧ Enters s t 5 none (some va))) ∧
    (va.getLsbD 0 = true →
      (∀ i ∈ [Instr.lh base rt offset, .lhu base rt offset], ∃ t, exec i s = .next t ∧ Enters s t 4 none (some va)) ∧
      ∃ t, exec (.sh base rt offset) s = .next t ∧ Enters s t 5 none (some va)) ∧
    (va.extractLsb' 0 2 ≠ 0#2 →
      (∃ t, exec (.lw base rt offset) s = .next t ∧ Enters s t 4 none (some va)) ∧
      ∃ t, exec (.sw base rt offset) s = .next t ∧ Enters s t 5 none (some va))

/-- Every load and store, its base register still being loaded or not: it uses what the source read of the base gives,
in the load delay any value (R30, R163; that the read is any value is the spec's own choice D15, log entry 12), and
loads from or stores to the address that this value gives, or raises AdEL or AdES for it. A load other than LWL and
LWR into the register still being loaded, its base or not: the later write wins (R411, R410; R163 says any value: log
entry 12, DEDUCED). That a store leaves the bytes of a device as they were is the model's choice: log entry 33, DESIGN
CHOICE, unsafe for claims that lean on it. The fetches that an entry aborts (R88(d)) are log entry 37, DEDUCED. -/
def Obligations.LoadThroughLoadingBase : Prop :=
  ∀ (s : State) (base rt : Reg) (offset : Half) (va : Word), va = effectiveAddr (s.readSrc base).1 offset →
    s.afterMtc0 = none → s.sr.isc = false → Coherent s → s.sr.swc = false → s.mem.wf →
    s.Reads base (s.readSrc base).1 ∧
    (∀ i ∈ [Instr.lb base rt offset, .lbu base rt offset, .lh base rt offset, .lhu base rt offset, .lw base rt offset],
      (s.mayAccess va = false ∨ (∀ w, (i, w) ∉ s.loadsAt base rt offset va) →
        ∃ t, exec i s = .next t ∧ Enters s t 4 none (some va)) ∧
      ∀ w, s.mayAccess va = true → (i, w) ∈ s.loadsAt base rt offset va → s.Readable s.mode.dblock va →
        ∃ t, exec i s = .next t ∧ Loads s t rt w) ∧
    (∀ i ∈ [Instr.lwl base rt offset, .lwr base rt offset],
      (s.mayAccess va = false → ∃ t, exec i s = .next t ∧ Enters s t 4 none (some va)) ∧
      (s.mayAccess va = true → s.Readable s.mode.dblock va → ∃ t, exec i s = .next t ∧
        Loads s t rt (loadedFrom s.bigEndianCPU va (s.seenWord (wordAddr (physical va))) (s.readGpr rt) i))) ∧
    (∃ v, s.Reads rt v ∧ v = ((s.readSrc base).2.readSrc rt).1 ∧
      ∀ i ∈ [Instr.sb base rt offset, .sh base rt offset, .sw base rt offset, .swl base rt offset, .swr base rt offset],
        (s.mayAccess va = false ∨ i ∉ storesAt base rt offset va →
          ∃ t, exec i s = .next t ∧ Enters s t 5 none (some va)) ∧
        (s.mayAccess va = true → i ∈ storesAt base rt offset va → s.HasRoom →
          ∃ t, exec i s = .next t ∧ StoresOnly s t va ∧ ∀ b, t.seenByte b =
            if wordAddr b = wordAddr (physical va) ∧ s.answer b = .memory then
              (storedLane s.bigEndianCPU va v i (laneOf s.mode.bigEndianMem (b.toNat % 4))).getD (s.seenByte b)
            else s.seenByte b))

/-! ### Caches, write buffer, bus -/

/-- Cached loads, LB, LBU, LH, LHU, LW, LWL and LWR (R95): a hit takes the bytes from the entry's word with no bus
cycle, whatever memory holds, also while another master holds the bus; a miss reads memory and fills the entry, with
block refill the four entries of the aligned block, while the clear pin is active none (R98), and every other entry
stays. With the caches swapped the same holds of the instruction-cache array (R101; that it keeps its own index, tag,
pins and refill size is log entry 17). Right after another load into the same register the later load wins (R411,
R410; R163 says any value: log entry 12, DEDUCED); LWL and LWR merge with what that load loaded (R163). -/
def Obligations.CachedLoads : Prop :=
  ∀ (s : State) (base rt : Reg) (offset : Half) (va : Word), s.ldSlot ≠ some base → s.afterMtc0 = none →
    va = s.readGpr base + offset.signExtend 32 → s.mayAccess va = true → inKseg1 va = false → s.sr.isc = false →
    ∀ i ∈ loadInstrsAt base rt offset va,
    (∀ d, (s.sr.swc = false ∧ s.inputs.dcclr = false ∧
          s.dcacheEntry (physical va) = some (.line true (dcacheTag (physical va)) d)) ∨
        (s.sr.swc = true ∧ s.inputs.icclr = false ∧
          s.icacheEntry (physical va) = some (.line true (icacheTag (physical va)) d)) →
      ∃ t, exec i s = .next t ∧
        WritesOnly s t rt (loadedFrom s.bigEndianCPU va d (s.readGpr rt) i) ∧ SameMemory s t ∧
        SameHiLo s t ∧ SameCp0 s t ∧ SamePins s t ∧ Completes s t { load := some rt, memory := true }) ∧
    (s.sr.swc = false → s.MissesData (physical va) → s.Readable s.mode.dblock va →
      ∃ t, exec i s = .next t ∧
        Loads s t rt
          (loadedFrom s.bigEndianCPU va (s.seenWord (wordAddr (physical va))) (s.readGpr rt) i) ∧
        Refilled s dcacheIndex dcacheTag (refillWord s.mode.dblock (wordAddr (physical va))) s.Finds s.inputs.dcclr
          s.dcache t.dcache) ∧
    (s.sr.swc = true → s.MissesInstr (physical va) → s.Readable s.mode.iblock va →
      ∃ t, exec i s = .next t ∧
        Loads s { t with icache := s.icache } rt
          (loadedFrom s.bigEndianCPU va (s.seenWord (wordAddr (physical va))) (s.readGpr rt) i) ∧ t.dcache = s.dcache ∧
        Refilled s icacheIndex icacheTag (refillWord s.mode.iblock (wordAddr (physical va))) s.Finds s.inputs.icclr
          s.icache t.icache)

/-- What a store does to the data cache (R96): a store of the whole word, SW or an SWL or SWR of four bytes, allocates the
entry (the spec's choice, G11, log entry 15); a store of a part invalidates the entry at the index whatever its tag, or
with STPART = 1 merges into it on a hit and leaves it on a miss; every other entry stays. With the caches swapped the same
holds of the instruction-cache array (R101; log entry 17). -/
def Obligations.CachedStores : Prop :=
  ∀ (s : State) (base rt : Reg) (offset : Half) (va : Word), s.ldSlot ≠ some base → s.afterMtc0 = none →
    va = s.readGpr base + offset.signExtend 32 → s.mayAccess va = true → inKseg1 va = false → s.sr.isc = false →
    s.HasRoom → ∀ i ∈ storesAt base rt offset va, ∃ v t, s.Reads rt v ∧ exec i s = .next t ∧
      (s.sr.swc = false → s.inputs.dcclr = false → t.icache = s.icache ∧
        StoredLine s.mode.stpart (dcacheTag (physical va)) (storedLane s.bigEndianCPU va v i)
          (s.dcacheEntry (physical va)) (t.dcacheEntry (physical va)) ∧
        ∀ k, k ≠ dcacheIndex (physical va) → tableGet k t.dcache = tableGet k s.dcache) ∧
      (s.sr.swc = true → s.inputs.icclr = false → t.dcache = s.dcache ∧
        StoredLine s.mode.stpart (icacheTag (physical va)) (storedLane s.bigEndianCPU va v i)
          (s.icacheEntry (physical va)) (t.icacheEntry (physical va)) ∧
        ∀ k, k ≠ icacheIndex (physical va) → tableGet k t.icache = tableGet k s.icache)

/-- With the caches isolated no access reaches memory or the bus, whatever its segment. It acts on the data cache, or
with the caches swapped on the instruction-cache array with that array's index, tag and clear pin (R100, R101; log
entry 17): every load takes its bytes from the entry's word whatever its tag, or from any word where the entry is not
listed or unknown, and records the miss in CM (a miss on an entry not listed, any on an unknown one unless the clear
pin is active); a store leaves the entry unknown (R100; the reading is D20, log entry 16), or invalid while the clear
pin is active (R98; log entry 32); the other array stays. Right after another load into the same register the later
load wins (R411, R410; R163 says any value: log entry 12, DEDUCED); LWL and LWR merge with what that load loaded
(R163). -/
def Obligations.IsolatedAccesses : Prop :=
  ∀ (s : State) (base rt : Reg) (offset : Half) (va : Word), Inv s → s.ldSlot ≠ some base → s.afterMtc0 = none →
    va = s.readGpr base + offset.signExtend 32 → s.mayAccess va = true → s.sr.isc = true →
    (∀ i ∈ loadInstrsAt base rt offset va, ∃ d cm v t, exec i s = .next t ∧
      v = loadedFrom s.bigEndianCPU va d (s.readGpr rt) i ∧ WritesOnly s t rt v ∧
      (s.sr.swc = false →
        IsolatedFinds (s.dcacheEntry (physical va)) ((physical va).extractLsb' 10 22) s.inputs.dcclr d cm) ∧
      (s.sr.swc = true →
        IsolatedFinds (s.icacheEntry (physical va)) ((physical va).extractLsb' 12 20) s.inputs.icclr d cm) ∧
      SameMemory s t ∧ SamePins s t ∧ SameHiLo s t ∧ t.sr = { s.sr with cm := cm } ∧ t.cause = s.cause ∧
      t.epc = s.epc ∧ t.badVAddr = s.badVAddr ∧ t.pteBase = s.pteBase ∧
      Completes s t { load := some rt, memory := true }) ∧
    (∀ i ∈ storesAt base rt offset va, ∃ t, exec i s = .next t ∧
      (s.sr.swc = false →
        t.dcacheEntry (physical va) = (if s.inputs.dcclr then none else some .unknown) ∧ t.icache = s.icache ∧
        ∀ k, k ≠ ((physical va).extractLsb' 2 8).toNat → tableGet k t.dcache = tableGet k s.dcache) ∧
      (s.sr.swc = true →
        t.icacheEntry (physical va) = (if s.inputs.icclr then none else some .unknown) ∧ t.dcache = s.dcache ∧
        ∀ k, k ≠ ((physical va).extractLsb' 2 10).toNat → tableGet k t.icache = tableGet k s.icache) ∧
      SameGprs s t ∧ SameMemory s { t with dcache := s.dcache, icache := s.icache } ∧ SameCp0 s t ∧ SameHiLo s t ∧
      SamePins s t ∧ Completes s t { store := true, memory := true })

/-- A word store to kseg1 puts one entry at the tail of the write buffer; a full buffer first loses its oldest entry
(R61, R103). It writes nothing into a cache (R93); that a valid data-cache entry of its word becomes invalid, so that no
alias shows the old word (R106(b)), is the model's choice (D21; log entry 35, DEDUCED). -/
def Obligations.StoreEntersBufferTail : Prop :=
  ∀ (s : State) (base rt : Reg) (offset : Half) (va : Word), Addresses s base offset va → inKseg1 va = true →
    va.extractLsb' 0 2 = 0#2 → s.HasRoom →
    ∃ v t, s.Reads rt v ∧ exec (.sw base rt offset) s = .next t ∧ t.icache = s.icache ∧
      ((s.sr.swc = true ∨ ∀ d, s.dcacheEntry (physical va) ≠ some (.line true ((physical va).extractLsb' 10 22) d)) →
        t.dcache = s.dcache) ∧
      (∀ d, s.sr.swc = false →
        s.dcacheEntry (physical va) = some (.line true ((physical va).extractLsb' 10 22) d) →
        t.dcacheEntry (physical va) = some (.line false ((physical va).extractLsb' 10 22) d) ∧
        ∀ k, k ≠ ((physical va).extractLsb' 2 8).toNat → tableGet k t.dcache = tableGet k s.dcache) ∧
      t.writeBuffer = (if s.writeBuffer.length < 4 then s.writeBuffer else s.writeBuffer.tail) ++
        [{ addr := physical va, mask := 0b1111, data := v }]

/-- The BIU performs the oldest entry of the write buffer: it is removed, the bytes of its lanes are written where the
platform has ordinary memory and no others change (R77, R93, R103; that a device's bytes do not change is the model's
choice, log entry 33, DESIGN CHOICE); on the 16-bit bus an entry that starts in the upper half of its word writes that half
only (R335, log entry 18). Where nothing answers, the entry stays and the write is
stuck; while a cycle is stuck the BIU does nothing (R77, log entry 33). -/
def Obligations.BiuPerformsOldestWrite : Prop :=
  ∀ (s : State) (e : WriteEntry) (rest : List WriteEntry), s.mem.wf → s.writeBuffer = e :: rest →
    (s.bus = .free → s.answer e.addr ≠ .absent →
      s.biuWrite.writeBuffer = rest ∧ s.biuWrite.bus = .free ∧ ∀ (a : Word) (i : Nat),
        i = laneOf s.mode.bigEndianMem (a.toNat % 4) → s.biuWrite.mem.read a.toNat =
          if wordAddr a = wordAddr e.addr ∧ s.answer a = .memory ∧ e.mask.getLsbD i = true ∧
              ¬ (s.mode.sbussiz = true ∧ e.addr.getLsbD 1 = true ∧ a.getLsbD 1 = false)
          then laneByte e.data i else s.mem.read a.toNat) ∧
    (s.bus = .free → s.answer e.addr = .absent →
      s.biuWrite = { s with bus := .writeStuck, trace := s.biuWrite.trace }) ∧
    (s.bus ≠ .free → s.biuWrite = s)

/-- What the bus shows of stores and loads in kseg1, on the 32-bit bus with the buffer empty: a store's write cycle has
the byte address, the number of bytes less one, and the lanes of Table 4-2 (R320); a load's read cycle has the word
address and the length asked for (R312), and the data cache is left alone. -/
def Obligations.BusCyclesOfAccesses : Prop :=
  ∀ (s : State) (base rt : Reg) (offset : Half) (va : Word) (l : Nat), Addresses s base offset va →
    inKseg1 va = true → s.BusReady → s.answer (physical va) ≠ .absent → s.mode.sbussiz = false → s.writeBuffer = [] →
    l = laneOf s.mode.bigEndianMem ((s.touched .byte (physical va)).toNat % 4) →
    (∃ v t, s.Reads rt v ∧ exec (.sb base rt offset) s = .next t ∧
      t.biuWrite.trace = .write (s.touched .byte (physical va)) 0 [(l, v.extractLsb' 0 8)] :: s.trace) ∧
    (va.extractLsb' 0 2 = 0#2 → ∃ v t, s.Reads rt v ∧ exec (.sw base rt offset) s = .next t ∧
      t.biuWrite.trace = .write (physical va) 3 [(0, v.extractLsb' 0 8), (1, v.extractLsb' 8 8), (2, v.extractLsb' 16 8),
        (3, v.extractLsb' 24 8)] :: s.trace) ∧
    (s.inputs.dataSizrq = false → ∃ t, exec (.lb base rt offset) s = .next t ∧ t.dcache = s.dcache ∧
      t.trace = .read (wordAddr (physical va)) (.uncached 0) :: s.trace)

/-- A single read is one, two or four bus cycles as the platform asks for sizing (R332 to R334): with 8-bit dynamic
sizing the low address bits run 00, 01, 10, 11; with 16-bit sizing, dynamic or fixed, 00, 10. It is asked for access by
access (R331): a load, the fetch of a step and each of the fetches that an exception aborts, here two behind a SYSCALL
(R88(d); log entry 37, DEDUCED), is sized as its own request says, whatever the others of the same step were. -/
def Obligations.SizedReadCycles : Prop :=
  (∀ (s : State) (sized : Bool) (a : Word) (type : ReadType), s.BusReady → s.backed a = true →
    a.extractLsb' 0 2 = 0#2 → s.writeBuffer = [] →
    ∃ t, s.busRead sized a type = .done (s.seenWord a) t ∧ t.mem = s.mem ∧
      t.trace = shownReads s.mode sized a type ++ s.trace) ∧
  (∀ (s : State) (base rt : Reg) (offset : Half) (va : Word), Addresses s base offset va → inKseg1 va = true →
    va.extractLsb' 0 2 = 0#2 → s.Readable false va → s.writeBuffer = [] →
    ∃ t u, s.busRead s.inputs.dataSizrq (physical va) (.uncached 3) = .done (s.seenWord (physical va)) u ∧
      exec (.lw base rt offset) s = .next t ∧ t.trace = u.trace) ∧
  (∀ s t : State, Starts s t → t.Undisturbed → t.Fetchable → inKseg1 t.pc = true → t.Readable false t.pc →
    t.writeBuffer = [] → ∃ w u, t.MayFetch (physical t.pc) w ∧ FetchedOnly t u ∧
      u.trace = shownReads t.mode t.inputs.fetchSizrq (physical t.pc) (.uncached 3) ++ t.trace ∧
      ∀ i, decode w = .ok i → step s = exec i u) ∧
  (∀ (s : State) (first second : Bool), s.inputs.abortedFetches = [first, second] → s.writeBuffer = [] →
    (∀ va ∈ [s.npc, s.npc + 4], s.FetchableAt va ∧ inKseg1 va = true ∧ s.Readable false va) →
    ∃ t, exec .syscall s = .next t ∧ Enters s t 8 none none ∧
      t.trace = shownReads s.mode second (physical (s.npc + 4)) (.uncached 3) ++
        shownReads s.mode first (physical s.npc) (.uncached 3) ++ s.trace)

/-! ### The whole instruction set -/

/-- Exceptions are precise and instructions are whole: an instruction that answers a next state has waited for the bus
with nothing changed but the cell that says whether a read waits (log entry 38, DEDUCED), or waits for a bus cycle that never
completes with nothing changed but the bus, memory, buffer and caches, or taken an exception and done nothing else (but for the fetches that every entry aborts: R88(d), log entry 37,
DEDUCED), or completed; a completed one writes neither EPC nor BadVAddr nor BD, CE and ExcCode of Cause (R77, R351, R355,
R370, R374, R375). -/
def Obligations.CompletesOrEnters : Prop :=
  ∀ (i : Instr) (s t : State), exec i s = .next t →
    (∃ read, t = { s with readWaiting := read }) ∨
    (t.bus = .coreStuck ∧ t = { s with
      bus := t.bus, mem := t.mem, writeBuffer := t.writeBuffer, trace := t.trace, icache := t.icache,
      dcache := t.dcache, freeIndex := t.freeIndex }) ∨
    (∃ code ce bad, Enters s t code ce bad ∧ (bad = none ∨ code = 4 ∨ code = 5)) ∨
    ∃ r, Completes s t r ∧ t.epc = s.epc ∧ t.badVAddr = s.badVAddr ∧ t.cause = { s.cause with sw := t.cause.sw }

/-- Only a store changes memory as the program sees it, and not even a store while the data cache is isolated (R100,
R103, R167). That the bytes of a device change with no access is the model's choice (log entry 33, DESIGN CHOICE). -/
def Obligations.OnlyStoresChangeMemory : Prop :=
  ∀ (i : Instr) (s t : State), exec i s = .next t →
    (s.sr.isc = true ∨ ∀ (base rt : Reg) (offset : Half), i ≠ .sb base rt offset ∧ i ≠ .sh base rt offset ∧
      i ≠ .sw base rt offset ∧ i ≠ .swl base rt offset ∧ i ≠ .swr base rt offset) →
    ∀ a, t.seenByte a = s.seenByte a

/-- Who writes what: HI and LO only MULT, MULTU, DIV, DIVU, MTHI, MTLO (R25); the software interrupt bits only MTC0 to
Cause (R363); PTEBase only MTC0 to Context; the mode pins (R66) and what is behind the bus no instruction. -/
def Obligations.OnlyTheNamedWriters : Prop :=
  ∀ (i : Instr) (s t : State), exec i s = .next t →
    ((t.hi = s.hi ∧ t.lo = s.lo) ∨ ∃ rs rt, i = .mult rs rt ∨ i = .multu rs rt ∨ i = .div rs rt ∨ i = .divu rs rt ∨
      i = .mthi rs ∨ i = .mtlo rs) ∧
    (t.cause.sw = s.cause.sw ∨ ∃ rt, i = .mtc0 rt 13) ∧ (t.pteBase = s.pteBase ∨ ∃ rt, i = .mtc0 rt 4) ∧
    t.mode = s.mode ∧ t.platform = s.platform

/-- User mode is confined while Cu0 = 0 (R386, R387): a step either stays in user mode with every CP0 register as it was
(CM apart) and no MTC0 done, or takes an exception into the kernel at its vector; and no byte of physical memory from
0x80000000 up changes, no other master writing. (A user store reaches every byte below, the memory of kseg0 and kseg1
included: R386.) -/
def Obligations.UserModeConfined : Prop :=
  ∀ s t : State, s.sr.kuc = true → s.sr.cu.getLsbD 0 = false → s.afterMtc0 = none → s.resetPulse = none →
    s.NoMasterWrites → step s = .next t →
    ((t.sr = { s.sr with cm := t.sr.cm } ∧ t.cause = s.cause ∧ t.epc = s.epc ∧ t.badVAddr = s.badVAddr ∧
        t.pteBase = s.pteBase ∧ t.afterMtc0 = none) ∨
      (t.sr.kuc = false ∧ t.sr.iec = false ∧ t.sr.kup = true ∧ t.sr.iep = s.sr.iec ∧ t.inDelaySlot = false ∧
        t.pc = (if s.sr.bev then 0xBFC00180 else 0x80000080) ∧ SameGprs s t)) ∧
    ∀ a : Word, a.getLsbD 31 = true → t.seenByte a = s.seenByte a

end
end

