-- ==== Sys2Proof/Laws/Memory.lean ====
section
/-! SUPPORT. The laws of sparse tables and of memory: a read after a write, other addresses left alone, the canonical
form kept by every memory operation. -/

namespace Sys2Proof.Machine

/-! ### Tables -/

theorem tableGet_none_of_lt {α : Type} {k : Nat} {t : List (Nat × α)} (h : ∀ e ∈ t, k < e.1) :
    tableGet k t = none := by
  induction t with
  | nil => rfl
  | cons c t ih =>
    have hc := h c (by simp)
    simp only [tableGet, show ¬ k = c.1 by omega, if_false]
    exact ih fun e he => h e (by simp [he])

theorem tableGet_set_ne {α : Type} {a k : Nat} (v : Option α) (t : List (Nat × α)) (h : a ≠ k) :
    tableGet a (tableSet k v t) = tableGet a t := by
  induction t with
  | nil => cases v <;> simp [tableSet, tableGet, h]
  | cons c t ih =>
    obtain ⟨j, y⟩ := c
    simp only [tableSet]
    split
    · cases v <;> simp [tableGet, h]
    · split
      · rename_i hj
        subst hj
        cases v <;> simp [tableGet, h]
      · simp [tableGet, ih]

theorem tableGet_set_self {α : Type} (k : Nat) (v : Option α) (t : List (Nat × α)) (h : tableRising t) :
    tableGet k (tableSet k v t) = v := by
  induction t with
  | nil => cases v <;> simp [tableSet, tableGet]
  | cons c t ih =>
    obtain ⟨j, y⟩ := c
    have ht := List.pairwise_cons.1 h
    simp only [tableSet]
    split
    · rename_i hlt
      cases v with
      | none =>
        apply tableGet_none_of_lt
        intro e he
        rcases List.mem_cons.1 he with rfl | he
        · exact hlt
        · exact Nat.lt_trans hlt (ht.1 e he)
      | some x => simp [tableGet]
    · split
      · rename_i hj
        cases v with
        | none => exact tableGet_none_of_lt fun e he => by simpa [hj] using ht.1 e he
        | some x => simp [tableGet]
      · rename_i hj
        simp [tableGet, hj, ih ht.2]

/-- What a table with one key set answers. -/
theorem tableGet_set {α : Type} (a k : Nat) (v : Option α) (t : List (Nat × α)) (h : tableRising t) :
    tableGet a (tableSet k v t) = if a = k then v else tableGet a t := by
  split
  · rename_i hak
    subst hak
    exact tableGet_set_self a v t h
  · rename_i hak
    exact tableGet_set_ne v t hak

/-- The entries of a table with one key set are old ones, or the new one. -/
theorem mem_tableSet {α : Type} {k : Nat} {v : Option α} {t : List (Nat × α)} {e : Nat × α}
    (h : e ∈ tableSet k v t) : e ∈ t ∨ ∃ x, v = some x ∧ e = (k, x) := by
  induction t with
  | nil => cases v <;> simp_all [tableSet]
  | cons c t ih =>
    obtain ⟨j, y⟩ := c
    simp only [tableSet] at h
    split at h
    · cases v with
      | none => exact .inl h
      | some x =>
        rcases List.mem_cons.1 h with h | h
        · exact .inr ⟨x, rfl, h⟩
        · exact .inl h
    · split at h
      · cases v with
        | none => exact .inl (List.mem_cons_of_mem _ h)
        | some x =>
          rcases List.mem_cons.1 h with h | h
          · exact .inr ⟨x, rfl, h⟩
          · exact .inl (List.mem_cons_of_mem _ h)
      · rcases List.mem_cons.1 h with h | h
        · exact .inl (by simp [h])
        · rcases ih h with h | h
          · exact .inl (List.mem_cons_of_mem _ h)
          · exact .inr h

/-- Setting a key keeps the keys rising. -/
theorem tableRising_set {α : Type} (k : Nat) (v : Option α) (t : List (Nat × α)) (h : tableRising t) :
    tableRising (tableSet k v t) := by
  induction t with
  | nil => cases v <;> simp [tableSet, tableRising]
  | cons c t ih =>
    obtain ⟨j, y⟩ := c
    have ht := List.pairwise_cons.1 h
    simp only [tableSet]
    split
    · rename_i hlt
      cases v with
      | none => exact h
      | some x =>
        refine List.pairwise_cons.2 ⟨fun e he => ?_, h⟩
        rcases List.mem_cons.1 he with rfl | he
        · exact hlt
        · exact Nat.lt_trans hlt (ht.1 e he)
    · split
      · rename_i hj
        cases v with
        | none => exact ht.2
        | some x => exact List.pairwise_cons.2 ⟨fun e he => by simpa [hj] using ht.1 e he, ht.2⟩
      · refine List.pairwise_cons.2 ⟨fun e he => ?_, ih ht.2⟩
        rcases mem_tableSet he with he | ⟨x, -, rfl⟩
        · exact ht.1 e he
        · simp only
          omega

/-- The value under a listed key. -/
theorem mem_of_tableGet {α : Type} {k : Nat} {x : α} {t : List (Nat × α)} (h : tableGet k t = some x) :
    (k, x) ∈ t := by
  induction t with
  | nil => simp [tableGet] at h
  | cons c t ih =>
    obtain ⟨j, y⟩ := c
    simp only [tableGet] at h
    split at h
    · rename_i hj
      subst hj
      cases h
      simp
    · exact List.mem_cons_of_mem _ (ih h)

/-! ### Memory -/

/-- What a byte of memory reads as after a write. -/
theorem read_write (m : Memory) (a b : Nat) (v : Byte) (h : tableRising m) :
    (m.write a v).read b = if b = a then v else m.read b := by
  simp only [Memory.read, Memory.write, tableGet_set b a _ m h]
  split
  · split
    · rename_i hv
      simp [hv]
    · rfl
  · rfl

theorem read_write_ne (m : Memory) {a b : Nat} (v : Byte) (h : b ≠ a) : (m.write a v).read b = m.read b := by
  simp only [Memory.read, Memory.write, tableGet_set_ne _ m h]

/-- A write inside the address space keeps the canonical form. -/
theorem write_wf (m : Memory) (a : Nat) (v : Byte) (h : m.wf) (ha : a < 2 ^ 32) : (m.write a v).wf := by
  refine ⟨tableRising_set _ _ _ h.1, fun c hc => ?_⟩
  rcases mem_tableSet hc with hc | ⟨x, hx, rfl⟩
  · exact h.2 c hc
  · split at hx
    · cases hx
    · rename_i hv
      cases hx
      exact ⟨ha, hv⟩

theorem wordAddr_toNat (a : Word) : (wordAddr a).toNat = 4 * (a.toNat / 4) := by
  have h : wordAddr a = (a.extractLsb' 2 30 ++ 0#2 : BitVec 32) := rfl
  rw [h, BitVec.toNat_append]
  simp only [BitVec.extractLsb'_toNat, BitVec.toNat_ofNat, Nat.zero_mod, Nat.or_zero, Nat.shiftRight_eq_div_pow,
    Nat.shiftLeft_eq]
  have := a.isLt
  omega

theorem wordAddr_lt (a : Word) (k : Nat) (hk : k < 4) : (wordAddr a).toNat + k < 2 ^ 32 := by
  rw [wordAddr_toNat]
  have := a.isLt
  omega

theorem writeLane_wf (big : Bool) (a : Word) (mask : BitVec 4) (w : Word) (k : Nat) (m : Memory) (h : m.wf)
    (hk : a.toNat + k < 2 ^ 32) : (writeLane big a mask w k m).wf := by
  unfold writeLane
  simp only
  split
  · exact write_wf m _ _ h hk
  · exact h

/-- A write of lanes into an aligned word keeps the canonical form. -/
theorem writeLanes_wf (big : Bool) (m : Memory) (a : Word) (mask : BitVec 4) (w : Word) (h : m.wf) :
    (writeLanes big m (wordAddr a) mask w).wf := by
  have hb := fun k hk => wordAddr_lt a k hk
  exact writeLane_wf _ _ _ _ _ _ (writeLane_wf _ _ _ _ _ _ (writeLane_wf _ _ _ _ _ _ (writeLane_wf _ _ _ _ _ _ h
    (hb 0 (by decide))) (hb 1 (by decide))) (hb 2 (by decide))) (hb 3 (by decide))

theorem read_writeLane (big : Bool) (a : Word) (mask : BitVec 4) (w : Word) (k : Nat) (m : Memory) (b : Nat)
    (h : tableRising m) :
    (writeLane big a mask w k m).read b =
      if b = a.toNat + k ∧ mask.getLsbD (laneOf big k) = true then laneByte w (laneOf big k) else m.read b := by
  unfold writeLane
  simp only
  split
  · rename_i hm
    simp [read_write m _ _ _ h, hm]
  · rename_i hm
    simp [hm]

theorem writeLane_rising (big : Bool) (a : Word) (mask : BitVec 4) (w : Word) (k : Nat) (m : Memory)
    (h : tableRising m) : tableRising (writeLane big a mask w k m) := by
  unfold writeLane
  simp only
  split
  · exact tableRising_set _ _ _ h
  · exact h

/-- What a byte reads as after lanes have been written into a word: the lane's byte where the mask selects it (R93). -/
theorem read_writeLanes (big : Bool) (m : Memory) (a : Word) (mask : BitVec 4) (w : Word) (b : Nat)
    (h : tableRising m) :
    (writeLanes big m a mask w).read b =
      if a.toNat ≤ b ∧ b < a.toNat + 4 ∧ mask.getLsbD (laneOf big (b - a.toNat)) = true then
        laneByte w (laneOf big (b - a.toNat))
      else m.read b := by
  have r0 := writeLane_rising big a mask w 0 m h
  have r1 := writeLane_rising big a mask w 1 _ r0
  have r2 := writeLane_rising big a mask w 2 _ r1
  unfold writeLanes
  rw [read_writeLane _ _ _ _ _ _ _ r2, read_writeLane _ _ _ _ _ _ _ r1, read_writeLane _ _ _ _ _ _ _ r0,
    read_writeLane _ _ _ _ _ _ _ h]
  by_cases hb : a.toNat ≤ b ∧ b < a.toNat + 4
  · obtain ⟨k, rfl⟩ : ∃ k, b = a.toNat + k := ⟨b - a.toNat, by omega⟩
    have hk : k < 4 := by omega
    interval_cases k <;> simp
  · rw [if_neg (by omega), if_neg (by omega), if_neg (by omega), if_neg (by omega), if_neg (by tauto)]

/-- Bytes outside the word are left alone. -/
theorem read_writeLanes_outside (big : Bool) (m : Memory) (a : Word) (mask : BitVec 4) (w : Word) (b : Nat)
    (hb : b < a.toNat ∨ a.toNat + 4 ≤ b) : (writeLanes big m a mask w).read b = m.read b := by
  have h : ∀ k < 4, ∀ m : Memory, (writeLane big a mask w k m).read b = m.read b := by
    intro k hk m
    unfold writeLane
    simp only
    split
    · exact read_write_ne m _ (by omega)
    · rfl
  unfold writeLanes
  rw [h 3 (by decide), h 2 (by decide), h 1 (by decide), h 0 (by decide)]

theorem writeLanes_rising (big : Bool) (m : Memory) (a : Word) (mask : BitVec 4) (w : Word) (h : tableRising m) :
    tableRising (writeLanes big m a mask w) :=
  writeLane_rising _ _ _ _ _ _ (writeLane_rising _ _ _ _ _ _ (writeLane_rising _ _ _ _ _ _
    (writeLane_rising _ _ _ _ _ _ h)))

end Sys2Proof.Machine
end

