-- ==== Sys2Proof/Laws/State.lean ====
section
/-! SUPPORT. One lemma per field per update of the state, so that no proof unfolds a record update. -/

namespace Sys2Proof.Machine

/-! ### A free word and a free bit -/

@[simp] theorem freshWord_regs (s : State) : s.freshWord.2.regs = s.regs := rfl
@[simp] theorem freshWord_hi (s : State) : s.freshWord.2.hi = s.hi := rfl
@[simp] theorem freshWord_lo (s : State) : s.freshWord.2.lo = s.lo := rfl
@[simp] theorem freshWord_pc (s : State) : s.freshWord.2.pc = s.pc := rfl
@[simp] theorem freshWord_npc (s : State) : s.freshWord.2.npc = s.npc := rfl
@[simp] theorem freshWord_inDelaySlot (s : State) : s.freshWord.2.inDelaySlot = s.inDelaySlot := rfl
@[simp] theorem freshWord_ldSlot (s : State) : s.freshWord.2.ldSlot = s.ldSlot := rfl
@[simp] theorem freshWord_sinceMfhi (s : State) : s.freshWord.2.sinceMfhi = s.sinceMfhi := rfl
@[simp] theorem freshWord_sinceMflo (s : State) : s.freshWord.2.sinceMflo = s.sinceMflo := rfl
@[simp] theorem freshWord_mdFresh (s : State) : s.freshWord.2.mdFresh = s.mdFresh := rfl
@[simp] theorem freshWord_sinceStore (s : State) : s.freshWord.2.sinceStore = s.sinceStore := rfl
@[simp] theorem freshWord_recentStores (s : State) : s.freshWord.2.recentStores = s.recentStores := rfl
@[simp] theorem freshWord_afterMtc0 (s : State) : s.freshWord.2.afterMtc0 = s.afterMtc0 := rfl
@[simp] theorem freshWord_prevMem (s : State) : s.freshWord.2.prevMem = s.prevMem := rfl
@[simp] theorem freshWord_sr (s : State) : s.freshWord.2.sr = s.sr := rfl
@[simp] theorem freshWord_cause (s : State) : s.freshWord.2.cause = s.cause := rfl
@[simp] theorem freshWord_epc (s : State) : s.freshWord.2.epc = s.epc := rfl
@[simp] theorem freshWord_badVAddr (s : State) : s.freshWord.2.badVAddr = s.badVAddr := rfl
@[simp] theorem freshWord_pteBase (s : State) : s.freshWord.2.pteBase = s.pteBase := rfl
@[simp] theorem freshWord_writeBuffer (s : State) : s.freshWord.2.writeBuffer = s.writeBuffer := rfl
@[simp] theorem freshWord_icache (s : State) : s.freshWord.2.icache = s.icache := rfl
@[simp] theorem freshWord_dcache (s : State) : s.freshWord.2.dcache = s.dcache := rfl
@[simp] theorem freshWord_mem (s : State) : s.freshWord.2.mem = s.mem := rfl
@[simp] theorem freshWord_mode (s : State) : s.freshWord.2.mode = s.mode := rfl
@[simp] theorem freshWord_inputs (s : State) : s.freshWord.2.inputs = s.inputs := rfl
@[simp] theorem freshWord_platform (s : State) : s.freshWord.2.platform = s.platform := rfl
@[simp] theorem freshWord_bus (s : State) : s.freshWord.2.bus = s.bus := rfl
@[simp] theorem freshWord_readWaiting (s : State) : s.freshWord.2.readWaiting = s.readWaiting := rfl
@[simp] theorem freshWord_schedule (s : State) : s.freshWord.2.schedule = s.schedule := rfl
@[simp] theorem freshWord_trace (s : State) : s.freshWord.2.trace = s.trace := rfl
@[simp] theorem freshWord_freeIndex (s : State) : s.freshWord.2.freeIndex = s.freeIndex + 1 := rfl
@[simp] theorem freshWord_value (s : State) : s.freshWord.1 = Config.freeWord s.freeIndex := rfl
@[simp] theorem freshBit_state (s : State) : s.freshBit.2 = s.freshWord.2 := rfl

/-! ### A source operand read -/

@[simp] theorem readSrc_regs (s : State) (r : Reg) :
    (s.readSrc r).2.regs = s.regs := by unfold State.readSrc; split <;> rfl
@[simp] theorem readSrc_hi (s : State) (r : Reg) : (s.readSrc r).2.hi = s.hi := by unfold State.readSrc; split <;> rfl
@[simp] theorem readSrc_lo (s : State) (r : Reg) : (s.readSrc r).2.lo = s.lo := by unfold State.readSrc; split <;> rfl
@[simp] theorem readSrc_pc (s : State) (r : Reg) : (s.readSrc r).2.pc = s.pc := by unfold State.readSrc; split <;> rfl
@[simp] theorem readSrc_npc (s : State) (r : Reg) :
    (s.readSrc r).2.npc = s.npc := by unfold State.readSrc; split <;> rfl
@[simp] theorem readSrc_inDelaySlot (s : State) (r : Reg) :
    (s.readSrc r).2.inDelaySlot = s.inDelaySlot := by unfold State.readSrc; split <;> rfl
@[simp] theorem readSrc_ldSlot (s : State) (r : Reg) :
    (s.readSrc r).2.ldSlot = s.ldSlot := by unfold State.readSrc; split <;> rfl
@[simp] theorem readSrc_sinceMfhi (s : State) (r : Reg) :
    (s.readSrc r).2.sinceMfhi = s.sinceMfhi := by unfold State.readSrc; split <;> rfl
@[simp] theorem readSrc_sinceMflo (s : State) (r : Reg) :
    (s.readSrc r).2.sinceMflo = s.sinceMflo := by unfold State.readSrc; split <;> rfl
@[simp] theorem readSrc_mdFresh (s : State) (r : Reg) :
    (s.readSrc r).2.mdFresh = s.mdFresh := by unfold State.readSrc; split <;> rfl
@[simp] theorem readSrc_sinceStore (s : State) (r : Reg) :
    (s.readSrc r).2.sinceStore = s.sinceStore := by unfold State.readSrc; split <;> rfl
@[simp] theorem readSrc_recentStores (s : State) (r : Reg) :
    (s.readSrc r).2.recentStores = s.recentStores := by unfold State.readSrc; split <;> rfl
@[simp] theorem readSrc_afterMtc0 (s : State) (r : Reg) :
    (s.readSrc r).2.afterMtc0 = s.afterMtc0 := by unfold State.readSrc; split <;> rfl
@[simp] theorem readSrc_prevMem (s : State) (r : Reg) :
    (s.readSrc r).2.prevMem = s.prevMem := by unfold State.readSrc; split <;> rfl
@[simp] theorem readSrc_sr (s : State) (r : Reg) : (s.readSrc r).2.sr = s.sr := by unfold State.readSrc; split <;> rfl
@[simp] theorem readSrc_cause (s : State) (r : Reg) :
    (s.readSrc r).2.cause = s.cause := by unfold State.readSrc; split <;> rfl
@[simp] theorem readSrc_epc (s : State) (r : Reg) :
    (s.readSrc r).2.epc = s.epc := by unfold State.readSrc; split <;> rfl
@[simp] theorem readSrc_badVAddr (s : State) (r : Reg) :
    (s.readSrc r).2.badVAddr = s.badVAddr := by unfold State.readSrc; split <;> rfl
@[simp] theorem readSrc_pteBase (s : State) (r : Reg) :
    (s.readSrc r).2.pteBase = s.pteBase := by unfold State.readSrc; split <;> rfl
@[simp] theorem readSrc_writeBuffer (s : State) (r : Reg) :
    (s.readSrc r).2.writeBuffer = s.writeBuffer := by unfold State.readSrc; split <;> rfl
@[simp] theorem readSrc_icache (s : State) (r : Reg) :
    (s.readSrc r).2.icache = s.icache := by unfold State.readSrc; split <;> rfl
@[simp] theorem readSrc_dcache (s : State) (r : Reg) :
    (s.readSrc r).2.dcache = s.dcache := by unfold State.readSrc; split <;> rfl
@[simp] theorem readSrc_mem (s : State) (r : Reg) :
    (s.readSrc r).2.mem = s.mem := by unfold State.readSrc; split <;> rfl
@[simp] theorem readSrc_mode (s : State) (r : Reg) :
    (s.readSrc r).2.mode = s.mode := by unfold State.readSrc; split <;> rfl
@[simp] theorem readSrc_inputs (s : State) (r : Reg) :
    (s.readSrc r).2.inputs = s.inputs := by unfold State.readSrc; split <;> rfl
@[simp] theorem readSrc_platform (s : State) (r : Reg) :
    (s.readSrc r).2.platform = s.platform := by unfold State.readSrc; split <;> rfl
@[simp] theorem readSrc_bus (s : State) (r : Reg) :
    (s.readSrc r).2.bus = s.bus := by unfold State.readSrc; split <;> rfl
@[simp] theorem readSrc_readWaiting (s : State) (r : Reg) :
    (s.readSrc r).2.readWaiting = s.readWaiting := by unfold State.readSrc; split <;> rfl
@[simp] theorem readSrc_schedule (s : State) (r : Reg) :
    (s.readSrc r).2.schedule = s.schedule := by unfold State.readSrc; split <;> rfl
@[simp] theorem readSrc_trace (s : State) (r : Reg) :
    (s.readSrc r).2.trace = s.trace := by unfold State.readSrc; split <;> rfl

/-! ### A use of CP0 -/

@[simp] theorem useCp0_regs {α : Type} [DecidableEq α] (s : State) (f : Cp0View → α) :
    (s.useCp0 f).2.regs = s.regs := by
  unfold State.useCp0; split
  · rfl
  · split <;> rfl
@[simp] theorem useCp0_hi {α : Type} [DecidableEq α] (s : State) (f : Cp0View → α) :
    (s.useCp0 f).2.hi = s.hi := by
  unfold State.useCp0; split
  · rfl
  · split <;> rfl
@[simp] theorem useCp0_lo {α : Type} [DecidableEq α] (s : State) (f : Cp0View → α) :
    (s.useCp0 f).2.lo = s.lo := by
  unfold State.useCp0; split
  · rfl
  · split <;> rfl
@[simp] theorem useCp0_pc {α : Type} [DecidableEq α] (s : State) (f : Cp0View → α) :
    (s.useCp0 f).2.pc = s.pc := by
  unfold State.useCp0; split
  · rfl
  · split <;> rfl
@[simp] theorem useCp0_npc {α : Type} [DecidableEq α] (s : State) (f : Cp0View → α) :
    (s.useCp0 f).2.npc = s.npc := by
  unfold State.useCp0; split
  · rfl
  · split <;> rfl
@[simp] theorem useCp0_inDelaySlot {α : Type} [DecidableEq α] (s : State) (f : Cp0View → α) :
    (s.useCp0 f).2.inDelaySlot = s.inDelaySlot := by
  unfold State.useCp0; split
  · rfl
  · split <;> rfl
@[simp] theorem useCp0_ldSlot {α : Type} [DecidableEq α] (s : State) (f : Cp0View → α) :
    (s.useCp0 f).2.ldSlot = s.ldSlot := by
  unfold State.useCp0; split
  · rfl
  · split <;> rfl
@[simp] theorem useCp0_sinceMfhi {α : Type} [DecidableEq α] (s : State) (f : Cp0View → α) :
    (s.useCp0 f).2.sinceMfhi = s.sinceMfhi := by
  unfold State.useCp0; split
  · rfl
  · split <;> rfl
@[simp] theorem useCp0_sinceMflo {α : Type} [DecidableEq α] (s : State) (f : Cp0View → α) :
    (s.useCp0 f).2.sinceMflo = s.sinceMflo := by
  unfold State.useCp0; split
  · rfl
  · split <;> rfl
@[simp] theorem useCp0_mdFresh {α : Type} [DecidableEq α] (s : State) (f : Cp0View → α) :
    (s.useCp0 f).2.mdFresh = s.mdFresh := by
  unfold State.useCp0; split
  · rfl
  · split <;> rfl
@[simp] theorem useCp0_sinceStore {α : Type} [DecidableEq α] (s : State) (f : Cp0View → α) :
    (s.useCp0 f).2.sinceStore = s.sinceStore := by
  unfold State.useCp0; split
  · rfl
  · split <;> rfl
@[simp] theorem useCp0_recentStores {α : Type} [DecidableEq α] (s : State) (f : Cp0View → α) :
    (s.useCp0 f).2.recentStores = s.recentStores := by
  unfold State.useCp0; split
  · rfl
  · split <;> rfl
@[simp] theorem useCp0_afterMtc0 {α : Type} [DecidableEq α] (s : State) (f : Cp0View → α) :
    (s.useCp0 f).2.afterMtc0 = s.afterMtc0 := by
  unfold State.useCp0; split
  · rfl
  · split <;> rfl
@[simp] theorem useCp0_prevMem {α : Type} [DecidableEq α] (s : State) (f : Cp0View → α) :
    (s.useCp0 f).2.prevMem = s.prevMem := by
  unfold State.useCp0; split
  · rfl
  · split <;> rfl
@[simp] theorem useCp0_sr {α : Type} [DecidableEq α] (s : State) (f : Cp0View → α) :
    (s.useCp0 f).2.sr = s.sr := by
  unfold State.useCp0; split
  · rfl
  · split <;> rfl
@[simp] theorem useCp0_cause {α : Type} [DecidableEq α] (s : State) (f : Cp0View → α) :
    (s.useCp0 f).2.cause = s.cause := by
  unfold State.useCp0; split
  · rfl
  · split <;> rfl
@[simp] theorem useCp0_epc {α : Type} [DecidableEq α] (s : State) (f : Cp0View → α) :
    (s.useCp0 f).2.epc = s.epc := by
  unfold State.useCp0; split
  · rfl
  · split <;> rfl
@[simp] theorem useCp0_badVAddr {α : Type} [DecidableEq α] (s : State) (f : Cp0View → α) :
    (s.useCp0 f).2.badVAddr = s.badVAddr := by
  unfold State.useCp0; split
  · rfl
  · split <;> rfl
@[simp] theorem useCp0_pteBase {α : Type} [DecidableEq α] (s : State) (f : Cp0View → α) :
    (s.useCp0 f).2.pteBase = s.pteBase := by
  unfold State.useCp0; split
  · rfl
  · split <;> rfl
@[simp] theorem useCp0_writeBuffer {α : Type} [DecidableEq α] (s : State) (f : Cp0View → α) :
    (s.useCp0 f).2.writeBuffer = s.writeBuffer := by
  unfold State.useCp0; split
  · rfl
  · split <;> rfl
@[simp] theorem useCp0_icache {α : Type} [DecidableEq α] (s : State) (f : Cp0View → α) :
    (s.useCp0 f).2.icache = s.icache := by
  unfold State.useCp0; split
  · rfl
  · split <;> rfl
@[simp] theorem useCp0_dcache {α : Type} [DecidableEq α] (s : State) (f : Cp0View → α) :
    (s.useCp0 f).2.dcache = s.dcache := by
  unfold State.useCp0; split
  · rfl
  · split <;> rfl
@[simp] theorem useCp0_mem {α : Type} [DecidableEq α] (s : State) (f : Cp0View → α) :
    (s.useCp0 f).2.mem = s.mem := by
  unfold State.useCp0; split
  · rfl
  · split <;> rfl
@[simp] theorem useCp0_mode {α : Type} [DecidableEq α] (s : State) (f : Cp0View → α) :
    (s.useCp0 f).2.mode = s.mode := by
  unfold State.useCp0; split
  · rfl
  · split <;> rfl
@[simp] theorem useCp0_inputs {α : Type} [DecidableEq α] (s : State) (f : Cp0View → α) :
    (s.useCp0 f).2.inputs = s.inputs := by
  unfold State.useCp0; split
  · rfl
  · split <;> rfl
@[simp] theorem useCp0_platform {α : Type} [DecidableEq α] (s : State) (f : Cp0View → α) :
    (s.useCp0 f).2.platform = s.platform := by
  unfold State.useCp0; split
  · rfl
  · split <;> rfl
@[simp] theorem useCp0_bus {α : Type} [DecidableEq α] (s : State) (f : Cp0View → α) :
    (s.useCp0 f).2.bus = s.bus := by
  unfold State.useCp0; split
  · rfl
  · split <;> rfl
@[simp] theorem useCp0_readWaiting {α : Type} [DecidableEq α] (s : State) (f : Cp0View → α) :
    (s.useCp0 f).2.readWaiting = s.readWaiting := by
  unfold State.useCp0; split
  · rfl
  · split <;> rfl
@[simp] theorem useCp0_schedule {α : Type} [DecidableEq α] (s : State) (f : Cp0View → α) :
    (s.useCp0 f).2.schedule = s.schedule := by
  unfold State.useCp0; split
  · rfl
  · split <;> rfl
@[simp] theorem useCp0_trace {α : Type} [DecidableEq α] (s : State) (f : Cp0View → α) :
    (s.useCp0 f).2.trace = s.trace := by
  unfold State.useCp0; split
  · rfl
  · split <;> rfl

/-! ### The usability test of CP0 -/

@[simp] theorem cp0Unusable_regs (s : State) : s.cp0Unusable.2.regs = s.regs := useCp0_regs _ _
@[simp] theorem cp0Unusable_hi (s : State) : s.cp0Unusable.2.hi = s.hi := useCp0_hi _ _
@[simp] theorem cp0Unusable_lo (s : State) : s.cp0Unusable.2.lo = s.lo := useCp0_lo _ _
@[simp] theorem cp0Unusable_pc (s : State) : s.cp0Unusable.2.pc = s.pc := useCp0_pc _ _
@[simp] theorem cp0Unusable_npc (s : State) : s.cp0Unusable.2.npc = s.npc := useCp0_npc _ _
@[simp] theorem cp0Unusable_inDelaySlot (s : State) :
    s.cp0Unusable.2.inDelaySlot = s.inDelaySlot := useCp0_inDelaySlot _ _
@[simp] theorem cp0Unusable_ldSlot (s : State) : s.cp0Unusable.2.ldSlot = s.ldSlot := useCp0_ldSlot _ _
@[simp] theorem cp0Unusable_sinceMfhi (s : State) : s.cp0Unusable.2.sinceMfhi = s.sinceMfhi := useCp0_sinceMfhi _ _
@[simp] theorem cp0Unusable_sinceMflo (s : State) : s.cp0Unusable.2.sinceMflo = s.sinceMflo := useCp0_sinceMflo _ _
@[simp] theorem cp0Unusable_mdFresh (s : State) : s.cp0Unusable.2.mdFresh = s.mdFresh := useCp0_mdFresh _ _
@[simp] theorem cp0Unusable_sinceStore (s : State) :
    s.cp0Unusable.2.sinceStore = s.sinceStore := useCp0_sinceStore _ _
@[simp] theorem cp0Unusable_recentStores (s : State) :
    s.cp0Unusable.2.recentStores = s.recentStores := useCp0_recentStores _ _
@[simp] theorem cp0Unusable_afterMtc0 (s : State) : s.cp0Unusable.2.afterMtc0 = s.afterMtc0 := useCp0_afterMtc0 _ _
@[simp] theorem cp0Unusable_prevMem (s : State) : s.cp0Unusable.2.prevMem = s.prevMem := useCp0_prevMem _ _
@[simp] theorem cp0Unusable_sr (s : State) : s.cp0Unusable.2.sr = s.sr := useCp0_sr _ _
@[simp] theorem cp0Unusable_cause (s : State) : s.cp0Unusable.2.cause = s.cause := useCp0_cause _ _
@[simp] theorem cp0Unusable_epc (s : State) : s.cp0Unusable.2.epc = s.epc := useCp0_epc _ _
@[simp] theorem cp0Unusable_badVAddr (s : State) : s.cp0Unusable.2.badVAddr = s.badVAddr := useCp0_badVAddr _ _
@[simp] theorem cp0Unusable_pteBase (s : State) : s.cp0Unusable.2.pteBase = s.pteBase := useCp0_pteBase _ _
@[simp] theorem cp0Unusable_writeBuffer (s : State) :
    s.cp0Unusable.2.writeBuffer = s.writeBuffer := useCp0_writeBuffer _ _
@[simp] theorem cp0Unusable_icache (s : State) : s.cp0Unusable.2.icache = s.icache := useCp0_icache _ _
@[simp] theorem cp0Unusable_dcache (s : State) : s.cp0Unusable.2.dcache = s.dcache := useCp0_dcache _ _
@[simp] theorem cp0Unusable_mem (s : State) : s.cp0Unusable.2.mem = s.mem := useCp0_mem _ _
@[simp] theorem cp0Unusable_mode (s : State) : s.cp0Unusable.2.mode = s.mode := useCp0_mode _ _
@[simp] theorem cp0Unusable_inputs (s : State) : s.cp0Unusable.2.inputs = s.inputs := useCp0_inputs _ _
@[simp] theorem cp0Unusable_platform (s : State) : s.cp0Unusable.2.platform = s.platform := useCp0_platform _ _
@[simp] theorem cp0Unusable_bus (s : State) : s.cp0Unusable.2.bus = s.bus := useCp0_bus _ _
@[simp] theorem cp0Unusable_readWaiting (s : State) : s.cp0Unusable.2.readWaiting = s.readWaiting := useCp0_readWaiting _ _
@[simp] theorem cp0Unusable_schedule (s : State) : s.cp0Unusable.2.schedule = s.schedule := useCp0_schedule _ _
@[simp] theorem cp0Unusable_trace (s : State) : s.cp0Unusable.2.trace = s.trace := useCp0_trace _ _

/-! ### A general register written -/

@[simp] theorem setGpr_hi (s : State) (r : Reg) (v : Word) :
    (s.setGpr r v).hi = s.hi := by unfold State.setGpr; split <;> rfl
@[simp] theorem setGpr_lo (s : State) (r : Reg) (v : Word) :
    (s.setGpr r v).lo = s.lo := by unfold State.setGpr; split <;> rfl
@[simp] theorem setGpr_pc (s : State) (r : Reg) (v : Word) :
    (s.setGpr r v).pc = s.pc := by unfold State.setGpr; split <;> rfl
@[simp] theorem setGpr_npc (s : State) (r : Reg) (v : Word) :
    (s.setGpr r v).npc = s.npc := by unfold State.setGpr; split <;> rfl
@[simp] theorem setGpr_inDelaySlot (s : State) (r : Reg) (v : Word) :
    (s.setGpr r v).inDelaySlot = s.inDelaySlot := by unfold State.setGpr; split <;> rfl
@[simp] theorem setGpr_ldSlot (s : State) (r : Reg) (v : Word) :
    (s.setGpr r v).ldSlot = s.ldSlot := by unfold State.setGpr; split <;> rfl
@[simp] theorem setGpr_sinceMfhi (s : State) (r : Reg) (v : Word) :
    (s.setGpr r v).sinceMfhi = s.sinceMfhi := by unfold State.setGpr; split <;> rfl
@[simp] theorem setGpr_sinceMflo (s : State) (r : Reg) (v : Word) :
    (s.setGpr r v).sinceMflo = s.sinceMflo := by unfold State.setGpr; split <;> rfl
@[simp] theorem setGpr_mdFresh (s : State) (r : Reg) (v : Word) :
    (s.setGpr r v).mdFresh = s.mdFresh := by unfold State.setGpr; split <;> rfl
@[simp] theorem setGpr_sinceStore (s : State) (r : Reg) (v : Word) :
    (s.setGpr r v).sinceStore = s.sinceStore := by unfold State.setGpr; split <;> rfl
@[simp] theorem setGpr_recentStores (s : State) (r : Reg) (v : Word) :
    (s.setGpr r v).recentStores = s.recentStores := by unfold State.setGpr; split <;> rfl
@[simp] theorem setGpr_afterMtc0 (s : State) (r : Reg) (v : Word) :
    (s.setGpr r v).afterMtc0 = s.afterMtc0 := by unfold State.setGpr; split <;> rfl
@[simp] theorem setGpr_prevMem (s : State) (r : Reg) (v : Word) :
    (s.setGpr r v).prevMem = s.prevMem := by unfold State.setGpr; split <;> rfl
@[simp] theorem setGpr_sr (s : State) (r : Reg) (v : Word) :
    (s.setGpr r v).sr = s.sr := by unfold State.setGpr; split <;> rfl
@[simp] theorem setGpr_cause (s : State) (r : Reg) (v : Word) :
    (s.setGpr r v).cause = s.cause := by unfold State.setGpr; split <;> rfl
@[simp] theorem setGpr_epc (s : State) (r : Reg) (v : Word) :
    (s.setGpr r v).epc = s.epc := by unfold State.setGpr; split <;> rfl
@[simp] theorem setGpr_badVAddr (s : State) (r : Reg) (v : Word) :
    (s.setGpr r v).badVAddr = s.badVAddr := by unfold State.setGpr; split <;> rfl
@[simp] theorem setGpr_pteBase (s : State) (r : Reg) (v : Word) :
    (s.setGpr r v).pteBase = s.pteBase := by unfold State.setGpr; split <;> rfl
@[simp] theorem setGpr_writeBuffer (s : State) (r : Reg) (v : Word) :
    (s.setGpr r v).writeBuffer = s.writeBuffer := by unfold State.setGpr; split <;> rfl
@[simp] theorem setGpr_icache (s : State) (r : Reg) (v : Word) :
    (s.setGpr r v).icache = s.icache := by unfold State.setGpr; split <;> rfl
@[simp] theorem setGpr_dcache (s : State) (r : Reg) (v : Word) :
    (s.setGpr r v).dcache = s.dcache := by unfold State.setGpr; split <;> rfl
@[simp] theorem setGpr_mem (s : State) (r : Reg) (v : Word) :
    (s.setGpr r v).mem = s.mem := by unfold State.setGpr; split <;> rfl
@[simp] theorem setGpr_mode (s : State) (r : Reg) (v : Word) :
    (s.setGpr r v).mode = s.mode := by unfold State.setGpr; split <;> rfl
@[simp] theorem setGpr_inputs (s : State) (r : Reg) (v : Word) :
    (s.setGpr r v).inputs = s.inputs := by unfold State.setGpr; split <;> rfl
@[simp] theorem setGpr_platform (s : State) (r : Reg) (v : Word) :
    (s.setGpr r v).platform = s.platform := by unfold State.setGpr; split <;> rfl
@[simp] theorem setGpr_bus (s : State) (r : Reg) (v : Word) :
    (s.setGpr r v).bus = s.bus := by unfold State.setGpr; split <;> rfl
@[simp] theorem setGpr_readWaiting (s : State) (r : Reg) (v : Word) :
    (s.setGpr r v).readWaiting = s.readWaiting := by unfold State.setGpr; split <;> rfl
@[simp] theorem setGpr_schedule (s : State) (r : Reg) (v : Word) :
    (s.setGpr r v).schedule = s.schedule := by unfold State.setGpr; split <;> rfl
@[simp] theorem setGpr_trace (s : State) (r : Reg) (v : Word) :
    (s.setGpr r v).trace = s.trace := by unfold State.setGpr; split <;> rfl
@[simp] theorem setGpr_freeIndex (s : State) (r : Reg) (v : Word) :
    (s.setGpr r v).freeIndex = s.freeIndex := by unfold State.setGpr; split <;> rfl


/-! ### The completion of an instruction -/

@[simp] theorem retire_regs (s : State) (r : Retire) : (s.retire r).regs = s.regs := rfl
@[simp] theorem retire_hi (s : State) (r : Retire) : (s.retire r).hi = s.hi := rfl
@[simp] theorem retire_lo (s : State) (r : Retire) : (s.retire r).lo = s.lo := rfl
@[simp] theorem retire_pc (s : State) (r : Retire) : (s.retire r).pc = s.npc := rfl
@[simp] theorem retire_npc (s : State) (r : Retire) : (s.retire r).npc = r.target.getD (s.npc + 4) := rfl
@[simp] theorem retire_inDelaySlot (s : State) (r : Retire) : (s.retire r).inDelaySlot = r.branch := rfl
@[simp] theorem retire_ldSlot (s : State) (r : Retire) : (s.retire r).ldSlot = r.load.filter (· ≠ 0) := rfl
@[simp] theorem retire_sinceMfhi (s : State) (r : Retire) :
    (s.retire r).sinceMfhi = countFrom r.mfhi s.sinceMfhi := rfl
@[simp] theorem retire_sinceMflo (s : State) (r : Retire) :
    (s.retire r).sinceMflo = countFrom r.mflo s.sinceMflo := rfl
@[simp] theorem retire_mdFresh (s : State) (r : Retire) : (s.retire r).mdFresh = s.mdFresh := rfl
@[simp] theorem retire_sinceStore (s : State) (r : Retire) :
    (s.retire r).sinceStore = countFrom r.store s.sinceStore := rfl
@[simp] theorem retire_recentStores (s : State) (r : Retire) :
    (s.retire r).recentStores = (r.overwrote :: s.recentStores).take 4 := rfl
@[simp] theorem retire_afterMtc0 (s : State) (r : Retire) : (s.retire r).afterMtc0 = r.mtc0 := rfl
@[simp] theorem retire_prevMem (s : State) (r : Retire) : (s.retire r).prevMem = r.memory := rfl
@[simp] theorem retire_sr (s : State) (r : Retire) : (s.retire r).sr = s.sr := rfl
@[simp] theorem retire_cause (s : State) (r : Retire) : (s.retire r).cause = s.cause := rfl
@[simp] theorem retire_epc (s : State) (r : Retire) : (s.retire r).epc = s.epc := rfl
@[simp] theorem retire_badVAddr (s : State) (r : Retire) : (s.retire r).badVAddr = s.badVAddr := rfl
@[simp] theorem retire_pteBase (s : State) (r : Retire) : (s.retire r).pteBase = s.pteBase := rfl
@[simp] theorem retire_writeBuffer (s : State) (r : Retire) : (s.retire r).writeBuffer = s.writeBuffer := rfl
@[simp] theorem retire_icache (s : State) (r : Retire) : (s.retire r).icache = s.icache := rfl
@[simp] theorem retire_dcache (s : State) (r : Retire) : (s.retire r).dcache = s.dcache := rfl
@[simp] theorem retire_mem (s : State) (r : Retire) : (s.retire r).mem = s.mem := rfl
@[simp] theorem retire_mode (s : State) (r : Retire) : (s.retire r).mode = s.mode := rfl
@[simp] theorem retire_inputs (s : State) (r : Retire) : (s.retire r).inputs = s.inputs := rfl
@[simp] theorem retire_platform (s : State) (r : Retire) : (s.retire r).platform = s.platform := rfl
@[simp] theorem retire_bus (s : State) (r : Retire) : (s.retire r).bus = s.bus := rfl
@[simp] theorem retire_readWaiting (s : State) (r : Retire) : (s.retire r).readWaiting = false := rfl
@[simp] theorem retire_schedule (s : State) (r : Retire) : (s.retire r).schedule = s.schedule := rfl
@[simp] theorem retire_trace (s : State) (r : Retire) : (s.retire r).trace = s.trace := rfl
@[simp] theorem retire_freeIndex (s : State) (r : Retire) : (s.retire r).freeIndex = s.freeIndex := rfl

/-! ### An exception entry -/

@[simp] theorem enter_regs (s : State) (x : Exc) :
    (s.enter x).regs = s.regs := by
  cases x <;> simp [State.enter, State.entryCe]
@[simp] theorem enter_hi (s : State) (x : Exc) :
    (s.enter x).hi = s.hi := by
  cases x <;> simp [State.enter, State.entryCe]
@[simp] theorem enter_lo (s : State) (x : Exc) :
    (s.enter x).lo = s.lo := by
  cases x <;> simp [State.enter, State.entryCe]
@[simp] theorem enter_npc (s : State) (x : Exc) : (s.enter x).npc = (s.enter x).pc + 4 := rfl
@[simp] theorem enter_inDelaySlot (s : State) (x : Exc) : (s.enter x).inDelaySlot = false := rfl
@[simp] theorem enter_ldSlot (s : State) (x : Exc) : (s.enter x).ldSlot = none := rfl
@[simp] theorem enter_sinceMfhi (s : State) (x : Exc) :
    (s.enter x).sinceMfhi = s.sinceMfhi := by
  cases x <;> simp [State.enter, State.entryCe]
@[simp] theorem enter_sinceMflo (s : State) (x : Exc) :
    (s.enter x).sinceMflo = s.sinceMflo := by
  cases x <;> simp [State.enter, State.entryCe]
@[simp] theorem enter_mdFresh (s : State) (x : Exc) :
    (s.enter x).mdFresh = s.mdFresh := by
  cases x <;> simp [State.enter, State.entryCe]
@[simp] theorem enter_sinceStore (s : State) (x : Exc) :
    (s.enter x).sinceStore = s.sinceStore := by
  cases x <;> simp [State.enter, State.entryCe]
@[simp] theorem enter_recentStores (s : State) (x : Exc) : (s.enter x).recentStores = [] := rfl
@[simp] theorem enter_afterMtc0 (s : State) (x : Exc) : (s.enter x).afterMtc0 = none := rfl
@[simp] theorem enter_prevMem (s : State) (x : Exc) : (s.enter x).prevMem = false := rfl
@[simp] theorem enter_epc (s : State) (x : Exc) : (s.enter x).epc = if s.inDelaySlot then s.pc - 4 else s.pc := rfl
@[simp] theorem enter_badVAddr (s : State) (x : Exc) : (s.enter x).badVAddr = x.badVAddrAfter s.badVAddr := rfl
@[simp] theorem enter_pteBase (s : State) (x : Exc) :
    (s.enter x).pteBase = s.pteBase := by
  cases x <;> simp [State.enter, State.entryCe]
@[simp] theorem enter_writeBuffer (s : State) (x : Exc) :
    (s.enter x).writeBuffer = s.writeBuffer := by
  cases x <;> simp [State.enter, State.entryCe]
@[simp] theorem enter_icache (s : State) (x : Exc) :
    (s.enter x).icache = s.icache := by
  cases x <;> simp [State.enter, State.entryCe]
@[simp] theorem enter_dcache (s : State) (x : Exc) :
    (s.enter x).dcache = s.dcache := by
  cases x <;> simp [State.enter, State.entryCe]
@[simp] theorem enter_mem (s : State) (x : Exc) :
    (s.enter x).mem = s.mem := by
  cases x <;> simp [State.enter, State.entryCe]
@[simp] theorem enter_mode (s : State) (x : Exc) :
    (s.enter x).mode = s.mode := by
  cases x <;> simp [State.enter, State.entryCe]
@[simp] theorem enter_inputs (s : State) (x : Exc) :
    (s.enter x).inputs = s.inputs := by
  cases x <;> simp [State.enter, State.entryCe]
@[simp] theorem enter_platform (s : State) (x : Exc) :
    (s.enter x).platform = s.platform := by
  cases x <;> simp [State.enter, State.entryCe]
@[simp] theorem enter_bus (s : State) (x : Exc) :
    (s.enter x).bus = s.bus := by
  cases x <;> simp [State.enter, State.entryCe]
@[simp] theorem enter_readWaiting (s : State) (x : Exc) : (s.enter x).readWaiting = false := rfl
@[simp] theorem enter_schedule (s : State) (x : Exc) :
    (s.enter x).schedule = s.schedule := by
  cases x <;> simp [State.enter, State.entryCe]
@[simp] theorem enter_trace (s : State) (x : Exc) :
    (s.enter x).trace = s.trace := by
  cases x <;> simp [State.enter, State.entryCe]
@[simp] theorem enter_bd (s : State) (x : Exc) : (s.enter x).cause.bd = s.inDelaySlot := rfl
@[simp] theorem enter_excCode (s : State) (x : Exc) : (s.enter x).cause.excCode = x.code := rfl
@[simp] theorem enter_sw (s : State) (x : Exc) : (s.enter x).cause.sw = s.cause.sw := rfl
@[simp] theorem enter_ce (s : State) (z : BitVec 2) : (s.enter (.cpu z)).cause.ce = z := rfl
@[simp] theorem enter_kuc (s : State) (x : Exc) : (s.enter x).sr.kuc = false := rfl
@[simp] theorem enter_iec (s : State) (x : Exc) : (s.enter x).sr.iec = false := rfl

/-! ### The SR pop -/

@[simp] theorem popModes_regs (s : State) : s.popModes.regs = s.regs := by simp [State.popModes]
@[simp] theorem popModes_hi (s : State) : s.popModes.hi = s.hi := by simp [State.popModes]
@[simp] theorem popModes_lo (s : State) : s.popModes.lo = s.lo := by simp [State.popModes]
@[simp] theorem popModes_pc (s : State) : s.popModes.pc = s.pc := by simp [State.popModes]
@[simp] theorem popModes_npc (s : State) : s.popModes.npc = s.npc := by simp [State.popModes]
@[simp] theorem popModes_inDelaySlot (s : State) : s.popModes.inDelaySlot = s.inDelaySlot := by simp [State.popModes]
@[simp] theorem popModes_ldSlot (s : State) : s.popModes.ldSlot = s.ldSlot := by simp [State.popModes]
@[simp] theorem popModes_sinceMfhi (s : State) : s.popModes.sinceMfhi = s.sinceMfhi := by simp [State.popModes]
@[simp] theorem popModes_sinceMflo (s : State) : s.popModes.sinceMflo = s.sinceMflo := by simp [State.popModes]
@[simp] theorem popModes_mdFresh (s : State) : s.popModes.mdFresh = s.mdFresh := by simp [State.popModes]
@[simp] theorem popModes_sinceStore (s : State) : s.popModes.sinceStore = s.sinceStore := by simp [State.popModes]
@[simp] theorem popModes_recentStores (s : State) : s.popModes.recentStores = s.recentStores := by simp [State.popModes]
@[simp] theorem popModes_afterMtc0 (s : State) : s.popModes.afterMtc0 = s.afterMtc0 := by simp [State.popModes]
@[simp] theorem popModes_prevMem (s : State) : s.popModes.prevMem = s.prevMem := by simp [State.popModes]
@[simp] theorem popModes_cause (s : State) : s.popModes.cause = s.cause := by simp [State.popModes]
@[simp] theorem popModes_epc (s : State) : s.popModes.epc = s.epc := by simp [State.popModes]
@[simp] theorem popModes_badVAddr (s : State) : s.popModes.badVAddr = s.badVAddr := by simp [State.popModes]
@[simp] theorem popModes_pteBase (s : State) : s.popModes.pteBase = s.pteBase := by simp [State.popModes]
@[simp] theorem popModes_writeBuffer (s : State) : s.popModes.writeBuffer = s.writeBuffer := by simp [State.popModes]
@[simp] theorem popModes_icache (s : State) : s.popModes.icache = s.icache := by simp [State.popModes]
@[simp] theorem popModes_dcache (s : State) : s.popModes.dcache = s.dcache := by simp [State.popModes]
@[simp] theorem popModes_mem (s : State) : s.popModes.mem = s.mem := by simp [State.popModes]
@[simp] theorem popModes_mode (s : State) : s.popModes.mode = s.mode := by simp [State.popModes]
@[simp] theorem popModes_inputs (s : State) : s.popModes.inputs = s.inputs := by simp [State.popModes]
@[simp] theorem popModes_platform (s : State) : s.popModes.platform = s.platform := by simp [State.popModes]
@[simp] theorem popModes_bus (s : State) : s.popModes.bus = s.bus := by simp [State.popModes]
@[simp] theorem popModes_readWaiting (s : State) : s.popModes.readWaiting = s.readWaiting := by simp [State.popModes]
@[simp] theorem popModes_schedule (s : State) : s.popModes.schedule = s.schedule := by simp [State.popModes]
@[simp] theorem popModes_trace (s : State) : s.popModes.trace = s.trace := by simp [State.popModes]

/-! ### A wait for a held bus -/

@[simp] theorem stalled_readWaiting (s : State) (b : Bool) : (s.stalled b).readWaiting = b := rfl
@[simp] theorem stalled_regs (s : State) (b : Bool) : (s.stalled b).regs = s.regs := rfl
@[simp] theorem stalled_hi (s : State) (b : Bool) : (s.stalled b).hi = s.hi := rfl
@[simp] theorem stalled_lo (s : State) (b : Bool) : (s.stalled b).lo = s.lo := rfl
@[simp] theorem stalled_pc (s : State) (b : Bool) : (s.stalled b).pc = s.pc := rfl
@[simp] theorem stalled_npc (s : State) (b : Bool) : (s.stalled b).npc = s.npc := rfl
@[simp] theorem stalled_inDelaySlot (s : State) (b : Bool) : (s.stalled b).inDelaySlot = s.inDelaySlot := rfl
@[simp] theorem stalled_ldSlot (s : State) (b : Bool) : (s.stalled b).ldSlot = s.ldSlot := rfl
@[simp] theorem stalled_sinceMfhi (s : State) (b : Bool) : (s.stalled b).sinceMfhi = s.sinceMfhi := rfl
@[simp] theorem stalled_sinceMflo (s : State) (b : Bool) : (s.stalled b).sinceMflo = s.sinceMflo := rfl
@[simp] theorem stalled_mdFresh (s : State) (b : Bool) : (s.stalled b).mdFresh = s.mdFresh := rfl
@[simp] theorem stalled_sinceStore (s : State) (b : Bool) : (s.stalled b).sinceStore = s.sinceStore := rfl
@[simp] theorem stalled_recentStores (s : State) (b : Bool) : (s.stalled b).recentStores = s.recentStores := rfl
@[simp] theorem stalled_afterMtc0 (s : State) (b : Bool) : (s.stalled b).afterMtc0 = s.afterMtc0 := rfl
@[simp] theorem stalled_prevMem (s : State) (b : Bool) : (s.stalled b).prevMem = s.prevMem := rfl
@[simp] theorem stalled_sr (s : State) (b : Bool) : (s.stalled b).sr = s.sr := rfl
@[simp] theorem stalled_cause (s : State) (b : Bool) : (s.stalled b).cause = s.cause := rfl
@[simp] theorem stalled_epc (s : State) (b : Bool) : (s.stalled b).epc = s.epc := rfl
@[simp] theorem stalled_badVAddr (s : State) (b : Bool) : (s.stalled b).badVAddr = s.badVAddr := rfl
@[simp] theorem stalled_pteBase (s : State) (b : Bool) : (s.stalled b).pteBase = s.pteBase := rfl
@[simp] theorem stalled_writeBuffer (s : State) (b : Bool) : (s.stalled b).writeBuffer = s.writeBuffer := rfl
@[simp] theorem stalled_icache (s : State) (b : Bool) : (s.stalled b).icache = s.icache := rfl
@[simp] theorem stalled_dcache (s : State) (b : Bool) : (s.stalled b).dcache = s.dcache := rfl
@[simp] theorem stalled_mem (s : State) (b : Bool) : (s.stalled b).mem = s.mem := rfl
@[simp] theorem stalled_platform (s : State) (b : Bool) : (s.stalled b).platform = s.platform := rfl
@[simp] theorem stalled_bus (s : State) (b : Bool) : (s.stalled b).bus = s.bus := rfl
@[simp] theorem stalled_mode (s : State) (b : Bool) : (s.stalled b).mode = s.mode := rfl
@[simp] theorem stalled_inputs (s : State) (b : Bool) : (s.stalled b).inputs = s.inputs := rfl
@[simp] theorem stalled_schedule (s : State) (b : Bool) : (s.stalled b).schedule = s.schedule := rfl
@[simp] theorem stalled_trace (s : State) (b : Bool) : (s.stalled b).trace = s.trace := rfl
@[simp] theorem stalled_freeIndex (s : State) (b : Bool) : (s.stalled b).freeIndex = s.freeIndex := rfl

/-! ### A write of the BIU -/

theorem biuWrite_rest (s : State) :
    s.biuWrite =
      { s with
        mem := s.biuWrite.mem, writeBuffer := s.biuWrite.writeBuffer, trace := s.biuWrite.trace,
        bus := s.biuWrite.bus } := by
  unfold State.biuWrite
  split
  · rfl
  · split
    · split <;> rfl
    · rfl

@[simp] theorem biuWrite_regs (s : State) : s.biuWrite.regs = s.regs := by rw [biuWrite_rest]
@[simp] theorem biuWrite_hi (s : State) : s.biuWrite.hi = s.hi := by rw [biuWrite_rest]
@[simp] theorem biuWrite_lo (s : State) : s.biuWrite.lo = s.lo := by rw [biuWrite_rest]
@[simp] theorem biuWrite_pc (s : State) : s.biuWrite.pc = s.pc := by rw [biuWrite_rest]
@[simp] theorem biuWrite_npc (s : State) : s.biuWrite.npc = s.npc := by rw [biuWrite_rest]
@[simp] theorem biuWrite_inDelaySlot (s : State) : s.biuWrite.inDelaySlot = s.inDelaySlot := by rw [biuWrite_rest]
@[simp] theorem biuWrite_ldSlot (s : State) : s.biuWrite.ldSlot = s.ldSlot := by rw [biuWrite_rest]
@[simp] theorem biuWrite_sinceMfhi (s : State) : s.biuWrite.sinceMfhi = s.sinceMfhi := by rw [biuWrite_rest]
@[simp] theorem biuWrite_sinceMflo (s : State) : s.biuWrite.sinceMflo = s.sinceMflo := by rw [biuWrite_rest]
@[simp] theorem biuWrite_mdFresh (s : State) : s.biuWrite.mdFresh = s.mdFresh := by rw [biuWrite_rest]
@[simp] theorem biuWrite_sinceStore (s : State) : s.biuWrite.sinceStore = s.sinceStore := by rw [biuWrite_rest]
@[simp] theorem biuWrite_recentStores (s : State) : s.biuWrite.recentStores = s.recentStores := by rw [biuWrite_rest]
@[simp] theorem biuWrite_afterMtc0 (s : State) : s.biuWrite.afterMtc0 = s.afterMtc0 := by rw [biuWrite_rest]
@[simp] theorem biuWrite_prevMem (s : State) : s.biuWrite.prevMem = s.prevMem := by rw [biuWrite_rest]
@[simp] theorem biuWrite_sr (s : State) : s.biuWrite.sr = s.sr := by rw [biuWrite_rest]
@[simp] theorem biuWrite_cause (s : State) : s.biuWrite.cause = s.cause := by rw [biuWrite_rest]
@[simp] theorem biuWrite_epc (s : State) : s.biuWrite.epc = s.epc := by rw [biuWrite_rest]
@[simp] theorem biuWrite_badVAddr (s : State) : s.biuWrite.badVAddr = s.badVAddr := by rw [biuWrite_rest]
@[simp] theorem biuWrite_pteBase (s : State) : s.biuWrite.pteBase = s.pteBase := by rw [biuWrite_rest]
@[simp] theorem biuWrite_icache (s : State) : s.biuWrite.icache = s.icache := by rw [biuWrite_rest]
@[simp] theorem biuWrite_dcache (s : State) : s.biuWrite.dcache = s.dcache := by rw [biuWrite_rest]
@[simp] theorem biuWrite_readWaiting (s : State) : s.biuWrite.readWaiting = s.readWaiting := by rw [biuWrite_rest]
@[simp] theorem biuWrite_mode (s : State) : s.biuWrite.mode = s.mode := by rw [biuWrite_rest]
@[simp] theorem biuWrite_platform (s : State) : s.biuWrite.platform = s.platform := by rw [biuWrite_rest]
@[simp] theorem biuWrite_inputs (s : State) : s.biuWrite.inputs = s.inputs := by rw [biuWrite_rest]
@[simp] theorem biuWrite_schedule (s : State) : s.biuWrite.schedule = s.schedule := by rw [biuWrite_rest]
@[simp] theorem biuWrite_freeIndex (s : State) : s.biuWrite.freeIndex = s.freeIndex := by rw [biuWrite_rest]

end Sys2Proof.Machine
end

