-- ==== Sys2Proof/Laws/Invariant.lean ====
section
/-! SUPPORT. The shared operations keep the part of the invariant that speaks of memory, caches and write buffer. -/

namespace Sys2Proof.Machine

/-- The part of `Inv` that does not speak of the sequencing cells. -/
structure Kept (s : State) : Prop where
  memory : s.mem.wf
  icache : tableRising s.icache ∧ ∀ e ∈ s.icache, e.1 < 1024
  dcache : tableRising s.dcache ∧ ∀ e ∈ s.dcache, e.1 < 256
  buffer : s.writeBuffer.length ≤ 4
  entries : ∀ e ∈ s.writeBuffer, storeMask e.mask = true ∧ unusedSpace e.addr = false
  held : s.inputs.hold = true → s.bus = .free
  mode : s.mode.legal = true

theorem Inv.kept {s : State} (h : Inv s) : Kept s :=
  ⟨h.memory, h.icache, h.dcache, h.buffer, h.entries, h.held, h.mode⟩

theorem Kept.of_eq {s t : State} (h : Kept s) (hm : t.mem = s.mem) (hi : t.icache = s.icache)
    (hd : t.dcache = s.dcache) (hb : t.writeBuffer = s.writeBuffer) (ho : t.mode = s.mode)
    (hn : t.inputs = s.inputs) (hs : t.bus = s.bus) : Kept t :=
  ⟨hm ▸ h.memory, hi ▸ h.icache, hd ▸ h.dcache, hb ▸ h.buffer, hb ▸ h.entries, by rw [hn, hs]; exact h.held,
    ho ▸ h.mode⟩

/-! ### Parts of a step -/

/-- A property of every state that a part of a step ends in, done, raising or stuck. -/
def Act.All {α : Type} (a : Act α) (P : State → Prop) : Prop :=
  match a with
  | .done _ s => P s
  | .raise _ s => P s
  | .stall _ => True
  | .stuck s => P s
  | .refuse _ => True

theorem Act.all_bind {α β : Type} {P : State → Prop} {a : Act α} {f : α → State → Act β} (ha : a.All P)
    (hf : ∀ x s, P s → (f x s).All P) : (a.bind f).All P := by
  cases a with
  | done x s => exact hf x s ha
  | raise x s => exact ha
  | stall read => trivial
  | stuck s => exact ha
  | refuse r => trivial

/-! ### Free values, registers, CP0 -/

theorem kept_freshWord {s : State} (h : Kept s) : Kept s.freshWord.2 := h.of_eq rfl rfl rfl rfl rfl rfl rfl

theorem kept_readSrc {s : State} (h : Kept s) (r : Reg) : Kept (s.readSrc r).2 :=
  h.of_eq (by simp) (by simp) (by simp) (by simp) (by simp) (by simp) (by simp)

theorem kept_useCp0 {α : Type} [DecidableEq α] {s : State} (h : Kept s) (f : Cp0View → α) : Kept (s.useCp0 f).2 :=
  h.of_eq (by simp) (by simp) (by simp) (by simp) (by simp) (by simp) (by simp)

theorem kept_setGpr {s : State} (h : Kept s) (r : Reg) (v : Word) : Kept (s.setGpr r v) :=
  h.of_eq (by simp) (by simp) (by simp) (by simp) (by simp) (by simp) (by simp)

theorem kept_retire {s : State} (h : Kept s) (r : Retire) : Kept (s.retire r) := h.of_eq rfl rfl rfl rfl rfl rfl rfl

theorem kept_stalled {s : State} (h : Kept s) (b : Bool) : Kept (s.stalled b) := h.of_eq rfl rfl rfl rfl rfl rfl rfl

theorem kept_enter {s : State} (h : Kept s) (x : Exc) : Kept (s.enter x) :=
  h.of_eq (by simp) (by simp) (by simp) (by simp) (by simp) (by simp) (by simp)

theorem kept_popModes {s : State} (h : Kept s) : Kept s.popModes :=
  h.of_eq (by simp) (by simp) (by simp) (by simp) (by simp) (by simp) (by simp)

/-! ### Write buffer and bus -/

/-- What the BIU can do with the oldest entry: nothing, start a write that never completes, or perform it. -/
theorem biuWrite_cases (s : State) :
    (s.biuWrite = s ∧ (s.writeBuffer = [] ∨ s.bus ≠ .free)) ∨
    (∃ e rest, s.writeBuffer = e :: rest ∧ s.bus = .free ∧ s.answer e.addr = .absent ∧
      s.biuWrite = { s with bus := .writeStuck, trace := (writeCycles s.mode e).take 1 ++ s.trace }) ∨
    ∃ e rest, s.writeBuffer = e :: rest ∧ s.bus = .free ∧ s.answer e.addr ≠ .absent ∧
      s.biuWrite = { s with
        writeBuffer := rest
        mem := landed s.mode s.platform e s.mem
        trace := (writeCycles s.mode e).reverse ++ s.trace } := by
  unfold State.biuWrite
  split
  · exact .inl ⟨rfl, .inl ‹_›⟩
  · rename_i e rest hw
    split
    · split
      · exact .inr (.inl ⟨e, rest, hw, ‹_›, ‹_›, rfl⟩)
      · exact .inr (.inr ⟨e, rest, hw, ‹_›, ‹_›, rfl⟩)
    · exact .inl ⟨rfl, .inr ‹_›⟩

theorem landed_wf (p : ModePins) (platform : List Region) (e : WriteEntry) {m : Memory} (h : m.wf) :
    (landed p platform e m).wf := by
  unfold landed
  split
  · exact writeLanes_wf _ _ _ _ _ h
  · exact h

theorem kept_biuWrite {s : State} (h : Kept s) (hh : s.inputs.hold = false) : Kept s.biuWrite := by
  have held : ∀ {P : Prop}, s.inputs.hold = true → P := fun hc => by simp [hh] at hc
  rcases biuWrite_cases s with ⟨hs, -⟩ | ⟨e, rest, -, -, -, hs⟩ | ⟨e, rest, hw, -, -, hs⟩
  · rw [hs]
    exact h
  · rw [hs]
    exact ⟨h.memory, h.icache, h.dcache, h.buffer, h.entries, held, h.mode⟩
  · rw [hs]
    refine ⟨landed_wf _ _ _ h.memory, h.icache, h.dcache, ?_, fun x hx => ?_, held, h.mode⟩
    · have := h.buffer
      rw [hw] at this
      simp only [List.length_cons] at this
      simp only
      omega
    · exact h.entries x (by rw [hw]; exact List.mem_cons_of_mem _ hx)

theorem kept_biuWriteN (n : Nat) {s : State} (h : Kept s) (hh : s.inputs.hold = false) : Kept (s.biuWriteN n) := by
  induction n generalizing s with
  | zero => exact h
  | succ n ih => exact ih (kept_biuWrite h hh) (by simpa using hh)

theorem forceOut_inputs (p : WriteEntry → Bool) (n : Nat) (s : State) : (s.forceOut p n).inputs = s.inputs := by
  induction n generalizing s with
  | zero => rfl
  | succ n ih =>
    unfold State.forceOut
    split
    · rw [ih, biuWrite_inputs]
    · rfl

theorem kept_forceOut (p : WriteEntry → Bool) (n : Nat) {s : State} (h : Kept s) (hh : s.inputs.hold = false) :
    Kept (s.forceOut p n) := by
  induction n generalizing s with
  | zero => exact h
  | succ n ih =>
    unfold State.forceOut
    split
    · exact ih (kept_biuWrite h hh) (by simpa using hh)
    · exact h

/-- A cycle that never completes keeps all but the bus and the trace. -/
theorem kept_halt {s : State} (h : Kept s) (hh : s.inputs.hold = false) (c : List BusCycle) : Kept (s.halt c) :=
  ⟨h.memory, h.icache, h.dcache, h.buffer, h.entries, fun hc => by simp [State.halt, hh] at hc, h.mode⟩

theorem kept_readWord {s : State} (h : Kept s) (a : Word) : Kept (s.readWord a).2 := by
  unfold State.readWord
  split
  · exact h
  · exact kept_freshWord h

theorem kept_readBlock {s : State} (h : Kept s) (a : Word) : Kept (s.readBlock a).2 :=
  kept_readWord (kept_readWord (kept_readWord (kept_readWord h _) _) _) _

theorem kept_trace {s : State} (h : Kept s) (c : List BusCycle) : Kept { s with trace := c } :=
  ⟨h.memory, h.icache, h.dcache, h.buffer, h.entries, h.held, h.mode⟩

theorem kept_busRead {s : State} (h : Kept s) (sized : Bool) (a : Word) (type : ReadType) :
    (s.busRead sized a type).All Kept := by
  unfold State.busRead
  split
  · trivial
  · rename_i hh
    have hh : s.inputs.hold = false := by simpa using hh
    have hf := kept_forceOut (fun e => wordAddr e.addr == wordAddr a) s.writeBuffer.length h hh
    have hi := (congrArg Inputs.hold (forceOut_inputs (fun e => wordAddr e.addr == wordAddr a) s.writeBuffer.length
      s)).trans hh
    dsimp only
    split
    · exact kept_halt hf hi _
    · split
      · exact kept_halt hf hi _
      · exact kept_trace (kept_readWord hf a) _

theorem kept_busReadBlock {s : State} (h : Kept s) (a : Word) (type : ReadType) :
    (s.busReadBlock a type).All Kept := by
  unfold State.busReadBlock
  split
  · trivial
  · rename_i hh
    have hh : s.inputs.hold = false := by simpa using hh
    have hf := kept_forceOut (fun e => blockAddr e.addr == blockAddr a) s.writeBuffer.length h hh
    have hi := (congrArg Inputs.hold (forceOut_inputs (fun e => blockAddr e.addr == blockAddr a) s.writeBuffer.length
      s)).trans hh
    dsimp only
    split
    · exact kept_halt hf hi _
    · split
      · exact kept_halt hf hi _
      · exact kept_trace (kept_readBlock hf a) _

theorem kept_append {s : State} (h : Kept s) (e : WriteEntry) (hm : storeMask e.mask = true)
    (ha : unusedSpace e.addr = false) (hl : s.writeBuffer.length < 4) :
    Kept { s with writeBuffer := s.writeBuffer ++ [e] } := by
  refine ⟨h.memory, h.icache, h.dcache, ?_, fun x hx => ?_, h.held, h.mode⟩
  · simp only [List.length_append, List.length_cons, List.length_nil]
    omega
  · rcases List.mem_append.1 hx with hx | hx
    · exact h.entries x hx
    · rw [List.mem_singleton.1 hx]
      exact ⟨hm, ha⟩

theorem kept_appendWrite {s : State} (h : Kept s) (e : WriteEntry) (hm : storeMask e.mask = true)
    (ha : unusedSpace e.addr = false) : (s.appendWrite e).All Kept := by
  unfold State.appendWrite
  split
  · exact kept_append h e hm ha ‹_›
  · split
    · trivial
    · rename_i hl hh
      have hh : s.inputs.hold = false := by simpa using hh
      have hk := kept_biuWrite h hh
      split
      · exact kept_halt hk (by simpa using hh) _
      · rename_i hb
        refine kept_append hk e hm ha ?_
        rcases biuWrite_cases s with ⟨hs, hw | hc⟩ | ⟨x, rest, -, -, -, hs⟩ | ⟨x, rest, hw, -, -, hs⟩
        · rw [hs, hw]
          decide
        · rw [hs] at hb
          exact absurd hc hb
        · rw [hs] at hb
          exact absurd (by simp) hb
        · have := h.buffer
          rw [hw, List.length_cons] at this
          rw [hs]
          exact this

/-! ### Caches -/

theorem icacheIndex_lt (a : Word) : icacheIndex a < 1024 := (a.extractLsb' 2 10).isLt

theorem dcacheIndex_lt (a : Word) : dcacheIndex a < 256 := (a.extractLsb' 2 8).isLt

/-- A cache table with one index set. -/
theorem cache_set {t n : Nat} {c : List (Nat × CacheEntry t)} (h : tableRising c ∧ ∀ e ∈ c, e.1 < n) (k : Nat)
    (v : Option (CacheEntry t)) (hk : k < n) :
    tableRising (tableSet k v c) ∧ ∀ e ∈ tableSet k v c, e.1 < n := by
  refine ⟨tableRising_set _ _ _ h.1, fun e he => ?_⟩
  rcases mem_tableSet he with he | ⟨x, -, rfl⟩
  · exact h.2 e he
  · exact hk

theorem cache_clear {t n : Nat} {c : List (Nat × CacheEntry t)} (h : tableRising c ∧ ∀ e ∈ c, e.1 < n) :
    tableRising (clearCache c) ∧ ∀ e ∈ clearCache c, e.1 < n := by
  have key : ∀ (e f : Nat × CacheEntry t),
      (match e.2 with
        | .line _ tag data => some (e.1, CacheEntry.line false tag data)
        | .unknown => none) = some f → f.1 = e.1 := by
    intro e f hf
    split at hf
    · cases hf
      rfl
    · cases hf
  constructor
  · refine List.Pairwise.filterMap _ (fun a b hab a' ha b' hb => ?_) h.1
    rw [key a a' ha, key b b' hb]
    exact hab
  · intro e he
    obtain ⟨a, ha, hf⟩ := List.mem_filterMap.1 he
    rw [key a e hf]
    exact h.2 a ha

theorem kept_putLine {s : State} (h : Kept s) (side : CacheSide) (a : Word) (valid : Bool) (d : Word) :
    Kept (s.putLine side a valid d) := by
  cases side
  · exact ⟨h.memory, cache_set h.icache _ _ (icacheIndex_lt a), h.dcache, h.buffer, h.entries, h.held, h.mode⟩
  · exact ⟨h.memory, h.icache, cache_set h.dcache _ _ (dcacheIndex_lt a), h.buffer, h.entries, h.held, h.mode⟩

theorem kept_putUnknown {s : State} (h : Kept s) (side : CacheSide) (a : Word) (c : Bool) :
    Kept (s.putUnknown side a c) := by
  cases side
  · exact ⟨h.memory, cache_set h.icache _ _ (icacheIndex_lt a), h.dcache, h.buffer, h.entries, h.held, h.mode⟩
  · exact ⟨h.memory, h.icache, cache_set h.dcache _ _ (dcacheIndex_lt a), h.buffer, h.entries, h.held, h.mode⟩

theorem kept_invalidate {s : State} (h : Kept s) (side : CacheSide) (a : Word) : Kept (s.invalidate side a) := by
  cases side
  · exact ⟨h.memory, cache_set h.icache _ _ (icacheIndex_lt a), h.dcache, h.buffer, h.entries, h.held, h.mode⟩
  · exact ⟨h.memory, h.icache, cache_set h.dcache _ _ (dcacheIndex_lt a), h.buffer, h.entries, h.held, h.mode⟩

/-- All that a store through kseg1 can do to the data cache: nothing, or make the entry of its word invalid. -/
theorem dropAlias_cases (s : State) (a : Word) : s.dropAlias a = s ∨ s.dropAlias a = s.invalidate .data a := by
  unfold State.dropAlias
  split
  · exact .inl rfl
  · split
    · exact .inr rfl
    · exact .inl rfl
    · exact .inl rfl

theorem dropAlias_rest (s : State) (a : Word) : s.dropAlias a = { s with dcache := (s.dropAlias a).dcache } := by
  rcases dropAlias_cases s a with h | h <;> rw [h] <;> rfl

theorem kept_dropAlias {s : State} (h : Kept s) (a : Word) : Kept (s.dropAlias a) := by
  rcases dropAlias_cases s a with hs | hs <;> rw [hs]
  · exact h
  · exact kept_invalidate h _ _

theorem kept_applyClearPins {s : State} (h : Kept s) : Kept s.applyClearPins := by
  refine ⟨h.memory, ?_, ?_, h.buffer, h.entries, h.held, h.mode⟩
  · simp only [State.applyClearPins]
    split
    · exact cache_clear h.icache
    · exact h.icache
  · simp only [State.applyClearPins]
    split
    · exact cache_clear h.dcache
    · exact h.dcache

theorem kept_fill {s : State} (h : Kept s) (side : CacheSide) (a d : Word) : Kept (s.fill side a d) := by
  unfold State.fill
  split
  · exact h
  · exact kept_putLine h _ _ _ _

theorem kept_refill {s : State} (h : Kept s) (sized : Bool) (side : CacheSide) (a : Word) :
    (s.refill sized side a).All Kept := by
  unfold State.refill
  split
  · refine Act.all_bind (kept_busReadBlock h a _) fun x t ht => ?_
    exact kept_fill (kept_fill (kept_fill (kept_fill ht _ _ _) _ _ _) _ _ _) _ _ _
  · exact Act.all_bind (kept_busRead h sized a _) fun x t ht => kept_fill ht _ _ _

theorem kept_cacheRead {s : State} (h : Kept s) (side : CacheSide) (a : Word) {miss : State → Act Word}
    (hm : ∀ t, Kept t → (miss t).All Kept) : (s.cacheRead side a miss).All Kept := by
  unfold State.cacheRead
  split
  · exact h
  · exact hm s h
  · split
    · exact kept_freshWord (kept_freshWord h)
    · exact hm _ (kept_freshWord h)

theorem kept_cacheLoad {s : State} (h : Kept s) (sized : Bool) (side : CacheSide) (a : Word) :
    (s.cacheLoad sized side a).All Kept :=
  kept_cacheRead h side a fun _ ht => kept_refill ht _ _ _

theorem kept_dcacheStore {s : State} (h : Kept s) (a : Word) (mask : BitVec 4) (w : Word) :
    Kept (s.dcacheStore a mask w).2 := by
  unfold State.dcacheStore
  simp only
  split
  · exact kept_putLine h _ _ _ _
  · split
    · split
      · exact kept_putLine h _ _ _ _
      · exact h
      · split
        · exact kept_freshWord (kept_freshWord h)
        · exact kept_freshWord h
    · exact kept_invalidate h _ _

theorem storeMask_dcacheStore (s : State) (a : Word) (mask : BitVec 4) (w : Word) (hm : storeMask mask = true) :
    storeMask (s.dcacheStore a mask w).1.1 = true := by
  unfold State.dcacheStore
  simp only
  split
  · exact hm
  · split
    · split
      · rfl
      · exact hm
      · split
        · rfl
        · exact hm
    · exact hm

theorem kept_isolatedLoad {s : State} (h : Kept s) (a : Word) : Kept (s.isolatedLoad a).2 := by
  unfold State.isolatedLoad
  simp only
  refine Kept.of_eq h ?_ ?_ ?_ ?_ ?_ ?_ ?_ <;> split <;> split <;> simp

/-! ### Access -/

/-- No virtual address translates into the unused space (R74). -/
theorem translate_used {user : Bool} {va pa : Word} {u : Bool} (h : translate user va = some (pa, u)) :
    unusedSpace pa = false := by
  have low : ∀ x : BitVec 29, unusedSpace (0#3 ++ x : BitVec 32) = false := by
    intro x
    have h0 : (0#3 ++ x : BitVec 32).extractLsb' 30 2 = 0#2 := by
      apply BitVec.eq_of_toNat_eq
      rw [BitVec.extractLsb'_toNat]
      have : (0#3 ++ x : BitVec 32).toNat = x.toNat := by
        rw [BitVec.toNat_append]
        simp
      rw [this, Nat.shiftRight_eq_div_pow]
      have := x.isLt
      simp only [BitVec.toNat_ofNat]
      omega
    unfold unusedSpace
    rw [h0]
    rfl
  unfold translate at h
  split at h
  · cases h
  · split at h
    · cases h
      exact low _
    · cases h
      exact low _
    · rename_i h4 h5
      cases h
      unfold unusedSpace
      rw [beq_eq_false_iff_ne]
      intro hc
      have h1 : (va.extractLsb' 30 2).toNat = 2 := by rw [hc]; rfl
      rw [BitVec.extractLsb'_toNat, Nat.shiftRight_eq_div_pow] at h1
      simp only [BitVec.extractLsb'_toNat, Nat.shiftRight_eq_div_pow] at h4 h5
      have := va.isLt
      norm_num at h1 h4 h5 this
      omega

theorem unusedSpace_shown (a : Word) (k : BitVec 2) : unusedSpace (a.extractLsb' 2 30 ++ k) = unusedSpace a := by
  have h : (a.extractLsb' 2 30 ++ k : BitVec 32).extractLsb' 30 2 = a.extractLsb' 30 2 := by
    apply BitVec.eq_of_toNat_eq
    rw [BitVec.extractLsb'_toNat, BitVec.extractLsb'_toNat, BitVec.toNat_append]
    have hk := k.isLt
    have hs : (BitVec.extractLsb' 2 30 a).toNat <<< 2 ||| k.toNat = 4 * (a.extractLsb' 2 30).toNat + k.toNat := by
      rw [Nat.shiftLeft_eq, Nat.mul_comm]
      exact (Nat.two_pow_add_eq_or_of_lt (i := 2) hk _).symm
    rw [hs, BitVec.extractLsb'_toNat]
    simp only [Nat.shiftRight_eq_div_pow]
    have := a.isLt
    omega
  unfold unusedSpace
  rw [h]

theorem kept_loadWord {s : State} (h : Kept s) (va : Word) (length : BitVec 2) : (s.loadWord va length).All Kept := by
  unfold State.loadWord
  split
  · exact h
  · split
    · exact kept_isolatedLoad h _
    · split
      · exact kept_busRead h _ _ _
      · exact kept_cacheLoad h _ _ _

theorem kept_memRead {s : State} (h : Kept s) (va : Word) (n : Size) : (s.memRead va n).All Kept := by
  unfold State.memRead
  split
  · exact Act.all_bind (kept_loadWord h _ _) fun x t ht => ht
  · exact h

theorem kept_storeLanes {s : State} (h : Kept s) (va : Word) (mask : BitVec 4) (w : Word)
    (hm : storeMask mask = true) : (s.storeLanes va mask w).All Kept := by
  unfold State.storeLanes
  split
  · exact h
  · rename_i pa u ht
    split
    · exact kept_putUnknown h _ _ _
    · have ha := translate_used ht
      simp only
      split
      · exact kept_appendWrite (kept_dropAlias h _) _ hm (by rw [unusedSpace_shown]; exact ha)
      · exact kept_appendWrite (kept_dcacheStore h _ _ _) _ (storeMask_dcacheStore _ _ _ _ hm)
          (by rw [unusedSpace_shown]; exact ha)

/-- The masks of SB, SH and SW (R93). -/
theorem storeMask_storeLanesOf (n : Size) (big : Bool) (va v : Word) (h : aligned n va = true) :
    storeMask (storeLanesOf n big va v).1 = true := by
  have low : (va.extractLsb' 0 2).getLsbD 0 = va.getLsbD 0 := by simp
  cases n with
  | word => rfl
  | byte =>
    simp only [storeLanesOf, byteLane]
    generalize va.extractLsb' 0 2 = x
    revert x big
    decide
  | half =>
    simp only [aligned] at h
    rw [← low] at h
    simp only [storeLanesOf, halfLane]
    generalize va.extractLsb' 0 2 = x at h
    revert x big
    decide

theorem byteLane_lt (big : Bool) (va : Word) : byteLane big va < 4 := (_ : BitVec 2).isLt

/-- The masks of SWL (R93, R161). -/
theorem storeMask_swlLanes (b : Nat) (h : b < 4) (v : Word) : storeMask (swlLanes b v).1 = true := by
  simp only [swlLanes]
  interval_cases b <;> rfl

/-- The masks of SWR (R93, R162). -/
theorem storeMask_swrLanes (b : Nat) (h : b < 4) (v : Word) : storeMask (swrLanes b v).1 = true := by
  simp only [swrLanes]
  interval_cases b <;> rfl

theorem kept_memWrite {s : State} (h : Kept s) (va : Word) (n : Size) (v : Word) : (s.memWrite va n v).All Kept := by
  unfold State.memWrite
  split
  · exact kept_storeLanes h _ _ _ (storeMask_storeLanesOf _ _ _ _ ‹_›)
  · exact h

end Sys2Proof.Machine
end

