-- ==== Sys2Proof/Laws/Buffer.lean ====
section
/-! SUPPORT. Memory as the program sees it: the drain of the write buffer changes no byte of it, a bus read answers it,
an appended write changes the bytes of its own lanes (20_memory.md R103, R105). -/

namespace Sys2Proof.Machine

/-! ### Addresses of the bytes of a word -/

theorem wordAddr_add_toNat (a : Word) (k : Nat) (hk : k < 4) :
    (wordAddr a + BitVec.ofNat 32 k).toNat = (wordAddr a).toNat + k := by
  have := wordAddr_lt a k hk
  rw [BitVec.toNat_add, BitVec.toNat_ofNat]
  omega

/-- Two aligned words are the same or do not meet. -/
theorem wordAddr_disjoint {a b : Word} (h : wordAddr a ≠ wordAddr b) :
    (wordAddr a).toNat + 4 ≤ (wordAddr b).toNat ∨ (wordAddr b).toNat + 4 ≤ (wordAddr a).toNat := by
  have hne : (wordAddr a).toNat ≠ (wordAddr b).toNat := fun e => h (BitVec.eq_of_toNat_eq e)
  rw [wordAddr_toNat, wordAddr_toNat] at *
  omega

theorem wordAddr_wordAddr (a : Word) : wordAddr (wordAddr a) = wordAddr a := by
  apply BitVec.eq_of_toNat_eq
  rw [wordAddr_toNat, wordAddr_toNat]
  omega

theorem wordAddr_idem_answer (l : List Region) (a : Word) : answerAt l (wordAddr a) = answerAt l a := by
  induction l with
  | nil => rfl
  | cons r rest ih =>
    unfold answerAt Region.holds
    rw [wordAddr_wordAddr, ih]

/-- What answers is a matter of the word. -/
theorem answer_wordAddr (s : State) (a : Word) : s.answer (wordAddr a) = s.answer a := wordAddr_idem_answer _ _

theorem answer_of_word {s : State} {a b : Word} (h : wordAddr a = wordAddr b) : s.answer a = s.answer b := by
  rw [← answer_wordAddr s a, h, answer_wordAddr]

theorem backed_wordAddr (s : State) (a : Word) : s.backed (wordAddr a) = s.backed a := by
  unfold State.backed
  rw [answer_wordAddr]

theorem not_absent_of_backed {s : State} {a : Word} (h : s.backed a = true) : s.answer a ≠ .absent := by
  intro hc
  unfold State.backed at h
  rw [hc] at h
  exact absurd h (by decide)

/-! ### The buffered writes performed on a memory -/

theorem biuWrite_empty (s : State) (h : s.writeBuffer = []) : s.biuWrite = s := by
  unfold State.biuWrite
  rw [h]

theorem landed_rising (p : ModePins) (l : List Region) (e : WriteEntry) (m : Memory) (h : tableRising m) :
    tableRising (landed p l e m) := by
  unfold landed
  split
  · exact writeLanes_rising _ _ _ _ _ h
  · exact h

theorem performed_rising (p : ModePins) (l : List Region) (es : List WriteEntry) (m : Memory) (h : tableRising m) :
    tableRising (performed p l es m) := by
  induction es generalizing m with
  | nil => exact h
  | cons e rest ih => exact ih _ (landed_rising _ _ _ _ h)

/-- Entries for other words leave a byte alone. -/
theorem read_performed_outside (p : ModePins) (l : List Region) (es : List WriteEntry) (m : Memory) (b : Nat)
    (h : ∀ e ∈ es, b < (wordAddr e.addr).toNat ∨ (wordAddr e.addr).toNat + 4 ≤ b) :
    (performed p l es m).read b = m.read b := by
  induction es generalizing m with
  | nil => rfl
  | cons e rest ih =>
    refine (ih (landed p l e m) fun x hx => h x (List.mem_cons_of_mem _ hx)).trans ?_
    unfold landed
    split
    · exact read_writeLanes_outside _ _ _ _ _ _ (h e (by simp))
    · rfl

/-- What memory holds once drained is a matter of memory, buffer, mode pins and platform alone. -/
theorem settled_of_eq {s t : State} (hm : t.mem = s.mem) (hb : t.writeBuffer = s.writeBuffer) (ho : t.mode = s.mode)
    (hp : t.platform = s.platform) : t.settled = s.settled := by
  unfold State.settled
  rw [hm, hb, ho, hp]

theorem seenByte_of_eq {s t : State} (hm : t.mem = s.mem) (hb : t.writeBuffer = s.writeBuffer)
    (ho : t.mode = s.mode) (hp : t.platform = s.platform) (a : Word) : t.seenByte a = s.seenByte a := by
  unfold State.seenByte
  rw [settled_of_eq hm hb ho hp]

/-- Whatever the BIU does, memory once drained stays. -/
theorem settled_biuWrite (s : State) : s.biuWrite.settled = s.settled := by
  rcases biuWrite_cases s with ⟨hs, -⟩ | ⟨e, rest, -, -, -, hs⟩ | ⟨e, rest, hw, -, -, hs⟩
  · rw [hs]
  · rw [hs]
    exact settled_of_eq rfl rfl rfl rfl
  · rw [hs]
    unfold State.settled
    rw [hw]
    rfl

theorem seenByte_biuWrite (s : State) (a : Word) : s.biuWrite.seenByte a = s.seenByte a :=
  congrArg (Memory.read · a.toNat) (settled_biuWrite s)

theorem seenByte_biuWriteN (n : Nat) (s : State) (a : Word) : (s.biuWriteN n).seenByte a = s.seenByte a := by
  induction n generalizing s with
  | zero => rfl
  | succ n ih => exact (ih s.biuWrite).trans (seenByte_biuWrite s a)

/-- While the bus is held, or a read that a hold made wait is still to be done, the BIU performs no write (R104). -/
theorem drain_waits {s : State} (h : s.inputs.hold = true ∨ s.readWaiting = true) : s.drain = s :=
  if_pos ((Bool.or_eq_true ..).mpr h)

/-- Else it performs as many as its pace says (R103). -/
theorem drain_runs {s : State} (hh : s.inputs.hold = false) (hr : s.readWaiting = false) : s.drain = s.biuWriteN s.pace := by
  simp [State.drain, hh, hr]

theorem seenByte_forceOut (p : WriteEntry → Bool) (n : Nat) (s : State) (a : Word) :
    (s.forceOut p n).seenByte a = s.seenByte a := by
  induction n generalizing s with
  | zero => rfl
  | succ n ih =>
    unfold State.forceOut
    split
    · exact (ih s.biuWrite).trans (seenByte_biuWrite s a)
    · rfl

/-- The parts that draining leaves: everything but memory, write buffer, trace and the bus. -/
theorem forceOut_rest (p : WriteEntry → Bool) (n : Nat) (s : State) :
    s.forceOut p n =
      { s with
        mem := (s.forceOut p n).mem, writeBuffer := (s.forceOut p n).writeBuffer, trace := (s.forceOut p n).trace,
        bus := (s.forceOut p n).bus } := by
  induction n generalizing s with
  | zero => rfl
  | succ n ih =>
    unfold State.forceOut
    split
    · have h := ih s.biuWrite
      have hb := biuWrite_rest s
      rw [hb] at h ⊢
      exact h
    · rfl

/-! ### A ready BIU -/

/-- Readiness is a matter of the hold, the bus, the buffer and the platform. -/
theorem ready_of_eq {s t : State} (h : s.BusReady) (hi : t.inputs = s.inputs) (hs : t.bus = s.bus)
    (hb : ∀ e ∈ t.writeBuffer, e ∈ s.writeBuffer) (hp : t.platform = s.platform) : t.BusReady :=
  ⟨by rw [hi]; exact h.hold, hs.trans h.bus, fun e he => by
    unfold State.answer
    rw [hp]
    exact h.answered e (hb e he)⟩

/-- A ready BIU performs the oldest write. -/
theorem biuWrite_ready {s : State} (h : s.BusReady) :
    s.biuWrite.writeBuffer = s.writeBuffer.tail ∧ s.biuWrite.bus = .free := by
  rcases biuWrite_cases s with ⟨hs, hw | hc⟩ | ⟨e, rest, hw, -, ha, -⟩ | ⟨e, rest, hw, hf, -, hs⟩
  · rw [hs, hw]
    exact ⟨rfl, h.bus⟩
  · exact absurd h.bus hc
  · exact absurd ha (h.answered e (by rw [hw]; simp))
  · rw [hs, hw]
    exact ⟨rfl, hf⟩

theorem ready_biuWrite {s : State} (h : s.BusReady) : s.biuWrite.BusReady :=
  ready_of_eq h (biuWrite_inputs s) ((biuWrite_ready h).2.trans h.bus.symm)
    (by rw [(biuWrite_ready h).1]; exact fun e he => List.mem_of_mem_tail he) (biuWrite_platform s)

/-- A bus that is free after a write of the BIU was free before, and the oldest entry has left. -/
theorem biuWrite_free {s : State} (h : s.biuWrite.bus = .free) :
    s.bus = .free ∧ s.biuWrite.writeBuffer = s.writeBuffer.tail := by
  rcases biuWrite_cases s with ⟨hs, hw | hc⟩ | ⟨e, rest, -, -, -, hs⟩ | ⟨e, rest, hw, hf, -, hs⟩
  · rw [hs] at h ⊢
    exact ⟨h, by rw [hw]; rfl⟩
  · exact absurd (hs ▸ h) hc
  · rw [hs] at h
    cases h
  · exact ⟨hf, by rw [hs, hw]; rfl⟩

/-- Forcing out adds cycles to the trace and entries to nothing. -/
theorem forceOut_adds (p : WriteEntry → Bool) (n : Nat) (s : State) :
    (∀ e ∈ (s.forceOut p n).writeBuffer, e ∈ s.writeBuffer) ∧ ∃ cycles, (s.forceOut p n).trace = cycles ++ s.trace := by
  induction n generalizing s with
  | zero => exact ⟨fun _ he => he, [], rfl⟩
  | succ n ih =>
    unfold State.forceOut
    split
    · obtain ⟨h1, c, h2⟩ := ih s.biuWrite
      have hb : (∀ e ∈ s.biuWrite.writeBuffer, e ∈ s.writeBuffer) ∧ ∃ cycles, s.biuWrite.trace = cycles ++ s.trace := by
        rcases biuWrite_cases s with ⟨hs, -⟩ | ⟨e, rest, -, -, -, hs⟩ | ⟨e, rest, hw, -, -, hs⟩
        · rw [hs]
          exact ⟨fun _ he => he, [], rfl⟩
        · rw [hs]
          exact ⟨fun _ he => he, _, rfl⟩
        · rw [hs, hw]
          exact ⟨fun _ he => List.mem_cons_of_mem _ he, _, rfl⟩
      obtain ⟨b1, d, b2⟩ := hb
      exact ⟨fun e he => b1 e (h1 e he), c ++ d, by rw [h2, b2, List.append_assoc]⟩
    · exact ⟨fun _ he => he, [], rfl⟩

/-- A bus that is not free stays so. -/
theorem forceOut_bus_ne (p : WriteEntry → Bool) (n : Nat) {s : State} (h : s.bus ≠ .free) : (s.forceOut p n).bus ≠ .free := by
  induction n generalizing s with
  | zero => exact h
  | succ n ih =>
    unfold State.forceOut
    split
    · exact ih fun hf => h (biuWrite_free hf).1
    · exact h

/-- Forcing out that leaves the bus free found it free and left no entry of the kind (R105). -/
theorem forceOut_free (p : WriteEntry → Bool) {s : State} (h : (s.forceOut p s.writeBuffer.length).bus = .free) :
    s.bus = .free ∧ ∀ e ∈ (s.forceOut p s.writeBuffer.length).writeBuffer, p e = false := by
  generalize hn : s.writeBuffer.length = n at h ⊢
  induction n generalizing s with
  | zero =>
    refine ⟨h, fun e he => ?_⟩
    have he' : e ∈ s.writeBuffer := he
    rw [List.length_eq_zero_iff.1 hn] at he'
    cases he'
  | succ n ih =>
    unfold State.forceOut at h ⊢
    split at h
    · rename_i hc
      rw [if_pos hc]
      have hb : s.biuWrite.bus = .free ∧ s.biuWrite.writeBuffer = s.writeBuffer.tail := by
        by_cases hf : s.biuWrite.bus = .free
        · exact ⟨hf, (biuWrite_free hf).2⟩
        · refine absurd h (forceOut_bus_ne p n hf)
      obtain ⟨-, h2⟩ := ih (s := s.biuWrite) (by rw [hb.2, List.length_tail, hn]; rfl) h
      exact ⟨(biuWrite_free hb.1).1, h2⟩
    · rename_i hc
      rw [if_neg hc]
      refine ⟨h, fun e he => ?_⟩
      by_contra hp
      exact hc (List.any_eq_true.2 ⟨e, he, by simpa using hp⟩)

/-- Once forced out by a ready BIU, no entry of the kind is left (R105), and the bus is free. -/
theorem forceOut_ready (p : WriteEntry → Bool) {s : State} (h : s.BusReady) :
    (∀ e ∈ (s.forceOut p s.writeBuffer.length).writeBuffer, p e = false ∧ e ∈ s.writeBuffer) ∧
      (s.forceOut p s.writeBuffer.length).bus = .free := by
  generalize hn : s.writeBuffer.length = n
  induction n generalizing s with
  | zero =>
    refine ⟨fun e he => ?_, h.bus⟩
    have he' : e ∈ s.writeBuffer := he
    rw [List.length_eq_zero_iff.1 hn] at he'
    cases he'
  | succ n ih =>
    unfold State.forceOut
    split
    · obtain ⟨h1, h2⟩ := ih (ready_biuWrite h) (by rw [(biuWrite_ready h).1, List.length_tail, hn]; rfl)
      refine ⟨fun e he => ⟨(h1 e he).1, ?_⟩, h2⟩
      have := (h1 e he).2
      rw [(biuWrite_ready h).1] at this
      exact List.mem_of_mem_tail this
    · rename_i hc
      refine ⟨fun e he => ⟨?_, he⟩, h.bus⟩
      by_contra hp
      exact hc (List.any_eq_true.2 ⟨e, he, by simpa using hp⟩)

/-! ### Words -/

theorem laneByte_append (b3 b2 b1 b0 : Byte) (i : Nat) (h : i < 4) :
    laneByte (b3 ++ b2 ++ b1 ++ b0) i = (match i with | 0 => b0 | 1 => b1 | 2 => b2 | _ => b3) := by
  have lo : ∀ {n : Nat} (x : BitVec n), ((x ++ b0 : BitVec (n + 8)).extractLsb' 0 8) = b0 := by
    intro n x
    rw [BitVec.extractLsb'_append_eq_of_add_le (by omega)]
    simp
  unfold laneByte
  interval_cases i
  · exact lo _
  · rw [BitVec.extractLsb'_append_eq_of_le (by omega), BitVec.extractLsb'_append_eq_of_add_le (by omega)]
    simp
  · rw [BitVec.extractLsb'_append_eq_of_le (by omega), BitVec.extractLsb'_append_eq_of_le (by omega),
      BitVec.extractLsb'_append_eq_of_add_le (by omega)]
    simp
  · rw [BitVec.extractLsb'_append_eq_of_le (by omega), BitVec.extractLsb'_append_eq_of_le (by omega),
      BitVec.extractLsb'_append_eq_of_le (by omega)]
    simp

/-- A word is its four lanes. -/
theorem lanes_eq (w : Word) : laneByte w 3 ++ laneByte w 2 ++ laneByte w 1 ++ laneByte w 0 = w := by
  have h1 : (laneByte w 3 ++ laneByte w 2 : BitVec 16) = w.extractLsb' 16 16 :=
    BitVec.extractLsb'_append_extractLsb'_eq_extractLsb' (by decide)
  have h2 : (w.extractLsb' 16 16 ++ laneByte w 1 : BitVec 24) = w.extractLsb' 8 24 :=
    BitVec.extractLsb'_append_extractLsb'_eq_extractLsb' (by decide)
  have h3 : (w.extractLsb' 8 24 ++ laneByte w 0 : BitVec 32) = w.extractLsb' 0 32 :=
    BitVec.extractLsb'_append_extractLsb'_eq_extractLsb' (by decide)
  have h4 : (laneByte w 3 ++ laneByte w 2 ++ laneByte w 1 ++ laneByte w 0 : BitVec 32) = w.extractLsb' 0 32 := by
    rw [h1, h2, h3]
  exact h4.trans (by simp)

/-- Words with equal lanes are equal. -/
theorem word_ext {v w : Word} (h : ∀ i < 4, laneByte v i = laneByte w i) : v = w := by
  rw [← lanes_eq v, ← lanes_eq w, h 0 (by decide), h 1 (by decide), h 2 (by decide), h 3 (by decide)]

/-- Lane `i` of the word image is the byte at its offset (R82). -/
theorem laneByte_wordImage (big : Bool) (m : Memory) (a : Word) (i : Nat) (h : i < 4) :
    laneByte (wordImage big m a) i = m.read (a.toNat + laneOf big i) := by
  unfold wordImage
  simp only
  rw [laneByte_append _ _ _ _ i h]
  interval_cases i <;> rfl

theorem laneOf_lt (big : Bool) (i : Nat) (h : i < 4) : laneOf big i < 4 := by
  unfold laneOf
  split <;> omega

theorem laneOf_laneOf (big : Bool) (i : Nat) (h : i < 4) : laneOf big (laneOf big i) = i := by
  unfold laneOf
  cases big
  · rfl
  · simp only [if_true]
    omega

/-- The word image of an aligned word of settled memory, by the bytes that the program sees (R78, R82). -/
theorem wordImage_settled (s : State) (a : Word) :
    wordImage s.mode.bigEndianMem s.settled (wordAddr a) = s.seenWord (wordAddr a) := by
  have h0 : s.settled.read (wordAddr a).toNat = s.seenByte (wordAddr a) := rfl
  have h1 : s.settled.read ((wordAddr a).toNat + 1) = s.seenByte (wordAddr a + 1) := by
    rw [← wordAddr_add_toNat a 1 (by decide)]
    rfl
  have h2 : s.settled.read ((wordAddr a).toNat + 2) = s.seenByte (wordAddr a + 2) := by
    rw [← wordAddr_add_toNat a 2 (by decide)]
    rfl
  have h3 : s.settled.read ((wordAddr a).toNat + 3) = s.seenByte (wordAddr a + 3) := by
    rw [← wordAddr_add_toNat a 3 (by decide)]
    rfl
  unfold wordImage State.seenWord laneOf
  cases s.mode.bigEndianMem <;> simp [h0, h1, h2, h3]

/-- Where no entry for the word is buffered, memory itself holds what the program sees. -/
theorem wordImage_unbuffered (s : State) (a : Word) (h : ∀ e ∈ s.writeBuffer, wordAddr e.addr ≠ wordAddr a) :
    wordImage s.mode.bigEndianMem s.mem (wordAddr a) = s.seenWord (wordAddr a) := by
  rw [← wordImage_settled]
  unfold State.settled
  apply word_ext
  intro i hi
  rw [laneByte_wordImage _ _ _ _ hi, laneByte_wordImage _ _ _ _ hi]
  refine (read_performed_outside _ _ _ _ _ fun e he => ?_).symm
  have hl := laneOf_lt s.mode.bigEndianMem i hi
  have := wordAddr_disjoint (h e he)
  omega

theorem seenWord_of_bytes {s t : State} (ho : t.mode = s.mode) (h : ∀ a, t.seenByte a = s.seenByte a) (a : Word) :
    t.seenWord a = s.seenWord a := by
  unfold State.seenWord
  simp only [ho, h]

theorem seenHalf_of_bytes {s t : State} (ho : t.mode = s.mode) (h : ∀ a, t.seenByte a = s.seenByte a) (a : Word) :
    t.seenHalf a = s.seenHalf a := by
  unfold State.seenHalf
  simp only [ho, h]

/-! ### Bus reads -/

/-- `t` is `s` after bus cycles that completed: memory, buffer and trace may differ and free values may have been used,
but no byte that the program sees changed, and the buffer gained no entry. -/
structure BusOnly (s t : State) : Prop where
  rest : t = { s with mem := t.mem, writeBuffer := t.writeBuffer, trace := t.trace, freeIndex := t.freeIndex }
  seen : ∀ a, t.seenByte a = s.seenByte a
  buffer : ∀ e ∈ t.writeBuffer, e ∈ s.writeBuffer

theorem BusOnly.mode {s t : State} (h : BusOnly s t) : t.mode = s.mode := by rw [h.rest]

theorem BusOnly.platform {s t : State} (h : BusOnly s t) : t.platform = s.platform := by rw [h.rest]

theorem BusOnly.answer {s t : State} (h : BusOnly s t) (a : Word) : t.answer a = s.answer a := by
  unfold State.answer
  rw [h.platform]

theorem BusOnly.backed {s t : State} (h : BusOnly s t) (a : Word) : t.backed a = s.backed a := by
  unfold State.backed
  rw [h.answer]

theorem BusOnly.ready {s t : State} (h : BusOnly s t) (hs : s.BusReady) : t.BusReady :=
  ready_of_eq hs (by rw [h.rest]) (by rw [h.rest]) h.buffer h.platform

theorem busOnly_trace {s t : State} (h : BusOnly s t) (x : List BusCycle) : BusOnly s { t with trace := x } :=
  ⟨by rw [h.rest], fun a => (seenByte_of_eq (s := t) (t := { t with trace := x }) rfl rfl rfl rfl a).trans (h.seen a),
    h.buffer⟩

theorem busOnly_freshWord {s t : State} (h : BusOnly s t) : BusOnly s t.freshWord.2 :=
  ⟨by rw [h.rest]; rfl, fun a => (seenByte_of_eq (s := t) (t := t.freshWord.2) rfl rfl rfl rfl a).trans (h.seen a),
    h.buffer⟩

theorem busOnly_forceOut (p : WriteEntry → Bool) {s : State} (h : (s.forceOut p s.writeBuffer.length).bus = .free) :
    BusOnly s (s.forceOut p s.writeBuffer.length) := by
  refine ⟨?_, seenByte_forceOut p _ s, (forceOut_adds p _ s).1⟩
  have hr := forceOut_rest p s.writeBuffer.length s
  rw [h, ← (forceOut_free p h).1] at hr
  rw [hr]

/-- `t` is `s` with the core waiting for a bus cycle that never completes (R77): the bus may have worked, but no byte that
the program sees changed, and the buffer gained no entry. -/
structure StuckIn (s t : State) : Prop where
  bus : t.bus = .coreStuck
  rest : t = { s with mem := t.mem, writeBuffer := t.writeBuffer, trace := t.trace, bus := t.bus }
  seen : ∀ a, t.seenByte a = s.seenByte a
  buffer : ∀ e ∈ t.writeBuffer, e ∈ s.writeBuffer
  trace : ∃ cycles, t.trace = cycles ++ s.trace

theorem stuckIn_halt (p : WriteEntry → Bool) (n : Nat) (s : State) (cycles : List BusCycle) :
    StuckIn s ((s.forceOut p n).halt cycles) := by
  obtain ⟨h1, c, h2⟩ := forceOut_adds p n s
  refine ⟨rfl, ?_, fun a => ?_, h1, cycles ++ c, ?_⟩
  · unfold State.halt
    rw [forceOut_rest p n s]
  · exact (seenByte_of_eq rfl rfl rfl rfl a).trans (seenByte_forceOut p n s a)
  · show cycles ++ (s.forceOut p n).trace = _
    rw [h2, List.append_assoc]

/-- What a read cycle finds (R77): the word that the program sees, where memory stands and no entry for it is buffered. -/
theorem readWord_spec {s t : State} (h : BusOnly s t) (a : Word) :
    BusOnly s (t.readWord a).2 ∧ (t.readWord a).2.writeBuffer = t.writeBuffer ∧
      (s.backed a = true → (∀ e ∈ t.writeBuffer, wordAddr e.addr ≠ wordAddr a) →
        (t.readWord a).1 = s.seenWord (wordAddr a)) := by
  unfold State.readWord
  rw [h.backed]
  split
  · refine ⟨h, rfl, fun _ hn => ?_⟩
    exact (wordImage_unbuffered t a hn).trans (seenWord_of_bytes h.mode h.seen _)
  · rename_i hb
    exact ⟨busOnly_freshWord h, rfl, fun hc => absurd hc hb⟩

/-- All that a single bus read can do (R77, R105, R329): it waits for a held bus; it is stuck, which a ready BIU is only
where nothing answers; or it answers, if memory does, the word that the program sees, and its cycles come last. -/
theorem busRead_cases (s : State) (sized : Bool) (a : Word) (type : ReadType) :
    (s.inputs.hold = true ∧ s.busRead sized a type = .stall true) ∨
    (∃ t, s.busRead sized a type = .stuck t ∧ StuckIn s t ∧ (s.BusReady → s.answer a = .absent)) ∨
    ∃ w t, s.busRead sized a type = .done w t ∧ BusOnly s t ∧ (s.backed a = true → w = s.seenWord (wordAddr a)) ∧
      ∃ before, t.trace = (readCycles s.mode sized a type).reverse ++ (before ++ s.trace) := by
  unfold State.busRead
  by_cases hh : s.inputs.hold = true
  · exact .inl ⟨hh, if_pos hh⟩
  right
  rw [if_neg hh]
  dsimp only
  have hst := stuckIn_halt (fun e : WriteEntry => wordAddr e.addr == wordAddr a) s.writeBuffer.length s
  have hf := fun h => busOnly_forceOut (fun e : WriteEntry => wordAddr e.addr == wordAddr a) (s := s) h
  have he := fun h => (forceOut_free (fun e : WriteEntry => wordAddr e.addr == wordAddr a) (s := s) h).2
  have hr := fun h => (forceOut_ready (fun e : WriteEntry => wordAddr e.addr == wordAddr a) (s := s) h).2
  obtain ⟨-, c, hc⟩ := forceOut_adds (fun e : WriteEntry => wordAddr e.addr == wordAddr a) s.writeBuffer.length s
  generalize s.forceOut (fun e : WriteEntry => wordAddr e.addr == wordAddr a) s.writeBuffer.length = u at *
  by_cases hu : u.bus = .free
  · rw [if_neg (by simp [hu])]
    have hb := hf hu
    by_cases ha : s.answer a = .absent
    · rw [if_pos (by rw [hb.answer]; exact ha)]
      exact .inl ⟨_, rfl, hst _, fun _ => ha⟩
    · rw [if_neg (by rw [hb.answer]; exact ha)]
      obtain ⟨h1, -, h3⟩ := readWord_spec hb a
      refine .inr ⟨_, _, rfl, busOnly_trace h1 _, fun hk => h3 hk fun e hm => by simpa using he hu e hm, c, ?_⟩
      rw [hb.mode, hc]
  · rw [if_pos hu]
    exact .inl ⟨_, rfl, hst _, fun h => absurd (hr h) hu⟩

/-- A single bus read by a ready BIU, where something answers (R105): the word that the program sees, if memory answers. -/
theorem busRead_spec {s : State} (sized : Bool) (a : Word) (type : ReadType) (h : s.BusReady)
    (ha : s.answer a ≠ .absent) :
    ∃ w t, s.busRead sized a type = .done w t ∧ BusOnly s t ∧ (s.backed a = true → w = s.seenWord (wordAddr a)) := by
  rcases busRead_cases s sized a type with ⟨hh, -⟩ | ⟨t, -, -, ht⟩ | ⟨w, t, h1, h2, h3, -⟩
  · rw [h.hold] at hh
    cases hh
  · exact absurd (ht h) ha
  · exact ⟨w, t, h1, h2, h3⟩

theorem blockAddr_toNat (a : Word) : (blockAddr a).toNat = 16 * (a.toNat / 16) := by
  have h : blockAddr a = (a.extractLsb' 4 28 ++ 0#4 : BitVec 32) := rfl
  rw [h, BitVec.toNat_append]
  simp only [BitVec.extractLsb'_toNat, BitVec.toNat_ofNat, Nat.zero_mod, Nat.or_zero, Nat.shiftRight_eq_div_pow,
    Nat.shiftLeft_eq]
  have := a.isLt
  omega

theorem block_word_toNat (a : Word) (k : Nat) (hk : k < 4) : (blockWord a k).toNat = 16 * (a.toNat / 16) + 4 * k := by
  have := a.isLt
  unfold blockWord
  rw [BitVec.toNat_add, blockAddr_toNat, BitVec.toNat_ofNat]
  omega

theorem wordAddr_block (a : Word) (k : Nat) (hk : k < 4) : wordAddr (blockWord a k) = blockWord a k := by
  apply BitVec.eq_of_toNat_eq
  rw [wordAddr_toNat, block_word_toNat a k hk]
  omega

/-- An entry outside a block is for none of its words. -/
theorem outside_block {a : Word} {e : WriteEntry} (h : (blockAddr e.addr == blockAddr a) = false) (k : Nat) (hk : k < 4) :
    wordAddr e.addr ≠ wordAddr (blockWord a k) := by
  intro hc
  refine absurd h ?_
  rw [Bool.not_eq_false, beq_iff_eq]
  apply BitVec.eq_of_toNat_eq
  have h1 := congrArg BitVec.toNat hc
  rw [wordAddr_toNat, wordAddr_toNat, block_word_toNat a k hk] at h1
  rw [blockAddr_toNat, blockAddr_toNat]
  omega

/-- All that a block read can do (R77, R105, R314, R329), as `busRead_cases` says it of a single read. -/
theorem busReadBlock_cases (s : State) (a : Word) (type : ReadType) :
    (s.inputs.hold = true ∧ s.busReadBlock a type = .stall true) ∨
    (∃ t, s.busReadBlock a type = .stuck t ∧ StuckIn s t ∧ (s.BusReady → s.answer (blockAddr a) = .absent)) ∨
    ∃ (w : Nat → Word) (t : State), s.busReadBlock a type = .done #v[w 0, w 1, w 2, w 3] t ∧ BusOnly s t ∧
      (∀ k < 4, s.backed (blockWord a k) = true → w k = s.seenWord (blockWord a k)) ∧
      ∃ cycles, t.trace = cycles ++ s.trace := by
  unfold State.busReadBlock
  by_cases hh : s.inputs.hold = true
  · exact .inl ⟨hh, if_pos hh⟩
  right
  rw [if_neg hh]
  dsimp only
  have hst := stuckIn_halt (fun e : WriteEntry => blockAddr e.addr == blockAddr a) s.writeBuffer.length s
  have hf := fun h => busOnly_forceOut (fun e : WriteEntry => blockAddr e.addr == blockAddr a) (s := s) h
  have he := fun h => (forceOut_free (fun e : WriteEntry => blockAddr e.addr == blockAddr a) (s := s) h).2
  have hr := fun h => (forceOut_ready (fun e : WriteEntry => blockAddr e.addr == blockAddr a) (s := s) h).2
  obtain ⟨-, c, hc⟩ := forceOut_adds (fun e : WriteEntry => blockAddr e.addr == blockAddr a) s.writeBuffer.length s
  generalize s.forceOut (fun e : WriteEntry => blockAddr e.addr == blockAddr a) s.writeBuffer.length = u at *
  by_cases hu : u.bus = .free
  · rw [if_neg (by simp [hu])]
    have hb := hf hu
    by_cases ha : s.answer (blockAddr a) = .absent
    · rw [if_pos (by rw [hb.answer]; exact ha)]
      exact .inl ⟨_, rfl, hst _, fun _ => ha⟩
    rw [if_neg (by rw [hb.answer]; exact ha)]
    have hn : ∀ k < 4, ∀ e ∈ u.writeBuffer, wordAddr e.addr ≠ wordAddr (blockWord a k) :=
      fun k hk e hm => outside_block (he hu e hm) k hk
    obtain ⟨b0, e0, v0⟩ := readWord_spec hb (blockWord a 0)
    obtain ⟨b1, e1, v1⟩ := readWord_spec b0 (blockWord a 1)
    obtain ⟨b2, e2, v2⟩ := readWord_spec b1 (blockWord a 2)
    obtain ⟨b3, -, v3⟩ := readWord_spec b2 (blockWord a 3)
    rw [e0] at e1 v1
    rw [e1] at e2 v2
    rw [e2] at v3
    unfold State.readBlock
    dsimp only
    refine .inr ⟨fun k => match k with
      | 0 => (u.readWord (blockWord a 0)).1
      | 1 => ((u.readWord (blockWord a 0)).2.readWord (blockWord a 1)).1
      | 2 => (((u.readWord (blockWord a 0)).2.readWord (blockWord a 1)).2.readWord (blockWord a 2)).1
      | _ => ((((u.readWord (blockWord a 0)).2.readWord (blockWord a 1)).2.readWord (blockWord a 2)).2.readWord
          (blockWord a 3)).1, _, rfl, busOnly_trace b3 _, fun k hk hbk => ?_,
      BusCycle.blockRead (blockAddr a) type :: c, by rw [hc]; rfl⟩
    have fin : ∀ k < 4, s.seenWord (wordAddr (blockWord a k)) = s.seenWord (blockWord a k) := fun k hk => by
      rw [wordAddr_block a k hk]
    interval_cases k
    · exact (v0 hbk (hn 0 (by decide))).trans (fin 0 (by decide))
    · exact (v1 hbk (hn 1 (by decide))).trans (fin 1 (by decide))
    · exact (v2 hbk (hn 2 (by decide))).trans (fin 2 (by decide))
    · exact (v3 hbk (hn 3 (by decide))).trans (fin 3 (by decide))
  · rw [if_pos hu]
    exact .inl ⟨_, rfl, hst _, fun h => absurd (hr h) hu⟩

/-- A block read by a ready BIU, where something answers at the first word (R105): of its words, those with memory behind
them are the words that the program sees. -/
theorem busReadBlock_spec {s : State} (a : Word) (type : ReadType) (h : s.BusReady)
    (ha : s.answer (blockAddr a) ≠ .absent) :
    ∃ (w : Nat → Word) (t : State), s.busReadBlock a type = .done #v[w 0, w 1, w 2, w 3] t ∧ BusOnly s t ∧
      ∀ k < 4, s.backed (blockWord a k) = true → w k = s.seenWord (blockWord a k) := by
  rcases busReadBlock_cases s a type with ⟨hh, -⟩ | ⟨t, -, -, ht⟩ | ⟨w, t, h1, h2, h3, -⟩
  · rw [h.hold] at hh
    cases hh
  · exact absurd (ht h) ha
  · exact ⟨w, t, h1, h2, h3⟩

/-! ### Appended writes -/

/-- Memory as the program sees it after an append: the entry lands (R93, R103). -/
theorem settled_append (s : State) (e : WriteEntry) :
    ({ s with writeBuffer := s.writeBuffer ++ [e] } : State).settled = landed s.mode s.platform e s.settled := by
  simp only [State.settled, performed, List.foldl_append, List.foldl_cons, List.foldl_nil]

/-- `t` is `s` after a store of these lanes at this aligned word: memory, buffer and trace may differ, and memory as the
program sees it has the lanes written, where ordinary memory answers (R77). -/
structure Wrote (s t : State) (a : Word) (mask : BitVec 4) (w : Word) : Prop where
  rest : t = { s with mem := t.mem, writeBuffer := t.writeBuffer, trace := t.trace }
  mem : t.settled =
    if s.answer a = .memory then writeLanes s.mode.bigEndianMem s.settled (wordAddr a) mask w else s.settled

theorem wrote_append (s u : State) (e : WriteEntry)
    (h : u = { s with mem := u.mem, writeBuffer := u.writeBuffer, trace := u.trace })
    (hm : u.settled = s.settled) :
    Wrote s { u with writeBuffer := u.writeBuffer ++ [e] } e.addr (busMask s.mode e) e.data := by
  have ho : u.mode = s.mode := by rw [h]
  have hp : u.platform = s.platform := by rw [h]
  refine ⟨?_, ?_⟩
  · rw [h]
  · rw [settled_append, hm, ho, hp]
    rfl

/-- With room, the BIU at most performs one write for an append, and the bus stays as it was. -/
theorem biuWrite_room {s : State} (h : s.HasRoom) (hl : ¬ s.writeBuffer.length < 4) :
    s.inputs.hold = false ∧ s.biuWrite.bus = .free ∧ s.biuWrite.writeBuffer = s.writeBuffer.tail ∧
      s.biuWrite = { s with
        mem := s.biuWrite.mem, writeBuffer := s.biuWrite.writeBuffer, trace := s.biuWrite.trace } := by
  obtain ⟨hh, hf, ha⟩ := h.resolve_left hl
  rcases biuWrite_cases s with ⟨-, hw | hc⟩ | ⟨e, rest, hw, -, hc, -⟩ | ⟨e, rest, hw, -, -, hs⟩
  · exact absurd (by rw [hw]; decide) hl
  · exact absurd hf hc
  · exact absurd hc (ha e (by rw [hw]; rfl))
  · rw [hs]
    exact ⟨hh, hf, by rw [hw]; rfl, rfl⟩

/-- A store enters the buffer, if there is room or the BIU can make it, and changes the bytes that its lanes carry. -/
theorem appendWrite_spec {s : State} (e : WriteEntry) (h : s.HasRoom) :
    ∃ t, s.appendWrite e = .done () t ∧ Wrote s t e.addr (busMask s.mode e) e.data := by
  unfold State.appendWrite
  by_cases hl : s.writeBuffer.length < 4
  · rw [if_pos hl]
    exact ⟨_, rfl, wrote_append s s e rfl rfl⟩
  · obtain ⟨hh, hf, -, hr⟩ := biuWrite_room h hl
    rw [if_neg hl, if_neg (by simp [hh]), if_neg (by simp [hf])]
    exact ⟨_, rfl, wrote_append s s.biuWrite e hr (settled_biuWrite s)⟩

end Sys2Proof.Machine
end

