-- ==== Sys2Proof/Laws/Cache.lean ====
section
/-! SUPPORT. The data cache in agreement with memory (20_memory.md R97): what a look-up, a refill and a store do to it,
what a cached load answers. -/

namespace Sys2Proof.Machine

/-- A listed value is what a read finds, in a table in any order. -/
theorem tableGet_set_some {α : Type} (k : Nat) (x : α) (t : List (Nat × α)) :
    tableGet k (tableSet k (some x) t) = some x := by
  induction t with
  | nil => simp [tableSet, tableGet]
  | cons e t ih =>
    obtain ⟨j, y⟩ := e
    unfold tableSet
    split
    · simp [tableGet]
    · split
      · simp [tableGet]
      · rename_i h
        simp [tableGet, h, ih]

/-! ### Index and tag -/

theorem dcacheIndex_toNat (a : Word) : dcacheIndex a = a.toNat / 4 % 256 := by
  simp [dcacheIndex, Nat.shiftRight_eq_div_pow]

theorem icacheIndex_toNat (a : Word) : icacheIndex a = a.toNat / 4 % 1024 := by
  simp [icacheIndex, Nat.shiftRight_eq_div_pow]

theorem dcacheTag_toNat (a : Word) : (dcacheTag a).toNat = a.toNat / 1024 := by
  have := a.isLt
  simp only [dcacheTag, BitVec.extractLsb'_toNat, Nat.shiftRight_eq_div_pow]
  omega

theorem icacheTag_toNat (a : Word) : (icacheTag a).toNat = a.toNat / 4096 := by
  have := a.isLt
  simp only [icacheTag, BitVec.extractLsb'_toNat, Nat.shiftRight_eq_div_pow]
  omega

theorem line_toNat (tag : BitVec 22) (k : Nat) :
    (tag ++ BitVec.ofNat 8 k ++ 0#2 : BitVec 32).toNat = 1024 * tag.toNat + 4 * (k % 256) := by
  have h8 : (BitVec.ofNat 8 k).toNat = k % 256 := by simp
  have h1 : (tag ++ BitVec.ofNat 8 k : BitVec 30).toNat = 256 * tag.toNat + k % 256 := by
    rw [BitVec.toNat_append, h8, Nat.shiftLeft_eq]
    rw [← Nat.shiftLeft_eq, ← Nat.shiftLeft_add_eq_or_of_lt (by omega : k % 256 < 2 ^ 8), Nat.shiftLeft_eq]
    omega
  have h2 : (tag ++ BitVec.ofNat 8 k ++ 0#2 : BitVec 32).toNat = (tag ++ BitVec.ofNat 8 k : BitVec 30).toNat <<< 2 := by
    rw [BitVec.toNat_append]
    simp
  rw [h2, h1, Nat.shiftLeft_eq]
  omega

/-- Tag and index of an address name its word. -/
theorem line_of (a : Word) : (dcacheTag a ++ BitVec.ofNat 8 (dcacheIndex a) ++ 0#2 : BitVec 32) = wordAddr a := by
  apply BitVec.eq_of_toNat_eq
  rw [line_toNat, dcacheTag_toNat, dcacheIndex_toNat, wordAddr_toNat]
  have := a.isLt
  omega

/-- Another index names another word. -/
theorem line_ne {tag : BitVec 22} {k : Nat} {a : Word} (hk : k < 256) (h : k ≠ dcacheIndex a) :
    (tag ++ BitVec.ofNat 8 k ++ 0#2 : BitVec 32) ≠ wordAddr a := by
  intro he
  have h1 := congrArg BitVec.toNat he
  rw [line_toNat, wordAddr_toNat] at h1
  rw [dcacheIndex_toNat] at h
  have := a.isLt
  omega

theorem line_eq_tag {tag : BitVec 22} {a : Word}
    (h : (tag ++ BitVec.ofNat 8 (dcacheIndex a) ++ 0#2 : BitVec 32) = wordAddr a) : tag = dcacheTag a := by
  apply BitVec.eq_of_toNat_eq
  have h1 := congrArg BitVec.toNat h
  rw [line_toNat, dcacheIndex_toNat, wordAddr_toNat] at h1
  rw [dcacheTag_toNat]
  have := a.isLt
  omega

/-! ### Agreement with memory -/

/-- Agreement is a matter of the data cache and of memory as the program sees it. -/
theorem Coherent.of_eq {s t : State} (h : Coherent s) (hd : t.dcache = s.dcache) (ho : t.mode = s.mode)
    (hp : t.platform = s.platform) (hb : ∀ a, t.seenByte a = s.seenByte a) : Coherent t := by
  refine ⟨by rw [hd]; exact h.known, fun k tag d he hk => ?_⟩
  rw [hd] at he
  rw [seenWord_of_bytes ho hb]
  refine h.agrees k tag d he ?_
  unfold State.backed State.answer at hk ⊢
  rwa [hp] at hk

theorem seenByte_dcache (s : State) (d : DCache) (a : Word) : ({ s with dcache := d } : State).seenByte a = s.seenByte a :=
  seenByte_of_eq (s := s) (t := { s with dcache := d }) rfl rfl rfl rfl a

theorem seenWord_dcache (s : State) (d : DCache) (a : Word) : ({ s with dcache := d } : State).seenWord a = s.seenWord a :=
  seenWord_of_bytes (s := s) (t := { s with dcache := d }) rfl (seenByte_dcache s d) a

theorem Coherent.set {s : State} (h : Coherent s) (a : Word) (valid : Bool) (tag : BitVec 22) (d : Word)
    (hd : valid = true → tag = dcacheTag a ∧ (s.backed a = true → d = s.seenWord (wordAddr a))) :
    Coherent { s with dcache := tableSet (dcacheIndex a) (some (.line valid tag d)) s.dcache } := by
  refine ⟨fun e he => ?_, fun k tg w he hb => ?_⟩
  · rcases mem_tableSet he with he | ⟨x, hx, rfl⟩
    · exact h.known e he
    · cases hx
      simp
  · rw [seenWord_dcache]
    have hb : s.backed (tg ++ BitVec.ofNat 8 k ++ 0#2) = true := hb
    by_cases hk : k = dcacheIndex a
    · subst hk
      have he' := (tableGet_set_some (dcacheIndex a) (CacheEntry.line valid tag d) s.dcache).symm.trans he
      simp only [Option.some.injEq, CacheEntry.line.injEq] at he'
      obtain ⟨rfl, rfl, rfl⟩ := he'
      obtain ⟨rfl, h2⟩ := hd rfl
      rw [line_of] at hb ⊢
      rw [backed_wordAddr] at hb
      exact h2 hb
    · have he' := (tableGet_set_ne (some (CacheEntry.line valid tag d)) s.dcache hk).symm.trans he
      exact h.agrees k tg w he' hb

theorem coherent_fill {s : State} (h : Coherent s) (a d : Word) (hd : s.backed a = true → d = s.seenWord (wordAddr a)) :
    Coherent (s.fill .data a d) := by
  unfold State.fill
  split
  · exact h
  · exact h.set a true (dcacheTag a) d fun _ => ⟨rfl, hd⟩

/-- What a hit in the data cache answers is what memory, if there is any, holds. -/
theorem look_coherent {s : State} (h : Coherent s) (a : Word) :
    s.look .data a = .miss ∨ ∃ d, s.look .data a = .hit d ∧ (s.backed a = true → d = s.seenWord (wordAddr a)) := by
  unfold State.look
  split
  · exact .inl rfl
  · simp only
    unfold lookEntry
    cases he : tableGet (dcacheIndex a) s.dcache with
    | none => exact .inl rfl
    | some e =>
      cases e with
      | unknown => exact absurd rfl (h.known _ (mem_of_tableGet he))
      | line valid tag d =>
        simp only
        split
        · rename_i hc
          simp only [Bool.and_eq_true, beq_iff_eq] at hc
          obtain ⟨rfl, rfl⟩ := hc
          refine .inr ⟨d, rfl, fun hb => ?_⟩
          have := h.agrees _ _ _ he
          rw [line_of] at this
          exact this (by rw [backed_wordAddr]; exact hb)
        · exact .inl rfl

/-! ### Refill -/

/-- `t` is `s` after a look-up or refill of an array: no byte that the program sees changed, and the buffer gained no
entry. -/
structure CacheOnly (s t : State) : Prop where
  rest : t = { s with
    mem := t.mem, writeBuffer := t.writeBuffer, trace := t.trace, dcache := t.dcache, icache := t.icache,
    freeIndex := t.freeIndex }
  seen : ∀ a, t.seenByte a = s.seenByte a
  buffer : ∀ e ∈ t.writeBuffer, e ∈ s.writeBuffer

theorem CacheOnly.mode {s t : State} (h : CacheOnly s t) : t.mode = s.mode := by rw [h.rest]

theorem CacheOnly.backed {s t : State} (h : CacheOnly s t) (a : Word) : t.backed a = s.backed a := by
  rw [h.rest]
  rfl

theorem CacheOnly.ready {s t : State} (h : CacheOnly s t) (hs : s.BusReady) : t.BusReady :=
  ready_of_eq hs (by rw [h.rest]) (by rw [h.rest]) h.buffer (by rw [h.rest])

theorem CacheOnly.clearing {s t : State} (h : CacheOnly s t) (side : CacheSide) : t.clearing side = s.clearing side := by
  rw [h.rest]
  cases side <;> rfl

theorem CacheOnly.word {s t : State} (h : CacheOnly s t) (a : Word) : t.seenWord a = s.seenWord a :=
  seenWord_of_bytes h.mode h.seen a

theorem BusOnly.cacheOnly {s t : State} (h : BusOnly s t) : CacheOnly s t :=
  ⟨by
    have := h.rest
    rw [this], h.seen, h.buffer⟩

theorem cacheOnly_refl (s : State) : CacheOnly s s := ⟨rfl, fun _ => rfl, fun _ h => h⟩

theorem cacheOnly_fill {s t : State} (h : CacheOnly s t) (side : CacheSide) (a d : Word) :
    CacheOnly s (t.fill side a d) := by
  unfold State.fill
  split
  · exact h
  · cases side
    · exact ⟨by unfold State.putLine; rw [h.rest], fun b =>
        (seenByte_of_eq (s := t) (t := t.putLine .instr a true d) rfl rfl rfl rfl b).trans (h.seen b), h.buffer⟩
    · exact ⟨by unfold State.putLine; rw [h.rest], fun b =>
        (seenByte_of_eq (s := t) (t := t.putLine .data a true d) rfl rfl rfl rfl b).trans (h.seen b), h.buffer⟩

/-- Filling the instruction cache leaves the data cache, and the other way round. -/
theorem fill_icache (s : State) (a d : Word) : (s.fill .data a d).icache = s.icache := by
  unfold State.fill
  split <;> rfl

theorem fill_dcache (s : State) (a d : Word) : (s.fill .instr a d).dcache = s.dcache := by
  unfold State.fill
  split <;> rfl

/-- The four words of the aligned block of an address filled into an array. -/
def State.fillBlock (s : State) (side : CacheSide) (a : Word) (w : Nat → Word) : State :=
  (((s.fill side (blockWord a 0) (w 0)).fill side (blockWord a 1) (w 1)).fill side (blockWord a 2) (w 2)).fill side
    (blockWord a 3) (w 3)

theorem block_word (a : Word) : blockWord a (a.extractLsb' 2 2).toNat = wordAddr a := by
  have hk := (a.extractLsb' 2 2).isLt
  apply BitVec.eq_of_toNat_eq
  rw [block_word_toNat a _ hk, wordAddr_toNat]
  simp only [BitVec.extractLsb'_toNat, Nat.shiftRight_eq_div_pow]
  omega

theorem vector4_get (f : Nat → Word) (k : Nat) (hk : k < 4) : #v[f 0, f 1, f 2, f 3][k] = f k := by
  interval_cases k <;> rfl

/-- Something answers what a refill of an array for an address asks for: its word, or the first word of its block. -/
def State.refillAnswered (s : State) (side : CacheSide) (a : Word) : Prop :=
  s.answer (if s.blockRefill side then blockAddr a else a) ≠ .absent

/-- All that a refill can do (R77, R95, R105, R329): it waits for a held bus; it is stuck, which a ready BIU is only where
nothing answers; or it answers the word of the address, filled in alone or with the other three of its block, and of these
words those with memory behind them are the words that the program sees. -/
theorem refill_cases (s : State) (sized : Bool) (side : CacheSide) (a : Word) :
    (s.inputs.hold = true ∧ s.refill sized side a = .stall true) ∨
    (∃ t, s.refill sized side a = .stuck t ∧ StuckIn s t ∧ (s.BusReady → ¬ s.refillAnswered side a)) ∨
    ∃ (v : Word) (w : Nat → Word) (u : State), BusOnly s u ∧ s.refill sized side a = .done v
        (if s.blockRefill side then u.fillBlock side a w else u.fill side a v) ∧
      (s.backed a = true → v = s.seenWord (wordAddr a)) ∧
      (∀ k < 4, s.backed (blockWord a k) = true → w k = s.seenWord (blockWord a k)) ∧
      ∃ cycles, u.trace = cycles ++ s.trace := by
  unfold State.refill State.refillAnswered
  by_cases hbk : s.blockRefill side = true
  · rw [if_pos hbk, if_pos hbk]
    rcases busReadBlock_cases s a side.refillType with ⟨hh, hu⟩ | ⟨t, hu, ht, hn⟩ | ⟨w, u, hu, hb, hw, hc⟩
    · exact .inl ⟨hh, by rw [hu]; rfl⟩
    · exact .inr (.inl ⟨t, by rw [hu]; rfl, ht, fun h hc => hc (hn h)⟩)
    · refine .inr (.inr ⟨w (a.extractLsb' 2 2).toNat, w, u, hb, ?_, fun hk => ?_, hw, hc⟩)
      · rw [hu, if_pos hbk]
        show Act.done _ _ = Act.done _ _
        congr 1
        exact vector4_get w _ (a.extractLsb' 2 2).isLt
      · have hwa := hw _ (a.extractLsb' 2 2).isLt
        rw [block_word, backed_wordAddr] at hwa
        exact hwa hk
  · rw [if_neg hbk, if_neg hbk]
    rcases busRead_cases s sized a side.refillType with ⟨hh, hu⟩ | ⟨t, hu, ht, hn⟩ | ⟨v, u, hu, hb, hv, c, hc⟩
    · exact .inl ⟨hh, by rw [hu]; rfl⟩
    · exact .inr (.inl ⟨t, by rw [hu]; rfl, ht, fun h hc => hc (hn h)⟩)
    · refine .inr (.inr ⟨v, fun k => s.seenWord (blockWord a k), u, hb, ?_, hv, fun _ _ _ => rfl,
        (readCycles s.mode sized a side.refillType).reverse ++ c, ?_⟩)
      · rw [hu, if_neg hbk]
        rfl
      · rw [hc, List.append_assoc]

/-- What a refill by a ready BIU answers and does (R95), where something answers. -/
theorem refill_spec {s : State} (sized : Bool) (side : CacheSide) (a : Word) (h : s.BusReady)
    (ha : s.refillAnswered side a) :
    ∃ (v : Word) (w : Nat → Word) (u : State), BusOnly s u ∧ s.refill sized side a = .done v
        (if s.blockRefill side then u.fillBlock side a w else u.fill side a v) ∧
      (s.backed a = true → v = s.seenWord (wordAddr a)) ∧
      ∀ k < 4, s.backed (blockWord a k) = true → w k = s.seenWord (blockWord a k) := by
  rcases refill_cases s sized side a with ⟨hh, -⟩ | ⟨t, -, -, ht⟩ | ⟨v, w, u, h1, h2, h3, h4, -⟩
  · rw [h.hold] at hh
    cases hh
  · exact absurd ha (ht h)
  · exact ⟨v, w, u, h1, h2, h3, h4⟩

/-! ### The entries that a refill fills -/

/-- The words of a block are those that a block refill fills. -/
theorem refillWord_block {pa a : Word} (hpa : wordAddr pa = pa) (h : refillWord true pa a) : ∃ k < 4, a = blockWord pa k := by
  have key : ∀ b : Word, b.extractLsb' 0 2 = 0#2 → b.extractLsb' 4 28 = pa.extractLsb' 4 28 →
      b = blockWord pa (b.extractLsb' 2 2).toNat := fun b h1 h2 => by
    have hw : wordAddr b = b := by
      apply BitVec.eq_of_toNat_eq
      have := congrArg BitVec.toNat h1
      simp only [BitVec.extractLsb'_toNat, Nat.shiftRight_zero, BitVec.toNat_ofNat] at this
      rw [wordAddr_toNat]
      omega
    have hb := block_word b
    rw [hw] at hb
    unfold blockWord blockAddr at hb ⊢
    rw [h2] at hb
    exact hb.symm
  rcases h with rfl | ⟨-, h1, h2⟩
  · exact ⟨_, (a.extractLsb' 2 2).isLt, (hpa.symm.trans (block_word a).symm)⟩
  · exact ⟨_, (a.extractLsb' 2 2).isLt, key a h1 h2⟩

theorem refillWord_blockWord (pa : Word) (k : Nat) (hk : k < 4) : refillWord true pa (blockWord pa k) := by
  refine .inr ⟨rfl, BitVec.eq_of_toNat_eq ?_, BitVec.eq_of_toNat_eq ?_⟩
  · simp only [BitVec.extractLsb'_toNat, block_word_toNat pa k hk, Nat.shiftRight_zero, BitVec.toNat_ofNat]
    omega
  · simp only [BitVec.extractLsb'_toNat, block_word_toNat pa k hk, Nat.shiftRight_eq_div_pow]
    omega

/-- One filled entry is what `Refilled` says of a refill of one word. -/
theorem refilled_one {n : Nat} (s : State) (index : Word → Nat) (tag : Word → BitVec n) {finds : Word → Word → Prop}
    {pa d : Word} (hd : s.backed pa = true → finds pa d) (old : List (Nat × CacheEntry n)) :
    Refilled s index tag (refillWord false pa) finds false old
      (tableSet (index pa) (some (.line true (tag pa) d)) old) := by
  refine ⟨(fun h => by cases h), fun _ a ha hb => ?_, fun k hk => tableGet_set_ne _ _ (hk pa (.inl rfl))⟩
  rcases ha with rfl | ⟨hc, -⟩
  · exact ⟨d, hd hb, tableGet_set_some ..⟩
  · cases hc

/-- Four filled entries are what `Refilled` says of a block refill. -/
theorem refilled_four {n : Nat} (s : State) (index : Word → Nat) (tag : Word → BitVec n) {finds : Word → Word → Prop}
    {pa : Word} (hpa : wordAddr pa = pa)
    (hinj : ∀ j < 4, ∀ k < 4, index (blockWord pa j) = index (blockWord pa k) → j = k) {w : Nat → Word}
    (hw : ∀ k < 4, s.backed (blockWord pa k) = true → finds (blockWord pa k) (w k))
    (old : List (Nat × CacheEntry n)) (set : List (Nat × CacheEntry n) → Nat → List (Nat × CacheEntry n))
    (hset : set = fun c k => tableSet (index (blockWord pa k)) (some (.line true (tag (blockWord pa k)) (w k))) c) :
    Refilled s index tag (refillWord true pa) finds false old (set (set (set (set old 0) 1) 2) 3) := by
  subst hset
  have ne : ∀ j < 4, ∀ k < 4, j ≠ k → index (blockWord pa j) ≠ index (blockWord pa k) :=
    fun j hj k hk hjk h => hjk (hinj j hj k hk h)
  refine ⟨(fun h => by cases h), fun _ a ha hb => ?_, fun k hk => ?_⟩
  · obtain ⟨k, hk, rfl⟩ := refillWord_block hpa ha
    refine ⟨w k, hw k hk hb, ?_⟩
    dsimp only
    interval_cases k
    · rw [tableGet_set_ne _ _ (ne 0 (by decide) 3 (by decide) (by decide)),
        tableGet_set_ne _ _ (ne 0 (by decide) 2 (by decide) (by decide)),
        tableGet_set_ne _ _ (ne 0 (by decide) 1 (by decide) (by decide)), tableGet_set_some]
    · rw [tableGet_set_ne _ _ (ne 1 (by decide) 3 (by decide) (by decide)),
        tableGet_set_ne _ _ (ne 1 (by decide) 2 (by decide) (by decide)), tableGet_set_some]
    · rw [tableGet_set_ne _ _ (ne 2 (by decide) 3 (by decide) (by decide)), tableGet_set_some]
    · rw [tableGet_set_some]
  · have hn : ∀ j < 4, k ≠ index (blockWord pa j) := fun j hj => hk _ (refillWord_blockWord pa j hj)
    dsimp only
    rw [tableGet_set_ne _ _ (hn 3 (by decide)), tableGet_set_ne _ _ (hn 2 (by decide)),
      tableGet_set_ne _ _ (hn 1 (by decide)), tableGet_set_ne _ _ (hn 0 (by decide))]

theorem refilled_dropped {n : Nat} (s : State) (index : Word → Nat) (tag : Word → BitVec n) (words : Word → Prop)
    (finds : Word → Word → Prop) (old : List (Nat × CacheEntry n)) : Refilled s index tag words finds true old old :=
  ⟨fun _ => rfl, (fun h => by cases h), fun _ _ => rfl⟩

/-- One word of a refill filled in again, with another word that the read may find, is a refill still. -/
theorem refilled_again {n : Nat} {s : State} {index : Word → Nat} {tag : Word → BitVec n} {words : Word → Prop}
    {finds : Word → Word → Prop} {old new : List (Nat × CacheEntry n)} (h : Refilled s index tag words finds false old new)
    {x d : Word} (hx : words x) (hinj : ∀ a, words a → index a = index x → a = x) (hd : finds x d) :
    Refilled s index tag words finds false old (tableSet (index x) (some (.line true (tag x) d)) new) := by
  refine ⟨fun h => (by cases h), fun hc a ha hb => ?_, fun k hk => ?_⟩
  · by_cases hax : a = x
    · exact ⟨d, hax ▸ hd, by rw [hax, tableGet_set_some]⟩
    · rw [tableGet_set_ne _ _ fun e => hax (hinj a ha e)]
      exact h.filled hc a ha hb
  · rw [tableGet_set_ne _ _ (hk x hx)]
    exact h.others k hk

theorem icacheIndex_block (pa : Word) (j : Nat) (hj : j < 4) (k : Nat) (hk : k < 4)
    (h : icacheIndex (blockWord pa j) = icacheIndex (blockWord pa k)) : j = k := by
  rw [icacheIndex_toNat, icacheIndex_toNat, block_word_toNat pa j hj, block_word_toNat pa k hk] at h
  omega

theorem dcacheIndex_block (pa : Word) (j : Nat) (hj : j < 4) (k : Nat) (hk : k < 4)
    (h : dcacheIndex (blockWord pa j) = dcacheIndex (blockWord pa k)) : j = k := by
  rw [dcacheIndex_toNat, dcacheIndex_toNat, block_word_toNat pa j hj, block_word_toNat pa k hk] at h
  omega

theorem fill_cleared {s : State} {side : CacheSide} (h : s.clearing side = true) (a d : Word) : s.fill side a d = s := by
  unfold State.fill
  rw [if_pos h]

theorem fill_put {s : State} {side : CacheSide} (h : s.clearing side = false) (a d : Word) :
    s.fill side a d = s.putLine side a true d := by
  unfold State.fill
  rw [if_neg (by simp [h])]

theorem fillBlock_cleared {s : State} {side : CacheSide} (h : s.clearing side = true) (a : Word) (w : Nat → Word) :
    s.fillBlock side a w = s := by
  unfold State.fillBlock
  simp only [fill_cleared h]

theorem fillBlock_put {s : State} {side : CacheSide} (h : s.clearing side = false) (a : Word) (w : Nat → Word) :
    s.fillBlock side a w =
      (((s.putLine side (blockWord a 0) true (w 0)).putLine side (blockWord a 1) true (w 1)).putLine side (blockWord a 2)
        true (w 2)).putLine side (blockWord a 3) true (w 3) := by
  have hp : ∀ (t : State) (b d : Word), (t.putLine side b true d).clearing side = t.clearing side := fun t b d => by
    cases side <;> rfl
  have h1 := (hp s (blockWord a 0) (w 0)).trans h
  have h2 := (hp _ (blockWord a 1) (w 1)).trans h1
  have h3 := (hp _ (blockWord a 2) (w 2)).trans h2
  unfold State.fillBlock
  rw [fill_put h, fill_put h1, fill_put h2, fill_put h3]

/-- What a refill of an aligned word, by a read that may find what memory holds, does to the instruction-cache array (R95,
R98). -/
theorem refilled_icache {s u : State} (finds : Word → Word → Prop) (hf : ∀ a, finds a (s.seenWord a)) (hb : BusOnly s u)
    {pa v : Word} (hpa : wordAddr pa = pa) {w : Nat → Word}
    (hv : s.backed pa = true → v = s.seenWord (wordAddr pa))
    (hw : ∀ k < 4, s.backed (blockWord pa k) = true → w k = s.seenWord (blockWord pa k)) :
    Refilled s icacheIndex icacheTag (refillWord s.mode.iblock pa) finds s.inputs.icclr s.icache
      (if s.mode.iblock then u.fillBlock .instr pa w else u.fill .instr pa v).icache := by
  have hi : u.icache = s.icache := by rw [hb.rest]
  have hc : u.clearing .instr = s.inputs.icclr := by rw [hb.rest]; rfl
  rw [hpa] at hv
  cases hcl : s.inputs.icclr
  · rw [hcl] at hc
    cases hbk : s.mode.iblock
    · rw [if_neg Bool.false_ne_true, fill_put hc, ← hi]
      exact refilled_one s icacheIndex icacheTag (fun hb => hv hb ▸ hf pa) u.icache
    · rw [if_pos rfl, fillBlock_put hc, ← hi]
      exact refilled_four s icacheIndex icacheTag hpa (icacheIndex_block pa) (fun k hk hb => hw k hk hb ▸ hf _) u.icache _ rfl
  · rw [hcl] at hc
    rw [fillBlock_cleared hc, fill_cleared hc, ite_self, hi]
    exact refilled_dropped ..

/-- What a refill of an aligned word does to the data cache (R95, R98). -/
theorem refilled_dcache {s u : State} (hb : BusOnly s u) {pa v : Word} (hpa : wordAddr pa = pa) {w : Nat → Word}
    (hv : s.backed pa = true → v = s.seenWord (wordAddr pa))
    (hw : ∀ k < 4, s.backed (blockWord pa k) = true → w k = s.seenWord (blockWord pa k)) :
    Refilled s dcacheIndex dcacheTag (refillWord s.mode.dblock pa) s.Finds s.inputs.dcclr s.dcache
      (if s.mode.dblock then u.fillBlock .data pa w else u.fill .data pa v).dcache := by
  have hi : u.dcache = s.dcache := by rw [hb.rest]
  have hc : u.clearing .data = s.inputs.dcclr := by rw [hb.rest]; rfl
  rw [hpa] at hv
  cases hcl : s.inputs.dcclr
  · rw [hcl] at hc
    cases hbk : s.mode.dblock
    · rw [if_neg Bool.false_ne_true, fill_put hc, ← hi]
      exact refilled_one s dcacheIndex dcacheTag hv u.dcache
    · rw [if_pos rfl, fillBlock_put hc, ← hi]
      exact refilled_four s dcacheIndex dcacheTag hpa (dcacheIndex_block pa) hw u.dcache _ rfl
  · rw [hcl] at hc
    rw [fillBlock_cleared hc, fill_cleared hc, ite_self, hi]
    exact refilled_dropped ..

/-! ### Cached loads -/

theorem coherent_fillBlock {s u : State} (h : Coherent u) (hu : CacheOnly s u) (a : Word) (w : Nat → Word)
    (hw : ∀ k < 4, s.backed (blockWord a k) = true → w k = s.seenWord (blockWord a k)) :
    Coherent (u.fillBlock .data a w) := by
  have step : ∀ {t : State}, Coherent t → CacheOnly s t → ∀ k < 4, Coherent (t.fill .data (blockWord a k) (w k)) :=
    fun ht hc k hk => coherent_fill ht _ _ fun hb => by
      rw [wordAddr_block a k hk, hc.word]
      exact hw k hk (by rwa [hc.backed] at hb)
  have c0 := cacheOnly_fill hu .data (blockWord a 0) (w 0)
  have c1 := cacheOnly_fill c0 .data (blockWord a 1) (w 1)
  have c2 := cacheOnly_fill c1 .data (blockWord a 2) (w 2)
  exact step (step (step (step h hu 0 (by decide)) c0 1 (by decide)) c1 2 (by decide)) c2 3 (by decide)

theorem cacheOnly_fillBlock {s u : State} (hu : CacheOnly s u) (side : CacheSide) (a : Word) (w : Nat → Word) :
    CacheOnly s (u.fillBlock side a w) :=
  cacheOnly_fill (cacheOnly_fill (cacheOnly_fill (cacheOnly_fill hu side _ _) side _ _) side _ _) side _ _

theorem fillBlock_icache (u : State) (a : Word) (w : Nat → Word) : (u.fillBlock .data a w).icache = u.icache := by
  unfold State.fillBlock
  rw [fill_icache, fill_icache, fill_icache, fill_icache]

theorem fillBlock_dcache (u : State) (a : Word) (w : Nat → Word) : (u.fillBlock .instr a w).dcache = u.dcache := by
  unfold State.fillBlock
  rw [fill_dcache, fill_dcache, fill_dcache, fill_dcache]

/-- A cached load through a data cache that agrees with memory answers what memory holds, and the cache still agrees
with it (R97). -/
theorem cacheLoad_coherent {s : State} (h : Coherent s) (sized : Bool) (a : Word) (hh : s.BusReady)
    (ha : s.refillAnswered .data a) :
    ∃ v t, s.cacheLoad sized .data a = .done v t ∧ CacheOnly s t ∧ t.icache = s.icache ∧ Coherent t ∧
      (s.backed a = true → v = s.seenWord (wordAddr a)) := by
  unfold State.cacheLoad State.cacheRead
  rcases look_coherent h a with hl | ⟨d, hl, hd⟩
  · rw [hl]
    obtain ⟨v, w, u, hb, hr, hv, hw⟩ := refill_spec sized .data a hh ha
    have hc : Coherent u := h.of_eq (by rw [hb.rest]) hb.mode hb.platform hb.seen
    have hi : u.icache = s.icache := by rw [hb.rest]
    refine ⟨v, _, hr, ?_⟩
    split
    · exact ⟨cacheOnly_fillBlock hb.cacheOnly _ _ _, (fillBlock_icache _ _ _).trans hi,
        coherent_fillBlock hc hb.cacheOnly a w hw, hv⟩
    · exact ⟨cacheOnly_fill hb.cacheOnly _ _ _, (fill_icache _ _ _).trans hi,
        coherent_fill hc a _ (by rw [hb.cacheOnly.word, hb.backed]; exact hv), hv⟩
  · rw [hl]
    exact ⟨d, s, rfl, cacheOnly_refl s, rfl, h, hd⟩

end Sys2Proof.Machine
end

