-- ==== Sys2Proof/Laws/Registers.lean ====
section
/-! SUPPORT. What a general register reads as after each operation, and what a source read and a use of CP0 can give. -/

namespace Sys2Proof.Machine

/-- r0 reads as zero in every state (R21). -/
@[simp] theorem readGpr_zero (s : State) : s.readGpr 0 = 0 := rfl

/-- A register read depends on the register file alone. -/
theorem readGpr_of_regs {s t : State} (h : t.regs = s.regs) (q : Reg) : t.readGpr q = s.readGpr q := by
  unfold State.readGpr
  rw [h]

/-- A register read after a register write. -/
theorem readGpr_setGpr (s : State) (r q : Reg) (v : Word) :
    (s.setGpr r v).readGpr q = if q = r ∧ r ≠ 0 then v else s.readGpr q := by
  unfold State.setGpr
  by_cases hr : r = 0
  · rw [if_pos hr, if_neg (fun h => h.2 hr)]
  · rw [if_neg hr]
    by_cases hqr : q = r
    · subst hqr
      rw [if_pos ⟨rfl, hr⟩]
      unfold State.readGpr
      rw [if_neg hr]
      exact Vector.getElem_set_self ..
    · rw [if_neg (fun h => hqr h.1)]
      unfold State.readGpr
      by_cases hq : q = 0
      · rw [if_pos hq, if_pos hq]
      · rw [if_neg hq, if_neg hq]
        exact Vector.getElem_set_ne r.isLt q.isLt fun h => hqr (BitVec.eq_of_toNat_eq h.symm)

@[simp] theorem readGpr_freshWord (s : State) (q : Reg) : s.freshWord.2.readGpr q = s.readGpr q := rfl

@[simp] theorem readGpr_readSrc (s : State) (r q : Reg) : (s.readSrc r).2.readGpr q = s.readGpr q :=
  readGpr_of_regs (readSrc_regs s r) q

@[simp] theorem readGpr_useCp0 {α : Type} [DecidableEq α] (s : State) (f : Cp0View → α) (q : Reg) :
    (s.useCp0 f).2.readGpr q = s.readGpr q :=
  readGpr_of_regs (useCp0_regs s f) q

@[simp] theorem readGpr_retire (s : State) (r : Retire) (q : Reg) : (s.retire r).readGpr q = s.readGpr q := rfl

@[simp] theorem readGpr_enter (s : State) (x : Exc) (q : Reg) : (s.enter x).readGpr q = s.readGpr q :=
  readGpr_of_regs (enter_regs s x) q

/-- A source read gives the register's content, or any value in the load delay (R30). -/
theorem reads_readSrc (s : State) (r : Reg) : s.Reads r (s.readSrc r).1 := by
  intro h
  unfold State.readSrc
  rw [if_neg h]

/-- The same in a state that differs from `s` in used free values only. -/
theorem reads_readSrc_of {s t : State} (hl : t.ldSlot = s.ldSlot) (hr : t.regs = s.regs) (r : Reg) :
    s.Reads r (t.readSrc r).1 := by
  intro h
  unfold State.readSrc
  rw [if_neg (by rwa [hl]), readGpr_of_regs hr]

/-- What a write leaves (R21, R411). -/
theorem writesOnly_setGpr (s : State) (r : Reg) (v : Word) : WritesOnly s (s.setGpr r v) r v := by
  refine ⟨fun h0 => ?_, rfl, fun q hq => ?_⟩
  · rw [readGpr_setGpr, if_pos ⟨rfl, h0⟩]
  · rw [readGpr_setGpr, if_neg (fun h => hq h.1)]

/-- A use of CP0 sees the old value or the new one, and the new one unless the preceding instruction was MTC0 (R255). -/
theorem useCp0_value {α : Type} [DecidableEq α] (s : State) (f : Cp0View → α) :
    (s.useCp0 f).1 = f s.cp0View ∨ ∃ old, s.afterMtc0 = some old ∧ (s.useCp0 f).1 = f old := by
  unfold State.useCp0
  split
  · exact .inl rfl
  · rename_i old h
    split
    · exact .inl rfl
    · by_cases hb : s.freshBit.1 = true
      · exact .inr ⟨old, h, by simp [hb]⟩
      · exact .inl (by simp [hb])

theorem useCp0_settled {α : Type} [DecidableEq α] (s : State) (f : Cp0View → α) (h : s.afterMtc0 = none) :
    s.useCp0 f = (f s.cp0View, s) := by
  unfold State.useCp0
  rw [h]

/-- The cells that tell how an instruction completed (R27, R33). -/
theorem completes_retire (s t : State) (r : Retire) (hpc : t.npc = s.npc) (hi : t.sinceMfhi = s.sinceMfhi)
    (lo : t.sinceMflo = s.sinceMflo) (st : t.sinceStore = s.sinceStore)
    (rs : t.recentStores = s.recentStores) : Completes s (t.retire r) r := by
  have count : ∀ (b : Bool) (n : Fin 3), ((countFrom b n : Fin 3) : Nat) = if b then 0 else min 2 ((n : Nat) + 1) := by
    decide
  refine ⟨?_, ?_, rfl, ?_, ?_, ?_, ?_, ?_, rfl, rfl, rfl⟩
  · simp [hpc]
  · simp [hpc]
  · cases h : r.load with
    | none => simp [h]
    | some q =>
      rw [retire_ldSlot, h, Option.filter_some]
      by_cases hq : q = 0
      · subst hq
        rfl
      · rw [if_pos (by simpa using hq), if_neg (fun e => hq (Option.some.inj e))]
  · simp [hi, count]
  · simp [lo, count]
  · simp [st, count]
  · rw [retire_recentStores, rs]

/-- A use of CP0 sees the values of one of the views that the step may see. -/
theorem useCp0_mayView {α : Type} [DecidableEq α] (s : State) (f : Cp0View → α) :
    ∃ v, s.MaySee v ∧ (s.useCp0 f).1 = f v := by
  rcases useCp0_value s f with h | ⟨old, ho, h⟩
  · exact ⟨_, .inl rfl, h⟩
  · exact ⟨_, .inr ho, h⟩

/-- States that differ in used free values only see the same CP0 values. -/
theorem maySee_of {s u : State} (h : u = { s with freeIndex := u.freeIndex }) (v : Cp0View) :
    u.MaySee v ↔ s.MaySee v := by
  rw [h]
  exact Iff.rfl

theorem useCp0_free {α : Type} [DecidableEq α] (s : State) (f : Cp0View → α) :
    (s.useCp0 f).2 = { s with freeIndex := (s.useCp0 f).2.freeIndex } := by
  unfold State.useCp0
  split
  · rfl
  · split <;> rfl

theorem readSrc_free (s : State) (r : Reg) : (s.readSrc r).2 = { s with freeIndex := (s.readSrc r).2.freeIndex } := by
  unfold State.readSrc
  split <;> rfl

end Sys2Proof.Machine
end

