-- ==== Sys2Proof/Laws/Access.lean ====
section
/-! SUPPORT. The data primitives of R90 to R93 by the bytes that the program sees: translation, the lanes of an address,
what `LoadWord` answers, what `StoreLanes` writes. -/

namespace Sys2Proof.Machine

/-! ### Translation (R71, R72) -/

theorem physical_toNat (va : Word) :
    (physical va).toNat = if 2 ^ 31 ≤ va.toNat ∧ va.toNat < 3 * 2 ^ 30 then va.toNat % 2 ^ 29 else va.toNat := by
  have hlt := va.isLt
  have htop : (va.extractLsb' 30 2).toNat = va.toNat / 2 ^ 30 := by
    simp only [BitVec.extractLsb'_toNat, Nat.shiftRight_eq_div_pow]
    omega
  have hmask : (va &&& 0x1FFFFFFF : Word).toNat = va.toNat % 2 ^ 29 := by
    rw [BitVec.toNat_and]
    exact Nat.and_two_pow_sub_one_eq_mod va.toNat 29
  unfold physical
  by_cases h : va.extractLsb' 30 2 = 0b10#2
  · rw [if_pos h, hmask, if_pos]
    have := congrArg BitVec.toNat h
    rw [htop] at this
    simp only [BitVec.toNat_ofNat] at this
    omega
  · rw [if_neg h, if_neg]
    intro hc
    apply h
    apply BitVec.eq_of_toNat_eq
    rw [htop]
    simp only [BitVec.toNat_ofNat]
    omega

/-- An address that the mode may use translates to its physical address, uncached in kseg1. -/
theorem translate_ok (user : Bool) (va : Word) (h : (user && va.getLsbD 31) = false) :
    translate user va = some (physical va, inKseg1 va) := by
  have h3 : (va.extractLsb' 29 3).toNat = va.toNat / 2 ^ 29 := by
    have := va.isLt
    simp only [BitVec.extractLsb'_toNat, Nat.shiftRight_eq_div_pow]
    omega
  have hz : (0#3 ++ va.extractLsb' 0 29 : BitVec 32).toNat = va.toNat % 2 ^ 29 := by
    rw [BitVec.toNat_append]
    simp [BitVec.extractLsb'_toNat]
  have hk : inKseg1 va = decide (va.toNat / 2 ^ 29 = 5) := by
    unfold inKseg1
    rw [← h3]
    by_cases hc : va.extractLsb' 29 3 = 0b101#3
    · rw [hc]
      rfl
    · rw [beq_eq_false_iff_ne.2 hc, eq_comm, decide_eq_false_iff_not]
      exact fun e => hc (BitVec.eq_of_toNat_eq (by simpa using e))
  have hp := physical_toNat va
  have := va.isLt
  unfold translate
  rw [h, if_neg Bool.false_ne_true, h3]
  split
  · rename_i e
    rw [show physical va = 0#3 ++ va.extractLsb' 0 29 from
      BitVec.eq_of_toNat_eq (by rw [hp, hz, if_pos (by omega)]), hk, decide_eq_false (by omega)]
  · rename_i e
    rw [show physical va = 0#3 ++ va.extractLsb' 0 29 from
      BitVec.eq_of_toNat_eq (by rw [hp, hz, if_pos (by omega)]), hk, decide_eq_true (by omega)]
  · rename_i h4 h5
    change ¬ _ = 4 at h4
    change ¬ _ = 5 at h5
    rw [show physical va = va from BitVec.eq_of_toNat_eq (by rw [hp, if_neg (by omega)]), hk,
      decide_eq_false (by omega)]

theorem translate_none (va : Word) (h : va.getLsbD 31 = true) : translate true va = none := by
  unfold translate
  rw [h]
  rfl

/-- Translation keeps the place in the page and so the low bits. -/
theorem physical_mod (va : Word) : (physical va).toNat % 4 = va.toNat % 4 := by
  rw [physical_toNat]
  split <;> omega

/-! ### Lanes and bytes (R82) -/

/-- Lane `i` of a word is the byte at its offset. -/
theorem laneByte_seenWord (s : State) (a : Word) (i : Nat) (h : i < 4) :
    laneByte (s.seenWord (wordAddr a)) i = s.seenByte (wordAddr a + BitVec.ofNat 32 (laneOf s.mode.bigEndianMem i)) := by
  rw [← wordImage_settled, laneByte_wordImage _ _ _ _ h, ← wordAddr_add_toNat a _ (laneOf_lt _ _ h)]
  rfl

/-- The byte at an address is the lane of its word that its low bits name. -/
theorem seenByte_lane (s : State) (a : Word) :
    s.seenByte a = laneByte (s.seenWord (wordAddr a)) (laneOf s.mode.bigEndianMem (a.toNat % 4)) := by
  have hm : a.toNat % 4 < 4 := Nat.mod_lt _ (by decide)
  rw [laneByte_seenWord _ _ _ (laneOf_lt _ _ hm), laneOf_laneOf _ _ hm]
  congr 1
  apply BitVec.eq_of_toNat_eq
  rw [wordAddr_add_toNat a _ hm, wordAddr_toNat]
  omega

theorem low_append (a : Word) : a = (a.extractLsb' 2 30 ++ a.extractLsb' 0 2 : BitVec 32) := by
  rw [BitVec.extractLsb'_append_extractLsb'_eq_extractLsb' (by decide)]
  simp

theorem append_low_toNat (h : BitVec 30) (l : BitVec 2) : (h ++ l : BitVec 32).toNat = 4 * h.toNat + l.toNat := by
  have := l.isLt
  rw [BitVec.toNat_append, ← Nat.shiftLeft_add_eq_or_of_lt l.isLt, Nat.shiftLeft_eq]
  omega

theorem high_toNat (a : Word) : (a.extractLsb' 2 30).toNat = a.toNat / 4 := by
  have := a.isLt
  simp only [BitVec.extractLsb'_toNat, Nat.shiftRight_eq_div_pow]
  omega

theorem low_toNat (a : Word) : (a.extractLsb' 0 2).toNat = a.toNat % 4 := by
  simp only [BitVec.extractLsb'_toNat, Nat.shiftRight_zero]

theorem xor_low_toNat (a : Word) (m : BitVec 2) :
    (a ^^^ (0#30 ++ m : BitVec 32)).toNat = 4 * (a.toNat / 4) + (a.extractLsb' 0 2 ^^^ m).toNat := by
  have h : a ^^^ (0#30 ++ m : BitVec 32) = (a.extractLsb' 2 30 ++ (a.extractLsb' 0 2 ^^^ m) : BitVec 32) := by
    have h1 := BitVec.xor_append (x₁ := a.extractLsb' 2 30) (y₁ := a.extractLsb' 0 2) (x₂ := 0#30) (y₂ := m)
    have h2 : (a.extractLsb' 2 30 ++ a.extractLsb' 0 2 : BitVec 32) ^^^ (0#30 ++ m : BitVec 32) =
        (a.extractLsb' 2 30 ++ (a.extractLsb' 0 2 ^^^ m) : BitVec 32) := by
      rw [h1, BitVec.xor_zero]
    rw [← low_append a] at h2
    exact h2
  rw [h, append_low_toNat, high_toNat]

/-- The low two bits after an inversion. -/
theorem low_xor_toNat (l : BitVec 2) : (l ^^^ 3#2).toNat = 3 - l.toNat ∧ (l ^^^ 2#2).toNat = (l.toNat + 2) % 4 := by
  revert l
  decide

theorem xor3_toNat (a : Word) : (a ^^^ 3).toNat = 4 * (a.toNat / 4) + (3 - a.toNat % 4) := by
  have h := xor_low_toNat a 3#2
  rw [(low_xor_toNat _).1, low_toNat] at h
  exact h

theorem xor2_toNat (a : Word) : (a ^^^ 2).toNat = 4 * (a.toNat / 4) + (a.toNat % 4 + 2) % 4 := by
  have h := xor_low_toNat a 2#2
  rw [(low_xor_toNat _).2, low_toNat] at h
  exact h

/-- The lane of a byte: the low address bits, counted from the other end in big-endian order (R90). -/
theorem byteLane_eq (big : Bool) (va : Word) : byteLane big va = if big then 3 - va.toNat % 4 else va.toNat % 4 := by
  unfold byteLane
  cases big
  · simp
  · have h := (low_xor_toNat (va.extractLsb' 0 2)).1
    rw [low_toNat] at h
    exact h

theorem halfLane_eq (big : Bool) (va : Word) (h : va.getLsbD 0 = false) :
    halfLane big va = if big then 2 - va.toNat % 4 else va.toNat % 4 := by
  have hm : va.toNat % 2 = 0 := by
    have := BitVec.getLsbD_eq_getElem (x := va) (i := 0) (by decide)
    rw [h] at this
    have h2 : va.toNat.testBit 0 = false := h
    simpa [Nat.testBit_zero] using h2
  unfold halfLane
  cases big
  · simp
  · have h := (low_xor_toNat (va.extractLsb' 0 2)).2
    rw [low_toNat] at h
    simp only [if_true]
    refine h.trans ?_
    omega

/-- The byte order an instruction sees (R79). -/
theorem bigEndianCPU_eq (s : State) : s.bigEndianCPU = (s.mode.bigEndianMem ^^ s.reversed) := rfl

/-- A byte reference touches the lane that `byteLane` names (R80). -/
theorem touched_byte_lane (s : State) (va : Word) :
    wordAddr (s.touched .byte (physical va)) = wordAddr (physical va) ∧
      laneOf s.mode.bigEndianMem ((s.touched .byte (physical va)).toNat % 4) = byteLane s.bigEndianCPU va := by
  rw [byteLane_eq, bigEndianCPU_eq, ← physical_mod va]
  generalize physical va = pa
  have hx := xor3_toNat pa
  have hp := pa.isLt
  unfold State.touched
  cases hr : s.reversed <;> cases hb : s.mode.bigEndianMem <;>
    refine ⟨BitVec.eq_of_toNat_eq ?_, ?_⟩ <;> simp only [wordAddr_toNat, laneOf, if_true, Bool.xor_false, Bool.xor_true,
    Bool.not_true, Bool.not_false, Bool.false_eq_true, if_false] <;> omega

/-- A halfword reference touches the two lanes from `halfLane` up (R80). -/
theorem touched_half_lane (s : State) (va : Word) (h : va.getLsbD 0 = false) :
    wordAddr (s.touched .half (physical va)) = wordAddr (physical va) ∧
      (s.touched .half (physical va)).toNat % 4 =
        (if s.mode.bigEndianMem then 2 - halfLane s.bigEndianCPU va else halfLane s.bigEndianCPU va) := by
  have hm : va.toNat % 2 = 0 := by
    have h2 : va.toNat.testBit 0 = false := h
    simpa [Nat.testBit_zero] using h2
  rw [halfLane_eq _ _ h, bigEndianCPU_eq, ← physical_mod va]
  have hp2 : (physical va).toNat % 2 = 0 := by
    have := physical_mod va
    omega
  generalize physical va = pa at *
  have hx := xor2_toNat pa
  have hp := pa.isLt
  unfold State.touched
  cases hr : s.reversed <;> cases hb : s.mode.bigEndianMem <;>
    refine ⟨BitVec.eq_of_toNat_eq ?_, ?_⟩ <;> simp only [wordAddr_toNat, if_true, Bool.xor_false, Bool.xor_true,
    Bool.not_true, Bool.not_false, Bool.false_eq_true, if_false] <;> omega

/-! ### Loads -/

/-- Where a read of an address is answered, so is the refill of its word. -/
theorem refillAnswered_of {s : State} {va : Word} (side : CacheSide) (h : s.Readable (s.blockRefill side) va)
    (hk : inKseg1 va = false) : s.refillAnswered side (wordAddr (physical va)) := by
  have hb : blockAddr (wordAddr (physical va)) = blockAddr (physical va) := by
    apply BitVec.eq_of_toNat_eq
    rw [blockAddr_toNat, blockAddr_toNat, wordAddr_toNat]
    omega
  unfold State.refillAnswered
  split
  · rw [hb]
    exact h.block ‹_› hk
  · rw [answer_wordAddr]
    exact not_absent_of_backed h.backed

/-- What `LoadWord` answers (R92) where the program sees memory: the word of the address, with no byte of memory and no
register changed, the data cache still in agreement if it was. -/
theorem loadWord_spec {s : State} (va : Word) (length : BitVec 2) (hm : s.mayAccess va = true) (hi : s.sr.isc = false)
    (hv : s.SeesMemory va) (hh : s.Readable s.mode.dblock va) :
    ∃ t, s.loadWord va length = .done (s.seenWord (wordAddr (physical va))) t ∧ CacheOnly s t ∧ t.icache = s.icache ∧
      (Coherent s → Coherent t) := by
  have ht := translate_ok s.sr.kuc va (by simpa only [State.mayAccess, Bool.not_eq_true'] using hm)
  unfold State.loadWord
  rw [ht]
  simp only [hi, Bool.false_eq_true, if_false]
  have hb : s.backed (wordAddr (physical va)) = true := by rw [backed_wordAddr]; exact hh.backed
  by_cases hk : inKseg1 va = true
  · rw [if_pos hk]
    obtain ⟨w, t, h1, h2, h3⟩ := busRead_spec s.inputs.dataSizrq (wordAddr (physical va)) (.uncached length) hh.ready
      (not_absent_of_backed hb)
    rw [h3 hb, wordAddr_wordAddr] at h1
    exact ⟨t, h1, h2.cacheOnly, by rw [h2.rest], fun hc => hc.of_eq (by rw [h2.rest]) h2.mode h2.platform h2.seen⟩
  · rw [if_neg hk]
    obtain ⟨hc, hs⟩ := hv.resolve_left hk
    have hd : s.dataSide = .data := by
      unfold State.dataSide
      rw [hs]
      rfl
    rw [hd]
    obtain ⟨w, t, h1, h2, h3, h4, h5⟩ := cacheLoad_coherent hc s.inputs.dataSizrq (wordAddr (physical va)) hh.ready
      (refillAnswered_of .data hh (by simpa using hk))
    rw [h5 hb, wordAddr_wordAddr] at h1
    exact ⟨t, h1, h2, h3, fun _ => h4⟩

/-! ### Stores -/

theorem rising_settled {s : State} (h : s.mem.wf) : tableRising s.settled := performed_rising _ _ _ _ h.1

/-- The bytes that a store of lanes leaves in memory as the program sees it (R77, R93). -/
theorem Wrote.byte {s t : State} {p : Word} {mask : BitVec 4} {w : Word} (h : Wrote s t p mask w)
    (hm : s.mem.wf) (a : Word) :
    t.seenByte a =
      if wordAddr a = wordAddr p ∧ s.answer a = .memory ∧
          mask.getLsbD (laneOf s.mode.bigEndianMem (a.toNat % 4)) = true then
        laneByte w (laneOf s.mode.bigEndianMem (a.toNat % 4))
      else s.seenByte a := by
  have hw : wordAddr a = wordAddr p ↔ (wordAddr p).toNat ≤ a.toNat ∧ a.toNat < (wordAddr p).toNat + 4 := by
    constructor
    · intro h
      rw [← h, wordAddr_toNat]
      omega
    · intro h
      apply BitVec.eq_of_toNat_eq
      rw [wordAddr_toNat] at *
      rw [wordAddr_toNat]
      omega
  unfold State.seenByte
  rw [h.mem]
  by_cases ha : s.answer p = .memory
  · rw [if_pos ha, read_writeLanes _ _ _ _ _ _ (rising_settled hm)]
    by_cases hc : wordAddr a = wordAddr p
    · have hs : a.toNat - (wordAddr p).toNat = a.toNat % 4 := by
        rw [← hc, wordAddr_toNat]
        omega
      have haa : s.answer a = .memory := (answer_of_word hc).trans ha
      rw [hs]
      by_cases hk : mask.getLsbD (laneOf s.mode.bigEndianMem (a.toNat % 4)) = true
      · rw [if_pos ⟨(hw.1 hc).1, (hw.1 hc).2, hk⟩, if_pos ⟨hc, haa, hk⟩]
      · rw [if_neg (fun h => hk h.2.2), if_neg (fun h => hk h.2.2)]
    · rw [if_neg (fun h => hc (hw.2 ⟨h.1, h.2.1⟩)), if_neg (fun h => hc h.1)]
  · rw [if_neg ha, if_neg (fun h => ha ((answer_of_word h.1).symm.trans h.2.1))]

theorem laneByte_mergeLanes (old w : Word) (m : BitVec 4) (i : Nat) (hi : i < 4) :
    laneByte (mergeLanes old m w) i = if m.getLsbD i then laneByte w i else laneByte old i := by
  unfold mergeLanes
  rw [laneByte_append _ _ _ _ i hi]
  interval_cases i <;> rfl

theorem shown_word (pa : Word) (l : BitVec 2) : wordAddr (pa.extractLsb' 2 30 ++ l) = wordAddr pa := by
  apply BitVec.eq_of_toNat_eq
  have := l.isLt
  rw [wordAddr_toNat, wordAddr_toNat, append_low_toNat, high_toNat]
  omega

theorem shown_bit1 (pa : Word) (l : BitVec 2) : (pa.extractLsb' 2 30 ++ l : BitVec 32).getLsbD 1 = l.getLsbD 1 := by
  rw [BitVec.getLsbD_append]
  rfl

/-- Whatever the bus width, the cycles of a store carry all of its lanes. -/
theorem busMask_shown (p : ModePins) (pa : Word) (mask : BitVec 4) (hm : storeMask mask = true) (d : Word) :
    busMask p { addr := pa.extractLsb' 2 30 ++ lowestOffset p.bigEndianMem mask, mask := mask, data := d } = mask := by
  unfold busMask
  simp only [shown_bit1]
  generalize p.sbussiz = x
  generalize p.bigEndianMem = y
  revert x y mask
  decide

/-- A store that the data cache widened to the word carries at least its own lanes. -/
theorem busMask_merged (p : ModePins) (pa : Word) (mask : BitVec 4) (hm : storeMask mask = true) (d : Word) :
    ∀ i < 4, mask.getLsbD i = true → (busMask p
      { addr := pa.extractLsb' 2 30 ++ lowestOffset p.bigEndianMem mask, mask := 0b1111, data := d }).getLsbD i = true := by
  unfold busMask
  simp only [shown_bit1]
  generalize p.sbussiz = x
  generalize p.bigEndianMem = y
  revert x y mask
  decide

/-- `t` is `s` after a store: memory, write buffer, bus and data cache may differ. -/
def StoredTo (s t : State) : Prop :=
  t = { s with mem := t.mem, writeBuffer := t.writeBuffer, trace := t.trace, dcache := t.dcache }

/-- What the data cache makes of a store's lanes where it agrees with memory (R96): the same lanes, or the whole word
with the lanes merged into what memory, if there is any, holds. -/
theorem dcacheStore_coherent {s : State} (hc : Coherent s) (hsw : s.sr.swc = false) (a : Word) (mask : BitVec 4) (w : Word) :
    ((s.dcacheStore (wordAddr a) mask w).1 = (mask, w) ∨ ∃ old, (s.backed a = true → old = s.seenWord (wordAddr a)) ∧
      (s.dcacheStore (wordAddr a) mask w).1 = (0b1111, mergeLanes old mask w)) ∧
    (s.dcacheStore (wordAddr a) mask w).2 = { s with dcache := (s.dcacheStore (wordAddr a) mask w).2.dcache } := by
  have hd : s.dataSide = .data := by
    unfold State.dataSide
    rw [hsw]
    rfl
  unfold State.dcacheStore
  rw [hd]
  dsimp only
  by_cases h15 : mask = 0b1111
  · rw [if_pos h15]
    exact ⟨.inl rfl, rfl⟩
  · rw [if_neg h15]
    by_cases hp : s.mode.stpart = true
    · rw [if_pos hp]
      rcases look_coherent hc (wordAddr a) with hl | ⟨d, hl, hd⟩
      · rw [hl]
        exact ⟨.inl rfl, rfl⟩
      · rw [wordAddr_wordAddr, backed_wordAddr] at hd
        rw [hl]
        exact ⟨.inr ⟨d, hd, rfl⟩, rfl⟩
    · rw [if_neg hp]
      exact ⟨.inl rfl, rfl⟩

/-- What `StoreLanes` does (R93) where the program sees memory: the bytes of its lanes, and no others, are those of the
word stored, where ordinary memory answers (R77). -/
theorem storeLanes_spec {s : State} (va : Word) (mask : BitVec 4) (w : Word) (hma : s.mayAccess va = true)
    (hi : s.sr.isc = false) (hv : s.SeesMemory va) (hm : s.mem.wf) (hh : s.HasRoom) (hs : storeMask mask = true) :
    ∃ t, s.storeLanes va mask w = .done () t ∧ StoredTo s t ∧ ∀ a, t.seenByte a =
      if wordAddr a = wordAddr (physical va) ∧ s.answer a = .memory ∧
          mask.getLsbD (laneOf s.mode.bigEndianMem (a.toNat % 4)) = true then
        laneByte w (laneOf s.mode.bigEndianMem (a.toNat % 4))
      else s.seenByte a := by
  have ht := translate_ok s.sr.kuc va (by simpa only [State.mayAccess, Bool.not_eq_true'] using hma)
  unfold State.storeLanes
  rw [ht]
  simp only [hi, Bool.false_eq_true, if_false]
  by_cases hk : inKseg1 va = true
  · rw [if_pos hk]
    have hu := dropAlias_rest s (wordAddr (physical va))
    generalize s.dropAlias (wordAddr (physical va)) = u at hu
    obtain ⟨t, h1, h2⟩ := appendWrite_spec (s := u)
      { addr := (physical va).extractLsb' 2 30 ++ lowestOffset s.mode.bigEndianMem mask, mask := mask, data := w }
      (by rw [hu]; exact hh)
    refine ⟨t, h1, by unfold StoredTo; rw [h2.rest, hu], fun a => ?_⟩
    have hua : u.answer a = s.answer a := by rw [hu]; rfl
    have hub : u.seenByte a = s.seenByte a := by
      rw [hu]
      exact seenByte_dcache s _ a
    rw [h2.byte (by rw [hu]; exact hm) a, hua, hub, show u.mode = s.mode by rw [hu], shown_word, busMask_shown _ _ _ hs]
  · rw [if_neg hk]
    obtain ⟨hc, hsw⟩ := hv.resolve_left hk
    obtain ⟨hl, hu⟩ := dcacheStore_coherent hc hsw (physical va) mask w
    generalize s.dcacheStore (wordAddr (physical va)) mask w = r at hl hu
    obtain ⟨⟨m2, w2⟩, u⟩ := r
    dsimp only at hl hu ⊢
    have hroom : u.HasRoom := by rw [hu]; exact hh
    obtain ⟨t, h1, h2⟩ := appendWrite_spec
      { addr := (physical va).extractLsb' 2 30 ++ lowestOffset s.mode.bigEndianMem mask, mask := m2, data := w2 } hroom
    have hmo : u.mode = s.mode := by rw [hu]
    have hua : ∀ a, u.answer a = s.answer a := fun a => by rw [hu]; rfl
    have hub : ∀ a, u.seenByte a = s.seenByte a := fun a => by
      rw [hu]
      exact seenByte_dcache s _ a
    refine ⟨t, h1, by unfold StoredTo; rw [h2.rest, hu], fun a => ?_⟩
    rw [h2.byte (by rw [hu]; exact hm) a, hmo, hub, hua, shown_word]
    rcases hl with hl | ⟨old, hold, hl⟩ <;> cases hl
    · rw [busMask_shown _ _ _ hs]
    · have h4 : laneOf s.mode.bigEndianMem (a.toNat % 4) < 4 := laneOf_lt _ _ (Nat.mod_lt _ (by decide))
      by_cases hwa : wordAddr a = wordAddr (physical va)
      · by_cases hma : s.answer a = .memory
        · have hsb := seenByte_lane s a
          rw [hwa] at hsb
          rw [hold (by unfold State.backed; rw [← answer_of_word hwa, hma]; rfl)]
          simp only [hwa, hma, true_and]
          by_cases hmk : mask.getLsbD (laneOf s.mode.bigEndianMem (a.toNat % 4)) = true
          · rw [if_pos hmk, if_pos (busMask_merged s.mode (physical va) mask hs _ _ h4 hmk),
              laneByte_mergeLanes _ _ _ _ h4, if_pos hmk]
          · rw [if_neg hmk]
            split
            · rw [laneByte_mergeLanes _ _ _ _ h4, if_neg hmk, ← hsb]
            · rfl
        · simp [hma]
      · simp [hwa]

end Sys2Proof.Machine
end

