-- ==== Sys2Proof/Laws/Cp0.lean ====
section
/-! SUPPORT. The fields of SR, Cause and Context in the words that MFC0 reads (R40, R51, R60). -/

namespace Sys2Proof.Machine

/-- A bit is a field of width 1. -/
theorem getLsbD_extract {n : Nat} (w : BitVec n) (k : Nat) : w.getLsbD k = (w.extractLsb' k 1).getLsbD 0 := by
  rw [BitVec.getLsbD_extractLsb']
  rfl

theorem getLsbD_bit (b : Bool) : (bit b).getLsbD 0 = b := by
  cases b <;> rfl

/-- The fields of SR as a word (R40). -/
theorem toWord_fields (sr : Status) (c : Bool) :
    (sr.toWord c).extractLsb' 28 4 = sr.cu ∧ (sr.toWord c).extractLsb' 26 2 = 0#2 ∧ (sr.toWord c).getLsbD 25 = sr.re ∧
      (sr.toWord c).extractLsb' 23 2 = 0#2 ∧ (sr.toWord c).getLsbD 22 = sr.bev ∧
      (sr.toWord c).extractLsb' 20 2 = 0#2 ∧ (sr.toWord c).getLsbD 19 = c ∧ (sr.toWord c).getLsbD 18 = false ∧
      (sr.toWord c).getLsbD 17 = sr.swc ∧ (sr.toWord c).getLsbD 16 = sr.isc ∧
      (sr.toWord c).extractLsb' 8 8 = sr.intMask ∧ (sr.toWord c).extractLsb' 6 2 = 0#2 ∧
      (sr.toWord c).getLsbD 5 = sr.kuo ∧ (sr.toWord c).getLsbD 4 = sr.ieo ∧ (sr.toWord c).getLsbD 3 = sr.kup ∧
      (sr.toWord c).getLsbD 2 = sr.iep ∧ (sr.toWord c).getLsbD 1 = sr.kuc ∧ (sr.toWord c).getLsbD 0 = sr.iec := by
  simp only [getLsbD_extract (sr.toWord c)]
  unfold Status.toWord
  refine ⟨?_, ?_, ?_, ?_, ?_, ?_, ?_, ?_, ?_, ?_, ?_, ?_, ?_, ?_, ?_, ?_, ?_, ?_⟩ <;>
    simp (disch := omega) only [BitVec.extractLsb'_append_eq_of_le, BitVec.extractLsb'_append_eq_of_add_le, Nat.reduceSub,
      BitVec.extractLsb'_eq_self, getLsbD_bit] <;>
    rfl

/-- The fields of Cause as a word (R51). -/
theorem causeWord_fields (x : Cause) (ip : BitVec 6) (sw : BitVec 2) :
    (x.toWord ip sw).getLsbD 31 = x.bd ∧ (x.toWord ip sw).getLsbD 30 = false ∧ (x.toWord ip sw).extractLsb' 28 2 = x.ce ∧
      (x.toWord ip sw).extractLsb' 16 12 = 0#12 ∧ (x.toWord ip sw).extractLsb' 10 6 = ip ∧
      (x.toWord ip sw).extractLsb' 8 2 = sw ∧ (x.toWord ip sw).extractLsb' 6 2 = 0#2 ∧
      (x.toWord ip sw).extractLsb' 2 4 = x.excCode ∧ (x.toWord ip sw).extractLsb' 0 2 = 0#2 := by
  simp only [getLsbD_extract (x.toWord ip sw)]
  unfold Cause.toWord
  refine ⟨?_, ?_, ?_, ?_, ?_, ?_, ?_, ?_, ?_⟩ <;>
    simp (disch := omega) only [BitVec.extractLsb'_append_eq_of_le, BitVec.extractLsb'_append_eq_of_add_le, Nat.reduceSub,
      BitVec.extractLsb'_eq_self, getLsbD_bit] <;>
    rfl

/-- The fields of Context as a word (R60). -/
theorem contextWord_fields (b : BitVec 11) (v : BitVec 19) :
    (contextWord b v).extractLsb' 21 11 = b ∧ (contextWord b v).extractLsb' 2 19 = v ∧
      (contextWord b v).extractLsb' 0 2 = 0#2 := by
  unfold contextWord
  refine ⟨?_, ?_, ?_⟩ <;>
    simp (disch := omega) only [BitVec.extractLsb'_append_eq_of_le, BitVec.extractLsb'_append_eq_of_add_le, Nat.reduceSub,
      BitVec.extractLsb'_eq_self]

end Sys2Proof.Machine
end

