-- ==== Sys2Proof/Laws/Encoding.lean ====
section
/-! SUPPORT. The fields of an encoded word, and a word put together from its fields (30_encoding.md R121). -/

namespace Sys2Proof

/-! ### Parts of a concatenation -/

theorem extract_high {n m : Nat} (x : BitVec n) (y : BitVec m) (s l : Nat) (h : m ≤ s) :
    (x ++ y).extractLsb' s l = x.extractLsb' (s - m) l := by
  rw [BitVec.extractLsb'_append_eq_ite]
  simp [show ¬ s < m by omega]

theorem extract_low {n m : Nat} (x : BitVec n) (y : BitVec m) (s l : Nat) (h : s + l ≤ m) (hl : 0 < l) :
    (x ++ y).extractLsb' s l = y.extractLsb' s l := by
  rw [BitVec.extractLsb'_append_eq_ite]
  simp [show s < m by omega, h]

theorem extract_all {n : Nat} (x : BitVec n) : x.extractLsb' 0 n = x := by simp

/-! ### I-type words -/

theorem iType_op (op : BitVec 6) (rs rt : Reg) (imm : Half) : opField (iType op rs rt imm) = op :=
  (extract_high (op ++ rs ++ rt) imm 26 6 (by decide)).trans
    ((extract_high (op ++ rs) rt 10 6 (by decide)).trans
      ((extract_high op rs 5 6 (by decide)).trans (extract_all op)))

theorem iType_rs (op : BitVec 6) (rs rt : Reg) (imm : Half) : rsField (iType op rs rt imm) = rs :=
  (extract_high (op ++ rs ++ rt) imm 21 5 (by decide)).trans
    ((extract_high (op ++ rs) rt 5 5 (by decide)).trans
      ((extract_low op rs 0 5 (by decide) (by decide)).trans (extract_all rs)))

theorem iType_rt (op : BitVec 6) (rs rt : Reg) (imm : Half) : rtField (iType op rs rt imm) = rt :=
  (extract_high (op ++ rs ++ rt) imm 16 5 (by decide)).trans
    ((extract_low (op ++ rs) rt 0 5 (by decide) (by decide)).trans (extract_all rt))

theorem iType_imm (op : BitVec 6) (rs rt : Reg) (imm : Half) : immField (iType op rs rt imm) = imm :=
  (extract_low (op ++ rs ++ rt) imm 0 16 (by decide) (by decide)).trans (extract_all imm)

theorem iType_fields (w : Word) : iType (opField w) (rsField w) (rtField w) (immField w) = w := by
  have h1 : (opField w ++ rsField w : BitVec 11) = w.extractLsb' 21 11 :=
    BitVec.extractLsb'_append_extractLsb'_eq_extractLsb' (by decide)
  have h2 : (w.extractLsb' 21 11 ++ rtField w : BitVec 16) = w.extractLsb' 16 16 :=
    BitVec.extractLsb'_append_extractLsb'_eq_extractLsb' (by decide)
  have h3 : (w.extractLsb' 16 16 ++ immField w : BitVec 32) = w.extractLsb' 0 32 :=
    BitVec.extractLsb'_append_extractLsb'_eq_extractLsb' (by decide)
  have h4 : iType (opField w) (rsField w) (rtField w) (immField w)
      = (opField w ++ rsField w ++ rtField w ++ immField w : BitVec 32) := rfl
  rw [h4, h1, h2, h3, extract_all]

/-! ### R-type words -/

theorem rType_op (op : BitVec 6) (rs rt rd sa : BitVec 5) (funct : BitVec 6) :
    opField (rType op rs rt rd sa funct) = op :=
  (extract_high (op ++ rs ++ rt ++ rd ++ sa) funct 26 6 (by decide)).trans
    ((extract_high (op ++ rs ++ rt ++ rd) sa 20 6 (by decide)).trans
      ((extract_high (op ++ rs ++ rt) rd 15 6 (by decide)).trans
        ((extract_high (op ++ rs) rt 10 6 (by decide)).trans
          ((extract_high op rs 5 6 (by decide)).trans (extract_all op)))))

theorem rType_rs (op : BitVec 6) (rs rt rd sa : BitVec 5) (funct : BitVec 6) :
    rsField (rType op rs rt rd sa funct) = rs :=
  (extract_high (op ++ rs ++ rt ++ rd ++ sa) funct 21 5 (by decide)).trans
    ((extract_high (op ++ rs ++ rt ++ rd) sa 15 5 (by decide)).trans
      ((extract_high (op ++ rs ++ rt) rd 10 5 (by decide)).trans
        ((extract_high (op ++ rs) rt 5 5 (by decide)).trans
          ((extract_low op rs 0 5 (by decide) (by decide)).trans (extract_all rs)))))

theorem rType_rt (op : BitVec 6) (rs rt rd sa : BitVec 5) (funct : BitVec 6) :
    rtField (rType op rs rt rd sa funct) = rt :=
  (extract_high (op ++ rs ++ rt ++ rd ++ sa) funct 16 5 (by decide)).trans
    ((extract_high (op ++ rs ++ rt ++ rd) sa 10 5 (by decide)).trans
      ((extract_high (op ++ rs ++ rt) rd 5 5 (by decide)).trans
        ((extract_low (op ++ rs) rt 0 5 (by decide) (by decide)).trans (extract_all rt))))

theorem rType_rd (op : BitVec 6) (rs rt rd sa : BitVec 5) (funct : BitVec 6) :
    rdField (rType op rs rt rd sa funct) = rd :=
  (extract_high (op ++ rs ++ rt ++ rd ++ sa) funct 11 5 (by decide)).trans
    ((extract_high (op ++ rs ++ rt ++ rd) sa 5 5 (by decide)).trans
      ((extract_low (op ++ rs ++ rt) rd 0 5 (by decide) (by decide)).trans (extract_all rd)))

theorem rType_sa (op : BitVec 6) (rs rt rd sa : BitVec 5) (funct : BitVec 6) :
    saField (rType op rs rt rd sa funct) = sa :=
  (extract_high (op ++ rs ++ rt ++ rd ++ sa) funct 6 5 (by decide)).trans
    ((extract_low (op ++ rs ++ rt ++ rd) sa 0 5 (by decide) (by decide)).trans (extract_all sa))

theorem rType_funct (op : BitVec 6) (rs rt rd sa : BitVec 5) (funct : BitVec 6) :
    functField (rType op rs rt rd sa funct) = funct :=
  (extract_low (op ++ rs ++ rt ++ rd ++ sa) funct 0 6 (by decide) (by decide)).trans (extract_all funct)

theorem rType_fields (w : Word) :
    rType (opField w) (rsField w) (rtField w) (rdField w) (saField w) (functField w) = w := by
  have h1 : (opField w ++ rsField w : BitVec 11) = w.extractLsb' 21 11 :=
    BitVec.extractLsb'_append_extractLsb'_eq_extractLsb' (by decide)
  have h2 : (w.extractLsb' 21 11 ++ rtField w : BitVec 16) = w.extractLsb' 16 16 :=
    BitVec.extractLsb'_append_extractLsb'_eq_extractLsb' (by decide)
  have h3 : (w.extractLsb' 16 16 ++ rdField w : BitVec 21) = w.extractLsb' 11 21 :=
    BitVec.extractLsb'_append_extractLsb'_eq_extractLsb' (by decide)
  have h4 : (w.extractLsb' 11 21 ++ saField w : BitVec 26) = w.extractLsb' 6 26 :=
    BitVec.extractLsb'_append_extractLsb'_eq_extractLsb' (by decide)
  have h5 : (w.extractLsb' 6 26 ++ functField w : BitVec 32) = w.extractLsb' 0 32 :=
    BitVec.extractLsb'_append_extractLsb'_eq_extractLsb' (by decide)
  have h6 : rType (opField w) (rsField w) (rtField w) (rdField w) (saField w) (functField w)
      = (opField w ++ rsField w ++ rtField w ++ rdField w ++ saField w ++ functField w : BitVec 32) := rfl
  rw [h6, h1, h2, h3, h4, h5, extract_all]

/-! ### J-type words and BREAK -/

theorem jType_op (op : BitVec 6) (target : BitVec 26) : opField (jType op target) = op :=
  (extract_high op target 26 6 (by decide)).trans (extract_all op)

theorem jType_target (op : BitVec 6) (target : BitVec 26) : targetField (jType op target) = target :=
  (extract_low op target 0 26 (by decide) (by decide)).trans (extract_all target)

theorem jType_fields (w : Word) : jType (opField w) (targetField w) = w := by
  have h1 : (opField w ++ targetField w : BitVec 32) = w.extractLsb' 0 32 :=
    BitVec.extractLsb'_append_extractLsb'_eq_extractLsb' (by decide)
  have h2 : jType (opField w) (targetField w) = (opField w ++ targetField w : BitVec 32) := rfl
  rw [h2, h1, extract_all]

theorem break_op (op : BitVec 6) (code : BitVec 20) (funct : BitVec 6) :
    opField (op ++ code ++ funct : BitVec 32) = op :=
  (extract_high (op ++ code) funct 26 6 (by decide)).trans
    ((extract_high op code 20 6 (by decide)).trans (extract_all op))

theorem break_code (op : BitVec 6) (code : BitVec 20) (funct : BitVec 6) :
    codeField (op ++ code ++ funct : BitVec 32) = code :=
  (extract_high (op ++ code) funct 6 20 (by decide)).trans
    ((extract_low op code 0 20 (by decide) (by decide)).trans (extract_all code))

theorem break_funct (op : BitVec 6) (code : BitVec 20) (funct : BitVec 6) :
    functField (op ++ code ++ funct : BitVec 32) = funct :=
  (extract_low (op ++ code) funct 0 6 (by decide) (by decide)).trans (extract_all funct)

theorem break_fields (w : Word) : (opField w ++ codeField w ++ functField w : BitVec 32) = w := by
  have h1 : (opField w ++ codeField w : BitVec 26) = w.extractLsb' 6 26 :=
    BitVec.extractLsb'_append_extractLsb'_eq_extractLsb' (by decide)
  have h2 : (w.extractLsb' 6 26 ++ functField w : BitVec 32) = w.extractLsb' 0 32 :=
    BitVec.extractLsb'_append_extractLsb'_eq_extractLsb' (by decide)
  rw [h1, h2, extract_all]

end Sys2Proof
end

