-- ==== Sys2Proof/Laws/Families.lean ====
section
/-! SUPPORT. What the ends of the instruction families leave: a computational instruction, a write of HI and LO, a jump
or branch, a use of CP0, a load, a store; and the lanes that loads and stores select. -/

namespace Sys2Proof.Machine

/-! ### States that differ in used free values only -/

theorem free_trans {s t u : State} (h : t = { s with freeIndex := t.freeIndex })
    (h' : u = { t with freeIndex := u.freeIndex }) : u = { s with freeIndex := u.freeIndex } := by
  rw [h', h]

theorem free_seen {s u : State} (h : u = { s with freeIndex := u.freeIndex }) (a : Word) : u.seenByte a = s.seenByte a :=
  seenByte_of_eq (by rw [h]) (by rw [h]) (by rw [h]) (by rw [h]) a

theorem free_word {s u : State} (h : u = { s with freeIndex := u.freeIndex }) (a : Word) : u.seenWord a = s.seenWord a :=
  seenWord_of_bytes (by rw [h]) (free_seen h) a

theorem free_sees {s u : State} (h : u = { s with freeIndex := u.freeIndex }) {va : Word} (hv : s.SeesMemory va) :
    u.SeesMemory va := by
  rcases hv with hk | ⟨hc, hs⟩
  · exact .inl hk
  · exact .inr ⟨hc.of_eq (by rw [h]) (by rw [h]) (by rw [h]) (free_seen h), by rw [h]; exact hs⟩

/-! ### Computational instructions -/

/-- Writing a result and completing is what `Computes` says (R170). -/
theorem computes_write (s u : State) (rd : Reg) (v : Word)
    (h : u = { s with freeIndex := u.freeIndex }) :
    Computes s ((u.setGpr rd v).retire {}) rd v := by
  have hw := writesOnly_setGpr u rd v
  have hr : ∀ q, u.readGpr q = s.readGpr q := fun q => by rw [h]; rfl
  refine ⟨⟨hw.value, rfl, fun q hq => (hw.others q hq).trans (hr q)⟩, ?_, ?_, ?_, ?_, ?_⟩
  · rw [h]; constructor <;> simp
  · rw [h]; constructor <;> simp
  · rw [h]; constructor <;> simp
  · rw [h]; constructor <;> simp
  · apply completes_retire <;> (rw [h]; simp)

/-- Writing HI and LO and completing changes nothing else (R213). -/
theorem hiLo_retire (s u : State) (h l : Word) (b : Bool) (hu : u = { s with freeIndex := u.freeIndex }) :
    KeepsAllButHiLo s (({ u with hi := h, lo := l, mdFresh := b } : State).retire {}) := by
  refine ⟨fun q => ?_, ?_, ?_, ?_, ?_⟩
  · rw [hu]; rfl
  · rw [hu]; constructor <;> rfl
  · rw [hu]; constructor <;> intros <;> rfl
  · rw [hu]; constructor <;> rfl
  · apply completes_retire <;> rw [hu]

/-! ### Jumps and branches -/

theorem transfer_ok {s : State} (h : s.inDelaySlot = false) (b : Act Retire) : s.transfer b = b := by
  unfold State.transfer
  rw [if_neg (by simp [h])]

theorem transfer_refused {s : State} (h : s.inDelaySlot = true) (b : Act Retire) :
    s.transfer b = .refuse .jumpInDelaySlot := by
  unfold State.transfer
  rw [if_pos h]

/-- A jump or branch that writes no register (R215, R227). -/
theorem transfers_retire (s u : State) (taken : Bool) (target : Word) (h : u = { s with freeIndex := u.freeIndex }) :
    SameGprs s (u.retire (branchTo taken target)) ∧ Transfers s (u.retire (branchTo taken target)) taken target := by
  refine ⟨fun q => by rw [h]; rfl, ?_, ?_, ?_, ?_, ?_⟩
  · rw [h]; constructor <;> rfl
  · rw [h]; constructor <;> rfl
  · rw [h]; constructor <;> intros <;> rfl
  · rw [h]; constructor <;> rfl
  · exact completes_retire s u (branchTo taken target) (by rw [h]) (by rw [h]) (by rw [h]) (by rw [h]) (by rw [h])

/-- A jump or branch that links (R228). -/
theorem transfers_link (s u : State) (taken : Bool) (target : Word) (rd : Reg) (v : Word)
    (h : u = { s with freeIndex := u.freeIndex }) :
    WritesOnly s ((u.setGpr rd v).retire (branchTo taken target)) rd v ∧
      Transfers s ((u.setGpr rd v).retire (branchTo taken target)) taken target := by
  have hw := writesOnly_setGpr u rd v
  have hr : ∀ q, u.readGpr q = s.readGpr q := fun q => by rw [h]; rfl
  refine ⟨⟨hw.value, rfl, fun q hq => (hw.others q hq).trans (hr q)⟩, ?_, ?_, ?_, ?_, ?_⟩
  · rw [h]; constructor <;> simp
  · rw [h]; constructor <;> simp
  · rw [h]; constructor <;> simp
  · rw [h]; constructor <;> simp
  · apply completes_retire <;> (rw [h]; simp)

/-! ### CP0 -/

/-- A use of CP0 whose value is the same in every view the step may see. -/
theorem useCp0_all {α : Type} [DecidableEq α] (s : State) (f : Cp0View → α) (b : α) (h : ∀ v, s.MaySee v → f v = b) :
    (s.useCp0 f).1 = b := by
  obtain ⟨v, hv, e⟩ := useCp0_mayView s f
  rw [e, h v hv]

theorem cp0Unusable_free (s : State) : s.cp0Unusable.2 = { s with freeIndex := s.cp0Unusable.2.freeIndex } :=
  useCp0_free _ _

theorem withCp0_ok {s : State} (h : s.HasCp0) (k : State → Act Retire) : s.withCp0 k = k s.cp0Unusable.2 := by
  unfold State.withCp0
  have hu : s.cp0Unusable.1 = false := useCp0_all s (fun v => v.sr.kuc && !v.sr.cu.getLsbD 0) false fun v hv => by
    rcases h v hv with h | h <;> simp only [h, Bool.false_and, Bool.not_true, Bool.and_false]
  rw [hu]
  rfl

theorem withCp0_no {s : State} (h : s.NoCp0) (k : State → Act Retire) : s.withCp0 k = .raise (.cpu 0) s.cp0Unusable.2 := by
  unfold State.withCp0
  have hu : s.cp0Unusable.1 = true := useCp0_all s (fun v => v.sr.kuc && !v.sr.cu.getLsbD 0) true fun v hv => by
    simp only [(h v hv).1, (h v hv).2]
    rfl
  rw [hu]
  rfl

/-! ### Loads and stores -/

/-- The address of a load or store whose base is readable and that does not follow an MTC0 (R150). -/
theorem access_ok {s : State} {base : Reg} {offset : Half} {va : Word} (h1 : s.ldSlot ≠ some base)
    (h2 : va = s.readGpr base + offset.signExtend 32) (h3 : s.afterMtc0 = none) (k : Word → State → Act Retire) :
    s.access base offset k = k va s := by
  unfold State.access State.readSrc
  rw [if_neg (by simp [h3]), if_neg h1, h2]
  rfl

/-- The end of a load whose register write touched registers and used free values only: its frame. -/
theorem loadFrame_retire {s t u : State} (rt : Reg) (h : CacheOnly s t) (hi : t.icache = s.icache)
    (hu : u = { t with regs := u.regs, freeIndex := u.freeIndex }) :
    LoadFrame s (u.retire { load := some rt, memory := true }) rt := by
  refine ⟨fun a => ?_, ?_, ?_, ?_, ?_, ?_⟩
  · refine Eq.trans (seenByte_of_eq (s := t) ?_ ?_ ?_ ?_ a) (h.seen a) <;> rw [hu] <;> rfl
  · rw [hu]
    exact hi
  · constructor <;> rw [hu] <;> simp <;> rw [h.rest]
  · constructor <;> rw [hu] <;> simp <;> rw [h.rest]
  · constructor <;> rw [hu] <;> simp <;> rw [h.rest]
  · apply completes_retire <;> rw [hu] <;> rw [h.rest]

theorem setGpr_rest (t : State) (r : Reg) (v : Word) : t.setGpr r v = { t with regs := (t.setGpr r v).regs } := by
  unfold State.setGpr
  split <;> rfl

/-- A register write that ends a load, with the completion, is what `Loads` says (R163, R411). -/
theorem loads_retire {s t : State} (rt : Reg) (v : Word) (h : CacheOnly s t) (hi : t.icache = s.icache) :
    Loads s ((t.setGpr rt v).retire { load := some rt, memory := true }) rt v := by
  have hw := writesOnly_setGpr t rt v
  refine ⟨⟨hw.value, rfl, fun q hq => ?_⟩, loadFrame_retire rt h hi (by rw [setGpr_rest])⟩
  exact (hw.others q hq).trans (readGpr_of_regs (by rw [h.rest]) q)

/-- A store that reaches memory leaves for the fetches after it the word that it stores to, as it was (R110(e)). -/
theorem overwritten_eq {s t : State} (ht : t = { s with freeIndex := t.freeIndex }) (hi : s.sr.isc = false) {va : Word}
    (hu : (s.sr.kuc && va.getLsbD 31) = false) : t.overwritten va = s.overwrites (physical va) := by
  unfold State.overwritten State.overwrites
  have hb : t.backed (physical va) = s.backed (physical va) := by rw [ht]; rfl
  rw [show t.sr = s.sr by rw [ht], translate_ok _ _ hu, hi, ← free_word ht, ← hb, ← wordImage_settled t (physical va)]
  dsimp only
  cases t.backed (physical va) <;> rfl

/-- The completion of a store is what `StoresOnly` says. -/
theorem stores_retire {s u t : State} (va : Word) (hu : u = { s with freeIndex := u.freeIndex }) (h : StoredTo u t) :
    StoresOnly s (t.retire { store := true, memory := true, overwrote := s.overwrites (physical va) }) va := by
  have h' : t = { s with
      mem := t.mem, writeBuffer := t.writeBuffer, trace := t.trace, dcache := t.dcache, freeIndex := t.freeIndex } := by
    unfold StoredTo at h
    rw [h, hu]
  refine ⟨fun q => readGpr_of_regs (by rw [h']; rfl) q, by rw [h']; rfl, ?_, ?_, ?_, ?_⟩
  · constructor <;> rw [h'] <;> rfl
  · constructor <;> rw [h'] <;> rfl
  · constructor <;> rw [h'] <;> rfl
  · apply completes_retire <;> rw [h']

/-! ### Lanes of loads -/

/-- An aligned address translates to an aligned one. -/
theorem wordAddr_physical {va : Word} (h : va.extractLsb' 0 2 = 0#2) : wordAddr (physical va) = physical va := by
  have h1 := physical_mod va
  have h2 := congrArg BitVec.toNat h
  rw [low_toNat] at h2
  simp only [BitVec.toNat_ofNat] at h2
  apply BitVec.eq_of_toNat_eq
  rw [wordAddr_toNat]
  omega

/-- The byte that a byte load selects is the one that its reference touches (R80, R90). -/
theorem selectByte_touched (s : State) (va : Word) :
    selectByte s.bigEndianCPU va (s.seenWord (wordAddr (physical va))) = s.seenByte (s.touched .byte (physical va)) := by
  obtain ⟨h1, h2⟩ := touched_byte_lane s va
  rw [seenByte_lane, h1, h2]
  rfl

theorem laneByte_pair (w : Word) (k : Nat) : w.extractLsb' (8 * k) 16 = laneByte w (k + 1) ++ laneByte w k := by
  unfold laneByte
  rw [show 8 * (k + 1) = 8 * k + 8 by omega, BitVec.extractLsb'_append_extractLsb'_eq_extractLsb' (by omega)]

theorem halfLane_cases (big : Bool) (va : Word) (h : va.getLsbD 0 = false) :
    halfLane big va = 0 ∨ halfLane big va = 2 := by
  have h2 : va.toNat.testBit 0 = false := h
  have hm : va.toNat % 2 = 0 := by simpa [Nat.testBit_zero] using h2
  rw [halfLane_eq big va h]
  split <;> omega

/-- The halfword that a halfword load selects is the one that its reference touches (R80, R90). -/
theorem selectHalf_touched (s : State) (va : Word) (h : va.getLsbD 0 = false) :
    selectHalf s.bigEndianCPU va (s.seenWord (wordAddr (physical va))) = s.seenHalf (s.touched .half (physical va)) := by
  obtain ⟨h1, h2⟩ := touched_half_lane s va h
  have hle := halfLane_cases s.bigEndianCPU va h
  unfold selectHalf State.seenHalf
  generalize halfLane s.bigEndianCPU va = l at *
  generalize s.touched .half (physical va) = p at *
  have hp4 : p.toNat % 4 = 0 ∨ p.toNat % 4 = 2 := by
    rw [h2]
    rcases hle with rfl | rfl <;> split <;> simp
  have hp : (p + 1).toNat = p.toNat + 1 := by
    have h1 : (1 : Word).toNat = 1 := rfl
    have := p.isLt
    rw [BitVec.toNat_add, h1]
    omega
  have hw : wordAddr (p + 1) = wordAddr p := by
    apply BitVec.eq_of_toNat_eq
    rw [wordAddr_toNat, wordAddr_toNat, hp]
    omega
  have hpm : (p.toNat + 1) % 4 = p.toNat % 4 + 1 := by omega
  rw [laneByte_pair, seenByte_lane s p, seenByte_lane s (p + 1), hw, h1, hp, hpm, h2]
  cases s.mode.bigEndianMem <;> rcases hle with rfl | rfl <;> rfl

/-- The bytes of LWL's result (R156). -/
theorem lwlMerge_lane (k : Nat) (hk : k < 4) (w old : Word) (j : Nat) (hj : j < 4) :
    laneByte (lwlMerge k w old) j = if 3 - k ≤ j then laneByte w (j - (3 - k)) else laneByte old j := by
  interval_cases k <;> interval_cases j <;> simp only [lwlMerge, laneByte] <;>
    first
    | rfl
    | (apply BitVec.eq_of_getLsbD_eq
       intro i hi
       simp [BitVec.getLsbD_extractLsb']
       try grind)

/-- The bytes of LWR's result (R157). -/
theorem lwrMerge_lane (k : Nat) (hk : k < 4) (w old : Word) (j : Nat) (hj : j < 4) :
    laneByte (lwrMerge k w old) j = if j + k ≤ 3 then laneByte w (j + k) else laneByte old j := by
  interval_cases k <;> interval_cases j <;> simp only [lwrMerge, laneByte] <;>
    first
    | rfl
    | (apply BitVec.eq_of_getLsbD_eq
       intro i hi
       simp [BitVec.getLsbD_extractLsb']
       try grind)

end Sys2Proof.Machine
end

