-- ==== Sys2Proof/Laws/Fetch.lean ====
section
/-! SUPPORT. What an instruction fetch that may precede the last stores answers and what it fills in (R94, R110(e)). -/

namespace Sys2Proof.Machine

/-! ### The stores ahead of a fetch -/

/-- All that the choice of the stores ahead can do: some of the recent stores, and a free value used. -/
theorem storesAhead_spec (s : State) (a : Word) :
    (∀ x, some x ∈ (s.storesAhead a).1 → some x ∈ s.recentStores) ∧
      (s.storesAhead a).2 = { s with freeIndex := (s.storesAhead a).2.freeIndex } := by
  unfold State.storesAhead
  split
  · exact ⟨fun x h => List.mem_of_mem_take h, rfl⟩
  · exact ⟨fun x h => (by cases h), rfl⟩

theorem wordBefore_cons (e : Option StoredWord) (stores : List (Option StoredWord)) (a w : Word) :
    wordBefore (e :: stores) a w =
      wordBefore stores a (match e with | some x => if x.addr = a then x.before else w | none => w) := by
  cases e <;> rfl

/-- The word of a fetch that precedes some stores: the word itself, or what one of them found at its address. -/
theorem wordBefore_cases (stores : List (Option StoredWord)) (a w : Word) :
    wordBefore stores a w = w ∨ some { addr := a, before := wordBefore stores a w } ∈ stores := by
  induction stores generalizing w with
  | nil => exact .inl rfl
  | cons e rest ih =>
    rw [wordBefore_cons]
    rcases ih (match e with | some x => if x.addr = a then x.before else w | none => w) with h | h
    · rw [h]
      cases e with
      | none => exact .inl rfl
      | some x =>
        dsimp only
        split
        · rename_i hx
          exact .inr (by rw [← hx]; exact List.mem_cons_self ..)
        · exact .inl rfl
    · exact .inr (List.mem_cons_of_mem _ h)

/-- A fetch that precedes some of the last stores finds a word that it may find (R110(e)). -/
theorem mayFetch_before {s : State} {stores : List (Option StoredWord)}
    (hl : ∀ x, some x ∈ stores → some x ∈ s.recentStores) (a : Word) :
    s.MayFetch a (wordBefore stores a (s.seenWord a)) := by
  rcases wordBefore_cases stores a (s.seenWord a) with h | h
  · exact .inl h
  · exact .inr (hl _ h)

/-! ### The refill -/

theorem fill_icache_rest (s : State) (a d : Word) : s.fill .instr a d = { s with icache := (s.fill .instr a d).icache } := by
  unfold State.fill
  split <;> rfl

/-- The entry of a word of a block after the block was filled in. -/
theorem fillBlock_entry {s : State} {pa d : Word} (hc : s.clearing .instr = false) (hpa : wordAddr pa = pa) (w : Nat → Word)
    (hd : ∀ k < 4, pa = blockWord pa k → w k = d) :
    tableGet (icacheIndex pa) (s.fillBlock .instr pa w).icache = some (.line true (icacheTag pa) d) := by
  obtain ⟨k, hk, he⟩ : ∃ k < 4, pa = blockWord pa k := ⟨_, (pa.extractLsb' 2 2).isLt, hpa.symm.trans (block_word pa).symm⟩
  have ne : ∀ j < 4, k ≠ j → icacheIndex pa ≠ icacheIndex (blockWord pa j) := fun j hj hkj h =>
    hkj (icacheIndex_block pa k hk j hj (he ▸ h))
  have self : ∀ c : List (Nat × CacheEntry 20), tableGet (icacheIndex pa) (tableSet (icacheIndex (blockWord pa k))
      (some (.line true (icacheTag (blockWord pa k)) (w k))) c) = some (.line true (icacheTag pa) d) := fun c => by
    rw [← he, hd k hk he]
    exact tableGet_set_some ..
  rw [fillBlock_put hc]
  simp only [State.putLine]
  interval_cases k
  · rw [tableGet_set_ne _ _ (ne 3 (by decide) (by decide)), tableGet_set_ne _ _ (ne 2 (by decide) (by decide)),
      tableGet_set_ne _ _ (ne 1 (by decide) (by decide))]
    exact self _
  · rw [tableGet_set_ne _ _ (ne 3 (by decide) (by decide)), tableGet_set_ne _ _ (ne 2 (by decide) (by decide))]
    exact self _
  · rw [tableGet_set_ne _ _ (ne 3 (by decide) (by decide))]
    exact self _
  · exact self _

/-- A property that every word filled into the instruction cache keeps is kept by the words of a refill done early. -/
theorem refillBefore_induct {P : State → Prop} (hP : ∀ t a d, P t → P (t.fill .instr a d)) {s : State} (h : P s)
    (stores : List (Option StoredWord)) (a : Word) : P (s.refillBefore stores a) := by
  unfold State.refillBefore
  induction stores generalizing s with
  | nil => exact h
  | cons e rest ih =>
    rw [List.foldl_cons]
    refine ih ?_
    cases e with
    | none => exact h
    | some x =>
      dsimp only
      split
      · exact hP _ _ _ h
      · exact h

/-- A refill done early changes the instruction cache only. -/
theorem refillBefore_rest (s : State) (stores : List (Option StoredWord)) (a : Word) :
    s.refillBefore stores a = { s with icache := (s.refillBefore stores a).icache } := by
  refine refillBefore_induct (P := fun t => t = { s with icache := t.icache }) (fun t b d h => ?_) rfl stores a
  unfold State.fill
  split
  · exact h
  · rw [h]
    rfl

/-- Two words of one refill with one index are one word (R95). -/
theorem icacheIndex_refill {block : Bool} {pa : Word} (hpa : wordAddr pa = pa) {x y : Word}
    (hx : refillWord block pa x) (hy : refillWord block pa y) (h : icacheIndex x = icacheIndex y) : x = y := by
  cases block with
  | false =>
    rcases hx with rfl | ⟨hc, -⟩
    · rcases hy with rfl | ⟨hc, -⟩
      · rfl
      · cases hc
    · cases hc
  | true =>
    obtain ⟨j, hj, rfl⟩ := refillWord_block hpa hx
    obtain ⟨k, hk, rfl⟩ := refillWord_block hpa hy
    rw [icacheIndex_block pa j hj k hk h]

theorem refillReads_word {s : State} {a b : Word} (h : s.refillReads a b = true) : refillWord s.mode.iblock a b := by
  have hb : s.blockRefill .instr = s.mode.iblock := rfl
  unfold State.refillReads at h
  split at h
  · obtain ⟨k, hk, he⟩ := List.any_eq_true.1 h
    rw [eq_of_beq he, ← hb, ‹s.blockRefill .instr = true›]
    exact refillWord_blockWord a k (List.mem_range.1 hk)
  · exact .inl (eq_of_beq h)

/-- A refill of the instruction cache done before some stores is still a refill of words that the fetch may find, if it may
find what those stores found (R110(e)). -/
theorem refilled_before {s u : State} {finds : Word → Word → Prop} {pa : Word} (hpa : wordAddr pa = pa)
    (hm : u.mode = s.mode) (hc : u.clearing .instr = s.inputs.icclr) {old : List (Nat × CacheEntry 20)}
    (h : Refilled s icacheIndex icacheTag (refillWord s.mode.iblock pa) finds s.inputs.icclr old u.icache)
    (stores : List (Option StoredWord)) (hf : ∀ x, some x ∈ stores → finds x.addr x.before) :
    Refilled s icacheIndex icacheTag (refillWord s.mode.iblock pa) finds s.inputs.icclr old
      (u.refillBefore stores pa).icache := by
  unfold State.refillBefore
  induction stores generalizing u with
  | nil => exact h
  | cons e rest ih =>
    rw [List.foldl_cons]
    have hr := fun x hx => hf x (List.mem_cons_of_mem _ hx)
    cases e with
    | none => exact ih hm hc h hr
    | some x =>
      dsimp only
      split
      · have hx : refillWord s.mode.iblock pa x.addr := hm ▸ refillReads_word ‹_›
        cases hcl : s.inputs.icclr with
        | true =>
          rw [fill_cleared (hc.trans hcl)]
          rw [hcl] at hc h ih
          exact ih hm hc h hr
        | false =>
          rw [fill_put (hc.trans hcl)]
          rw [hcl] at hc h ih
          refine ih hm hc ?_ hr
          exact refilled_again h hx (fun a ha => icacheIndex_refill hpa ha hx) (hf x (List.mem_cons_self ..))
      · exact ih hm hc h hr

/-- The entry of the fetched word after a refill done before some stores holds the word that the fetch answers. -/
theorem entry_before {s : State} {pa : Word} (hpa : wordAddr pa = pa) (hc : s.clearing .instr = false)
    (stores : List (Option StoredWord)) {w : Word}
    (h : tableGet (icacheIndex pa) s.icache = some (.line true (icacheTag pa) w)) :
    tableGet (icacheIndex pa) (s.refillBefore stores pa).icache =
      some (.line true (icacheTag pa) (wordBefore stores pa w)) := by
  unfold State.refillBefore
  induction stores generalizing s w with
  | nil => exact h
  | cons e rest ih =>
    rw [List.foldl_cons, wordBefore_cons]
    cases e with
    | none => exact ih hc h
    | some x =>
      dsimp only
      by_cases hx : x.addr = pa
      · rw [if_pos hx, if_pos, fill_put hc]
        · refine ih (s := s.putLine CacheSide.instr x.addr true x.before) hc ?_
          rw [hx]
          exact tableGet_set_some ..
        · unfold State.refillReads
          rw [hx]
          split
          · refine List.any_eq_true.2 ⟨_, List.mem_range.2 (pa.extractLsb' 2 2).isLt, ?_⟩
            rw [beq_iff_eq]
            exact hpa.symm.trans (block_word pa).symm
          · exact beq_self_eq_true pa
      · rw [if_neg hx]
        split
        · rename_i hr
          rw [fill_put hc]
          refine ih (s := s.putLine CacheSide.instr x.addr true x.before) hc ?_
          have hne : icacheIndex pa ≠ icacheIndex x.addr := fun e =>
            hx (icacheIndex_refill hpa (refillReads_word hr) (.inl rfl) e.symm)
          exact (tableGet_set_ne _ _ hne).trans h
        · exact ih hc h

/-! ### The fetch -/

theorem kept_refillBefore {s : State} (h : Kept s) (stores : List (Option StoredWord)) (a : Word) :
    Kept (s.refillBefore stores a) :=
  refillBefore_induct (P := Kept) (fun _ _ _ ht => kept_fill ht _ _ _) h stores a

/-- A fetch keeps the invariants of memory, caches and write buffer. -/
theorem kept_fetchFrom {s : State} (h : Kept s) (sized : Bool) (va : Word) : (s.fetchFrom sized va).All Kept := by
  have h1 := kept_useCp0 h (fun v => v.sr.kuc)
  have h2 : ∀ a, Kept ((s.useCp0 fun v => v.sr.kuc).2.storesAhead a).2 := fun a => by
    rw [(storesAhead_spec _ a).2]
    exact h1.of_eq rfl rfl rfl rfl rfl rfl rfl
  unfold State.fetchFrom
  simp only
  split
  · exact h
  · split
    · exact h1
    · split
      · exact Act.all_bind (kept_busRead (h2 _) _ _ _) fun _ _ ht => ht
      · split
        · trivial
        · exact kept_cacheRead (kept_useCp0 (h2 _) (fun v => v.sr.swc)) _ _ fun t ht =>
            Act.all_bind (kept_refill ht _ _ _) fun _ _ hu => kept_refillBefore hu _ _

/-! ### A fetch that is allowed (R94) -/

theorem ready_free {s u : State} (h : u = { s with freeIndex := u.freeIndex }) (hr : s.BusReady) : u.BusReady :=
  ready_of_eq hr (by rw [h]) (by rw [h]) (fun _ hm => by rw [h] at hm; exact hm) (by rw [h])

theorem answer_free {s u : State} (h : u = { s with freeIndex := u.freeIndex }) (a : Word) : u.answer a = s.answer a := by
  rw [h]
  rfl

theorem backed_free {s u : State} (h : u = { s with freeIndex := u.freeIndex }) (a : Word) : u.backed a = s.backed a := by
  rw [h]
  rfl

/-- A fetch from an address that may be fetched from: a bus read in kseg1, a read through the instruction cache elsewhere,
before some of the recent stores. -/
theorem fetchFrom_ok {s : State} {va : Word} (hf : s.FetchableAt va) {u : State}
    (hu : u = { s with freeIndex := u.freeIndex }) :
    ∃ (v : State) (stores : List (Option StoredWord)), v = { s with freeIndex := v.freeIndex } ∧
      (∀ x, some x ∈ stores → some x ∈ s.recentStores) ∧ ∀ sized, u.fetchFrom sized va =
        if inKseg1 va then
          (v.busRead sized (physical va) (.uncached Size.word.accessType)).bind fun w t =>
            .done (wordBefore stores (physical va) w) t
        else if (v.useCp0 fun x => x.sr.swc).1 then .refuse .swappedFetch
        else (v.useCp0 fun x => x.sr.swc).2.cacheRead .instr (physical va) fun t => t.fetchRefill sized stores (physical va) := by
  have hal : aligned .word va = true := by
    unfold aligned
    simpa using hf.1
  obtain ⟨x, hx, hxe⟩ := useCp0_mayView u fun v => v.sr.kuc
  rw [maySee_of hu] at hx
  have h1 := free_trans hu (useCp0_free u fun v => v.sr.kuc)
  have hs := storesAhead_spec (u.useCp0 fun v => v.sr.kuc).2 (physical va)
  refine ⟨((u.useCp0 fun v => v.sr.kuc).2.storesAhead (physical va)).2,
    ((u.useCp0 fun v => v.sr.kuc).2.storesAhead (physical va)).1, free_trans h1 hs.2, fun y hy => ?_, ?_⟩
  · have := hs.1 y hy
    rw [h1] at this
    exact this
  · intro sized
    unfold State.fetchFrom
    dsimp only
    rw [if_neg (by simp [hal]), translate_ok _ _ (by
      rw [hxe]
      cases hk : x.sr.kuc
      · rfl
      · rw [hf.2 x hx hk]
        rfl)]

theorem useCp0_swc {s u : State} {va : Word} (hu : u = { s with freeIndex := u.freeIndex }) (hc : s.CachedAt va) :
    (u.useCp0 fun x => x.sr.swc).1 = false :=
  useCp0_all u _ false fun x hx => hc.2 x ((maySee_of hu x).1 hx)

theorem look_icache {s u : State} (hu : u = { s with freeIndex := u.freeIndex }) (hc : s.inputs.icclr = false) (a : Word) :
    u.look .instr a = lookEntry (s.icacheEntry a) (icacheTag a) := by
  unfold State.look State.clearing
  rw [if_neg (by rw [hu]; simp [hc]), hu]
  rfl

theorem look_missesInstr {s u : State} (hu : u = { s with freeIndex := u.freeIndex }) {a : Word} (h : s.MissesInstr a) :
    u.look .instr a = .miss := by
  by_cases hcl : s.inputs.icclr = true
  · unfold State.look State.clearing
    rw [if_pos (by rw [hu]; exact hcl)]
  · rw [look_icache hu (by simpa using hcl)]
    rcases h with h | h | ⟨valid, tag, w, h, hv⟩
    · exact absurd h hcl
    · rw [h]
      rfl
    · rw [h]
      unfold lookEntry icacheTag
      rcases hv with hv | hv <;> simp [hv]

/-- A fetch through the instruction cache that misses and is answered: the word, and the entries filled (R95, R110). -/
theorem fetch_miss {s u : State} (hu : u = { s with freeIndex := u.freeIndex }) {va : Word} (ha : va.extractLsb' 0 2 = 0#2)
    (hk : inKseg1 va = false) (hm : s.MissesInstr (physical va)) (hr : s.Readable s.mode.iblock va)
    (sized : Bool) (stores : List (Option StoredWord)) (hl : ∀ x, some x ∈ stores → some x ∈ s.recentStores) :
    ∃ t, u.cacheRead .instr (physical va) (fun t => t.fetchRefill sized stores (physical va)) =
        .done (wordBefore stores (physical va) (s.seenWord (physical va))) t ∧
      OnlyBus s { t with icache := s.icache } ∧
      Refilled s icacheIndex icacheTag (refillWord s.mode.iblock (physical va)) s.MayFetch s.inputs.icclr s.icache
        t.icache ∧
      (s.inputs.icclr = false → t.icacheEntry (physical va) =
        some (.line true (icacheTag (physical va)) (wordBefore stores (physical va) (s.seenWord (physical va))))) := by
  have hpa := wordAddr_physical ha
  have hb : u.blockRefill .instr = s.mode.iblock := by rw [hu]; rfl
  have hans : u.refillAnswered .instr (physical va) := by
    unfold State.refillAnswered
    rw [hb, answer_free hu]
    split
    · exact hr.block ‹_› hk
    · exact not_absent_of_backed hr.backed
  obtain ⟨x, w, y, hby, he, hx, hw⟩ := refill_spec sized .instr (physical va) (ready_free hu hr.ready) hans
  rw [hb] at he
  have hbs : BusOnly s y := by
    refine ⟨?_, fun a => (hby.seen a).trans (free_seen hu a), fun e hm => ?_⟩
    · have := hby.rest
      rw [hu] at this
      exact this
    · have := hby.buffer e hm
      rw [hu] at this
      exact this
  rw [backed_free hu, free_word hu, hpa] at hx
  have hx := hx hr.backed
  subst hx
  simp only [backed_free hu, free_word hu] at hw
  have hR := refilled_icache s.MayFetch (fun _ => .inl rfl) hbs hpa (v := s.seenWord (physical va))
    (fun _ => by rw [hpa]) hw
  unfold State.cacheRead State.fetchRefill
  rw [look_missesInstr hu hm]
  simp only [he, Act.bind]
  refine ⟨_, rfl, ?_⟩
  have hz : ∀ z : State, z = (if s.mode.iblock then y.fillBlock .instr (physical va) w
      else y.fill .instr (physical va) (s.seenWord (physical va))) → z = { y with icache := z.icache } := by
    intro z hz
    rw [hz]
    split
    · unfold State.fillBlock
      rw [fill_icache_rest, fill_icache_rest (State.fill _ _ _ _), fill_icache_rest (State.fill _ _ _ _),
        fill_icache_rest y]
    · exact fill_icache_rest y _ _
  have hent : s.inputs.icclr = false → tableGet (icacheIndex (physical va)) (if s.mode.iblock then
      y.fillBlock .instr (physical va) w else y.fill .instr (physical va) (s.seenWord (physical va))).icache =
      some (.line true (icacheTag (physical va)) (s.seenWord (physical va))) := fun hic => by
    have hyc : y.clearing .instr = false := by rw [hbs.rest]; exact hic
    split
    · rename_i hib
      exact fillBlock_entry hyc hpa w fun k hk hkk => by
        rw [hw k hk (by rw [← hkk]; exact hr.backed), ← hkk]
    · rw [fill_put hyc]
      exact tableGet_set_some ..
  generalize (if s.mode.iblock then y.fillBlock .instr (physical va) w
    else y.fill .instr (physical va) (s.seenWord (physical va))) = z at hR hent hz
  have hz := hz z rfl
  have hz2 := refillBefore_rest z stores (physical va)
  have hclr : z.clearing .instr = s.inputs.icclr := by rw [hz, hbs.rest]; rfl
  refine ⟨⟨?_, fun a => ?_⟩, ?_, fun hic => entry_before hpa (hclr.trans hic) stores (hent hic)⟩
  · rw [hz2, hz, hbs.rest]
  · refine Eq.trans ?_ (hbs.seen a)
    apply seenByte_of_eq <;> rw [hz2, hz]
  · exact refilled_before hpa (by rw [hz]; exact hbs.mode) hclr hR stores fun x hx => .inr (hl x hx)

end Sys2Proof.Machine
end

