-- ==== Sys2Proof/Laws/Exception.lean ====
section
/-! SUPPORT. What taking an exception does: the fetches that it aborts (R88(d)) and the entry (R370 to R374). -/

namespace Sys2Proof.Machine

/-! ### Aborted fetches -/

/-- `t` is `s` after fetches whose words go nowhere: the bus may have worked, and may wait for ever, and the instruction cache
may have been filled, but no byte that the program sees changed, and the buffer gained no entry. -/
structure Aside (s t : State) : Prop where
  rest : t = { s with
    mem := t.mem, writeBuffer := t.writeBuffer, icache := t.icache, trace := t.trace, bus := t.bus,
    freeIndex := t.freeIndex }
  seen : ∀ a, t.seenByte a = s.seenByte a
  buffer : ∀ e ∈ t.writeBuffer, e ∈ s.writeBuffer
  trace : ∃ cycles, t.trace = cycles ++ s.trace
  bus : t.bus = s.bus ∨ t.bus = .coreStuck

theorem Aside.trans {s t u : State} (h : Aside s t) (g : Aside t u) : Aside s u := by
  refine ⟨?_, fun a => (g.seen a).trans (h.seen a), fun e he => h.buffer e (g.buffer e he), ?_, ?_⟩
  · rw [g.rest, h.rest]
  · obtain ⟨c, hc⟩ := h.trace
    obtain ⟨d, hd⟩ := g.trace
    exact ⟨d ++ c, by rw [hd, hc, List.append_assoc]⟩
  · rcases g.bus with e | e
    · rw [e]
      exact h.bus
    · exact .inr e

theorem aside_free {s t : State} (h : t = { s with freeIndex := t.freeIndex }) : Aside s t :=
  ⟨by rw [h], free_seen h, fun e he => by rw [h] at he; exact he, ⟨[], by rw [h]; rfl⟩,
    .inl (by rw [h])⟩

theorem StuckIn.aside {s t : State} (h : StuckIn s t) : Aside s t :=
  ⟨by rw [h.rest], h.seen, h.buffer, h.trace, .inr h.bus⟩

theorem BusOnly.aside {s t : State} (h : BusOnly s t) (ht : ∃ cycles, t.trace = cycles ++ s.trace) : Aside s t :=
  ⟨by rw [h.rest], h.seen, h.buffer, ht, .inl (by rw [h.rest])⟩

theorem Aside.word {s t : State} (h : Aside s t) (a : Word) : t.seenWord a = s.seenWord a :=
  seenWord_of_bytes (by rw [h.rest]) h.seen a

theorem Aside.mayFetch {s t : State} (h : Aside s t) (a w : Word) : t.MayFetch a w ↔ s.MayFetch a w := by
  unfold State.MayFetch
  rw [h.word, show t.recentStores = s.recentStores by rw [h.rest]]

theorem Aside.answer {s t : State} (h : Aside s t) (a : Word) : t.answer a = s.answer a := by
  unfold State.answer
  rw [show t.platform = s.platform by rw [h.rest]]

theorem Aside.backed {s t : State} (h : Aside s t) (a : Word) : t.backed a = s.backed a := by
  unfold State.backed
  rw [h.answer]

/-- Every entry of the instruction cache `t` is that of `s`, or was filled in for one of these words with a word that a fetch
may find there (R95, R110). -/
def FilledIn (s t : State) (words : Word → Prop) : Prop :=
  ∀ k, tableGet k t.icache = tableGet k s.icache ∨ ∃ a w, words a ∧ k = icacheIndex a ∧
    tableGet k t.icache = some (.line true (icacheTag a) w) ∧ (s.backed a = true → s.MayFetch a w)

theorem filledIn_same {s t : State} {words : Word → Prop} (h : t.icache = s.icache) : FilledIn s t words :=
  fun _ => .inl (by rw [h])

theorem filledIn_fill {s t : State} {words : Word → Prop} (h : FilledIn s t words) {a d : Word} (ha : words a)
    (hd : s.backed a = true → s.MayFetch a d) : FilledIn s (t.fill .instr a d) words := by
  unfold State.fill
  split
  · exact h
  · intro k
    by_cases hk : k = icacheIndex a
    · exact .inr ⟨a, d, ha, hk, by rw [hk]; exact tableGet_set_some .., hd⟩
    · have : tableGet k (t.putLine .instr a true d).icache = tableGet k t.icache := tableGet_set_ne _ _ hk
      rw [this]
      exact h k

theorem filledIn_before {s t : State} {pa : Word} (hm : t.mode = s.mode)
    (h : FilledIn s t (refillWord s.mode.iblock pa)) (stores : List (Option StoredWord))
    (hl : ∀ x, some x ∈ stores → some x ∈ s.recentStores) :
    FilledIn s (t.refillBefore stores pa) (refillWord s.mode.iblock pa) := by
  unfold State.refillBefore
  induction stores generalizing t with
  | nil => exact h
  | cons e rest ih =>
    rw [List.foldl_cons]
    have hr := fun x hx => hl x (List.mem_cons_of_mem _ hx)
    cases e with
    | none => exact ih hm h hr
    | some x =>
      dsimp only
      split
      · rename_i hx
        refine ih ?_ (filledIn_fill h (hm ▸ refillReads_word hx) fun _ => .inr (hl x (List.mem_cons_self ..))) hr
        unfold State.fill
        split <;> exact hm
      · exact ih hm h hr

/-- What one aborted fetch does: `t` is `s` with it done, and unless it is cached the instruction cache is the same. -/
structure AbortsOne (s t : State) (va : Word) : Prop where
  aside : Aside s t
  icache : t.icache = s.icache ∨ inKseg1 va = false ∧ FilledIn s t (refillWord s.mode.iblock (physical va))
  goesOn : s.BusReady → s.answer (physical va) ≠ .absent → s.answer (blockAddr (physical va)) ≠ .absent → t.bus = .free

theorem abortsOne_free {s t : State} {va : Word} (h : t = { s with freeIndex := t.freeIndex }) : AbortsOne s t va :=
  ⟨aside_free h, .inl (by rw [h]), fun hr _ _ => by rw [h]; exact hr.bus⟩

/-- The fetch from a word boundary that misses in the instruction cache, or does not use it. -/
theorem abortsOne_refill {s t : State} {va : Word} (ht : t = { s with freeIndex := t.freeIndex })
    (hpa : wordAddr (physical va) = physical va) (hk : inKseg1 va = false) (sized : Bool)
    (stores : List (Option StoredWord))
    (hl : ∀ x, some x ∈ stores → some x ∈ s.recentStores) :
    (t.fetchRefill sized stores (physical va)).All (AbortsOne s · va) := by
  have hb : t.blockRefill .instr = s.mode.iblock := by rw [ht]; rfl
  have ha := aside_free ht
  unfold State.fetchRefill
  rcases refill_cases t sized .instr (physical va) with ⟨-, hr⟩ | ⟨u, hr, hu, hn⟩ | ⟨v, w, u, hu, hr, hv, hw, hc⟩
  · rw [hr]
    trivial
  · rw [hr]
    refine ⟨ha.trans hu.aside, .inl (by rw [hu.rest, ht]), fun h h1 h2 => absurd ?_ (hn ?_)⟩
    · unfold State.refillAnswered
      rw [hb, ha.answer]
      split <;> assumption
    · exact ready_of_eq h (by rw [ht]) (by rw [ht]) (fun e he => by rw [ht] at he; exact he) (by rw [ht])
  · rw [hr]
    have hau := ha.trans (hu.aside hc)
    have hm : u.mode = s.mode := by rw [hau.rest]
    have key : ∀ z : State, z = { u with icache := z.icache } → FilledIn s z (refillWord s.mode.iblock (physical va)) →
        AbortsOne s (z.refillBefore stores (physical va)) va := fun z hz hf => by
      have hz' : Aside u (z.refillBefore stores (physical va)) := by
        have h1 : z.refillBefore stores (physical va) =
            { u with icache := (z.refillBefore stores (physical va)).icache } := by
          rw [refillBefore_rest z, hz]
        refine ⟨by rw [h1], fun a => ?_, fun e he => by rw [h1] at he; exact he, ⟨[], by rw [h1]; rfl⟩, .inl (by rw [h1])⟩
        apply seenByte_of_eq <;> rw [h1]
      refine ⟨hau.trans hz', .inr ⟨hk, filledIn_before (by rw [hz]; exact hm) hf stores hl⟩, fun h _ _ => ?_⟩
      have h1 : u.bus = s.bus := by rw [hu.rest, ht]
      rw [refillBefore_rest z, hz]
      exact h1.trans h.bus
    have h0 : FilledIn s u (refillWord s.mode.iblock (physical va)) := filledIn_same (by rw [hu.rest, ht])
    rw [hb]
    cases hbk : s.mode.iblock with
    | false =>
      rw [hbk] at h0 key
      refine key _ (fill_icache_rest u _ _) (filledIn_fill h0 (.inl rfl) fun hba => .inl ?_)
      rw [hv (by rw [ha.backed]; exact hba), hpa, ha.word]
    | true =>
      rw [hbk] at h0 key
      have hwk : ∀ k < 4, s.backed (blockWord (physical va) k) = true → s.MayFetch (blockWord (physical va) k) (w k) :=
        fun k hk hba => .inl (by rw [hw k hk (by rw [ha.backed]; exact hba), ha.word])
      have hword := fun k hk => refillWord_blockWord (physical va) k hk
      refine key _ ?_ ?_
      · rw [if_pos rfl]
        unfold State.fillBlock
        rw [fill_icache_rest, fill_icache_rest (State.fill _ _ _ _), fill_icache_rest (State.fill _ _ _ _),
          fill_icache_rest u]
      · rw [if_pos rfl]
        exact filledIn_fill (filledIn_fill (filledIn_fill (filledIn_fill h0 (hword 0 (by decide)) (hwk 0 (by decide)))
          (hword 1 (by decide)) (hwk 1 (by decide))) (hword 2 (by decide)) (hwk 2 (by decide))) (hword 3 (by decide))
          (hwk 3 (by decide))

theorem abortsOne_fetch (s : State) (va : Word) (sized : Bool) : (s.fetchFrom sized va).All (AbortsOne s · va) := by
  unfold State.fetchFrom
  dsimp only
  have h0 := useCp0_free s fun v => v.sr.kuc
  by_cases hal : aligned .word va = true
  swap
  · rw [if_pos (by simpa using hal)]
    exact abortsOne_free rfl
  rw [if_neg (by simp [hal])]
  have hpa : wordAddr (physical va) = physical va := wordAddr_physical (by unfold aligned at hal; simpa using hal)
  by_cases hu : ((s.useCp0 fun v => v.sr.kuc).1 && va.getLsbD 31) = true
  · rw [show translate (s.useCp0 fun v => v.sr.kuc).1 va = none by unfold translate; rw [if_pos hu]]
    exact abortsOne_free h0
  rw [translate_ok _ _ (by simpa using hu)]
  dsimp only
  have hs := storesAhead_spec (s.useCp0 fun v => v.sr.kuc).2 (physical va)
  have h1 := free_trans h0 hs.2
  have hl : ∀ x, some x ∈ ((s.useCp0 fun v => v.sr.kuc).2.storesAhead (physical va)).1 → some x ∈ s.recentStores :=
    fun x hx => by
      have := hs.1 x hx
      rw [h0] at this
      exact this
  generalize ((s.useCp0 fun v => v.sr.kuc).2.storesAhead (physical va)) = v at h1 hl
  obtain ⟨stores, v⟩ := v
  dsimp only at h1 hl ⊢
  by_cases hk : inKseg1 va = true
  · rw [if_pos hk]
    have ha := aside_free h1
    rcases busRead_cases v sized (physical va) (.uncached Size.word.accessType) with
      ⟨-, hr⟩ | ⟨u, hr, hu, hn⟩ | ⟨w, u, hr, hb, -, c, hc⟩
    · rw [hr]
      trivial
    · rw [hr]
      refine ⟨ha.trans hu.aside, .inl (by rw [hu.rest]; rw [h1]), fun h g _ => absurd (hn ?_) (by rw [ha.answer]; exact g)⟩
      exact ready_of_eq h (by rw [h1]) (by rw [h1]) (fun e he => by rw [h1] at he; exact he) (by rw [h1])
    · rw [hr]
      refine ⟨ha.trans (hb.aside ⟨_, by rw [hc, ← List.append_assoc]⟩), .inl (by rw [hb.rest]; rw [h1]), fun h _ _ => ?_⟩
      rw [hb.rest]
      rw [h1]
      exact h.bus
  · rw [if_neg hk]
    by_cases hsw : (v.useCp0 fun x => x.sr.swc).1 = true
    · rw [if_pos hsw]
      trivial
    rw [if_neg hsw]
    have h2 := free_trans h1 (useCp0_free v fun x => x.sr.swc)
    generalize (v.useCp0 fun x => x.sr.swc).2 = z at h2
    have hk' : inKseg1 va = false := by simpa using hk
    unfold State.cacheRead
    cases z.look .instr (physical va) with
    | hit d => exact abortsOne_free h2
    | miss => exact abortsOne_refill h2 hpa hk' sized stores hl
    | unknown =>
      dsimp only
      split
      · exact abortsOne_free (free_trans (free_trans h2 rfl) rfl)
      · exact abortsOne_refill (free_trans h2 rfl) hpa hk' sized stores hl

/-- All that one aborted fetch does. -/
theorem fetchAborted_spec (s : State) (va : Word) (sized : Bool) : AbortsOne s (s.fetchAborted va sized) va := by
  have h := abortsOne_fetch s va sized
  unfold State.fetchAborted
  cases hf : s.fetchFrom sized va <;> rw [hf] at h <;> first | exact h | exact abortsOne_free rfl

/-- What several aborted fetches do: `t` is `s` with them done. -/
structure AbortsAll (s t : State) (fetches : List (Word × Bool)) : Prop where
  aside : Aside s t
  filledIn : FilledIn s t fun a => ∃ f ∈ fetches, inKseg1 f.1 = false ∧ refillWord s.mode.iblock (physical f.1) a
  goesOn : s.BusReady →
    (∀ f ∈ fetches, s.answer (physical f.1) ≠ .absent ∧ s.answer (blockAddr (physical f.1)) ≠ .absent) → t.bus = .free

/-- All that several aborted fetches do. -/
theorem abortsAll (fetches : List (Word × Bool)) (s : State) :
    AbortsAll s (fetches.foldl (fun t f => t.fetchAborted f.1 f.2) s) fetches := by
  induction fetches generalizing s with
  | nil => exact ⟨aside_free rfl, filledIn_same rfl, fun h _ => h.bus⟩
  | cons f rest ih =>
    rw [List.foldl_cons]
    have h := fetchAborted_spec s f.1 f.2
    have g := ih (s.fetchAborted f.1 f.2)
    generalize s.fetchAborted f.1 f.2 = t at h g
    generalize rest.foldl (fun t f => t.fetchAborted f.1 f.2) t = u at g
    refine ⟨h.aside.trans g.aside, fun k => ?_, fun hr ha => ?_⟩
    · rcases g.filledIn k with e | ⟨a, w, ⟨va', hm, hk, hw⟩, e, hu, hf⟩
      · rcases h.icache with e' | ⟨hk, e'⟩
        · exact .inl (by rw [e, e'])
        · rcases e' k with e' | ⟨a, w, hw, e2, hu, hf⟩
          · exact .inl (by rw [e, e'])
          · exact .inr ⟨a, w, ⟨f, List.mem_cons_self .., hk, hw⟩, e2, by rw [e, hu], hf⟩
      · rw [show t.mode = s.mode by rw [h.aside.rest]] at hw
        rw [h.aside.backed, h.aside.mayFetch] at hf
        exact .inr ⟨a, w, ⟨va', List.mem_cons_of_mem _ hm, hk, hw⟩, e, hu, hf⟩
    · have hv := ha f (List.mem_cons_self ..)
      refine g.goesOn (ready_of_eq hr ?_ ?_ h.aside.buffer ?_) fun va' hm => ?_
      · rw [show t.inputs = s.inputs by rw [h.aside.rest]]
      · rw [h.goesOn hr hv.1 hv.2, hr.bus]
      · rw [h.aside.rest]
      · rw [h.aside.answer, h.aside.answer]
        exact ha va' (List.mem_cons_of_mem _ hm)

/-- The cycles of a single read of an aligned word are those that the statements give (R332 to R334). -/
theorem readCycles_shown (p : ModePins) (sized : Bool) {a : Word} (ha : wordAddr a = a) (type : ReadType) :
    (readCycles p sized a type).reverse = shownReads p sized a type := by
  have h : ∀ k : BitVec 2, (a.extractLsb' 2 30 ++ k : BitVec 32) = a + k.setWidth 32 := fun k => by
    have h1 := wordAddr_toNat a
    rw [ha] at h1
    have h2 := a.isLt
    have h3 := k.isLt
    apply BitVec.eq_of_toNat_eq
    rw [BitVec.toNat_append, ← Nat.shiftLeft_add_eq_or_of_lt h3, BitVec.toNat_add, BitVec.toNat_setWidth]
    simp only [BitVec.extractLsb'_toNat, Nat.shiftRight_eq_div_pow, Nat.shiftLeft_eq]
    omega
  unfold readCycles readOffsets shownReads
  cases sized <;> cases p.dbussiz <;> cases p.sbussiz <;> simp [h]

/-- An aborted fetch from kseg1 is read from the bus, sized as it asks (R88(d), R331). -/
theorem fetchAborted_read {s : State} {va : Word} (hf : s.FetchableAt va) (hk : inKseg1 va = true)
    (hr : s.Readable false va) (sized : Bool) :
    ∃ drained, (s.fetchAborted va sized).trace = shownReads s.mode sized (physical va) (.uncached 3) ++ drained ++ s.trace := by
  obtain ⟨v, stores, hv, -, he⟩ := fetchFrom_ok hf (u := s) rfl
  have he := he sized
  have hready := ready_free hv hr.ready
  rw [if_pos hk] at he
  rcases busRead_cases v sized (physical va) (.uncached Size.word.accessType) with
    ⟨hh, -⟩ | ⟨u, -, -, hn⟩ | ⟨w, u, hb, -, -, drained, hc⟩
  · rw [hready.hold] at hh
    cases hh
  · exact absurd (hn hready) (by rw [answer_free hv]; exact not_absent_of_backed hr.backed)
  · refine ⟨drained, ?_⟩
    unfold State.fetchAborted
    rw [he, hb]
    simp only [Act.bind]
    rw [hc, readCycles_shown _ _ (wordAddr_physical hf.1), hv, List.append_assoc]
    rfl

/-- An aborted fetch that misses in the instruction cache fills its entry (R88(d), R95). -/
theorem fetchAborted_filled {s : State} {va : Word} (hf : s.FetchableAt va) (hc : s.CachedAt va)
    (hi : s.inputs.icclr = false) (hm : s.MissesInstr (physical va)) (hr : s.Readable s.mode.iblock va) (sized : Bool) :
    ∃ w, s.MayFetch (physical va) w ∧
      (s.fetchAborted va sized).icacheEntry (physical va) = some (.line true ((physical va).extractLsb' 12 20) w) := by
  obtain ⟨v, stores, hv, hl, he⟩ := fetchFrom_ok hf (u := s) rfl
  have he := he sized
  rw [if_neg (by simp [hc.1]), if_neg (by simp [useCp0_swc hv hc])] at he
  obtain ⟨t, ht, -, -, hfill⟩ :=
    fetch_miss (free_trans hv (useCp0_free v fun x => x.sr.swc)) hf.1 hc.1 hm hr sized stores hl
  refine ⟨_, mayFetch_before hl _, ?_⟩
  unfold State.fetchAborted
  rw [he, ht]
  exact hfill hi

/-- All that several aborted fetches do, in the words that the statements use. -/
theorem aborts_fetches (fetches : List (Word × Bool)) (s : State) :
    Aborts s (fetches.foldl (fun t f => t.fetchAborted f.1 f.2) s) fetches := by
  have h := abortsAll fetches s
  refine ⟨h.aside.seen, ?_, fun k => ?_, h.aside.buffer, h.aside.trace, h.aside.bus, h.goesOn, ?_, ?_, ?_, ?_⟩
  · rw [h.aside.rest]
  · rcases h.filledIn k with e | ⟨a, w, ⟨va, hm, hk, hw⟩, e⟩
    · exact .inl e
    · exact .inr ⟨va, hm, hk, a, w, hw, e⟩
  · have := h.aside.rest
    exact ⟨by rw [this], by rw [this], by rw [this], by rw [this]⟩
  · rintro rfl
    exact ⟨⟨fun _ => rfl, rfl, rfl, rfl, rfl⟩, rfl⟩
  · rintro va sized rfl hf hk hr
    exact fetchAborted_read hf hk hr sized
  · rintro va sized rfl hf hc hi hm hr
    exact fetchAborted_filled hf hc hi hm hr sized

/-! ### The entry -/

theorem aside_maySee {s u : State} (h : Aside s u) (v : Cp0View) : u.MaySee v ↔ s.MaySee v := by
  rw [h.rest]
  exact Iff.rfl

/-- Everything that the entry does to the registers (R370 to R374), in a state `u` in which the fetches were aborted. -/
theorem enters_enter (s u : State) (x : Exc) (h : Aside s u) : Aborts s u (s.begun (x.code == 0)) →
    Enters s (u.enter x) x.code (match x with | .cpu z => some z | _ => none)
      (match x with | .adel a => some a | .ades a => some a | _ => none) := by
  intro ha
  have hsr : (u.enter x).sr = u.sr.push (u.useCp0 fun v => (v.sr.kup, v.sr.iep, v.sr.kuc, v.sr.iec)).1 := rfl
  have hpc : (u.enter x).pc = exceptionVector
      ((u.useCp0 fun v => (v.sr.kup, v.sr.iep, v.sr.kuc, v.sr.iec)).2.useCp0 fun v => v.sr.bev).1 := rfl
  obtain ⟨v, hv, hve⟩ := useCp0_mayView u fun v => (v.sr.kup, v.sr.iep, v.sr.kuc, v.sr.iec)
  obtain ⟨w, hw, hwe⟩ := useCp0_mayView (u.useCp0 fun v => (v.sr.kup, v.sr.iep, v.sr.kuc, v.sr.iec)).2 fun v => v.sr.bev
  rw [maySee_of (useCp0_free _ _), aside_maySee h] at hw
  rw [aside_maySee h] at hv
  rw [hve] at hsr
  rw [hwe] at hpc
  have hu : ∀ {β : Type} (g : State → β), g u = g { s with
      mem := u.mem, writeBuffer := u.writeBuffer, icache := u.icache, trace := u.trace, bus := u.bus,
      freeIndex := u.freeIndex } := fun g => congrArg g h.rest
  constructor
  case epc => rw [enter_epc, hu State.inDelaySlot, hu State.pc]
  case bd => rw [enter_bd, hu State.inDelaySlot]
  case excCode => rfl
  case ce => cases x <;> simp
  case sw => rw [enter_sw, hu State.cause]
  case badVAddr => rw [enter_badVAddr, hu State.badVAddr]; cases x <;> rfl
  case stack => exact ⟨v, hv, by constructor <;> simp [hsr, hu State.sr, Status.push]⟩
  case pc => exact ⟨w, hw, hpc⟩
  case npc => rfl
  case inDelaySlot => rfl
  case ldSlot => rfl
  case recentStores => rfl
  case afterMtc0 => rfl
  case prevMem => rfl
  case readWaiting => rfl
  case counters =>
    rw [enter_sinceMfhi, enter_sinceMflo, enter_sinceStore, hu State.sinceMfhi, hu State.sinceMflo, hu State.sinceStore]
    exact ⟨rfl, rfl, rfl⟩
  case gprs => intro q; rw [readGpr_enter, hu (State.readGpr · q)]; rfl
  case hiLo => constructor <;> simp [hu State.hi, hu State.lo, hu State.mdFresh]
  case pteBase => simp [hu State.pteBase]
  case aborts =>
    obtain ⟨h1, h2, h3, h4, h5, h6, h7, h8, h9, h10, h11⟩ := ha
    refine ⟨fun a => ?_, ?_, ?_, ?_, ?_, ?_, ?_, ?_, fun e => ?_, ?_, ?_⟩
    · rw [← h1 a]
      apply seenByte_of_eq <;> simp
    · rw [enter_dcache, h2]
    · rw [enter_icache]
      exact h3
    · rw [enter_writeBuffer]
      exact h4
    · rw [enter_trace]
      exact h5
    · rw [enter_bus]
      exact h6
    · rw [enter_bus]
      exact h7
    · rw [enter_platform, enter_mode, enter_inputs, enter_schedule]
      exact h8
    · obtain ⟨g, g'⟩ := h9 e
      refine ⟨⟨fun a => ?_, ?_, ?_, ?_, ?_⟩, by rw [enter_bus, g']⟩
      · rw [enter_mem, g.bytes]
      · rw [enter_writeBuffer, g.writeBuffer]
      · rw [enter_icache, g.icache]
      · rw [enter_dcache, g.dcache]
      · rw [enter_trace, g.trace]
    · rw [enter_trace]
      exact h10
    · have : ∀ a, (u.enter x).icacheEntry a = u.icacheEntry a := fun a => by
        unfold State.icacheEntry
        rw [enter_icache]
      simp only [this]
      exact h11

theorem wordsAhead_begun (s : State) (x : Exc) :
    (s.wordsAhead x).zip s.inputs.abortedFetches = s.begun (x.code == 0) := by
  have h : s.wordsAhead x =
      ((if x.code == 0 then [s.pc] else []) ++ [s.npc, s.npc + 4, s.npc + 8, s.npc + 12]).take 4 := by
    cases x <;> rfl
  unfold State.begun
  rw [h]

theorem aborts_free {s u t : State} {fetches : List (Word × Bool)} (h : u = { s with freeIndex := u.freeIndex })
    (ha : Aborts u t fetches) : Aborts s t fetches := by
  generalize u.freeIndex = n at h
  subst h
  have ready : s.BusReady → State.BusReady { s with freeIndex := n } := fun g => ⟨g.hold, g.bus, g.answered⟩
  have readable : ∀ block va, s.Readable block va → State.Readable { s with freeIndex := n } block va :=
    fun _ _ g => ⟨ready g.ready, g.backed, g.block⟩
  exact ⟨ha.bytes, ha.dcache, ha.icache, ha.buffer, ha.trace, ha.bus, fun g => ha.goesOn (ready g), ha.others,
    fun e => ⟨⟨(ha.none e).1.bytes, (ha.none e).1.writeBuffer, (ha.none e).1.icache, (ha.none e).1.dcache,
      (ha.none e).1.trace⟩, (ha.none e).2⟩,
    fun va sized e hf hk hr => ha.read va sized e hf hk (readable _ _ hr),
    fun va sized e hf hc hi hm hr => ha.filled va sized e hf hc hi hm (readable _ _ hr)⟩

/-- Everything that taking an exception does (R88(d), R370 to R374), in a state `u` that differs from `s` in used free values
only. -/
theorem enters_take (s u : State) (x : Exc) (h : u = { s with freeIndex := u.freeIndex }) :
    Enters s (u.takeException x) x.code (match x with | .cpu z => some z | _ => none)
      (match x with | .adel a => some a | .ades a => some a | _ => none) := by
  have hw : (u.wordsAhead x).zip u.inputs.abortedFetches = s.begun (x.code == 0) := by
    rw [wordsAhead_begun, h]
    rfl
  unfold State.takeException State.abortFetches
  rw [hw]
  exact enters_enter s _ x ((aside_free h).trans (abortsAll _ u).aside) (aborts_free h (aborts_fetches _ u))

theorem kept_fetchAborted {s : State} (h : Kept s) (va : Word) (sized : Bool) : Kept (s.fetchAborted va sized) := by
  have hk := kept_fetchFrom h sized va
  unfold State.fetchAborted
  cases hf : s.fetchFrom sized va <;> rw [hf] at hk <;> first | exact hk | exact h

/-- Taking an exception keeps the invariants of memory, caches and write buffer. -/
theorem kept_takeException {s : State} (h : Kept s) (x : Exc) : Kept (s.takeException x) := by
  unfold State.takeException State.abortFetches
  generalize (s.wordsAhead x).zip s.inputs.abortedFetches = fetches
  refine kept_enter ?_ x
  induction fetches generalizing s with
  | nil => exact h
  | cons f rest ih => exact ih (kept_fetchAborted h f.1 f.2)

end Sys2Proof.Machine
end

