-- ==== Sys2Proof/Laws/PerInstr.lean ====
section
/-! SUPPORT. Every encoded word carries the match bits of its row of spec/opcode_table.json (R134, R137): one lemma per
instruction. The rows are copied from the table, not computed from the encoder. -/

namespace Sys2Proof.Laws.TableRow

/-- The mask and match columns of an instruction's row in spec/opcode_table.json. -/
def row : Instr → Word × Word
  | .lb _ _ _ => (0xFC000000, 0x80000000)
  | .lh _ _ _ => (0xFC000000, 0x84000000)
  | .lwl _ _ _ => (0xFC000000, 0x88000000)
  | .lw _ _ _ => (0xFC000000, 0x8C000000)
  | .lbu _ _ _ => (0xFC000000, 0x90000000)
  | .lhu _ _ _ => (0xFC000000, 0x94000000)
  | .lwr _ _ _ => (0xFC000000, 0x98000000)
  | .sb _ _ _ => (0xFC000000, 0xA0000000)
  | .sh _ _ _ => (0xFC000000, 0xA4000000)
  | .swl _ _ _ => (0xFC000000, 0xA8000000)
  | .sw _ _ _ => (0xFC000000, 0xAC000000)
  | .swr _ _ _ => (0xFC000000, 0xB8000000)
  | .addi _ _ _ => (0xFC000000, 0x20000000)
  | .addiu _ _ _ => (0xFC000000, 0x24000000)
  | .slti _ _ _ => (0xFC000000, 0x28000000)
  | .sltiu _ _ _ => (0xFC000000, 0x2C000000)
  | .andi _ _ _ => (0xFC000000, 0x30000000)
  | .ori _ _ _ => (0xFC000000, 0x34000000)
  | .xori _ _ _ => (0xFC000000, 0x38000000)
  | .lui _ _ => (0xFFE00000, 0x3C000000)
  | .add _ _ _ => (0xFC0007FF, 0x00000020)
  | .addu _ _ _ => (0xFC0007FF, 0x00000021)
  | .sub _ _ _ => (0xFC0007FF, 0x00000022)
  | .subu _ _ _ => (0xFC0007FF, 0x00000023)
  | .and _ _ _ => (0xFC0007FF, 0x00000024)
  | .or _ _ _ => (0xFC0007FF, 0x00000025)
  | .xor _ _ _ => (0xFC0007FF, 0x00000026)
  | .nor _ _ _ => (0xFC0007FF, 0x00000027)
  | .slt _ _ _ => (0xFC0007FF, 0x0000002A)
  | .sltu _ _ _ => (0xFC0007FF, 0x0000002B)
  | .sll _ _ _ => (0xFFE0003F, 0x00000000)
  | .srl _ _ _ => (0xFFE0003F, 0x00000002)
  | .sra _ _ _ => (0xFFE0003F, 0x00000003)
  | .sllv _ _ _ => (0xFC0007FF, 0x00000004)
  | .srlv _ _ _ => (0xFC0007FF, 0x00000006)
  | .srav _ _ _ => (0xFC0007FF, 0x00000007)
  | .mult _ _ => (0xFC00FFFF, 0x00000018)
  | .multu _ _ => (0xFC00FFFF, 0x00000019)
  | .div _ _ => (0xFC00FFFF, 0x0000001A)
  | .divu _ _ => (0xFC00FFFF, 0x0000001B)
  | .mfhi _ => (0xFFFF07FF, 0x00000010)
  | .mthi _ => (0xFC1FFFFF, 0x00000011)
  | .mflo _ => (0xFFFF07FF, 0x00000012)
  | .mtlo _ => (0xFC1FFFFF, 0x00000013)
  | .j _ => (0xFC000000, 0x08000000)
  | .jal _ => (0xFC000000, 0x0C000000)
  | .jr _ => (0xFC1FFFFF, 0x00000008)
  | .jalr _ _ => (0xFC1F07FF, 0x00000009)
  | .beq _ _ _ => (0xFC000000, 0x10000000)
  | .bne _ _ _ => (0xFC000000, 0x14000000)
  | .blez _ _ => (0xFC1F0000, 0x18000000)
  | .bgtz _ _ => (0xFC1F0000, 0x1C000000)
  | .bltz _ _ => (0xFC1F0000, 0x04000000)
  | .bgez _ _ => (0xFC1F0000, 0x04010000)
  | .bltzal _ _ => (0xFC1F0000, 0x04100000)
  | .bgezal _ _ => (0xFC1F0000, 0x04110000)
  | .syscall => (0xFFFFFFFF, 0x0000000C)
  | .brk _ => (0xFC00003F, 0x0000000D)
  | .mfc0 _ _ => (0xFFE007FF, 0x40000000)
  | .mtc0 _ _ => (0xFFE007FF, 0x40800000)
  | .bc0f _ => (0xFFFF0000, 0x41000000)
  | .bc0t _ => (0xFFFF0000, 0x41010000)
  | .rfe => (0xFFFFFFFF, 0x42000010)
  | .cop1 _ => (0xFC000000, 0x44000000)
  | .cop2 _ => (0xFC000000, 0x48000000)
  | .cop3 _ => (0xFC000000, 0x4C000000)
  | .lwc0 _ _ _ => (0xFC000000, 0xC0000000)
  | .lwc1 _ _ _ => (0xFC000000, 0xC4000000)
  | .lwc2 _ _ _ => (0xFC000000, 0xC8000000)
  | .lwc3 _ _ _ => (0xFC000000, 0xCC000000)
  | .swc0 _ _ _ => (0xFC000000, 0xE0000000)
  | .swc1 _ _ _ => (0xFC000000, 0xE4000000)
  | .swc2 _ _ _ => (0xFC000000, 0xE8000000)
  | .swc3 _ _ _ => (0xFC000000, 0xEC000000)
  | .tlbr => (0xFFFFFFFF, 0x42000001)
  | .tlbwi => (0xFFFFFFFF, 0x42000002)
  | .tlbwr => (0xFFFFFFFF, 0x42000006)
  | .tlbp => (0xFFFFFFFF, 0x42000008)

/-- The encoded word agrees with the match column of the instruction's row under its mask (R134). -/
def Statement (i : Instr) : Prop := encode i &&& (row i).1 = (row i).2

theorem iType_and (op op' : BitVec 6) (rs rs' rt rt' : Reg) (imm imm' : Half) :
    iType op rs rt imm &&& iType op' rs' rt' imm' = iType (op &&& op') (rs &&& rs') (rt &&& rt') (imm &&& imm') :=
  (BitVec.and_append (x₁ := op ++ rs ++ rt) (y₁ := imm)).trans
    (congrArg (· ++ (imm &&& imm')) ((BitVec.and_append (x₁ := op ++ rs) (y₁ := rt)).trans
      (congrArg (· ++ (rt &&& rt')) (BitVec.and_append (x₁ := op) (y₁ := rs)))))

theorem rType_and (op op' : BitVec 6) (rs rs' rt rt' rd rd' sa sa' : BitVec 5) (funct funct' : BitVec 6) :
    rType op rs rt rd sa funct &&& rType op' rs' rt' rd' sa' funct' =
      rType (op &&& op') (rs &&& rs') (rt &&& rt') (rd &&& rd') (sa &&& sa') (funct &&& funct') :=
  (BitVec.and_append (x₁ := op ++ rs ++ rt ++ rd ++ sa) (y₁ := funct)).trans
    (congrArg (· ++ (funct &&& funct')) ((BitVec.and_append (x₁ := op ++ rs ++ rt ++ rd) (y₁ := sa)).trans
      (congrArg (· ++ (sa &&& sa')) ((BitVec.and_append (x₁ := op ++ rs ++ rt) (y₁ := rd)).trans
        (congrArg (· ++ (rd &&& rd')) ((BitVec.and_append (x₁ := op ++ rs) (y₁ := rt)).trans
          (congrArg (· ++ (rt &&& rt')) (BitVec.and_append (x₁ := op) (y₁ := rs)))))))))

theorem jType_and (op op' : BitVec 6) (t t' : BitVec 26) :
    jType op t &&& jType op' t' = jType (op &&& op') (t &&& t') :=
  BitVec.and_append (x₁ := op) (y₁ := t)

theorem reg_and_zero (r : Reg) : r &&& 0 = 0 := BitVec.and_zero

theorem half_and_zero (x : Half) : x &&& 0 = 0 := BitVec.and_zero

theorem target_and_zero (x : BitVec 26) : x &&& 0 = 0 := BitVec.and_zero

theorem lb (base rt : Reg) (offset : Half) : Statement (.lb base rt offset) :=
  (iType_and _ 63 _ 0 _ 0 _ 0).trans (by simp only [reg_and_zero, half_and_zero]; rfl)

theorem lh (base rt : Reg) (offset : Half) : Statement (.lh base rt offset) :=
  (iType_and _ 63 _ 0 _ 0 _ 0).trans (by simp only [reg_and_zero, half_and_zero]; rfl)

theorem lwl (base rt : Reg) (offset : Half) : Statement (.lwl base rt offset) :=
  (iType_and _ 63 _ 0 _ 0 _ 0).trans (by simp only [reg_and_zero, half_and_zero]; rfl)

theorem lw (base rt : Reg) (offset : Half) : Statement (.lw base rt offset) :=
  (iType_and _ 63 _ 0 _ 0 _ 0).trans (by simp only [reg_and_zero, half_and_zero]; rfl)

theorem lbu (base rt : Reg) (offset : Half) : Statement (.lbu base rt offset) :=
  (iType_and _ 63 _ 0 _ 0 _ 0).trans (by simp only [reg_and_zero, half_and_zero]; rfl)

theorem lhu (base rt : Reg) (offset : Half) : Statement (.lhu base rt offset) :=
  (iType_and _ 63 _ 0 _ 0 _ 0).trans (by simp only [reg_and_zero, half_and_zero]; rfl)

theorem lwr (base rt : Reg) (offset : Half) : Statement (.lwr base rt offset) :=
  (iType_and _ 63 _ 0 _ 0 _ 0).trans (by simp only [reg_and_zero, half_and_zero]; rfl)

theorem sb (base rt : Reg) (offset : Half) : Statement (.sb base rt offset) :=
  (iType_and _ 63 _ 0 _ 0 _ 0).trans (by simp only [reg_and_zero, half_and_zero]; rfl)

theorem sh (base rt : Reg) (offset : Half) : Statement (.sh base rt offset) :=
  (iType_and _ 63 _ 0 _ 0 _ 0).trans (by simp only [reg_and_zero, half_and_zero]; rfl)

theorem swl (base rt : Reg) (offset : Half) : Statement (.swl base rt offset) :=
  (iType_and _ 63 _ 0 _ 0 _ 0).trans (by simp only [reg_and_zero, half_and_zero]; rfl)

theorem sw (base rt : Reg) (offset : Half) : Statement (.sw base rt offset) :=
  (iType_and _ 63 _ 0 _ 0 _ 0).trans (by simp only [reg_and_zero, half_and_zero]; rfl)

theorem swr (base rt : Reg) (offset : Half) : Statement (.swr base rt offset) :=
  (iType_and _ 63 _ 0 _ 0 _ 0).trans (by simp only [reg_and_zero, half_and_zero]; rfl)

theorem addi (rs rt : Reg) (immediate : Half) : Statement (.addi rs rt immediate) :=
  (iType_and _ 63 _ 0 _ 0 _ 0).trans (by simp only [reg_and_zero, half_and_zero]; rfl)

theorem addiu (rs rt : Reg) (immediate : Half) : Statement (.addiu rs rt immediate) :=
  (iType_and _ 63 _ 0 _ 0 _ 0).trans (by simp only [reg_and_zero, half_and_zero]; rfl)

theorem slti (rs rt : Reg) (immediate : Half) : Statement (.slti rs rt immediate) :=
  (iType_and _ 63 _ 0 _ 0 _ 0).trans (by simp only [reg_and_zero, half_and_zero]; rfl)

theorem sltiu (rs rt : Reg) (immediate : Half) : Statement (.sltiu rs rt immediate) :=
  (iType_and _ 63 _ 0 _ 0 _ 0).trans (by simp only [reg_and_zero, half_and_zero]; rfl)

theorem andi (rs rt : Reg) (immediate : Half) : Statement (.andi rs rt immediate) :=
  (iType_and _ 63 _ 0 _ 0 _ 0).trans (by simp only [reg_and_zero, half_and_zero]; rfl)

theorem ori (rs rt : Reg) (immediate : Half) : Statement (.ori rs rt immediate) :=
  (iType_and _ 63 _ 0 _ 0 _ 0).trans (by simp only [reg_and_zero, half_and_zero]; rfl)

theorem xori (rs rt : Reg) (immediate : Half) : Statement (.xori rs rt immediate) :=
  (iType_and _ 63 _ 0 _ 0 _ 0).trans (by simp only [reg_and_zero, half_and_zero]; rfl)

theorem lui (rt : Reg) (immediate : Half) : Statement (.lui rt immediate) :=
  (iType_and _ 63 _ 31 _ 0 _ 0).trans (by simp only [reg_and_zero, half_and_zero]; rfl)

theorem add (rs rt rd : Reg) : Statement (.add rs rt rd) :=
  (rType_and _ 63 _ 0 _ 0 _ 0 _ 31 _ 63).trans (by simp only [reg_and_zero]; rfl)

theorem addu (rs rt rd : Reg) : Statement (.addu rs rt rd) :=
  (rType_and _ 63 _ 0 _ 0 _ 0 _ 31 _ 63).trans (by simp only [reg_and_zero]; rfl)

theorem sub (rs rt rd : Reg) : Statement (.sub rs rt rd) :=
  (rType_and _ 63 _ 0 _ 0 _ 0 _ 31 _ 63).trans (by simp only [reg_and_zero]; rfl)

theorem subu (rs rt rd : Reg) : Statement (.subu rs rt rd) :=
  (rType_and _ 63 _ 0 _ 0 _ 0 _ 31 _ 63).trans (by simp only [reg_and_zero]; rfl)

theorem and (rs rt rd : Reg) : Statement (.and rs rt rd) :=
  (rType_and _ 63 _ 0 _ 0 _ 0 _ 31 _ 63).trans (by simp only [reg_and_zero]; rfl)

theorem or (rs rt rd : Reg) : Statement (.or rs rt rd) :=
  (rType_and _ 63 _ 0 _ 0 _ 0 _ 31 _ 63).trans (by simp only [reg_and_zero]; rfl)

theorem xor (rs rt rd : Reg) : Statement (.xor rs rt rd) :=
  (rType_and _ 63 _ 0 _ 0 _ 0 _ 31 _ 63).trans (by simp only [reg_and_zero]; rfl)

theorem nor (rs rt rd : Reg) : Statement (.nor rs rt rd) :=
  (rType_and _ 63 _ 0 _ 0 _ 0 _ 31 _ 63).trans (by simp only [reg_and_zero]; rfl)

theorem slt (rs rt rd : Reg) : Statement (.slt rs rt rd) :=
  (rType_and _ 63 _ 0 _ 0 _ 0 _ 31 _ 63).trans (by simp only [reg_and_zero]; rfl)

theorem sltu (rs rt rd : Reg) : Statement (.sltu rs rt rd) :=
  (rType_and _ 63 _ 0 _ 0 _ 0 _ 31 _ 63).trans (by simp only [reg_and_zero]; rfl)

theorem sll (rt rd : Reg) (sa : BitVec 5) : Statement (.sll rt rd sa) :=
  (rType_and _ 63 _ 31 _ 0 _ 0 _ 0 _ 63).trans (by simp only [reg_and_zero]; rfl)

theorem srl (rt rd : Reg) (sa : BitVec 5) : Statement (.srl rt rd sa) :=
  (rType_and _ 63 _ 31 _ 0 _ 0 _ 0 _ 63).trans (by simp only [reg_and_zero]; rfl)

theorem sra (rt rd : Reg) (sa : BitVec 5) : Statement (.sra rt rd sa) :=
  (rType_and _ 63 _ 31 _ 0 _ 0 _ 0 _ 63).trans (by simp only [reg_and_zero]; rfl)

theorem sllv (rs rt rd : Reg) : Statement (.sllv rs rt rd) :=
  (rType_and _ 63 _ 0 _ 0 _ 0 _ 31 _ 63).trans (by simp only [reg_and_zero]; rfl)

theorem srlv (rs rt rd : Reg) : Statement (.srlv rs rt rd) :=
  (rType_and _ 63 _ 0 _ 0 _ 0 _ 31 _ 63).trans (by simp only [reg_and_zero]; rfl)

theorem srav (rs rt rd : Reg) : Statement (.srav rs rt rd) :=
  (rType_and _ 63 _ 0 _ 0 _ 0 _ 31 _ 63).trans (by simp only [reg_and_zero]; rfl)

theorem mult (rs rt : Reg) : Statement (.mult rs rt) :=
  (rType_and _ 63 _ 0 _ 0 _ 31 _ 31 _ 63).trans (by simp only [reg_and_zero]; rfl)

theorem multu (rs rt : Reg) : Statement (.multu rs rt) :=
  (rType_and _ 63 _ 0 _ 0 _ 31 _ 31 _ 63).trans (by simp only [reg_and_zero]; rfl)

theorem div (rs rt : Reg) : Statement (.div rs rt) :=
  (rType_and _ 63 _ 0 _ 0 _ 31 _ 31 _ 63).trans (by simp only [reg_and_zero]; rfl)

theorem divu (rs rt : Reg) : Statement (.divu rs rt) :=
  (rType_and _ 63 _ 0 _ 0 _ 31 _ 31 _ 63).trans (by simp only [reg_and_zero]; rfl)

theorem mfhi (rd : Reg) : Statement (.mfhi rd) :=
  (rType_and _ 63 _ 31 _ 31 _ 0 _ 31 _ 63).trans (by simp only [reg_and_zero]; rfl)

theorem mthi (rs : Reg) : Statement (.mthi rs) :=
  (rType_and _ 63 _ 0 _ 31 _ 31 _ 31 _ 63).trans (by simp only [reg_and_zero]; rfl)

theorem mflo (rd : Reg) : Statement (.mflo rd) :=
  (rType_and _ 63 _ 31 _ 31 _ 0 _ 31 _ 63).trans (by simp only [reg_and_zero]; rfl)

theorem mtlo (rs : Reg) : Statement (.mtlo rs) :=
  (rType_and _ 63 _ 0 _ 31 _ 31 _ 31 _ 63).trans (by simp only [reg_and_zero]; rfl)

theorem j (target : BitVec 26) : Statement (.j target) :=
  (jType_and _ 63 _ 0).trans (by simp only [target_and_zero]; rfl)

theorem jal (target : BitVec 26) : Statement (.jal target) :=
  (jType_and _ 63 _ 0).trans (by simp only [target_and_zero]; rfl)

theorem jr (rs : Reg) : Statement (.jr rs) :=
  (rType_and _ 63 _ 0 _ 31 _ 31 _ 31 _ 63).trans (by simp only [reg_and_zero]; rfl)

theorem jalr (rs rd : Reg) : Statement (.jalr rs rd) :=
  (rType_and _ 63 _ 0 _ 31 _ 0 _ 31 _ 63).trans (by simp only [reg_and_zero]; rfl)

theorem beq (rs rt : Reg) (offset : Half) : Statement (.beq rs rt offset) :=
  (iType_and _ 63 _ 0 _ 0 _ 0).trans (by simp only [reg_and_zero, half_and_zero]; rfl)

theorem bne (rs rt : Reg) (offset : Half) : Statement (.bne rs rt offset) :=
  (iType_and _ 63 _ 0 _ 0 _ 0).trans (by simp only [reg_and_zero, half_and_zero]; rfl)

theorem blez (rs : Reg) (offset : Half) : Statement (.blez rs offset) :=
  (iType_and _ 63 _ 0 _ 31 _ 0).trans (by simp only [reg_and_zero, half_and_zero]; rfl)

theorem bgtz (rs : Reg) (offset : Half) : Statement (.bgtz rs offset) :=
  (iType_and _ 63 _ 0 _ 31 _ 0).trans (by simp only [reg_and_zero, half_and_zero]; rfl)

theorem bltz (rs : Reg) (offset : Half) : Statement (.bltz rs offset) :=
  (iType_and _ 63 _ 0 _ 31 _ 0).trans (by simp only [reg_and_zero, half_and_zero]; rfl)

theorem bgez (rs : Reg) (offset : Half) : Statement (.bgez rs offset) :=
  (iType_and _ 63 _ 0 _ 31 _ 0).trans (by simp only [reg_and_zero, half_and_zero]; rfl)

theorem bltzal (rs : Reg) (offset : Half) : Statement (.bltzal rs offset) :=
  (iType_and _ 63 _ 0 _ 31 _ 0).trans (by simp only [reg_and_zero, half_and_zero]; rfl)

theorem bgezal (rs : Reg) (offset : Half) : Statement (.bgezal rs offset) :=
  (iType_and _ 63 _ 0 _ 31 _ 0).trans (by simp only [reg_and_zero, half_and_zero]; rfl)

theorem syscall : Statement (.syscall) :=
  (rType_and _ 63 _ 31 _ 31 _ 31 _ 31 _ 63).trans (rfl)

theorem brk (code : BitVec 20) : Statement (.brk code) := by
  show ((0#6 ++ code ++ 0b001101#6 : Word) &&& (63#6 ++ 0#20 ++ 63#6 : Word)) =
    (0#6 ++ 0#20 ++ (0b001101#6 &&& 63#6) : Word)
  exact (BitVec.and_append (x₁ := 0#6 ++ code)).trans
    (congrArg (· ++ (_ &&& _)) ((BitVec.and_append (x₁ := 0#6)).trans (congrArg (0#6 ++ ·) BitVec.and_zero)))

theorem mfc0 (rt rd : Reg) : Statement (.mfc0 rt rd) :=
  (rType_and _ 63 _ 31 _ 0 _ 0 _ 31 _ 63).trans (by simp only [reg_and_zero]; rfl)

theorem mtc0 (rt rd : Reg) : Statement (.mtc0 rt rd) :=
  (rType_and _ 63 _ 31 _ 0 _ 0 _ 31 _ 63).trans (by simp only [reg_and_zero]; rfl)

theorem bc0f (offset : Half) : Statement (.bc0f offset) :=
  (iType_and _ 63 _ 31 _ 31 _ 0).trans (by simp only [half_and_zero]; rfl)

theorem bc0t (offset : Half) : Statement (.bc0t offset) :=
  (iType_and _ 63 _ 31 _ 31 _ 0).trans (by simp only [half_and_zero]; rfl)

theorem rfe : Statement (.rfe) :=
  (rType_and _ 63 _ 31 _ 31 _ 31 _ 31 _ 63).trans (rfl)

theorem cop1 (cofun : BitVec 26) : Statement (.cop1 cofun) :=
  (jType_and _ 63 _ 0).trans (by simp only [target_and_zero]; rfl)

theorem cop2 (cofun : BitVec 26) : Statement (.cop2 cofun) :=
  (jType_and _ 63 _ 0).trans (by simp only [target_and_zero]; rfl)

theorem cop3 (cofun : BitVec 26) : Statement (.cop3 cofun) :=
  (jType_and _ 63 _ 0).trans (by simp only [target_and_zero]; rfl)

theorem lwc0 (base rt : Reg) (offset : Half) : Statement (.lwc0 base rt offset) :=
  (iType_and _ 63 _ 0 _ 0 _ 0).trans (by simp only [reg_and_zero, half_and_zero]; rfl)

theorem lwc1 (base rt : Reg) (offset : Half) : Statement (.lwc1 base rt offset) :=
  (iType_and _ 63 _ 0 _ 0 _ 0).trans (by simp only [reg_and_zero, half_and_zero]; rfl)

theorem lwc2 (base rt : Reg) (offset : Half) : Statement (.lwc2 base rt offset) :=
  (iType_and _ 63 _ 0 _ 0 _ 0).trans (by simp only [reg_and_zero, half_and_zero]; rfl)

theorem lwc3 (base rt : Reg) (offset : Half) : Statement (.lwc3 base rt offset) :=
  (iType_and _ 63 _ 0 _ 0 _ 0).trans (by simp only [reg_and_zero, half_and_zero]; rfl)

theorem swc0 (base rt : Reg) (offset : Half) : Statement (.swc0 base rt offset) :=
  (iType_and _ 63 _ 0 _ 0 _ 0).trans (by simp only [reg_and_zero, half_and_zero]; rfl)

theorem swc1 (base rt : Reg) (offset : Half) : Statement (.swc1 base rt offset) :=
  (iType_and _ 63 _ 0 _ 0 _ 0).trans (by simp only [reg_and_zero, half_and_zero]; rfl)

theorem swc2 (base rt : Reg) (offset : Half) : Statement (.swc2 base rt offset) :=
  (iType_and _ 63 _ 0 _ 0 _ 0).trans (by simp only [reg_and_zero, half_and_zero]; rfl)

theorem swc3 (base rt : Reg) (offset : Half) : Statement (.swc3 base rt offset) :=
  (iType_and _ 63 _ 0 _ 0 _ 0).trans (by simp only [reg_and_zero, half_and_zero]; rfl)

theorem tlbr : Statement (.tlbr) :=
  (rType_and _ 63 _ 31 _ 31 _ 31 _ 31 _ 63).trans (rfl)

theorem tlbwi : Statement (.tlbwi) :=
  (rType_and _ 63 _ 31 _ 31 _ 31 _ 31 _ 63).trans (rfl)

theorem tlbwr : Statement (.tlbwr) :=
  (rType_and _ 63 _ 31 _ 31 _ 31 _ 31 _ 63).trans (rfl)

theorem tlbp : Statement (.tlbp) :=
  (rType_and _ 63 _ 31 _ 31 _ 31 _ 31 _ 63).trans (rfl)


end Sys2Proof.Laws.TableRow
end

