-- ==== Sys2Proof/WellFormed.lean ====
section
/-! DEFINITION. Which decoded instructions have operands that the spec gives a meaning to. The widths of the operand
fields are in their types (Syntax.lean); what is left are the two checks of R219 and R260. -/

namespace Sys2Proof

/-- The CP0 register numbers that MTC0 and MFC0 may name: Context, BadVAddr, SR, Cause, EPC, PRId (R36, R260). -/
def cp0Usable (rd : Reg) : Bool :=
  rd == 4 || rd == 8 || rd == 12 || rd == 13 || rd == 14 || rd == 15

/-- An instruction is well formed when no operand of it makes it undefined whatever the state: JALR names two
different registers (R219), and MTC0 and MFC0 name a CP0 register that the chip has (R37, R39, R260). -/
def Instr.wellFormed : Instr → Bool
  | .jalr rs rd => rs != rd
  | .mfc0 _ rd => cp0Usable rd
  | .mtc0 _ rd => cp0Usable rd
  | _ => true

end Sys2Proof
end

