-- ==== Sys2Proof/Tests/Slice0.lean ====
section
/-! SUPPORT. The tests: the smoke test of WellFormed, the decoding of a word of every constructor, single steps with the
values of spec/95_test_vectors.md, and for every statement that has hypotheses a state that meets them. -/

namespace Sys2Proof.Tests
open Sys2Proof Sys2Proof.Machine

/-! ### WellFormed -/

theorem test_jalr_same_register_ill_formed : Instr.wellFormed (.jalr 2 2) = false := by decide
theorem test_jalr_well_formed : Instr.wellFormed (.jalr 2 31) = true := by decide
theorem test_mfc0_absent_register_ill_formed : Instr.wellFormed (.mfc0 8 9) = false := by decide
theorem test_mtc0_removed_register_ill_formed : Instr.wellFormed (.mtc0 8 10) = false := by decide
theorem test_mtc0_well_formed : Instr.wellFormed (.mtc0 8 12) = true := by decide

/-! ### Decoding: the words of 95_test_vectors.md section 2.1, and for the words of the absent units the words that the
rows of 30_encoding.md R137 and 47_cp0.md R259 give -/

/-- Each word decodes to its instruction, and the instruction encodes to its word. -/
def agree (l : List (Nat × Instr)) : Bool :=
  l.all fun p => decodeTableWord 32 p.1 == some p.2 && (encode p.2).toNat == p.1

theorem test_decode_loads :
    agree
      [(0x8062FFFC, .lb 3 2 0xFFFC), (0x90620005, .lbu 3 2 0x0005), (0x84620006, .lh 3 2 0x0006),
        (0x9462FFFE, .lhu 3 2 0xFFFE), (0x8C627FFC, .lw 3 2 0x7FFC), (0x88620003, .lwl 3 2 0x0003),
        (0x98620000, .lwr 3 2 0x0000)] = true := by
  decide

theorem test_decode_stores :
    agree
      [(0xA0620001, .sb 3 2 0x0001), (0xA4628000, .sh 3 2 0x8000), (0xAFBF0010, .sw 29 31 0x0010),
        (0xA8620003, .swl 3 2 0x0003), (0xB8620000, .swr 3 2 0x0000)] = true := by
  decide

theorem test_decode_immediate :
    agree
      [(0x2062FFFF, .addi 3 2 0xFFFF), (0x24621234, .addiu 3 2 0x1234), (0x2862FFFB, .slti 3 2 0xFFFB),
        (0x2C62FFFF, .sltiu 3 2 0xFFFF), (0x3062FF0F, .andi 3 2 0xFF0F), (0x34628001, .ori 3 2 0x8001),
        (0x3862FFFF, .xori 3 2 0xFFFF), (0x3C02BFC0, .lui 2 0xBFC0)] = true := by
  decide

theorem test_decode_register :
    agree
      [(0x00432020, .add 2 3 4), (0x00432021, .addu 2 3 4), (0x00432022, .sub 2 3 4),
        (0x00432023, .subu 2 3 4), (0x0043202A, .slt 2 3 4), (0x0043202B, .sltu 2 3 4),
        (0x00432024, .and 2 3 4), (0x00432025, .or 2 3 4), (0x00432026, .xor 2 3 4), (0x00432027, .nor 2 3 4)] = true := by
  decide

theorem test_decode_shifts :
    agree
      [(0x000327C0, .sll 3 4 31), (0x00032042, .srl 3 4 1), (0x00032403, .sra 3 4 16),
        (0x00432004, .sllv 2 3 4), (0x00432006, .srlv 2 3 4), (0x00432007, .srav 2 3 4)] = true := by
  decide

theorem test_decode_multiply_divide :
    agree
      [(0x00430018, .mult 2 3), (0x00430019, .multu 2 3), (0x0043001A, .div 2 3), (0x0043001B, .divu 2 3),
        (0x00002010, .mfhi 4), (0x00002012, .mflo 4), (0x00400011, .mthi 2), (0x00400013, .mtlo 2)] = true := by
  decide

theorem test_decode_jumps :
    agree
      [(0x0BF00100, .j 0x3F00100), (0x0C000800, .jal 0x0000800), (0x00402009, .jalr 2 4), (0x03E00008, .jr 31)] = true := by
  decide

theorem test_decode_branches :
    agree
      [(0x10430004, .beq 2 3 0x0004), (0x1443FFFD, .bne 2 3 0xFFFD), (0x18400001, .blez 2 0x0001),
        (0x1C40FFFF, .bgtz 2 0xFFFF), (0x04407FFF, .bltz 2 0x7FFF), (0x04418000, .bgez 2 0x8000),
        (0x04500010, .bltzal 2 0x0010), (0x0451FFFF, .bgezal 2 0xFFFF)] = true := by
  decide

theorem test_decode_special_cp0 :
    agree
      [(0x0000000C, .syscall), (0x0048D14D, .brk 0x12345), (0x4100FFFF, .bc0f 0xFFFF),
        (0x41010003, .bc0t 0x0003), (0x40886000, .mtc0 8 12), (0x401A6800, .mfc0 26 13), (0x42000010, .rfe)] = true := by
  decide

theorem test_decode_absent_units :
    agree
      [(0x4555AA33, .cop1 0x155AA33), (0x4955AA33, .cop2 0x155AA33), (0x4D55AA33, .cop3 0x155AA33),
        (0xC062FFFC, .lwc0 3 2 0xFFFC), (0xC462FFFC, .lwc1 3 2 0xFFFC), (0xC862FFFC, .lwc2 3 2 0xFFFC),
        (0xCC62FFFC, .lwc3 3 2 0xFFFC), (0xE062FFFC, .swc0 3 2 0xFFFC), (0xE462FFFC, .swc1 3 2 0xFFFC),
        (0xE862FFFC, .swc2 3 2 0xFFFC), (0xEC62FFFC, .swc3 3 2 0xFFFC), (0x42000001, .tlbr),
        (0x42000002, .tlbwi), (0x42000006, .tlbwr), (0x42000008, .tlbp)] = true := by
  decide

/-- One word of each format, written out field by field (R121, R134). -/
theorem test_decode_fields :
    decode (0b100011#6 ++ 3#5 ++ 2#5 ++ 0x7FFC#16 : BitVec 32) = .ok (.lw 3 2 0x7FFC) ∧
      decode (0b001101#6 ++ 3#5 ++ 2#5 ++ 0x8001#16 : BitVec 32) = .ok (.ori 3 2 0x8001) ∧
      decode (0b000000#6 ++ 2#5 ++ 3#5 ++ 4#5 ++ 0#5 ++ 0b100011#6 : BitVec 32) = .ok (.subu 2 3 4) ∧
      decode (0b000000#6 ++ 0#5 ++ 3#5 ++ 4#5 ++ 16#5 ++ 0b000011#6 : BitVec 32) = .ok (.sra 3 4 16) ∧
      decode (0b000000#6 ++ 2#5 ++ 3#5 ++ 0#10 ++ 0b011010#6 : BitVec 32) = .ok (.div 2 3) ∧
      decode (0b000010#6 ++ 0x3F00100#26 : BitVec 32) = .ok (.j 0x3F00100) ∧
      decode (0b000001#6 ++ 2#5 ++ 0b10001#5 ++ 0xFFFF#16 : BitVec 32) = .ok (.bgezal 2 0xFFFF) ∧
      decode (0b000000#6 ++ 0x12345#20 ++ 0b001101#6 : BitVec 32) = .ok (.brk 0x12345) ∧
      decode (0b010000#6 ++ 0b01000#5 ++ 0b00001#5 ++ 3#16 : BitVec 32) = .ok (.bc0t 3) ∧
      decode (0b010000#6 ++ 0b00100#5 ++ 8#5 ++ 12#5 ++ 0#11 : BitVec 32) = .ok (.mtc0 8 12) ∧
      decode (0b010000#6 ++ 0b10000#5 ++ 0#15 ++ 0b010000#6 : BitVec 32) = .ok .rfe := by
  decide

/-- Words that are no instructions, end of section 2.1. -/
theorem test_decode_rejects :
    decode 0xFC000000 = .error .reservedInstruction ∧ decode 0x00000001 = .error .reservedInstruction ∧
      decode 0x0000004C = .error .nonzeroConstantField ∧ decode 0x00430861 = .error .nonzeroConstantField ∧
      decode 0x40400000 = .error .unlistedCop0 ∧ decode 0x04020000 = .error .blankBcond ∧
      decode 0 = .ok (.sll 0 0 0) := by
  decide

/-! ### Single steps, the values of 95_test_vectors.md sections 2.2 to 2.8 -/

/-- Kernel mode, BEV = 1, at 0x80000200, with these contents of r1 to r3, and 0xDEADBEEF in r4. -/
def at200 (r1 r2 r3 : Word) : State :=
  { State.reset with
    regs := #v[0, r1, r2, r3, 0xDEADBEEF, 0, 0, 0, 0, 0, 0, 0, 0, 0, 0, 0, 0, 0, 0, 0, 0, 0, 0, 0, 0, 0, 0, 0, 0, 0, 0, 0]
    pc := 0x80000200
    npc := 0x80000204 }

/-- A value of the next state. -/
def after {α : Type} (o : Host.Outcome State Fault Refusal) (f : State → α) : Option α :=
  match o with
  | .next t => some (f t)
  | _ => none

/-- The refusal. -/
def refusalOf (o : Host.Outcome State Fault Refusal) : Option Refusal :=
  match o with
  | .refused r => some r
  | _ => none

/-- r4 after an instruction that completes, or the exception code after one that raises, with r4 kept. -/
def alu (i : Instr) (r2 r3 : Word) : Option (Word ⊕ BitVec 4) :=
  after (exec i (at200 0 r2 r3)) fun t =>
    if t.pc = 0xBFC00180 ∧ t.epc = 0x80000200 ∧ t.readGpr 4 = 0xDEADBEEF then .inr t.cause.excCode else .inl (t.readGpr 4)

theorem test_addi : alu (.addi 2 4 1) 0x7FFFFFFE 0 = some (.inl 0x7FFFFFFF) := by decide
theorem test_addi_overflow : alu (.addi 2 4 0xFFFF) 0x80000000 0 = some (.inr 12) := by decide
theorem test_addiu : alu (.addiu 2 4 0xFFFF) 0x80000000 0 = some (.inl 0x7FFFFFFF) := by decide
theorem test_slti : alu (.slti 2 4 0x8000) 0x7FFFFFFF 0 = some (.inl 0) := by decide
theorem test_slti_less : alu (.slti 2 4 0xFFFF) 0xFFFFFFFE 0 = some (.inl 1) := by decide
theorem test_sltiu : alu (.sltiu 2 4 0x8000) 0x00008000 0 = some (.inl 1) := by decide
theorem test_sltiu_greater : alu (.sltiu 2 4 0x8000) 0xFFFF8000 0 = some (.inl 0) := by decide
theorem test_andi : alu (.andi 2 4 0xFF0F) 0x12345678 0 = some (.inl 0x00005608) := by decide
theorem test_ori : alu (.ori 2 4 0x8001) 0x12340000 0 = some (.inl 0x12348001) := by decide
theorem test_xori : alu (.xori 2 4 0xFFFF) 0xFFFFFFFF 0 = some (.inl 0xFFFF0000) := by decide
theorem test_lui : alu (.lui 4 0xBFC0) 0 0 = some (.inl 0xBFC00000) := by decide
theorem test_add : alu (.add 2 3 4) 0x7FFFFFFF 0x80000000 = some (.inl 0xFFFFFFFF) := by decide
theorem test_add_overflow : alu (.add 2 3 4) 0x40000000 0x40000000 = some (.inr 12) := by decide
theorem test_addu : alu (.addu 2 3 4) 0x7FFFFFFF 1 = some (.inl 0x80000000) := by decide
theorem test_sub : alu (.sub 2 3 4) 0xFFFFFFFF 0x80000000 = some (.inl 0x7FFFFFFF) := by decide
theorem test_sub_overflow : alu (.sub 2 3 4) 0 0x80000000 = some (.inr 12) := by decide
theorem test_subu : alu (.subu 2 3 4) 0 1 = some (.inl 0xFFFFFFFF) := by decide
theorem test_slt : alu (.slt 2 3 4) 0x80000000 0x7FFFFFFF = some (.inl 1) := by decide
theorem test_sltu : alu (.sltu 2 3 4) 0xFFFFFFFF 0 = some (.inl 0) := by decide
theorem test_and : alu (.and 2 3 4) 0xFF00FF00 0x0FF00FF0 = some (.inl 0x0F000F00) := by decide
theorem test_or : alu (.or 2 3 4) 0xFF00FF00 0x0FF00FF0 = some (.inl 0xFFF0FFF0) := by decide
theorem test_xor : alu (.xor 2 3 4) 0xFF00FF00 0x0FF00FF0 = some (.inl 0xF0F0F0F0) := by decide
theorem test_nor : alu (.nor 2 3 4) 0xFF00FF00 0x0FF00FF0 = some (.inl 0x000F000F) := by decide
theorem test_sll : alu (.sll 3 4 31) 0 0x80000001 = some (.inl 0x80000000) := by decide
theorem test_srl : alu (.srl 3 4 4) 0 0x80000001 = some (.inl 0x08000000) := by decide
theorem test_sra : alu (.sra 3 4 4) 0 0x80000001 = some (.inl 0xF8000000) := by decide
theorem test_sllv : alu (.sllv 2 3 4) 0x24 1 = some (.inl 0x10) := by decide
theorem test_srlv : alu (.srlv 2 3 4) 0xFFFFFFFF 0x80000000 = some (.inl 1) := by decide
theorem test_srav : alu (.srav 2 3 4) 0x3F 0x80000000 = some (.inl 0xFFFFFFFF) := by decide
theorem test_r0_discards : after (exec (.addu 2 3 0) (at200 0 5 6)) (·.readGpr 0) = some 0 := by decide

/-- HI and LO after an instruction. -/
def hiLo (i : Instr) (r2 r3 : Word) : Option (Word × Word) := after (exec i (at200 0 r2 r3)) fun t => (t.hi, t.lo)

theorem test_mult : hiLo (.mult 2 3) 0x7FFFFFFF 0x80000000 = some (0xC0000000, 0x80000000) := by decide
theorem test_multu : hiLo (.multu 2 3) 0xFFFFFFFF 0xFFFFFFFF = some (0xFFFFFFFE, 1) := by decide
theorem test_div : hiLo (.div 2 3) 0xFFFFFFF9 2 = some (0xFFFFFFFF, 0xFFFFFFFD) := by decide
theorem test_div_negative_divisor : hiLo (.div 2 3) 7 0xFFFFFFFE = some (1, 0xFFFFFFFD) := by decide
theorem test_divu : hiLo (.divu 2 3) 0xFFFFFFF9 2 = some (1, 0x7FFFFFFC) := by decide
theorem test_mthi : hiLo (.mthi 2) 0x12345678 0 = some (0x12345678, 0) := by decide
theorem test_mtlo : hiLo (.mtlo 2) 5 0 = some (0, 5) := by decide
theorem test_mfhi : after (exec (.mfhi 4) { at200 0 0 0 with hi := 7, lo := 9 }) (·.readGpr 4) = some 7 := by decide
theorem test_mflo : after (exec (.mflo 4) { at200 0 0 0 with hi := 7, lo := 9 }) (·.readGpr 4) = some 9 := by decide
theorem test_mult_after_mfhi :
    refusalOf (exec (.mult 2 3) { at200 0 5 7 with sinceMfhi := 1 }) = some .hiLoWriteTooSoon := by decide

/-- The next two instruction addresses and r31. -/
def path (i : Instr) (r1 r2 r3 : Word) : Option (Word × Word × Word) :=
  after (exec i (at200 r1 r2 r3)) fun t => (t.pc, t.npc, t.readGpr 31)

theorem test_j : path (.j 0x40) 0 0 0 = some (0x80000204, 0x80000100, 0) := by decide
theorem test_j_region :
    after (exec (.j 0x40) { at200 0 0 0 with pc := 0x8FFFFFFC, npc := 0x90000000 }) (·.npc) = some 0x90000100 := by decide
theorem test_jal : path (.jal 0x800) 0 0 0 = some (0x80000204, 0x80002000, 0x80000208) := by decide
theorem test_jr : path (.jr 2) 0 0x80001008 0 = some (0x80000204, 0x80001008, 0) := by decide
theorem test_jalr : path (.jalr 2 31) 0 0x80002002 0 = some (0x80000204, 0x80002002, 0x80000208) := by decide
theorem test_jalr_same_register : refusalOf (exec (.jalr 2 2) (at200 0 0 0)) = some .jalrSameRegister := by decide
theorem test_beq : path (.beq 2 3 4) 0 5 5 = some (0x80000204, 0x80000214, 0) := by decide
theorem test_beq_not_taken : path (.beq 2 3 4) 0 5 6 = some (0x80000204, 0x80000208, 0) := by decide
theorem test_bne : path (.bne 1 0 4) 3 0 0 = some (0x80000204, 0x80000214, 0) := by decide
theorem test_blez : path (.blez 2 2) 0 0 0 = some (0x80000204, 0x8000020C, 0) := by decide
theorem test_bgtz : path (.bgtz 2 2) 0 0 0 = some (0x80000204, 0x80000208, 0) := by decide
theorem test_bltz : path (.bltz 2 0xFFFE) 0 0x80000000 0 = some (0x80000204, 0x800001FC, 0) := by decide
theorem test_bgez : path (.bgez 2 0xFFFE) 0 0 0 = some (0x80000204, 0x800001FC, 0) := by decide
theorem test_bltzal_not_taken : path (.bltzal 1 16) 1 0 0 = some (0x80000204, 0x80000208, 0x80000208) := by decide
theorem test_bltzal : path (.bltzal 1 16) 0xFFFFFFFF 0 0 = some (0x80000204, 0x80000244, 0x80000208) := by decide
theorem test_bgezal : path (.bgezal 1 0xFFFF) 0 0 0 = some (0x80000204, 0x80000200, 0x80000208) := by decide
theorem test_branch_in_delay_slot :
    refusalOf (exec (.beq 0 0 4) { at200 0 0 0 with inDelaySlot := true }) = some .jumpInDelaySlot := by decide

/-- Bytes 11 22 33 44 55 66 77 88 from 0x1000, r1 = 0xA0001000, r2 = 0xAABBCCDD (sections 2.2 and 2.3). -/
def data (big : Bool) : State :=
  { at200 0xA0001000 0xAABBCCDD 0 with
    mode := { State.reset.mode with bigend := !big }
    mem :=
      [(0x1000, 0x11), (0x1001, 0x22), (0x1002, 0x33), (0x1003, 0x44), (0x1004, 0x55), (0x1005, 0x66), (0x1006, 0x77),
        (0x1007, 0x88)] }

/-- r2 after a load, big-endian and little-endian. -/
def loads (i : Instr) : Option Word × Option Word :=
  (after (exec i (data true)) (·.readGpr 2), after (exec i (data false)) (·.readGpr 2))

theorem test_lb : loads (.lb 1 2 7) = (some 0xFFFFFF88, some 0xFFFFFF88) := by decide
theorem test_lbu : loads (.lbu 1 2 7) = (some 0x88, some 0x88) := by decide
theorem test_lh : loads (.lh 1 2 6) = (some 0x7788, some 0xFFFF8877) := by decide
theorem test_lhu : loads (.lhu 1 2 6) = (some 0x7788, some 0x8877) := by decide
theorem test_lw : loads (.lw 1 2 4) = (some 0x55667788, some 0x88776655) := by decide
theorem test_lwl : loads (.lwl 1 2 1) = (some 0x223344DD, some 0x2211CCDD) := by decide
theorem test_lwr : loads (.lwr 1 2 1) = (some 0xAABB1122, some 0xAA443322) := by decide
theorem test_lw_misaligned :
    after (exec (.lw 1 2 2) (data true)) (fun t => (t.cause.excCode, t.badVAddr, t.readGpr 2)) =
      some (4, 0xA0001002, 0xAABBCCDD) := by decide

/-- The bytes from 0x1000 once a store has drained, big-endian and little-endian. -/
def stores (i : Instr) : Option (List Byte) × Option (List Byte) :=
  let bytes := fun t : State => [0x1000, 0x1001, 0x1002, 0x1003].map t.biuWrite.mem.read
  (after (exec i (data true)) bytes, after (exec i (data false)) bytes)

theorem test_sb : stores (.sb 1 2 1) = (some [0x11, 0xDD, 0x33, 0x44], some [0x11, 0xDD, 0x33, 0x44]) := by decide
theorem test_sh : stores (.sh 1 2 2) = (some [0x11, 0x22, 0xCC, 0xDD], some [0x11, 0x22, 0xDD, 0xCC]) := by decide
theorem test_sw : stores (.sw 1 2 0) = (some [0xAA, 0xBB, 0xCC, 0xDD], some [0xDD, 0xCC, 0xBB, 0xAA]) := by decide
theorem test_swl : stores (.swl 1 2 1) = (some [0x11, 0xAA, 0xBB, 0xCC], some [0xBB, 0xAA, 0x33, 0x44]) := by decide
theorem test_swr : stores (.swr 1 2 1) = (some [0xCC, 0xDD, 0x33, 0x44], some [0x11, 0xDD, 0xCC, 0xBB]) := by decide
theorem test_sh_misaligned :
    after (exec (.sh 1 2 1) (data true)) (fun t => (t.cause.excCode, t.badVAddr, t.writeBuffer.length)) =
      some (5, 0xA0001001, 0) := by decide
theorem test_store_after_mtc0 :
    refusalOf (exec (.sw 1 2 0) { data true with afterMtc0 := some State.reset.cp0View }) = some .memoryAfterMtc0 := by
  decide

/-- What section 2.8 shows of an exception entry: pc, EPC, BD, ExcCode, SR. -/
def entry (o : Host.Outcome State Fault Refusal) : Option (Word × Word × Bool × BitVec 4 × Word) :=
  after o fun t => (t.pc, t.epc, t.cause.bd, t.cause.excCode, t.sr.toWord false)

/-- The status register with these contents. -/
def sr (w : Word) : Status := State.reset.sr.written w

theorem test_syscall :
    entry (exec .syscall { at200 0 0 0 with pc := 0x00400100, sr := sr 0x0000000A }) =
      some (0x80000080, 0x00400100, false, 8, 0x00000028) := by decide
/-- Fetches that an exception aborts (R88(d)): as many as the inputs say. In kseg0 their misses fill the instruction cache,
in kseg1 their reads are bus cycles; here the words after the instruction are NOPs. -/
def begunFetches (sized : List Bool) (pc : Word) : State :=
  { at200 0 0 0 with inputs := { State.reset.inputs with abortedFetches := sized }, pc := pc, npc := pc + 4 }
theorem test_syscall_aborts_fetches :
    after (exec .syscall (begunFetches [] 0x80000200)) (·.icache) = some [] ∧
      after (exec .syscall (begunFetches [false] 0x80000200)) (·.icache) = some [(0x81, .line true 0 0)] ∧
      after (exec .syscall (begunFetches [false, false] 0xA0000200)) (·.trace) =
        some [.read 0x208 (.uncached 3), .read 0x204 (.uncached 3)] ∧
      after (exec .syscall (begunFetches (List.replicate 9 false) 0x80000200)) (·.icache.length) = some 4 := by decide
theorem test_break_in_delay_slot :
    entry (exec (.brk 7) { at200 0 0 0 with pc := 0x80001004, inDelaySlot := true }) =
      some (0xBFC00180, 0x80001000, true, 9, 0x00400000) := by decide
theorem test_user_load_kernel_address :
    entry (exec (.lhu 1 2 0) { at200 0xA0000000 0 0 with pc := 0x1000, sr := sr 0x0040FF03 }) =
      some (0xBFC00180, 0x1000, false, 4, 0x0040FF0C) := by decide
theorem test_bc0f_buffer_empty :
    after (exec (.bc0f 3) { at200 0 0 0 with pc := 0x80000100, npc := 0x80000104 }) (·.npc) = some 0x80000108 := by decide
theorem test_bc0t_buffer_empty :
    after (exec (.bc0t 3) { at200 0 0 0 with pc := 0x80000100, npc := 0x80000104 }) (·.npc) = some 0x80000110 := by decide
theorem test_bc0f_user :
    entry (exec (.bc0f 0xFFFF) { at200 0 0 0 with pc := 0x1000, sr := sr 0x00400002 }) =
      some (0xBFC00180, 0x1000, false, 11, 0x00400008) := by decide
theorem test_mtc0_sr :
    after (exec (.mtc0 2 12) (at200 0 0x00400000 0)) (fun t => t.sr.toWord false) = some 0x00400000 := by decide
theorem test_mtc0_cause :
    after (exec (.mtc0 2 13) (at200 0 0xFFFFFFFF 0)) (fun t => t.cause.toWord 0 t.cause.sw) = some 0x00000300 := by decide
theorem test_mfc0_badvaddr :
    after (exec (.mfc0 4 8) { at200 0 0 0 with badVAddr := 0x1002 }) (fun t => (t.readGpr 4, t.ldSlot)) =
      some (0x1002, some 4) := by decide
theorem test_mfc0_cause :
    after (exec (.mfc0 4 13)
      { at200 0 0 0 with
        cause := { bd := true, ce := 0, sw := 0b10, excCode := 8 }
        inputs := { State.reset.inputs with int := 0b000101 } }) (·.readGpr 4) = some 0x80001620 := by decide
theorem test_mfc0_user_unusable :
    entry (exec (.mfc0 4 12) { at200 0 0 0 with sr := sr 0x00400002 }) =
      some (0xBFC00180, 0x80000200, false, 11, 0x00400008) := by decide
theorem test_rfe :
    after (exec .rfe { at200 0 0 0 with sr := sr 0x00400034 }) (fun t => t.sr.toWord false) = some 0x0040003D := by decide
theorem test_rfe_after_store : refusalOf (exec .rfe { at200 0 0 0 with prevMem := true }) = some .rfeAfterMemory := by decide

/-- The unit that a coprocessor-unusable exception names, after a word that raises one with ExcCode 11. -/
def unusable (i : Instr) : Option (BitVec 4 × BitVec 2) :=
  after (exec i { at200 0 0 0 with sr := sr 0x00400002 }) fun t => (t.cause.excCode, t.cause.ce)

theorem test_cop1 : unusable (.cop1 0) = some (11, 1) := by decide
theorem test_cop2 : unusable (.cop2 0x2000000) = some (11, 2) := by decide
theorem test_cop3 : unusable (.cop3 0) = some (11, 3) := by decide
theorem test_lwc0 : unusable (.lwc0 0 0 0) = some (11, 0) := by decide
theorem test_lwc1 : unusable (.lwc1 0 0 0) = some (11, 1) := by decide
theorem test_lwc2 : unusable (.lwc2 0 0 0) = some (11, 2) := by decide
theorem test_lwc3 : unusable (.lwc3 0 0 0) = some (11, 3) := by decide
theorem test_swc0 : unusable (.swc0 0 0 0) = some (11, 0) := by decide
theorem test_swc1 : unusable (.swc1 0 0 0) = some (11, 1) := by decide
theorem test_swc2 : unusable (.swc2 0 0 0) = some (11, 2) := by decide
theorem test_swc3 : unusable (.swc3 0 0 0) = some (11, 3) := by decide
theorem test_tlbr : unusable .tlbr = some (11, 0) := by decide
theorem test_tlbwi : unusable .tlbwi = some (11, 0) := by decide
theorem test_tlbwr : unusable .tlbwr = some (11, 0) := by decide
theorem test_tlbp : unusable .tlbp = some (11, 0) := by decide
theorem test_tlbwi_kernel : refusalOf (exec .tlbwi (at200 0 0 0)) = some .removedTlbInstruction := by decide

/-- A whole step from reset: the placed instruction is fetched and executed. -/
theorem test_step_from_reset :
    after (step (State.reset.withFetchWord 32 0x3C02BFC0)) (fun t => (t.readGpr 2, t.pc, t.npc)) =
      some (0xBFC00000, 0xBFC00004, 0xBFC00008) := by decide

/-! ### Witnesses: for each statement with hypotheses, a state that meets them, clause by clause -/

/-- After no MTC0 the values that stand are the only ones that a use can see. -/
theorem seen_settled {s : State} {p : Cp0View → Prop} (h : s.afterMtc0 = none) (hp : p s.cp0View) :
    ∀ v, s.MaySee v → p v := by
  rintro v (rfl | hv)
  · exact hp
  · rw [h] at hv
    cases hv

theorem coherent_empty {s : State} (h : s.dcache = []) : Coherent s := by
  refine ⟨fun e he => ?_, fun k tag d he => ?_⟩
  · rw [h] at he
    cases he
  · rw [h] at he
    cases he

/-- A state with an empty bus trace, memory and buffer in canonical form meets the invariant. -/
theorem inv_at200 (a b c : Word) : Inv (at200 a b c) := by
  constructor
  case memory => exact ⟨List.Pairwise.nil, fun _ h => by cases h⟩
  case icache => exact ⟨List.Pairwise.nil, fun _ h => by cases h⟩
  case dcache => exact ⟨List.Pairwise.nil, fun _ h => by cases h⟩
  case buffer => exact Nat.zero_le _
  case entries => exact fun _ h => by cases h
  case held => exact fun _ => rfl
  case loadSlot => exact fun h => by cases h
  case sequence => exact fun _ => rfl
  case recent => exact Nat.zero_le _
  case mode => rfl

theorem witness_DecodeThenEncode : decode 0x8C627FFC#32 = .ok (.lw 3 2 0x7FFC) := by decide

/-- Kernel mode, fetching LUI r2, 0xBFC0 from kseg1. -/
def fetchK : State := State.reset.withFetchWord 32 0x3C02BFC0

/-- A step of the environment in which the core acts too and no other master writes. -/
def env (i : Inputs) : EnvStep := { inputs := i, masterWrites := [], reset := none, core := true }

theorem starts_of {s : State} (h1 : s.resetPulse = none) (h2 : s.sample.mode.legal = true) (h3 : s.sample.bus = .free)
    (h4 : s.coreIdle = false := by rfl) : Starts s s.sample := ⟨rfl, h1, h2, by rw [h3]; decide, h4⟩

/-- With plain memory everywhere and an empty buffer every read is answered by memory. -/
theorem readable_plain {s : State} (h1 : s.inputs.hold = false) (h2 : s.bus = .free) (h3 : s.writeBuffer = [])
    (h4 : s.platform = []) (block : Bool) (va : Word) : s.Readable block va := by
  have hm : ∀ a, s.answer a = .memory := fun a => by
    unfold State.answer
    rw [h4]
    rfl
  refine ⟨⟨h1, h2, fun e he => ?_⟩, ?_, fun _ _ => by rw [hm]; decide⟩
  · rw [h3] at he
    cases he
  · unfold State.backed
    rw [hm]
    rfl

theorem quiet_of {s : State} (h : s.afterMtc0 = none) (hi : s.sr.iec = false) : s.Undisturbed :=
  seen_settled (p := fun v => ¬ s.Requested v) h fun hr => by
    have := hr.1
    rw [show s.cp0View.sr.iec = s.sr.iec from rfl, hi] at this
    cases this

theorem fetchable_kernel {s : State} (h : s.afterMtc0 = none) (hp : s.pc.extractLsb' 0 2 = 0#2) (hk : s.sr.kuc = false) :
    s.Fetchable :=
  ⟨hp, seen_settled (p := fun v => v.sr.kuc = true → s.pc.getLsbD 31 = false) h fun hc => by
    rw [show s.cp0View.sr.kuc = s.sr.kuc from rfl, hk] at hc
    cases hc⟩

theorem witness_StepRunsDecoded_uncached :
    Starts fetchK fetchK.sample ∧ fetchK.sample.Undisturbed ∧ fetchK.sample.Fetchable ∧
      inKseg1 fetchK.sample.pc = true ∧ fetchK.sample.Readable false fetchK.sample.pc ∧
      decode (fetchK.sample.seenWord (physical fetchK.sample.pc)) = .ok (.lui 2 0xBFC0) :=
  ⟨starts_of rfl (by decide) rfl, quiet_of rfl rfl, fetchable_kernel rfl (by decide) rfl, by decide,
    readable_plain rfl rfl rfl rfl _ _, by decide⟩

/-- The word to fetch has just been stored to: the fetch may find the new word or the one before (R110(e)). -/
theorem witness_StepRunsDecoded_ahead :
    let s : State := { fetchK with recentStores := [none, some { addr := 0x1FC00000, before := 0x0000000D }] }
    Starts s s.sample ∧ s.sample.Undisturbed ∧ s.sample.Fetchable ∧ s.sample.Readable false s.sample.pc ∧
      s.sample.MayFetch (physical s.sample.pc) 0x3C02BFC0 ∧ s.sample.MayFetch (physical s.sample.pc) 0x0000000D ∧
      decode 0x0000000D#32 = .ok (.brk 0) :=
  ⟨starts_of rfl (by decide) rfl, quiet_of rfl rfl, fetchable_kernel rfl (by decide) rfl, readable_plain rfl rfl rfl rfl _ _,
    .inl (by decide), .inr (by decide), by decide⟩

/-- Kernel mode at 0x80000200 in kseg0, an instruction-cache entry for it, the word LUI r2, 0xBFC0 in memory. -/
def fetchC (valid : Bool) (tag : BitVec 20) : State :=
  { (at200 0 0 0).withFetchWord 32 0x3C02BFC0 with icache := [(0x80, .line valid tag 0x3C02BFC0)] }

theorem cached_fetchC (valid : Bool) (tag : BitVec 20) :
    Starts (fetchC valid tag) (fetchC valid tag).sample ∧ (fetchC valid tag).sample.Undisturbed ∧
      (fetchC valid tag).sample.Fetchable ∧ (fetchC valid tag).sample.CachedFetch := by
  have hp : (fetchC valid tag).sample.pc = 0x80000200 := rfl
  exact ⟨starts_of rfl rfl rfl, quiet_of rfl rfl, fetchable_kernel rfl (by rw [hp]; decide) rfl, by rw [hp]; decide,
    seen_settled rfl rfl⟩

theorem witness_StepRunsDecoded_hit :
    (fetchC true 0).sample.inputs.icclr = false ∧
      (fetchC true 0).sample.icacheEntry (physical (fetchC true 0).sample.pc) =
        some (.line true ((physical (fetchC true 0).sample.pc).extractLsb' 12 20) 0x3C02BFC0) ∧
      decode 0x3C02BFC0#32 = .ok (.lui 2 0xBFC0) := by decide

theorem witness_StepRunsDecoded_miss :
    (fetchC true 1).sample.MissesInstr (physical (fetchC true 1).sample.pc) ∧
      (fetchC false 0).sample.MissesInstr (physical (fetchC false 0).sample.pc) ∧
      (fetchC true 1).sample.Readable (fetchC true 1).sample.mode.iblock (fetchC true 1).sample.pc ∧
      decode ((fetchC true 1).sample.seenWord (physical (fetchC true 1).sample.pc)) = .ok (.lui 2 0xBFC0) :=
  ⟨.inr (.inr ⟨true, 1, 0x3C02BFC0, by decide, .inr (by decide)⟩),
    .inr (.inr ⟨false, 0, 0x3C02BFC0, by decide, .inl rfl⟩), readable_plain rfl rfl rfl rfl _ _, by decide⟩

/-- In kseg0 with the caches swapped. -/
def swapped : State := { at200 0x80001000 2 3 with sr := sr 0x00420000 }

theorem witness_StepRunsDecoded_swapped :
    Starts swapped swapped.sample ∧ swapped.sample.Undisturbed ∧ swapped.sample.Fetchable ∧
      inKseg1 swapped.sample.pc = false ∧ ∀ v, swapped.sample.MaySee v → v.sr.swc = true :=
  ⟨starts_of rfl (by decide) rfl, quiet_of rfl (by decide), fetchable_kernel rfl (by decide) (by decide), by decide,
    seen_settled rfl (by decide)⟩

theorem test_swapped_fetch_refused : refusalOf (step swapped) = some .swappedFetch := by decide

/-- The pins of the next step given, another master's writes none. -/
def pins (s : State) (i : Inputs) : State := { s with schedule := [env i] }

theorem witness_SampleTouchesBusAndCaches :
    (∀ i, (pins (fetchC true 0) i).NoMasterWrites) ∧
      (pins (fetchC true 0) { State.reset.inputs with hold := true }).sample.inputs.hold = true ∧
      ({ fetchC true 0 with readWaiting := true } : State).readWaiting = true ∧
      (pins (fetchC true 0) { State.reset.inputs with icclr := true }).sample.inputs.icclr = true ∧
      (pins (fetchC true 0) { State.reset.inputs with dcclr := true }).sample.inputs.dcclr = true ∧
      (fetchC true 0).sample.inputs.icclr = false ∧ (fetchC true 0).sample.inputs.dcclr = false ∧
      (pins { fetchC true 0 with bus := .writeStuck } { State.reset.inputs with hold := true }).schedule ≠ [] :=
  ⟨fun _ e he => by cases he; rfl, by decide⟩

/-- One buffered write and no more schedule: the BIU does it, whatever its pace was. -/
def slow : State :=
  { at200 0 0 0 with
    inputs := { State.reset.inputs with biuWrites := 0 }
    writeBuffer := [{ addr := 0x1000, mask := 0b1111, data := 0 }] }

theorem witness_SampleTouchesBusAndCaches_fair :
    slow.schedule = [] ∧ slow.bus = .free ∧ slow.readWaiting = false ∧ (∀ e ∈ slow.writeBuffer, slow.answer e.addr ≠ .absent) ∧ slow.writeBuffer ≠ [] := by
  decide

/-- The bus held in a step in which the core does nothing, another master writing a byte. -/
def mastered : State :=
  { slow with
    schedule :=
      [{ inputs := { State.reset.inputs with hold := true }, masterWrites := [(0x1000, 7)], reset := none, core := false }] }

theorem witness_SampleTouchesBusAndCaches_master :
    mastered.mem.wf ∧ mastered.answer 0x1000 = .memory ∧ mastered.bus = .free ∧ mastered.coreIdle = true ∧
      mastered.resetPulse = none ∧ mastered.sample.mode.legal = true ∧ mastered.sample.bus ≠ .coreStuck := by decide

/-- A step of the environment alone: the master's byte is in memory, the core has not moved. -/
theorem test_master_writes :
    after (step mastered) (fun t => (t.mem.read 0x1000, t.pc, t.writeBuffer.length)) = some (7, 0x80000200, 1) := by decide

/-- Kernel mode with SW1 pending and enabled, and with INT5 pending and enabled. -/
def swPending : State := { at200 0 0 0 with sr := sr 0x00400201, cause := { State.reset.cause with sw := 0b10 } }
def intPending : State :=
  { at200 0 0 0 with sr := sr 0x00408001, inputs := { State.reset.inputs with int := 0b100000 } }

theorem witness_InterruptTaken :
    (Starts swPending swPending.sample ∧ ∀ v, swPending.sample.MaySee v → swPending.sample.Requested v) ∧
      Starts intPending intPending.sample ∧ ∀ v, intPending.sample.MaySee v → intPending.sample.Requested v :=
  ⟨⟨starts_of rfl (by decide) rfl, seen_settled rfl ⟨rfl, 1, by decide, by decide, by decide⟩⟩, starts_of rfl (by decide) rfl,
    seen_settled rfl ⟨rfl, 7, by decide, by decide, by decide⟩⟩

/-- The fetches that an interrupt aborts begin at the instruction that it is taken instead of (R88(d)). -/
theorem test_interrupt_aborts_fetches :
    after (step { intPending with inputs := { intPending.inputs with abortedFetches := [false] } }) (·.icache) =
      some [(0x80, .line true 0 0)] := by decide

/-- A pc that is no multiple of 4, and the lowest kernel address in user mode. -/
def oddPc : State := { at200 0 0 0 with pc := 0x80000202 }
def userPc : State := { at200 0 0 0 with pc := 0x80000000, npc := 0x80000004, sr := sr 0x00400002 }

theorem witness_FetchAddressError :
    (Starts oddPc oddPc.sample ∧ oddPc.sample.Undisturbed ∧ oddPc.sample.pc.extractLsb' 0 2 ≠ 0#2) ∧
      Starts userPc userPc.sample ∧ userPc.sample.Undisturbed ∧ userPc.sample.pc.getLsbD 31 = true ∧
        ∀ v, userPc.sample.MaySee v → v.sr.kuc = true :=
  ⟨⟨starts_of rfl (by decide) rfl, quiet_of rfl rfl, by decide⟩, starts_of rfl (by decide) rfl, quiet_of rfl rfl, by decide,
    seen_settled rfl rfl⟩

/-- A word fetched from kseg1 in kernel mode, through a hit in user mode, and from kseg0 through a miss. -/
def wordK (w : Word) : State := State.reset.storeFetchWord w
def wordM (w : Word) : State := (at200 0 0 0).storeFetchWord w
def wordU (w : Word) : State :=
  { at200 0 0 0 with pc := 0x200, npc := 0x204, sr := sr 0x00400002, icache := [(0x80, .line true 0 w)] }

theorem starts_word (w : Word) :
    (Starts (wordU w) (wordU w).sample ∧ (wordU w).sample.Undisturbed ∧ (wordU w).sample.Fetchable) ∧
      Starts (wordK w) (wordK w).sample ∧ (wordK w).sample.Undisturbed ∧ (wordK w).sample.Fetchable := by
  have hu : (wordU w).sample.pc = 0x200 := rfl
  have hk : (wordK w).sample.pc = 0xBFC00000 := rfl
  exact ⟨⟨starts_of rfl rfl rfl, quiet_of rfl rfl, by rw [hu]; decide, seen_settled rfl fun _ => by rw [hu]; decide⟩,
    starts_of rfl rfl rfl, quiet_of rfl rfl, fetchable_kernel rfl (by rw [hk]; decide) rfl⟩

/-- With no recent store to any word a fetch finds what memory holds. -/
theorem mayFetch_settled {s : State} (h : s.recentStores = []) {a w : Word} (hw : s.MayFetch a w) : w = s.seenWord a :=
  hw.resolve_right (by rw [h]; exact List.not_mem_nil)

theorem fetches_wordU (w : Word)
    (h : (wordU w).sample.icacheEntry (physical (wordU w).sample.pc) =
      some (.line true ((physical (wordU w).sample.pc).extractLsb' 12 20) w)) : (wordU w).sample.Fetches w := by
  have hu : (wordU w).sample.pc = 0x200 := rfl
  exact .inr (.inl ⟨⟨by rw [hu]; decide, seen_settled rfl rfl⟩, rfl, h⟩)

theorem fetches_wordK (w : Word) (h : w = (wordK w).sample.seenWord (physical (wordK w).sample.pc)) :
    (wordK w).sample.Fetches w := by
  have hk : (wordK w).sample.pc = 0xBFC00000 := rfl
  exact .inl ⟨by rw [hk]; decide, readable_plain rfl rfl rfl rfl _ _, fun _ hv => (mayFetch_settled rfl hv).trans h.symm⟩

theorem witness_WordsWithoutRow_miss :
    Starts (wordM 0xFC000000) (wordM 0xFC000000).sample ∧ (wordM 0xFC000000).sample.Undisturbed ∧
      (wordM 0xFC000000).sample.Fetchable ∧ (wordM 0xFC000000).sample.Fetches 0xFC000000 :=
  ⟨starts_of rfl (by decide) rfl, quiet_of rfl rfl, fetchable_kernel rfl (by decide) rfl,
    .inr (.inr ⟨⟨by decide, seen_settled rfl rfl⟩, .inr (.inl (by decide)), readable_plain rfl rfl rfl rfl _ _,
      fun _ hv => (mayFetch_settled rfl hv).trans (by decide)⟩)⟩

theorem witness_WordsWithoutRow :
    (wordK 0xFC000000).sample.Fetches 0xFC000000 ∧ decode 0xFC000000#32 = .error .reservedInstruction ∧
      (wordU 0x40400000).sample.Fetches 0x40400000 ∧ decode 0x40400000#32 = .error .unlistedCop0 ∧
      (wordU 0x40400000).sample.NoCp0 ∧ (wordK 0x40400000).sample.Fetches 0x40400000 ∧
      (wordK 0x40400000).sample.HasCp0 ∧ (wordK 0x04020000).sample.Fetches 0x04020000 ∧
      decode 0x04020000#32 = .error .blankBcond ∧ decode 0x0000004C#32 = .error .nonzeroConstantField :=
  ⟨fetches_wordK _ (by decide), by decide, fetches_wordU _ (by decide), by decide, seen_settled rfl ⟨rfl, rfl⟩,
    fetches_wordK _ (by decide), seen_settled rfl (.inl rfl), fetches_wordK _ (by decide), by decide,
    by decide⟩

/-- The bus held by another master, with more pin levels to come or none, and a full write buffer. -/
def held (more : Bool) : State :=
  { data true with
    inputs := { State.reset.inputs with hold := true }
    schedule := if more then [env State.reset.inputs] else []
    writeBuffer := List.replicate 4 { addr := 0x1000, mask := 0b1111, data := 0 } }

/-- A load or store through kseg1 in kernel mode, no cache isolated, no load or MTC0 just before. -/
theorem addresses_kseg1 {s : State} {base : Reg} {offset : Half} {va : Word} (h : va = s.readGpr base + offset.signExtend 32)
    (hk : inKseg1 va = true) (h1 : s.ldSlot = none) (h2 : s.afterMtc0 = none) (h3 : s.sr.isc = false)
    (h4 : s.sr.kuc = false) : Addresses s base offset va :=
  ⟨by simp [h1], h, h2, h3, by simp [State.mayAccess, h4], .inl hk⟩

theorem witness_HoldStalls (more : Bool) :
    Addresses (held more) 1 0 0xA0001000 ∧ inKseg1 0xA0001000 = true ∧ (held more).inputs.hold = true ∧
      4 ≤ (held more).writeBuffer.length ∧ (∀ i ∈ [Instr.lb 1 2 0, .lbu 1 2 0, .lh 1 2 0, .lhu 1 2 0, .lw 1 2 0,
        .lwl 1 2 0, .lwr 1 2 0], i ∈ loadInstrsAt 1 2 0 0xA0001000) ∧
      ∀ i ∈ [Instr.sb 1 2 0, .sh 1 2 0, .sw 1 2 0, .swl 1 2 0, .swr 1 2 0], i ∈ storesAt 1 2 0 0xA0001000 :=
  ⟨addresses_kseg1 (by cases more <;> decide) (by decide) rfl rfl rfl rfl, by decide, rfl, by simp [held], by decide,
    by decide⟩

/-- A fetch from kseg1, and one from kseg0 that misses, while the bus is held. -/
def heldFetch (pc : Word) : State :=
  { held true with
    pc := pc
    npc := pc + 4
    schedule := [env { State.reset.inputs with hold := true }] }

theorem witness_HoldStalls_fetch :
    (Starts (heldFetch 0xBFC00000) (heldFetch 0xBFC00000).sample ∧
      (heldFetch 0xBFC00000).sample.Undisturbed ∧ (heldFetch 0xBFC00000).sample.Fetchable ∧
      (heldFetch 0xBFC00000).sample.inputs.hold = true ∧ inKseg1 (heldFetch 0xBFC00000).sample.pc = true) ∧
    Starts (heldFetch 0x80000200) (heldFetch 0x80000200).sample ∧
      (heldFetch 0x80000200).sample.CachedFetch ∧
      (heldFetch 0x80000200).sample.MissesInstr (physical (heldFetch 0x80000200).sample.pc) ∧
      (heldFetch 0x80000200).sample.inputs.hold = true :=
  ⟨⟨starts_of rfl (by decide) rfl, quiet_of rfl rfl, fetchable_kernel rfl (by decide) rfl, by decide⟩,
    starts_of rfl (by decide) rfl, ⟨by decide, seen_settled rfl rfl⟩, .inr (.inl (by decide)), by decide⟩

theorem witness_HoldStalls_miss :
    Addresses { held true with regs := (at200 0x80001000 1 2).regs } 1 0 0x80001000 ∧
      ({ held true with regs := (at200 0x80001000 1 2).regs } : State).MissesData (physical 0x80001000) ∧
      (held true).inputs.hold = true :=
  ⟨⟨by decide, by decide, rfl, rfl, by decide, .inr ⟨coherent_empty rfl, rfl⟩⟩, .inr (.inl (by decide)), rfl⟩

/-- Bytes 11 22 33 44 at 0x1000 and what the platform has there, big-endian, r1 = 0xA0001000, r2 = 0xAABBCCDD. -/
def behind (x : Answer) : State := { data true with platform := [⟨0x1000, 0x1003, x⟩] }

theorem witness_HoldStalls_read :
    let s : State := { data true with writeBuffer := slow.writeBuffer }
    Addresses s 1 6 0xA0001006 ∧ inKseg1 0xA0001006 = true ∧ s.Readable false 0xA0001006 ∧
      (∀ e ∈ s.writeBuffer, wordAddr e.addr ≠ wordAddr (physical 0xA0001006)) ∧
      (.lwl 1 2 6) ∈ loadInstrsAt 1 2 6 0xA0001006 :=
  ⟨addresses_kseg1 (by decide) (by decide) rfl rfl rfl rfl, by decide,
    ⟨⟨rfl, rfl, by decide⟩, by decide, fun h => by cases h⟩, by decide, by decide⟩

theorem witness_HoldStalls_absent :
    Addresses (behind .absent) 1 0 0xA0001000 ∧ inKseg1 0xA0001000 = true ∧ (behind .absent).BusReady ∧
      (behind .absent).answer (physical 0xA0001000) = .absent ∧ (behind .absent).answer (physical 0xA0001004) = .memory ∧
      ({ behind .absent with bus := .coreStuck } : State).resetPulse = none ∧ (behind .absent).mode.legal = true :=
  ⟨addresses_kseg1 (by decide) (by decide) rfl rfl rfl rfl, by decide, ⟨rfl, rfl, by decide⟩, by decide⟩

theorem witness_HoldStalls_absent_miss :
    let s : State :=
      { behind .absent with regs := (at200 0x80001004 1 2).regs, mode := { State.reset.mode with dblock := true } }
    Addresses s 1 0 0x80001004 ∧ s.BusReady ∧ inKseg1 0x80001004 = false ∧ s.MissesData (physical 0x80001004) ∧
      s.answer (if s.mode.dblock then blockAddr (physical 0x80001004) else physical 0x80001004) = .absent ∧
      s.answer (physical 0x80001004) = .memory ∧
      (.lwl 1 2 0) ∈ loadInstrsAt 1 2 0 0x80001004 :=
  ⟨⟨by decide, by decide, rfl, rfl, by decide, .inr ⟨coherent_empty rfl, rfl⟩⟩, ⟨rfl, rfl, by decide⟩, by decide,
    .inr (.inl (by decide)), by decide⟩

theorem test_load_absent :
    after (exec (.lw 1 2 0) { behind .absent with schedule := (held true).schedule })
      (fun t => (t.bus, t.readGpr 2, t.pc, t.trace)) =
      some (.coreStuck, 0xAABBCCDD, 0x80000200, [.read 0x1000 (.uncached 3)]) := by decide
theorem test_load_read_only : after (exec (.lw 1 2 0) (behind .readOnly)) (·.readGpr 2) = some 0x11223344 := by decide
theorem test_store_read_only :
    after (exec (.sw 1 2 0) (behind .readOnly)) (fun t => (t.biuWrite.mem.read 0x1000, t.biuWrite.trace.length)) =
      some (0x11, 1) := by decide
theorem test_store_absent :
    after (exec (.sw 1 2 0) (behind .absent)) (fun t => (t.biuWrite.bus, t.biuWrite.writeBuffer.length)) =
      some (.writeStuck, 1) := by decide

/-- A RESET pulse with the mode pins given. -/
def pulse (p : ModePins) : State :=
  let garbage : ResetGarbage :=
    { regs := Vector.replicate 32 5, hi := 1, lo := 2, sr := sr 0xFFFFFFFF, cause := State.reset.cause, epc := 3,
      badVAddr := 4, pteBase := 5 }
  { at200 1 2 3 with
    schedule := [{ env State.reset.inputs with reset := some { mode := p, garbage := garbage } }] }

theorem witness_ResetPulseResets (p : ModePins) : ∃ r, (pulse p).resetPulse = some r ∧ r.mode = p := ⟨_, rfl, rfl⟩

/-- RESET during a hold ends it, and what the write buffer holds is lost. -/
theorem test_reset_ends_hold :
    after (step { held true with schedule := (pulse State.reset.mode).schedule.map fun e =>
        { e with inputs := { e.inputs with hold := true }, masterWrites := [(0x1000, 0)] } })
      (fun t => (t.inputs.hold, t.pc, t.writeBuffer.length, t.mem.read 0x1000)) = some (false, 0xBFC00000, 0, 0x11) := by
  decide

theorem witness_forbidden_mode_pins :
    ({ State.reset.mode with sbussiz := true, iblock := true } : ModePins).legal = false ∧
      ({ State.reset.mode with sbussiz := true } : ModePins).legal = true := by decide

/-- A next state from one value of it. -/
theorem next_of {α : Type} {o : Host.Outcome State Fault Refusal} {f : State → α} {a : α} (h : after o f = some a) :
    ∃ t, o = .next t ∧ f t = a := by
  unfold after at h
  split at h
  · exact ⟨_, rfl, Option.some.inj h⟩
  · cases h

theorem witness_StepKeepsInv : Inv (at200 0 0 0) ∧ ∃ t, step (at200 0 0 0) = .next t ∧ t.pc = 0x80000204 :=
  ⟨inv_at200 0 0 0, next_of (f := (·.pc)) (by decide)⟩

/-- A data cache whose entry for physical 0x1000 holds what memory holds. -/
def warm : State := { data true with dcache := [(0, .line true 4 0x11223344)] }

theorem coherent_warm : Coherent warm := by
  refine ⟨fun e he => ?_, fun k tag d he => ?_⟩
  · rw [List.mem_singleton.1 he]
    exact fun h => by cases h
  · change (if k = 0 then some (CacheEntry.line true 4 0x11223344) else none) = some (.line true tag d) at he
    split at he
    · rename_i hk
      subst hk
      cases he
      decide
    · cases he

theorem inv_warm : Inv warm := by
  constructor
  case memory => decide
  case icache => exact ⟨List.Pairwise.nil, fun _ h => by cases h⟩
  case dcache => decide
  case buffer => decide
  case entries => exact fun _ h => by cases h
  case held => exact fun _ => rfl
  case loadSlot => decide
  case sequence => exact fun _ => rfl
  case recent => exact Nat.zero_le _
  case mode => rfl

theorem witness_StepKeepsCoherent :
    Inv warm ∧ (warm.bus = .coreStuck ∨ Coherent warm) ∧ (∀ v, warm.MaySee v → v.sr.isc = false ∧ v.sr.swc = false) ∧
      warm.NoMasterWrites ∧ (∀ i u, warm.fetchPhase = .run i u → u.StoresSeen i) ∧
      (∃ t, step warm = .next t ∧ t.pc = 0x80000204) ∧ warm.StoresSeen (.sw 1 2 4) := by
  refine ⟨inv_warm, .inr coherent_warm, seen_settled rfl ⟨rfl, rfl⟩, (fun e he => by cases he), fun i u h => ?_,
    next_of (f := (·.pc)) (by decide), fun base offset a va h ha hva _ => ?_⟩
  · have hn : (match warm.fetchPhase with
        | .run j _ => some j
        | .ended _ => none) = some (.sll 0 0 0) := by decide
    rw [h] at hn
    cases hn
    intro base offset a va hs
    cases hs
  · cases h
    rw [hva, ha (by decide)]
    decide

theorem witness_BusNeverDrivesUnusedSpace :
    Inv warm ∧ (∀ c ∈ warm.trace, unusedSpace c.addr = false) ∧ ∃ t, step warm = .next t ∧ t.pc = 0x80000204 :=
  ⟨inv_warm, (fun _ h => by cases h), next_of (f := (·.pc)) (by decide)⟩

theorem witness_MultiplyWritesHiLo : (at200 0 5 7).sinceMfhi = 2 ∧ (at200 0 5 7).sinceMflo = 2 := by decide

theorem witness_DivideWritesHiLo :
    (at200 0 0x80000000 1).sinceMfhi = 2 ∧ (at200 0 0x80000000 1).sinceMflo = 2 ∧ (at200 0 0x80000000 1).readGpr 3 ≠ 0 ∧
      ¬((at200 0 0x80000000 1).readGpr 2 = 0x80000000 ∧ (at200 0 0x80000000 1).readGpr 3 = 0xFFFFFFFF) := by decide

theorem witness_MoveToHiLo :
    (at200 0 0 0).sinceMfhi = 2 ∧ (at200 0 0 0).sinceMflo = 2 ∧ (at200 0 0 0).mdFresh = false := by decide

theorem witness_HazardsRefused :
    ({ at200 0 0 0 with sinceMfhi := 1 } : State).sinceMfhi ≠ 2 ∧ ({ at200 0 0 0 with sinceMflo := 0 } : State).sinceMflo ≠ 2 ∧
      ({ at200 0 0 0 with afterMtc0 := some State.reset.cp0View } : State).afterMtc0 ≠ none := by decide

theorem witness_jumps_and_branches : (at200 0 0 0).inDelaySlot = false ∧ (2 : Reg) ≠ 31 := by decide

theorem hasCp0_kernel {s : State} (h : s.afterMtc0 = none) (hk : s.sr.kuc = false) : s.HasCp0 := seen_settled h (.inl hk)

theorem witness_JumpInDelaySlotRefused :
    ({ at200 0 0 0 with inDelaySlot := true } : State).inDelaySlot = true ∧
      ({ at200 0 0 0 with inDelaySlot := true } : State).HasCp0 := ⟨rfl, hasCp0_kernel rfl rfl⟩

theorem witness_BranchOnWriteBuffer :
    (at200 0 0 0).HasCp0 ∧ (at200 0 0 0).inDelaySlot = false ∧ (at200 0 0 0).sinceStore = 2 ∧
      ¬((at200 0 0 0).mode.iblock = true ∧ (at200 0 0 0).mode.istream = true ∧ inKseg1 (at200 0 0 0).pc = false ∧
        (at200 0 0 0).pc.getLsbD 3 = false) := ⟨hasCp0_kernel rfl rfl, rfl, rfl, by decide⟩

/-- User mode with the Cu bits given. -/
def user (cu : BitVec 4) : State := { at200 0 0 0 with pc := 0x200, npc := 0x204, sr := { sr 0x00400002 with cu := cu } }

theorem witness_Cop0Unusable : (user 0b1110).NoCp0 := seen_settled rfl ⟨rfl, by decide⟩

theorem witness_AbsentCoprocessorsTrap (z : BitVec 2) : ∀ v, (user 0).MaySee v → v.sr.cu.getLsbD z.toNat = false :=
  seen_settled rfl (by change (0#4).getLsbD _ = false; simp)

theorem witness_CoprocessorRefusals :
    (∀ z : BitVec 2, ∀ v, (user 15).MaySee v → v.sr.cu.getLsbD z.toNat = true) ∧ (user 1).HasCp0 ∧
      (16#5) ∉ [4#5, 8#5, 12#5, 13#5, 14#5, 15#5] :=
  ⟨fun z => seen_settled rfl (by change (15#4).getLsbD z.toNat = true; revert z; decide), seen_settled rfl (.inr (by decide)),
    by decide⟩

theorem witness_Mtc0Writes_Mfc0Reads :
    (user 1).HasCp0 ∧ 4#5 ∈ [4#5, 8#5, 12#5, 13#5, 14#5, 15#5] ∧ 15#5 ∈ [4#5, 8#5, 12#5, 13#5, 14#5, 15#5] ∧
      ({ at200 0 0 0 with sr := sr 0x00410000 } : State).HasCp0 ∧
      ({ at200 0 0 0 with sr := sr 0x00410000 } : State).sr.isc = true ∧ 12#5 ∈ [4#5, 8#5, 12#5, 13#5, 14#5, 15#5] :=
  ⟨seen_settled rfl (.inr (by decide)), by decide, by decide, hasCp0_kernel rfl rfl, by decide, by decide⟩

theorem witness_RfePops :
    (at200 0 0 0).HasCp0 ∧ (at200 0 0 0).prevMem = false ∧ ({ at200 0 0 0 with prevMem := true } : State).HasCp0 :=
  ⟨hasCp0_kernel rfl rfl, rfl, hasCp0_kernel rfl rfl⟩

/-! The address hypotheses of loads and stores: in kseg1 at both ends of the segment, and in kseg0 and in user mode
through a data cache that agrees with memory. -/

theorem addresses_data (big : Bool) (offset : Half) (h : inKseg1 (0xA0001000 + offset.signExtend 32) = true) :
    Addresses (data big) 1 offset (0xA0001000 + offset.signExtend 32) := addresses_kseg1 rfl h rfl rfl rfl rfl

theorem witness_addresses_lowest : Addresses (at200 0xA0000000 0 0) 1 0 0xA0000000 ∧ (at200 0xA0000000 0 0).inputs.hold = false :=
  ⟨addresses_kseg1 (by decide) (by decide) rfl rfl rfl rfl, rfl⟩

theorem witness_addresses_highest : Addresses (at200 0xBFFFFFF0 0 0) 1 15 0xBFFFFFFF :=
  addresses_kseg1 (by decide) (by decide) rfl rfl rfl rfl

theorem witness_addresses_cached : Addresses { warm with sr := State.reset.sr } 1 0xFFFF 0xA0000FFF ∧
    Addresses { warm with regs := (at200 0x80001000 1 2).regs } 1 0 0x80001000 :=
  ⟨addresses_kseg1 (by decide) (by decide) rfl rfl rfl rfl,
    ⟨by decide, by decide, rfl, rfl, by decide, .inr ⟨coherent_warm.of_eq rfl rfl rfl fun _ => rfl, rfl⟩⟩⟩

theorem witness_addresses_user :
    Addresses { user 0 with regs := (at200 0x7FFFFFFC 1 2).regs } 1 0 0x7FFFFFFC ∧
      ({ user 0 with regs := (at200 0x7FFFFFFC 1 2).regs } : State).mayAccess 0x7FFFFFFC = true :=
  ⟨⟨by decide, by decide, rfl, rfl, by decide, .inr ⟨coherent_empty rfl, rfl⟩⟩, by decide⟩

theorem witness_LoadsFromMemory :
    Addresses (data true) 1 2 0xA0001002 ∧ (data true).Readable (data true).mode.dblock 0xA0001002 ∧
      (0xA0001002 : Word).getLsbD 0 = false ∧
      Addresses (data true) 1 4 0xA0001004 ∧ (0xA0001004 : Word).extractLsb' 0 2 = 0#2 :=
  ⟨addresses_data true 2 (by decide), readable_plain rfl rfl rfl rfl _ _, by decide, addresses_data true 4 (by decide), by decide⟩

theorem witness_LoadWordParts :
    Addresses (data true) 1 3 0xA0001003 ∧ (data true).Readable (data true).mode.dblock 0xA0001003 ∧
      0 = (if (data true).bigEndianCPU then 3 - (0xA0001003 : Word).toNat % 4 else (0xA0001003 : Word).toNat % 4) :=
  ⟨addresses_data true 3 (by decide), readable_plain rfl rfl rfl rfl _ _, by decide⟩

theorem witness_UnalignedLoadPair :
    Addresses (data true) 1 3 0xA0001003 ∧ Addresses (data true) 1 6 (0xA0001003 + 3) ∧
      (∀ big va, (data big).Readable (data big).mode.dblock va) ∧ (2 : Reg) ≠ 1 ∧ (2 : Reg) ≠ 0 ∧ (data true).bigEndianCPU = true ∧ Addresses (data false) 1 3 0xA0001003 ∧
      Addresses (data false) 1 6 (0xA0001003 + 3) ∧ (data false).bigEndianCPU = false :=
  ⟨addresses_data true 3 (by decide), addresses_data true 6 (by decide),
    fun _ _ => readable_plain rfl rfl rfl rfl _ _, by decide, by decide, by decide,
    addresses_data false 3 (by decide), addresses_data false 6 (by decide), by decide⟩

theorem witness_StoresToMemory :
    Addresses (data true) 1 2 0xA0001002 ∧ (data true).mem.wf ∧ (data true).HasRoom ∧
      (0xA0001002 : Word).getLsbD 0 = false ∧ Addresses (data true) 1 4 0xA0001004 ∧
      (0xA0001004 : Word).extractLsb' 0 2 = 0#2 :=
  ⟨addresses_data true 2 (by decide), by decide, .inl (by decide), by decide, addresses_data true 4 (by decide), by decide⟩

theorem witness_StoresToMemory_full : ({ held true with inputs := State.reset.inputs } : State).HasRoom ∧
    ¬ ({ held true with inputs := State.reset.inputs } : State).writeBuffer.length < 4 ∧
    (behind .readOnly).answer (physical 0xA0001000) ≠ .memory :=
  ⟨.inr ⟨rfl, rfl, fun e he => by cases he; decide⟩, by decide, by decide⟩

theorem witness_StoreWordParts :
    Addresses (data true) 1 3 0xA0001003 ∧ (data true).mem.wf ∧ (data true).HasRoom ∧
      0 = (if (data true).bigEndianCPU then 3 - (0xA0001003 : Word).toNat % 4 else (0xA0001003 : Word).toNat % 4) :=
  ⟨addresses_data true 3 (by decide), by decide, .inl (by decide), by decide⟩

theorem witness_DataAddressErrors :
    ({ user 0 with regs := (at200 0x80000000 0 0).regs } : State).mayAccess 0x80000000 = false ∧
      ({ user 0 with regs := (at200 0x80000000 0 0).regs } : State).readGpr 1 + (0 : Half).signExtend 32 = 0x80000000 ∧
      (data true).ldSlot ≠ some 1 ∧ (data true).afterMtc0 = none ∧
      (data true).readGpr 1 + (1 : Half).signExtend 32 = 0xA0001001 ∧ (0xA0001001 : Word).getLsbD 0 = true ∧
      (data true).readGpr 1 + (2 : Half).signExtend 32 = 0xA0001002 ∧ (0xA0001002 : Word).extractLsb' 0 2 ≠ 0#2 := by
  decide

theorem witness_LoadThroughLoadingBase :
    let s : State := { warm with ldSlot := some 1 }
    let va := effectiveAddr (s.readSrc 1).1 0
    s.ldSlot = some 1 ∧ s.afterMtc0 = none ∧ s.sr.isc = false ∧ Coherent s ∧ s.sr.swc = false ∧ s.mem.wf ∧
      s.Readable s.mode.dblock va ∧ s.HasRoom ∧ s.mayAccess va = true ∧ (.sb 1 2 0) ∈ storesAt 1 2 0 va ∧
      ∃ w, (.lb 1 2 0, w) ∈ s.loadsAt 1 2 0 va :=
  ⟨rfl, rfl, rfl, coherent_warm.of_eq rfl rfl rfl fun _ => rfl, rfl, by decide, readable_plain rfl rfl rfl rfl _ _,
    .inl (by decide), rfl, .head _, _, .head _⟩

theorem witness_LoadThroughLoadingBase_settled :
    effectiveAddr (warm.readSrc 1).1 2 = 0xA0001002 ∧ effectiveAddr (warm.readSrc 1).1 0 = 0xA0001000 ∧ Coherent warm ∧
      (.sh 1 2 2) ∈ storesAt 1 2 2 0xA0001002 ∧ (.sw 1 2 2) ∉ storesAt 1 2 2 0xA0001002 ∧
      (∀ w, (.lw 1 2 2, w) ∉ warm.loadsAt 1 2 2 0xA0001002) ∧
      (.lw 1 2 0, warm.seenWord 0x1000) ∈ warm.loadsAt 1 2 0 0xA0001000 ∧ warm.mayAccess 0xA0001000 = true ∧
      ({ warm with sr := { warm.sr with kuc := true } } : State).mayAccess 0xA0001000 = false := by
  have hp : physical 0xA0001000 = 0x1000 := by decide
  refine ⟨by decide, by decide, coherent_warm, by decide, by decide, fun w h => ?_, ?_, by decide⟩
  · simp [State.loadsAt] at h
  · unfold State.loadsAt
    rw [hp]
    exact List.mem_append.2 (.inr (by rw [if_pos (by decide)]; exact List.mem_singleton.2 rfl))

/-- An entry of the data cache for index 0, r1 = 0x80001000. -/
def cached (e : CacheEntry 22) : State := { data true with regs := (at200 0x80001000 0 0).regs, dcache := [(0, e)] }

theorem witness_CachedLoads :
    let s := cached (.line true 4 7)
    s.ldSlot ≠ some 1 ∧ s.afterMtc0 = none ∧ 0x80001000 = s.readGpr 1 + (0 : Half).signExtend 32 ∧
      s.mayAccess 0x80001000 = true ∧ inKseg1 0x80001000 = false ∧ s.sr.isc = false ∧ s.sr.swc = false ∧
      s.inputs.dcclr = false ∧ (∀ i ∈ [Instr.lb 1 2 0, .lbu 1 2 0, .lh 1 2 0, .lhu 1 2 0, .lw 1 2 0, .lwl 1 2 0,
        .lwr 1 2 0], i ∈ loadInstrsAt 1 2 0 0x80001000) ∧ s.seenWord 0x1000 ≠ 7 ∧
      s.dcacheEntry (physical 0x80001000) = some (.line true (dcacheTag (physical 0x80001000)) 7) := by decide

/-- The same of an address that is no word boundary. -/
theorem witness_CachedLoads_byte :
    let s := cached (.line true 4 7)
    0x80001003 = s.readGpr 1 + (3 : Half).signExtend 32 ∧ s.mayAccess 0x80001003 = true ∧ inKseg1 0x80001003 = false ∧
      (.lb 1 2 3) ∈ loadInstrsAt 1 2 3 0x80001003 ∧ (.lwl 1 2 3) ∈ loadInstrsAt 1 2 3 0x80001003 ∧
      s.dcacheEntry (physical 0x80001003) = some (.line true (dcacheTag (physical 0x80001003)) 7) := by decide

theorem witness_CachedLoads_miss :
    (cached (.line false 4 7)).MissesData (physical 0x80001000) ∧
      (cached (.line true 5 7)).MissesData (physical 0x80001000) ∧
      (cached (.line true 5 7)).Readable (cached (.line true 5 7)).mode.dblock 0x80001000 ∧
      ({ cached (.line true 4 7) with inputs := { State.reset.inputs with dcclr := true } } : State).MissesData
        (physical 0x80001000) :=
  ⟨.inr (.inr ⟨false, 4, 7, by decide, .inl rfl⟩), .inr (.inr ⟨true, 5, 7, by decide, .inr (by decide)⟩),
    readable_plain rfl rfl rfl rfl _ _, .inl rfl⟩

/-- The same with the caches swapped: an entry of the instruction-cache array for the address. -/
def swappedData (valid : Bool) : State := { swapped with icache := [(0, .line valid 1 7)] }

theorem witness_CachedLoads_swapped :
    (swappedData true).sr.swc = true ∧ (swappedData true).inputs.icclr = false ∧ (swappedData true).sr.isc = false ∧
      0x80001000 = (swappedData true).readGpr 1 + (0 : Half).signExtend 32 ∧
      (swappedData true).icacheEntry (physical 0x80001000) = some (.line true (icacheTag (physical 0x80001000)) 7) ∧
      (swappedData false).MissesInstr (physical 0x80001000) ∧
      (swappedData false).Readable (swappedData false).mode.iblock 0x80001000 :=
  ⟨by decide, rfl, by decide, by decide, by decide, .inr (.inr ⟨false, 1, 7, by decide, .inl rfl⟩),
    readable_plain rfl rfl rfl rfl _ _⟩

theorem witness_CachedLoads_block :
    ({ cached (.line true 5 7) with mode := { State.reset.mode with dblock := true } } : State).mode.dblock = true ∧
      (0x100C : Word).extractLsb' 0 2 = 0#2 ∧
      (0x100C : Word).extractLsb' 4 28 = (physical 0x80001000).extractLsb' 4 28 ∧
      refillWord true 0x1000 0x100C := by unfold refillWord; decide

theorem witness_CachedStores :
    let s : State := { warm with regs := (at200 0x80001000 1 2).regs }
    s.ldSlot ≠ some 1 ∧ s.afterMtc0 = none ∧ 0x80001002 = s.readGpr 1 + (2 : Half).signExtend 32 ∧
      s.mayAccess 0x80001002 = true ∧ inKseg1 0x80001002 = false ∧ s.sr.isc = false ∧ s.inputs.dcclr = false ∧
      s.inputs.icclr = false ∧ s.sr.swc = false ∧ (.sh 1 2 2) ∈ storesAt 1 2 2 0x80001002 ∧
      s.dcacheEntry (physical 0x80001002) = some (.line true (dcacheTag (physical 0x80001002)) 0x11223344) ∧
      s.mode.stpart = false ∧ s.writeBuffer.length < 4 := by decide

theorem witness_CachedStores_swapped :
    (swappedData true).HasRoom ∧ (swappedData true).sr.swc = true ∧ (.sw 1 2 0) ∈ storesAt 1 2 0 0x80001000 :=
  ⟨.inl (by decide), by decide, by decide⟩

theorem witness_IsolatedAccesses :
    let s : State := { cached (.line true 5 7) with sr := sr 0x00410000 }
    Inv s ∧ s.ldSlot ≠ some 1 ∧ s.afterMtc0 = none ∧ 0x80001000 = s.readGpr 1 + (0 : Half).signExtend 32 ∧
      s.mayAccess 0x80001000 = true ∧ s.sr.isc = true ∧ s.sr.swc = false ∧ s.inputs.dcclr = false ∧
      (.lw 1 2 0) ∈ loadInstrsAt 1 2 0 0x80001000 ∧ (.lwr 1 2 0) ∈ loadInstrsAt 1 2 0 0x80001000 ∧
      (.sw 1 2 0) ∈ storesAt 1 2 0 0x80001000 ∧ s.dcacheEntry (physical 0x80001000) = some (.line true 5 7) ∧
      s.dcacheEntry (physical 0x80001004) = none ∧
      ({ s with dcache := [(0, .unknown)] } : State).dcacheEntry (physical 0x80001000) = some .unknown := by
  refine ⟨⟨by decide, ⟨List.Pairwise.nil, fun _ h => by cases h⟩, by decide, by decide, (fun _ h => by cases h),
    fun _ => rfl, by decide, fun _ => rfl, Nat.zero_le _, rfl⟩, by decide⟩

/-- Isolated and swapped caches, an entry of the instruction-cache array for the address, one of the data cache at the same
index. -/
def isolatedSwapped : State :=
  { swappedData true with sr := sr 0x00430000, dcache := [(0, .line true 4 9)] }

theorem witness_IsolatedAccesses_swapped :
    let s := isolatedSwapped
    Inv s ∧ s.ldSlot ≠ some 1 ∧ s.afterMtc0 = none ∧ 0x80001003 = s.readGpr 1 + (3 : Half).signExtend 32 ∧
      s.mayAccess 0x80001003 = true ∧ s.sr.isc = true ∧ s.sr.swc = true ∧ s.inputs.icclr = false ∧
      (.lb 1 2 3) ∈ loadInstrsAt 1 2 3 0x80001003 ∧ (.lwl 1 2 3) ∈ loadInstrsAt 1 2 3 0x80001003 ∧
      (.sb 1 2 3) ∈ storesAt 1 2 3 0x80001003 ∧ s.icacheEntry (physical 0x80001003) = some (.line true 1 7) := by
  refine ⟨⟨by decide, by decide, by decide, by decide, (fun _ h => by cases h),
    fun _ => rfl, by decide, fun _ => rfl, Nat.zero_le _, rfl⟩, by decide⟩

/-- An isolated load and store with the caches swapped act on the instruction-cache array alone. -/
theorem test_isolated_swapped :
    after (exec (.lw 1 2 0) isolatedSwapped) (fun t => (t.readGpr 2, t.sr.cm, t.trace.length)) = some (7, false, 0) ∧
      after (exec (.sw 1 2 0) isolatedSwapped) (fun t => (t.icache, t.dcache, t.writeBuffer.length)) =
        some ([(0, .unknown)], [(0, .line true 4 9)], 0) := by decide

/-- A store leaves the word that it stores to, as it was, with those of the last instructions; an exception leaves none. -/
theorem test_store_recorded :
    after (exec (.sh 1 2 2) { warm with recentStores := [none, none, none, some { addr := 4, before := 5 }] })
        (·.recentStores) = some [some { addr := 0x1000, before := 0x11223344 }, none, none, none] ∧
      after (exec (.sh 1 2 1) { warm with recentStores := [some { addr := 4, before := 5 }] }) (·.recentStores) = some [] := by
  decide

/-- A fetch before two stores to one word finds what the earlier one found. -/
theorem test_word_before :
    wordBefore [some { addr := 4, before := 2 }, none, some { addr := 8, before := 9 }, some { addr := 4, before := 1 }] 4 3 = 1 ∧
      wordBefore [some { addr := 8, before := 9 }, none] 4 3 = 3 := by decide

/-- LWL at lane 0 of an isolated entry whose tag differs: the low byte of the entry's word on top, CM set. -/
theorem test_isolated_lwl :
    after (exec (.lwl 1 2 3) { cached (.line true 5 0x11223344) with sr := sr 0x00410000 })
      (fun t => (t.readGpr 2, t.sr.cm, t.trace.length)) = some (0x44000000, true, 0) := by decide

/-- An isolated store while the clear pin is active leaves an invalid entry. -/
theorem test_isolated_store_cleared :
    after (exec (.sw 1 2 0)
      { cached (.line true 5 7) with
        sr := sr 0x00410000
        inputs := { State.reset.inputs with dcclr := true } }) (·.dcache) = some [] := by decide

/-- A store through kseg1 to a word that the data cache holds. -/
theorem witness_StoreEntersBufferTail_cached :
    Addresses warm 1 0 0xA0001000 ∧ warm.HasRoom ∧ warm.sr.swc = false ∧
      warm.dcacheEntry (physical 0xA0001000) = some (.line true ((physical 0xA0001000).extractLsb' 10 22) 0x11223344) :=
  ⟨addresses_kseg1 (by decide) (by decide) rfl rfl rfl rfl, .inl (by decide), by decide⟩
theorem test_uncached_store_drops_entry :
    after (exec (.sb 1 2 0) warm) (·.dcache) = some [(0, .line false 4 0x11223344)] := by decide

theorem witness_StoreEntersBufferTail :
    Addresses (data true) 1 4 0xA0001004 ∧ inKseg1 0xA0001004 = true ∧ (0xA0001004 : Word).extractLsb' 0 2 = 0#2 ∧
      (data true).HasRoom ∧ ¬ (held true).writeBuffer.length < 4 :=
  ⟨addresses_data true 4 (by decide), by decide, by decide, .inl (by decide), by decide⟩

theorem witness_BiuPerformsOldestWrite :
    (held true).mem.wf ∧ (held true).bus = .free ∧ (held true).answer 0x1000 ≠ .absent ∧
      (behind .absent).answer 0x1000 = .absent ∧ (held true).writeBuffer = { addr := 0x1000, mask := 0b1111, data := 0 } :: List.replicate 3
      { addr := 0x1000, mask := 0b1111, data := 0 } := by decide

theorem witness_BusCyclesOfAccesses :
    Addresses (data true) 1 4 0xA0001004 ∧ inKseg1 0xA0001004 = true ∧ (data true).BusReady ∧
      (data true).answer (physical 0xA0001004) ≠ .absent ∧
      (data true).inputs.dataSizrq = false ∧ (data true).mode.sbussiz = false ∧ (data true).writeBuffer = [] ∧
      (0xA0001004 : Word).extractLsb' 0 2 = 0#2 ∧
      3 = laneOf (data true).mode.bigEndianMem (((data true).touched .byte (physical 0xA0001004)).toNat % 4) :=
  ⟨addresses_data true 4 (by decide), by decide, ⟨rfl, rfl, by decide⟩, by decide⟩

theorem witness_SizedReadCycles :
    (data true).BusReady ∧ (data true).backed 0x1000 = true ∧ (0x1000 : Word).extractLsb' 0 2 = 0#2 ∧
      (data true).writeBuffer = [] ∧ Addresses (data true) 1 4 0xA0001004 ∧ (data true).Readable false 0xA0001004 :=
  ⟨⟨rfl, rfl, by decide⟩, by decide, by decide, by decide, addresses_data true 4 (by decide),
    readable_plain rfl rfl rfl rfl _ _⟩

/-- Sizing is asked for access by access: the load is sized, the fetch is not. -/
theorem test_sized_load :
    after (step { (at200 0xA0001000 0 0).withFetchWord 32 0x8C220000 with
        pc := 0xA0000200, npc := 0xA0000204
        inputs := { State.reset.inputs with dataSizrq := true } }) (·.trace) =
      some [.read 0x1003 (.uncached 3), .read 0x1002 (.uncached 3), .read 0x1001 (.uncached 3), .read 0x1000 (.uncached 3),
        .read 0x200 (.uncached 3)] := by decide

/-- Each aborted fetch is sized as its own request says: the first by four 8-bit cycles, the second not (R331, R332). -/
theorem test_sized_aborted_fetch :
    after (exec .syscall (begunFetches [true, false] 0xA0000200)) (·.trace) =
      some [.read 0x208 (.uncached 3), .read 0x207 (.uncached 3), .read 0x206 (.uncached 3), .read 0x205 (.uncached 3),
        .read 0x204 (.uncached 3)] := by decide

theorem witness_SizedReadCycles_fetch :
    Starts fetchK fetchK.sample ∧ fetchK.sample.Undisturbed ∧ fetchK.sample.Fetchable ∧
      inKseg1 fetchK.sample.pc = true ∧ fetchK.sample.Readable false fetchK.sample.pc ∧ fetchK.sample.writeBuffer = [] :=
  ⟨starts_of rfl (by decide) rfl, quiet_of rfl rfl, fetchable_kernel rfl (by decide) rfl, by decide,
    readable_plain rfl rfl rfl rfl _ _, by decide⟩

theorem witness_SizedReadCycles_aborted :
    let s := begunFetches [true, false] 0xA0000200
    s.inputs.abortedFetches = [true, false] ∧ s.writeBuffer = [] ∧
      ∀ va ∈ [s.npc, s.npc + 4], s.FetchableAt va ∧ inKseg1 va = true ∧ s.Readable false va := by
  refine ⟨rfl, rfl, fun va h => ?_⟩
  rcases List.mem_cons.1 h with rfl | h
  · exact ⟨⟨by decide, seen_settled rfl (fun h => by cases h)⟩, by decide, readable_plain rfl rfl rfl rfl _ _⟩
  · rw [List.mem_singleton.1 h]
    exact ⟨⟨by decide, seen_settled rfl (fun h => by cases h)⟩, by decide, readable_plain rfl rfl rfl rfl _ _⟩

/-- Writes in the load delay win (R411): one that only writes the register, a second load through it, and LWR, which merges. -/
theorem test_write_in_load_delay :
    let s : State := { data true with ldSlot := some 2 }
    after (exec (.addiu 0 2 1) s) (·.readGpr 2) = some 1 ∧ after (exec (.lw 1 2 0) s) (·.readGpr 2) = some 0x11223344 ∧
      after (exec (.lwr 1 2 3) s) (·.readGpr 2) = some 0x11223344 := by decide

/-- One that also reads it executes otherwise as ever: 0, whatever was read, and the link (R410, R411, D15). -/
theorem test_read_and_write_in_load_delay :
    after (exec (.andi 2 2 0) { data true with ldSlot := some 2 }) (·.readGpr 2) = some 0 ∧
      after (exec (.bgezal 31 4) { data true with ldSlot := some 31 }) (·.readGpr 31) = some 0x80000208 :=
  ⟨congrArg some (BitVec.and_zero ..), rfl⟩

/-- A read that a hold makes wait goes before the buffered writes to other words once the hold ends (R104, R430(b)). -/
theorem test_waiting_read_first :
    after (exec (.lw 1 2 0) (held true)) (·.readWaiting) = some true ∧ slow.sample.writeBuffer = [] ∧
      ({ slow with readWaiting := true } : State).sample.writeBuffer.length = 1 ∧
      after (exec (.lw 1 2 4) { data true with writeBuffer := slow.writeBuffer, readWaiting := true })
        (fun t => (t.writeBuffer.length, t.readWaiting)) = some (1, false) := by decide

theorem witness_CompletesOrEnters :
    (∃ t, exec (.sw 1 2 0) (held true) = .next t ∧ t.pc = 0x80000200) ∧
      (∃ t, exec .syscall (at200 0 0 0) = .next t ∧ t.pc = 0xBFC00180) ∧
      ∃ t, exec (.addu 2 3 4) (at200 0 0 0) = .next t ∧ t.pc = 0x80000204 :=
  ⟨next_of (f := (·.pc)) (by decide), next_of (f := (·.pc)) (by decide), next_of (f := (·.pc)) (by decide)⟩

theorem witness_OnlyStoresChangeMemory :
    (∃ t, exec (.sw 1 2 0) { data true with sr := sr 0x00410000 } = .next t ∧ t.pc = 0x80000204) ∧
      ({ data true with sr := sr 0x00410000 } : State).sr.isc = true ∧
      (∃ t, exec (.lw 1 2 0) (data true) = .next t ∧ t.pc = 0x80000204) ∧
      ∀ (base rt : Reg) (offset : Half), (Instr.lw 1 2 0) ≠ .sb base rt offset ∧ (Instr.lw 1 2 0) ≠ .sh base rt offset ∧
        (Instr.lw 1 2 0) ≠ .sw base rt offset ∧ (Instr.lw 1 2 0) ≠ .swl base rt offset ∧
        (Instr.lw 1 2 0) ≠ .swr base rt offset :=
  ⟨next_of (f := (·.pc)) (by decide), by decide, next_of (f := (·.pc)) (by decide),
    fun _ _ _ => ⟨Instr.noConfusion, Instr.noConfusion, Instr.noConfusion, Instr.noConfusion, Instr.noConfusion⟩⟩

theorem witness_OnlyTheNamedWriters : ∃ t, exec (.addu 2 3 4) (at200 0 0 0) = .next t ∧ t.pc = 0x80000204 :=
  next_of (f := (·.pc)) (by decide)

theorem witness_UserModeConfined :
    (user 0).sr.kuc = true ∧ (user 0).sr.cu.getLsbD 0 = false ∧ (user 0).afterMtc0 = none ∧ (user 0).resetPulse = none ∧
      (user 0).NoMasterWrites ∧ (∃ t, step (user 0) = .next t ∧ t.pc = 0x204) ∧
      ∃ t, step { user 0 with pc := 0x80000000 } = .next t ∧ t.pc = 0xBFC00180 :=
  ⟨rfl, by decide, rfl, rfl, fun _ h => (by cases h), next_of (f := (·.pc)) (by decide),
    next_of (f := (·.pc)) (by decide)⟩

end Sys2Proof.Tests
end

section
/-! PROOFS. What the environment and the BIU do at the start of a step: the schedule's part (10_state.md R18, R27), the
clear pins (20_memory.md R98), the drain of the write buffer (R103, R104, R430). -/

namespace Sys2Proof.Machine

/-! ### The environment's part -/

theorem environment_end {s : State} (h : s.schedule = []) :
    s.environment = { s with inputs := { s.inputs with hold := false } } := by
  unfold State.environment
  rw [h]

theorem environment_cons {s : State} {e : EnvStep} {rest : List EnvStep} (h : s.schedule = e :: rest) :
    s.environment = { s with
      inputs := { e.inputs with hold := s.granted e }
      schedule := rest
      mem := if s.granted e then masterWrite s.platform e.masterWrites s.mem else s.mem } := by
  unfold State.environment
  rw [h]

/-- The environment sets the pins, moves on in the schedule and lets another master write to memory. -/
theorem environment_rest (s : State) :
    s.environment = { s with
      inputs := s.environment.inputs, schedule := s.environment.schedule, mem := s.environment.mem } := by
  cases h : s.schedule with
  | nil => rw [environment_end h]
  | cons e rest => rw [environment_cons h]

@[simp] theorem environment_writeBuffer (s : State) : s.environment.writeBuffer = s.writeBuffer := by
  rw [environment_rest]
@[simp] theorem environment_icache (s : State) : s.environment.icache = s.icache := by rw [environment_rest]
@[simp] theorem environment_dcache (s : State) : s.environment.dcache = s.dcache := by rw [environment_rest]
@[simp] theorem environment_platform (s : State) : s.environment.platform = s.platform := by rw [environment_rest]
@[simp] theorem environment_bus (s : State) : s.environment.bus = s.bus := by rw [environment_rest]
@[simp] theorem environment_readWaiting (s : State) : s.environment.readWaiting = s.readWaiting := by
  rw [environment_rest]
@[simp] theorem environment_mode (s : State) : s.environment.mode = s.mode := by rw [environment_rest]
@[simp] theorem environment_trace (s : State) : s.environment.trace = s.trace := by rw [environment_rest]

/-- The environment changes memory only by the writes of another master (R109). -/
theorem environment_mem {s : State} (h : s.NoMasterWrites) : s.environment.mem = s.mem := by
  cases hs : s.schedule with
  | nil => rw [environment_end hs]
  | cons e rest =>
    have he : e.masterWrites = [] := h e (by rw [hs]; rfl)
    rw [environment_cons hs, he]
    exact ite_self s.mem

/-- While a bus cycle is not complete no hold is granted (R327). -/
theorem environment_hold_of_busy {s : State} (hs : s.schedule ≠ []) (hb : s.bus ≠ .free) :
    s.environment.inputs.hold = false := by
  cases h : s.schedule with
  | nil => exact absurd h hs
  | cons e rest =>
    rw [environment_cons h]
    simp [State.granted, hb]

/-- A hold that the schedule asks for is granted on a free bus, outside a RESET (R327, R405). -/
theorem granted_of_free {s : State} {e : EnvStep} (hr : e.reset = none) (hh : e.inputs.hold = true)
    (hb : s.bus = .free) : s.granted e = true := by
  simp [State.granted, hr, hh, hb]

/-! ### The clear pins (R98) -/

/-- What a cleared cache lists: the old tags and data words, none of them valid. -/
theorem line_mem_clearCache {n : Nat} (c : List (Nat × CacheEntry n)) (k : Nat) (valid : Bool) (tag : BitVec n)
    (w : Word) :
    (k, CacheEntry.line valid tag w) ∈ clearCache c ↔ valid = false ∧ ∃ v, (k, CacheEntry.line v tag w) ∈ c := by
  unfold clearCache
  rw [List.mem_filterMap]
  constructor
  · rintro ⟨⟨j, entry⟩, hm, hc⟩
    cases entry with
    | line v tag' w' =>
      cases hc
      exact ⟨rfl, v, hm⟩
    | unknown => cases hc
  · rintro ⟨rfl, v, hm⟩
    exact ⟨_, hm, rfl⟩

/-! ### The drain -/

theorem biuWriteN_rest (n : Nat) (s : State) :
    s.biuWriteN n =
      { s with
        mem := (s.biuWriteN n).mem, writeBuffer := (s.biuWriteN n).writeBuffer, trace := (s.biuWriteN n).trace,
        bus := (s.biuWriteN n).bus } := by
  induction n generalizing s with
  | zero => rfl
  | succ n ih =>
    have h := ih s.biuWrite
    rw [biuWrite_rest s] at h
    rw [State.biuWriteN, biuWrite_rest s]
    exact h

theorem biuWrite_length_le (s : State) : s.biuWrite.writeBuffer.length ≤ s.writeBuffer.length := by
  rcases biuWrite_cases s with ⟨hs, -⟩ | ⟨e, rest, -, -, -, hs⟩ | ⟨e, rest, hw, -, -, hs⟩
  · rw [hs]
  · rw [hs]
  · rw [hs, hw]
    exact Nat.le_succ _

theorem biuWriteN_length_le (n : Nat) (s : State) : (s.biuWriteN n).writeBuffer.length ≤ s.writeBuffer.length := by
  induction n generalizing s with
  | zero => exact Nat.le_refl _
  | succ n ih => exact (ih s.biuWrite).trans (biuWrite_length_le s)

/-- A ready BIU that performs at least one write empties the buffer by at least one entry. -/
theorem biuWriteN_length_lt {n : Nat} {s : State} (h : s.BusReady) (hn : 0 < n) (hw : s.writeBuffer ≠ []) :
    (s.biuWriteN n).writeBuffer.length < s.writeBuffer.length := by
  obtain ⟨n, rfl⟩ := Nat.exists_eq_succ_of_ne_zero hn.ne'
  calc (s.biuWrite.biuWriteN n).writeBuffer.length
    _ ≤ s.biuWrite.writeBuffer.length := biuWriteN_length_le n _
    _ = s.writeBuffer.tail.length := by rw [(biuWrite_ready h).1]
    _ < s.writeBuffer.length := by
      have := List.length_pos_of_ne_nil hw
      rw [List.length_tail]
      omega

/-- The drain performs some number of writes, perhaps none. -/
theorem drain_eq_biuWriteN (s : State) : ∃ n, s.drain = s.biuWriteN n := by
  unfold State.drain
  split
  · exact ⟨0, rfl⟩
  · exact ⟨s.pace, rfl⟩

theorem drain_rest (s : State) :
    s.drain =
      { s with
        mem := s.drain.mem, writeBuffer := s.drain.writeBuffer, trace := s.drain.trace, bus := s.drain.bus } := by
  obtain ⟨n, hn⟩ := drain_eq_biuWriteN s
  rw [hn]
  exact biuWriteN_rest n s

theorem seenByte_drain (s : State) (a : Word) : s.drain.seenByte a = s.seenByte a := by
  obtain ⟨n, hn⟩ := drain_eq_biuWriteN s
  rw [hn, seenByte_biuWriteN]

/-- The pace of the BIU once the schedule has ended (R430(b), R432; log entry 34). -/
theorem pace_pos {s : State} (h : s.schedule = []) : 0 < s.pace := by
  simp [State.pace, h]

/-- After the schedule a ready BIU that no read goes before empties the buffer by at least one entry. -/
theorem drain_length_lt {s : State} (h : s.BusReady) (hr : s.readWaiting = false) (hs : s.schedule = [])
    (hw : s.writeBuffer ≠ []) : s.drain.writeBuffer.length < s.writeBuffer.length := by
  rw [drain_runs h.hold hr]
  exact biuWriteN_length_lt h (pace_pos hs) hw

/-! ### The two together -/

/-- The environment has the pins and the schedule, the clear pins have the caches, and the BIU has memory, write buffer,
trace and bus. -/
theorem sample_rest (s : State) :
    s.sample = { s with
      inputs := s.environment.inputs
      schedule := s.environment.schedule
      icache := if s.environment.inputs.icclr then clearCache s.icache else s.icache
      dcache := if s.environment.inputs.dcclr then clearCache s.dcache else s.dcache
      mem := s.sample.mem
      writeBuffer := s.sample.writeBuffer
      trace := s.sample.trace
      bus := s.sample.bus } := by
  have h : s.sample = { s.environment with
      icache := if s.environment.inputs.icclr then clearCache s.environment.icache else s.environment.icache
      dcache := if s.environment.inputs.dcclr then clearCache s.environment.dcache else s.environment.dcache
      mem := s.sample.mem
      writeBuffer := s.sample.writeBuffer
      trace := s.sample.trace
      bus := s.sample.bus } := drain_rest _
  rw [environment_rest s] at h
  exact h

@[simp] theorem sample_inputs (s : State) : s.sample.inputs = s.environment.inputs := by rw [sample_rest]
@[simp] theorem sample_schedule (s : State) : s.sample.schedule = s.environment.schedule := by rw [sample_rest]

@[simp] theorem sample_icache (s : State) :
    s.sample.icache = if s.environment.inputs.icclr then clearCache s.icache else s.icache := by
  rw [sample_rest]

@[simp] theorem sample_dcache (s : State) :
    s.sample.dcache = if s.environment.inputs.dcclr then clearCache s.dcache else s.dcache := by
  rw [sample_rest]

theorem sample_frame (s : State) :
    s.sample = { s with
      inputs := s.sample.inputs, schedule := s.sample.schedule, mem := s.sample.mem,
      writeBuffer := s.sample.writeBuffer, trace := s.sample.trace, icache := s.sample.icache,
      dcache := s.sample.dcache, bus := s.sample.bus } := by
  rw [sample_rest]

/-- Memory as the program sees it stays, whatever the BIU performs (R103). -/
theorem seenByte_sample {s : State} (h : s.NoMasterWrites) (a : Word) : s.sample.seenByte a = s.seenByte a :=
  (seenByte_drain _ a).trans
    (seenByte_of_eq (environment_mem h) (environment_writeBuffer s) (environment_mode s) (environment_platform s) a)

/-- Hold, then read, then write (R104, R430(b)): behind the first two the BIU performs nothing. -/
theorem sample_waits {s : State} (h : s.environment.inputs.hold = true ∨ s.readWaiting = true) :
    s.sample = s.environment.applyClearPins :=
  drain_waits (h.imp_right (environment_readWaiting s).trans)

/-- A waiting BIU leaves its own parts of the state alone. -/
theorem sample_waits_bus {s : State} (h : s.environment.inputs.hold = true ∨ s.readWaiting = true) :
    s.sample.mem = s.environment.mem ∧ s.sample.writeBuffer = s.writeBuffer ∧ s.sample.trace = s.trace ∧
      s.sample.bus = s.bus := by
  rw [sample_waits h]
  exact ⟨rfl, environment_writeBuffer s, environment_trace s, environment_bus s⟩

/-- After the schedule the BIU performs a buffered write if it can (R430(b), R432; log entry 34). -/
theorem sample_drains {s : State} (hs : s.schedule = []) (hb : s.bus = .free) (hr : s.readWaiting = false)
    (ha : ∀ e ∈ s.writeBuffer, s.answer e.addr ≠ .absent) (hw : s.writeBuffer ≠ []) :
    s.sample.writeBuffer.length < s.writeBuffer.length := by
  unfold State.sample
  rw [environment_end hs]
  exact drain_length_lt ⟨rfl, hb, ha⟩ hr hs hw

/-- A byte that another master writes enters ordinary memory (R109), and nothing else (R77). -/
theorem read_masterWrite_single (l : List Region) {m : Memory} (h : tableRising m) (a c : Word) (b : Byte) :
    (masterWrite l [(a, b)] m).read c.toNat =
      if c = a ∧ answerAt l a = .memory then b else m.read c.toNat := by
  by_cases ha : answerAt l a = .memory
  · simp [masterWrite, ha, read_write m _ _ _ h, BitVec.toNat_inj]
  · simp [masterWrite, ha]

/-- In a step of the BIU and the environment alone the core does nothing (R18). -/
theorem step_coreIdle {s : State} (hi : s.coreIdle = true) (hr : s.resetPulse = none)
    (hl : s.sample.mode.legal = true) (hb : s.sample.bus ≠ .coreStuck) : step s = .next s.sample := by
  have hf : s.fetchPhase = .ended (.next s.sample) := by
    simp [State.fetchPhase, hr, hl, hb, hi]
  rw [step, hf]

/-- Settles O6: the three parts are what a step's start does without another master's writes, what it does with one, and
a step without the core. -/
theorem sampleTouchesBusAndCaches : Obligations.SampleTouchesBusAndCaches := by
  unfold Obligations.SampleTouchesBusAndCaches
  refine ⟨?alone, ?master, fun s => step_coreIdle⟩
  case alone =>
    rintro s _ rfl hn
    refine ⟨seenByte_sample hn, sample_frame s, ?waits, ?busy, ?icache, ?dcache, ?icleared, ?dcleared, ?fair⟩
    case waits =>
      intro h
      rw [sample_inputs] at h
      rw [← environment_mem hn]
      exact sample_waits_bus h
    case busy =>
      rw [sample_inputs]
      exact environment_hold_of_busy
    case icache => simp +contextual
    case dcache => simp +contextual
    case icleared =>
      intro h k valid tag w
      rw [sample_inputs] at h
      rw [sample_icache, if_pos h]
      exact line_mem_clearCache s.icache k valid tag w
    case dcleared =>
      intro h k valid tag w
      rw [sample_inputs] at h
      rw [sample_dcache, if_pos h]
      exact line_mem_clearCache s.dcache k valid tag w
    case fair =>
      intro hs
      refine ⟨?_, sample_drains hs⟩
      rw [sample_inputs, environment_end hs]
  case master =>
    rintro s _ e rest a b rfl hm hs hr hh hb hw
    have hg : s.granted e = true := granted_of_free hr hh hb
    have hold : s.environment.inputs.hold = true := by rw [environment_cons hs]; exact hg
    obtain ⟨hmem, hbuf, -, -⟩ := sample_waits_bus (.inl hold)
    refine ⟨hbuf, fun h => ?_, fun h => ?_, fun c => ?_⟩
    · rw [sample_dcache, environment_cons hs]
      simp [h]
    · rw [sample_icache, environment_cons hs]
      simp [h]
    · rw [hmem, environment_cons hs]
      simp only [hg, hw, if_true]
      exact read_masterWrite_single s.platform hm.1 a c b

end Sys2Proof.Machine
end

section
/-! PROOFS. What an instruction can change at all (10_state.md R25, R27, R60, R66): the parts that instructions are made
of, the families of instructions, and every instruction. -/

namespace Sys2Proof.Machine

/-! ### Accesses to memory -/

/-- `t` is `s` after accesses to memory, done or stuck: the bus, the caches and SR.CM may have changed and free values
may have been used (R77, R92, R93, R100). -/
def Accessed (s t : State) : Prop :=
  t = { s with
    mem := t.mem, writeBuffer := t.writeBuffer, icache := t.icache, dcache := t.dcache, trace := t.trace, bus := t.bus,
    freeIndex := t.freeIndex, sr := { s.sr with cm := t.sr.cm } }

theorem Accessed.trans {s t u : State} (h : Accessed s t) (g : Accessed t u) : Accessed s u := by
  unfold Accessed at *
  rw [g, h]

theorem accessed_free {s t : State} (h : t = { s with freeIndex := t.freeIndex }) : Accessed s t := by
  unfold Accessed
  rw [h]

theorem BusOnly.accessed {s t : State} (h : BusOnly s t) : Accessed s t := by
  unfold Accessed
  rw [h.rest]

theorem CacheOnly.accessed {s t : State} (h : CacheOnly s t) : Accessed s t := by
  unfold Accessed
  rw [h.rest]

theorem StuckIn.accessed {s t : State} (h : StuckIn s t) : Accessed s t := by
  unfold Accessed
  rw [h.rest]

theorem Act.All.mono {α : Type} {P Q : State → Prop} {a : Act α} (h : a.All P) (hpq : ∀ t, P t → Q t) : a.All Q := by
  cases a with
  | done x t => exact hpq t h
  | raise x t => exact hpq t h
  | stall read => trivial
  | stuck t => exact hpq t h
  | refuse r => trivial

theorem accessed_busRead (s : State) (sized : Bool) (a : Word) (type : ReadType) :
    (s.busRead sized a type).All (Accessed s) := by
  rcases busRead_cases s sized a type with ⟨-, h⟩ | ⟨t, h, ht, -⟩ | ⟨w, t, h, ht, -⟩ <;> rw [h]
  · trivial
  · exact ht.accessed
  · exact ht.accessed

theorem accessed_refill (s : State) (sized : Bool) (side : CacheSide) (a : Word) :
    (s.refill sized side a).All (Accessed s) := by
  rcases refill_cases s sized side a with ⟨-, h⟩ | ⟨t, h, ht, -⟩ | ⟨v, w, u, hu, h, -⟩ <;> rw [h]
  · trivial
  · exact ht.accessed
  · show Accessed s _
    split
    · exact (cacheOnly_fillBlock hu.cacheOnly side a w).accessed
    · exact (cacheOnly_fill hu.cacheOnly side a v).accessed

theorem accessed_cacheLoad (s : State) (sized : Bool) (side : CacheSide) (a : Word) :
    (s.cacheLoad sized side a).All (Accessed s) := by
  unfold State.cacheLoad State.cacheRead
  split
  · exact accessed_free rfl
  · exact accessed_refill s sized side a
  · split
    · exact accessed_free rfl
    · exact (accessed_refill _ sized side a).mono fun t ht => (accessed_free rfl).trans ht

theorem accessed_isolatedLoad (s : State) (a : Word) : Accessed s (s.isolatedLoad a).2 := by
  unfold State.isolatedLoad
  dsimp only
  split <;> split <;> rfl

theorem accessed_loadWord (s : State) (va : Word) (length : BitVec 2) :
    (s.loadWord va length).All (Accessed s) := by
  unfold State.loadWord
  split
  · exact accessed_free rfl
  · split
    · exact accessed_isolatedLoad s _
    · split
      · exact accessed_busRead s _ _ _
      · exact accessed_cacheLoad s _ _ _

theorem accessed_dcacheStore (s : State) (a : Word) (mask : BitVec 4) (w : Word) :
    Accessed s (s.dcacheStore a mask w).2 := by
  have put : ∀ side valid d, Accessed s (s.putLine side a valid d) := fun side _ _ => by cases side <;> rfl
  unfold State.dcacheStore
  dsimp only
  split
  · exact put _ _ _
  · split
    · split
      · exact put _ _ _
      · exact accessed_free rfl
      · split <;> exact accessed_free rfl
    · show Accessed s (s.invalidate s.dataSide a)
      cases s.dataSide <;> rfl

theorem accessed_appendWrite (s : State) (e : WriteEntry) : (s.appendWrite e).All (Accessed s) := by
  have biu : Accessed s s.biuWrite := by
    unfold Accessed
    rw [biuWrite_rest]
  unfold State.appendWrite
  split
  · rfl
  · split
    · trivial
    · split
      · exact biu.trans rfl
      · exact biu.trans rfl

theorem accessed_storeLanes (s : State) (va : Word) (mask : BitVec 4) (w : Word) :
    (s.storeLanes va mask w).All (Accessed s) := by
  unfold State.storeLanes
  split
  · exact accessed_free rfl
  · split
    · show Accessed s (s.putUnknown s.dataSide _ _)
      cases s.dataSide <;> rfl
    · dsimp only
      split
      · refine (accessed_appendWrite _ _).mono fun t ht => Accessed.trans ?_ ht
        unfold Accessed
        rw [dropAlias_rest]
      · exact (accessed_appendWrite _ _).mono fun t ht => (accessed_dcacheStore s _ _ _).trans ht

/-! ### The parts that most instructions are made of -/

/-- `t` is `s` after parts of an instruction that write neither HI and LO nor what MTC0 writes besides SR: general
registers, SR, memory, the caches and the bus may have changed, and what was in canonical form still is. -/
structure Ordinary (s t : State) : Prop where
  kept : Kept s → Kept t
  rest : t = { s with
    regs := t.regs, mdFresh := t.mdFresh, sr := t.sr, mem := t.mem, writeBuffer := t.writeBuffer, icache := t.icache,
    dcache := t.dcache, trace := t.trace, bus := t.bus, freeIndex := t.freeIndex }

theorem Ordinary.trans {s t u : State} (h : Ordinary s t) (g : Ordinary t u) : Ordinary s u :=
  ⟨fun hs => g.kept (h.kept hs), by rw [g.rest, h.rest]⟩

theorem ordinary_free {s t : State} (h : t = { s with freeIndex := t.freeIndex }) : Ordinary s t :=
  ⟨fun hs => hs.of_eq (by rw [h]) (by rw [h]) (by rw [h]) (by rw [h]) (by rw [h]) (by rw [h]) (by rw [h]), by rw [h]⟩

theorem ordinary_refl (s : State) : Ordinary s s := ordinary_free rfl

theorem ordinary_readSrc (s : State) (r : Reg) : Ordinary s (s.readSrc r).2 := ordinary_free (readSrc_free s r)

theorem ordinary_readSrc2 (s : State) (r q : Reg) : Ordinary s ((s.readSrc r).2.readSrc q).2 :=
  (ordinary_readSrc s r).trans (ordinary_readSrc _ q)

theorem ordinary_setGpr (s : State) (r : Reg) (v : Word) : Ordinary s (s.setGpr r v) :=
  ⟨fun hs => kept_setGpr hs r v, by rw [setGpr_rest]⟩

theorem ordinary_popModes (s : State) : Ordinary s s.popModes := by
  refine ⟨kept_popModes, ?_⟩
  unfold State.popModes
  dsimp only
  rw [useCp0_free]

theorem ordinary_mdFresh (s : State) (b : Bool) : Ordinary s { s with mdFresh := b } :=
  ⟨fun hs => hs.of_eq rfl rfl rfl rfl rfl rfl rfl, rfl⟩

/-- An access to memory that keeps the canonical form is ordinary. -/
theorem all_ordinary {α : Type} {s : State} {a : Act α} (hk : Kept s → a.All Kept) (ha : a.All (Accessed s)) :
    a.All (Ordinary s) := by
  have ord : ∀ {t}, (Kept s → Kept t) → Accessed s t → Ordinary s t := fun hk ht => by
    refine ⟨hk, ?_⟩
    unfold Accessed at ht
    rw [ht]
  cases a with
  | done x t => exact ord hk ha
  | raise x t => exact ord hk ha
  | stall read => trivial
  | stuck t => exact ord hk ha
  | refuse r => trivial

theorem ordinary_loadWord (s : State) (va : Word) (length : BitVec 2) : (s.loadWord va length).All (Ordinary s) :=
  all_ordinary (fun h => kept_loadWord h va length) (accessed_loadWord s va length)

theorem ordinary_memRead (s : State) (va : Word) (n : Size) : (s.memRead va n).All (Ordinary s) := by
  unfold State.memRead
  split
  · exact Act.all_bind (ordinary_loadWord s va _) fun _ _ ht => ht
  · exact ordinary_refl s

theorem ordinary_storeLanes (s : State) (va : Word) {mask : BitVec 4} (w : Word) (hm : storeMask mask = true) :
    (s.storeLanes va mask w).All (Ordinary s) :=
  all_ordinary (fun h => kept_storeLanes h va mask w hm) (accessed_storeLanes s va mask w)

theorem ordinary_memWrite (s : State) (va : Word) (n : Size) (v : Word) : (s.memWrite va n v).All (Ordinary s) := by
  unfold State.memWrite
  split
  · exact ordinary_storeLanes s va _ (storeMask_storeLanesOf _ _ _ _ ‹_›)
  · exact ordinary_refl s

/-! ### The families of instructions -/

/-- A property of every state that the body of an instruction ends in; and a body that completes and is no jump or
branch goes on in sequence (R27). -/
def Act.Ends (a : Act Retire) (P : State → Prop) : Prop :=
  match a with
  | .done r t => P t ∧ (r.branch = false → r.target = none)
  | .raise _ t => P t
  | .stall _ => True
  | .stuck t => P t
  | .refuse _ => True

theorem Act.Ends.mono {P Q : State → Prop} {a : Act Retire} (h : a.Ends P) (hpq : ∀ t, P t → Q t) : a.Ends Q := by
  cases a with
  | done r t => exact ⟨hpq t h.1, h.2⟩
  | raise x t => exact hpq t h
  | stall read => trivial
  | stuck t => exact hpq t h
  | refuse r => trivial

theorem Act.ends_bind {α : Type} {P : State → Prop} {a : Act α} {f : α → State → Act Retire} (ha : a.All P)
    (hf : ∀ x t, P t → (f x t).Ends P) : (a.bind f).Ends P := by
  cases a with
  | done x t => exact hf x t ha
  | raise x t => exact ha
  | stall read => trivial
  | stuck t => exact ha
  | refuse r => trivial

section
variable (s : State)

theorem ends_unary (src dst : Reg) (f : Word → Word) : (s.unary src dst f).Ends (Ordinary s) :=
  ⟨(ordinary_readSrc s src).trans (ordinary_setGpr _ _ _), fun _ => rfl⟩

theorem ends_binary (rs rt rd : Reg) (f : Word → Word → Word) : (s.binary rs rt rd f).Ends (Ordinary s) :=
  ⟨(ordinary_readSrc2 s rs rt).trans (ordinary_setGpr _ _ _), fun _ => rfl⟩

theorem ends_unaryOv (src dst : Reg) (c : Word) (overflow : Word → Word → Bool) (f : Word → Word → Word) :
    (s.unaryOv src dst c overflow f).Ends (Ordinary s) := by
  unfold State.unaryOv
  dsimp only
  split
  · exact ordinary_readSrc s src
  · exact ⟨(ordinary_readSrc s src).trans (ordinary_setGpr _ _ _), fun _ => rfl⟩

theorem ends_binaryOv (rs rt rd : Reg) (overflow : Word → Word → Bool) (f : Word → Word → Word) :
    (s.binaryOv rs rt rd overflow f).Ends (Ordinary s) := by
  unfold State.binaryOv
  dsimp only
  split
  · exact ordinary_readSrc2 s rs rt
  · exact ⟨(ordinary_readSrc2 s rs rt).trans (ordinary_setGpr _ _ _), fun _ => rfl⟩

theorem ends_transfer {P : State → Prop} {body : Act Retire} (h : body.Ends P) : (s.transfer body).Ends P := by
  unfold State.transfer
  split
  · trivial
  · exact h

/-- A jump or branch is not bound to go on in sequence. -/
theorem ends_branchTo {P : State → Prop} (taken : Bool) (target : Word) {t : State} (h : P t) :
    (Act.done (branchTo taken target) t).Ends P :=
  ⟨h, fun hb => (by cases hb)⟩

theorem ends_branch1 (rs : Reg) (offset : Half) (cond : Word → Bool) : (s.branch1 rs offset cond).Ends (Ordinary s) :=
  ends_transfer s (ends_branchTo _ _ (ordinary_readSrc s rs))

theorem ends_branch2 (rs rt : Reg) (offset : Half) (cond : Word → Word → Bool) :
    (s.branch2 rs rt offset cond).Ends (Ordinary s) :=
  ends_transfer s (ends_branchTo _ _ (ordinary_readSrc2 s rs rt))

theorem ends_branchLink (rs : Reg) (offset : Half) (cond : Word → Bool) :
    (s.branchLink rs offset cond).Ends (Ordinary s) :=
  ends_transfer s (ends_branchTo _ _ ((ordinary_readSrc s rs).trans (ordinary_setGpr _ _ _)))

theorem ends_withCp0 {P : State → Prop} {k : State → Act Retire} (h : P s.cp0Unusable.2)
    (hk : (k s.cp0Unusable.2).Ends P) : (s.withCp0 k).Ends P := by
  unfold State.withCp0
  split
  · exact h
  · exact hk

theorem ordinary_cp0Unusable : Ordinary s s.cp0Unusable.2 := ordinary_free (cp0Unusable_free s)

theorem ordinary_testCond : Ordinary s s.testCond.2 := by
  unfold State.testCond
  split
  · exact ordinary_refl s
  · exact ordinary_free rfl

/-- BC0F and BC0T (R245, R246). -/
theorem ends_testCond (taken : Bool → Bool) (offset : Half) :
    (s.withCp0 fun t => t.transfer (.done (branchTo (taken t.testCond.1) (branchTarget t.pc offset)) t.testCond.2)).Ends
      (Ordinary s) :=
  ends_withCp0 s (ordinary_cp0Unusable s)
    (ends_transfer _ (ends_branchTo _ _ ((ordinary_cp0Unusable s).trans (ordinary_testCond _))))

theorem ends_absentUnit (z : BitVec 2) : (s.absentUnit z).Ends (Ordinary s) := by
  unfold State.absentUnit
  dsimp only
  split
  · trivial
  · exact ordinary_free (useCp0_free s _)

theorem ends_cop0Transfer : s.cop0Transfer.Ends (Ordinary s) := ends_withCp0 s (ordinary_cp0Unusable s) trivial

theorem ends_removedTlb : s.removedTlb.Ends (Ordinary s) := ends_withCp0 s (ordinary_cp0Unusable s) trivial

theorem ends_access {P : State → Prop} (base : Reg) (offset : Half) {k : Word → State → Act Retire}
    (hk : ∀ va, (k va (s.readSrc base).2).Ends P) : (s.access base offset k).Ends P := by
  unfold State.access
  split
  · trivial
  · exact hk _

theorem ends_load (n : Size) (extend : Word → Word) (base rt : Reg) (offset : Half) :
    (s.load n extend base rt offset).Ends (Ordinary s) :=
  ends_access s base offset fun va =>
    Act.ends_bind ((ordinary_memRead _ va n).mono fun _ ht => (ordinary_readSrc s base).trans ht)
      fun _ _ hu => ⟨hu.trans (ordinary_setGpr _ _ _), fun _ => rfl⟩

theorem ends_loadPart (length : Nat → BitVec 2) (merge : Nat → Word → Word → Word) (base rt : Reg) (offset : Half) :
    (s.loadPart length merge base rt offset).Ends (Ordinary s) :=
  ends_access s base offset fun va =>
    Act.ends_bind ((ordinary_loadWord _ va _).mono fun _ ht => (ordinary_readSrc s base).trans ht)
      fun _ _ hu => ⟨hu.trans (ordinary_setGpr _ _ _), fun _ => rfl⟩

theorem ends_store (n : Size) (base rt : Reg) (offset : Half) : (s.store n base rt offset).Ends (Ordinary s) :=
  ends_access s base offset fun va =>
    Act.ends_bind ((ordinary_memWrite _ va n _).mono fun _ ht => (ordinary_readSrc2 s base rt).trans ht)
      fun _ _ hu => ⟨hu, fun _ => rfl⟩

theorem ends_storePart (lanes : Nat → Word → BitVec 4 × Word) (base rt : Reg) (offset : Half)
    (hl : ∀ b < 4, ∀ v, storeMask (lanes b v).1 = true) : (s.storePart lanes base rt offset).Ends (Ordinary s) :=
  ends_access s base offset fun va =>
    Act.ends_bind
      ((ordinary_storeLanes _ va _ (hl _ (byteLane_lt _ _) _)).mono fun _ ht => (ordinary_readSrc2 s base rt).trans ht)
      fun _ _ hu => ⟨hu, fun _ => rfl⟩

end

/-! ### Every instruction -/

/-- The writers of HI and LO (R25). -/
def WritesHiLo (i : Instr) : Prop :=
  ∃ rs rt, i = .mult rs rt ∨ i = .multu rs rt ∨ i = .div rs rt ∨ i = .divu rs rt ∨ i = .mthi rs ∨ i = .mtlo rs

/-- `t` is `s` after the body of instruction `i`, before it completes or its exception is taken: what was in canonical
form still is; the sequencing cells, the hazard cells, the pins, the platform and the rest of CP0 are as they were; HI
and LO, the software interrupt bits and PTEBase have their own writers (R25, R60, R363). -/
structure Changes (i : Instr) (s t : State) : Prop where
  kept : Kept s → Kept t
  rest : t = { s with
    regs := t.regs, hi := t.hi, lo := t.lo, mdFresh := t.mdFresh, sr := t.sr,
    cause := { s.cause with sw := t.cause.sw }, pteBase := t.pteBase, mem := t.mem, writeBuffer := t.writeBuffer,
    icache := t.icache, dcache := t.dcache, trace := t.trace, bus := t.bus, freeIndex := t.freeIndex }
  hiLo : (t.hi = s.hi ∧ t.lo = s.lo) ∨ WritesHiLo i
  sw : t.cause.sw = s.cause.sw ∨ ∃ rt, i = .mtc0 rt 13
  pteBase : t.pteBase = s.pteBase ∨ ∃ rt, i = .mtc0 rt 4

theorem Changes.mode {i : Instr} {s t : State} (h : Changes i s t) : t.mode = s.mode := by rw [h.rest]

theorem Changes.platform {i : Instr} {s t : State} (h : Changes i s t) : t.platform = s.platform := by rw [h.rest]

theorem Ordinary.changes {s t : State} (h : Ordinary s t) (i : Instr) : Changes i s t := by
  refine ⟨h.kept, ?_, .inl ⟨?_, ?_⟩, .inl ?_, .inl ?_⟩ <;> rw [h.rest]

theorem Act.Ends.changes {s : State} {a : Act Retire} (h : a.Ends (Ordinary s)) (i : Instr) : a.Ends (Changes i s) :=
  h.mono fun _ ht => ht.changes i

/-- A state after HI and LO were written by one of their writers. -/
theorem changes_hiLo {i : Instr} {s t : State} (h : Ordinary s t) (hi lo : Word) (fresh : Bool)
    (hw : WritesHiLo i) : Changes i s { t with hi := hi, lo := lo, mdFresh := fresh } := by
  refine ⟨fun hs => (h.kept hs).of_eq rfl rfl rfl rfl rfl rfl rfl, ?_, .inr hw, .inl ?_, .inl ?_⟩ <;> rw [h.rest]

/-- MULT, MULTU, DIV and DIVU, whose result costs free values only (R200 to R203, R211). -/
theorem ends_multiplyDivide {i : Instr} (s : State) (rs rt : Reg)
    (hi : i = .mult rs rt ∨ i = .multu rs rt ∨ i = .div rs rt ∨ i = .divu rs rt)
    {result : Word → Word → State → (Word × Word) × State} (hr : ∀ a b t, Ordinary t (result a b t).2) :
    (s.multiplyDivide rs rt result).Ends (Changes i s) := by
  unfold State.multiplyDivide
  split
  · trivial
  · exact ⟨changes_hiLo ((ordinary_readSrc2 s rs rt).trans (hr _ _ _)) _ _ _ ⟨rs, rt, by tauto⟩, fun _ => rfl⟩

theorem ordinary_divideOr (defined : Bool) (r : Word × Word) (s : State) : Ordinary s (divideOr defined r s).2 := by
  unfold divideOr
  split
  · exact ordinary_refl s
  · exact ordinary_free rfl

theorem ordinary_spoilt (s : State) (v : Word) : Ordinary s (s.spoilt v).2 := by
  unfold State.spoilt
  split
  · exact ordinary_free rfl
  · exact ordinary_refl s

/-- What MFC0 reads costs free values only. -/
theorem readCp0_free {s : State} {rd : Reg} {r : Word × State} (h : s.readCp0 rd = some r) :
    r.2 = { s with freeIndex := r.2.freeIndex } := by
  have hv := useCp0_free s id
  unfold State.readCp0 at h
  dsimp only at h
  split at h
  · cases h
    exact free_trans hv rfl
  · cases h
    rfl
  · split at h
    · cases h
      exact hv
    · cases h
      exact free_trans hv rfl
  · cases h
    exact hv
  · cases h
    rfl
  · cases h
    rfl
  · cases h

/-- MTC0 writes PTEBase through Context, the software interrupt bits through Cause, and else SR or nothing (R260). -/
theorem changes_writeCp0 {s t u : State} {rt rd : Reg} {v : Word} (h : Ordinary s t) (hw : t.writeCp0 rd v = some u) :
    Changes (.mtc0 rt rd) s u := by
  have reg : ∀ n : Nat, n < 32 → rd.toNat = n → rd = BitVec.ofNat 5 n := fun n hn e =>
    BitVec.eq_of_toNat_eq (by rw [e, BitVec.toNat_ofNat, Nat.mod_eq_of_lt hn])
  have status : ∀ (x : State) (sr : Status), Ordinary s x → Ordinary s { x with sr := sr } := fun x sr hx =>
    hx.trans ⟨fun hs => hs.of_eq rfl rfl rfl rfl rfl rfl rfl, rfl⟩
  unfold State.writeCp0 at hw
  split at hw
  · rename_i e
    cases hw
    refine ⟨fun hs => (h.kept hs).of_eq rfl rfl rfl rfl rfl rfl rfl, ?_, .inl ⟨?_, ?_⟩, .inl ?_,
      .inr ⟨rt, by rw [reg 4 (by decide) e]; rfl⟩⟩ <;> rw [h.rest]
  · cases hw
    exact h.changes _
  · split at hw
    · cases hw
      exact (status _ _ (h.trans (ordinary_free rfl))).changes _
    · cases hw
      exact (status _ _ h).changes _
  · rename_i e
    cases hw
    refine ⟨fun hs => (h.kept hs).of_eq rfl rfl rfl rfl rfl rfl rfl, ?_, .inl ⟨?_, ?_⟩,
      .inr ⟨rt, by rw [reg 13 (by decide) e]; rfl⟩, .inl ?_⟩ <;> rw [h.rest]
  · cases hw
    exact h.changes _
  · cases hw
    exact h.changes _
  · cases hw

/-- A wait that goes on leaves the state as it is (R77). -/
theorem waits_next {s t : State} (h : s.waits = .next t) : t = s := by
  unfold State.waits at h
  split at h
  · cases h
  · cases h
    rfl

/-- Every instruction is the outcome of a body that ends in what the instruction may change. The instructions whose body
completes at once are unfolded first, so that `rfl` finds the body and does not compute the outcome. -/
theorem exec_finishes (i : Instr) (s : State) : ∃ a, exec i s = s.finish a ∧ a.Ends (Changes i s) := by
  have set : ∀ r v, Ordinary s (s.setGpr r v) := ordinary_setGpr s
  cases i <;> simp only [exec, execAddiu, execSlti, execSltiu, execAndi, execOri, execXori, execLui, execNor, execSll,
    execSrl, execSra, execSllv, execSrlv, execSrav, execMfhi, execMflo] <;> refine ⟨_, rfl, ?_⟩
  case lb base rt offset | lbu base rt offset | lh base rt offset | lhu base rt offset | lw base rt offset =>
    exact (ends_load s _ _ base rt offset).changes _
  case lwl base rt offset | lwr base rt offset => exact (ends_loadPart s _ _ base rt offset).changes _
  case sb base rt offset | sh base rt offset | sw base rt offset => exact (ends_store s _ base rt offset).changes _
  case swl base rt offset => exact (ends_storePart s _ base rt offset storeMask_swlLanes).changes _
  case swr base rt offset => exact (ends_storePart s _ base rt offset storeMask_swrLanes).changes _
  case addi rs rt imm => exact (ends_unaryOv s rs rt _ _ _).changes _
  case addiu rs rt imm | slti rs rt imm | sltiu rs rt imm | andi rs rt imm | ori rs rt imm | xori rs rt imm =>
    exact (ends_unary s rs rt _).changes _
  case lui rt imm => exact ⟨(set rt _).changes _, fun _ => rfl⟩
  case add rs rt rd | sub rs rt rd => exact (ends_binaryOv s rs rt rd _ _).changes _
  case addu rs rt rd | subu rs rt rd | and rs rt rd | or rs rt rd | xor rs rt rd | nor rs rt rd | slt rs rt rd |
      sltu rs rt rd | sllv rs rt rd | srlv rs rt rd | srav rs rt rd => exact (ends_binary s rs rt rd _).changes _
  case sll rt rd sa | srl rt rd sa | sra rt rd sa => exact (ends_unary s rt rd _).changes _
  case mult rs rt => exact ends_multiplyDivide s rs rt (.inl rfl) fun _ _ t => ordinary_refl t
  case multu rs rt => exact ends_multiplyDivide s rs rt (.inr (.inl rfl)) fun _ _ t => ordinary_refl t
  case div rs rt =>
    exact ends_multiplyDivide s rs rt (.inr (.inr (.inl rfl))) fun _ _ t => ordinary_divideOr _ _ t
  case divu rs rt =>
    exact ends_multiplyDivide s rs rt (.inr (.inr (.inr rfl))) fun _ _ t => ordinary_divideOr _ _ t
  case mfhi rd | mflo rd => exact ⟨((set rd _).trans (ordinary_mdFresh _ _)).changes _, fun _ => rfl⟩
  case mthi rs | mtlo rs =>
    split
    · trivial
    · exact ⟨changes_hiLo ((ordinary_readSrc s rs).trans (ordinary_spoilt _ _)) _ _ _ ⟨rs, 0, by simp⟩,
        fun _ => rfl⟩
  case j target => exact (ends_transfer s (ends_branchTo _ _ (ordinary_refl s))).changes _
  case jal target => exact (ends_transfer s (ends_branchTo _ _ (set 31 _))).changes _
  case jr rs => exact (ends_transfer s (ends_branchTo _ _ (ordinary_readSrc s rs))).changes _
  case jalr rs rd =>
    refine ends_transfer s ?_
    split
    · trivial
    · exact ends_branchTo _ _ (((ordinary_readSrc s rs).trans (ordinary_setGpr _ _ _)).changes _)
  case beq rs rt offset | bne rs rt offset => exact (ends_branch2 s rs rt offset _).changes _
  case blez rs offset | bgtz rs offset | bltz rs offset | bgez rs offset =>
    exact (ends_branch1 s rs offset _).changes _
  case bltzal rs offset | bgezal rs offset => exact (ends_branchLink s rs offset _).changes _
  case syscall | brk code => exact (ordinary_refl s).changes _
  case mfc0 rt rd =>
    refine ends_withCp0 s ((ordinary_cp0Unusable s).changes _) ?_
    split
    · trivial
    · rename_i r hr
      have hread := (ordinary_cp0Unusable s).trans (ordinary_free (readCp0_free hr))
      exact ⟨(hread.trans (ordinary_setGpr _ _ _)).changes _, fun _ => rfl⟩
  case mtc0 rt rd =>
    refine ends_withCp0 s ((ordinary_cp0Unusable s).changes _) ?_
    split
    · trivial
    · rename_i u hu
      exact ⟨changes_writeCp0 ((ordinary_cp0Unusable s).trans (ordinary_readSrc _ rt)) hu, fun _ => rfl⟩
  case bc0f offset => exact (ends_testCond s (!·) offset).changes _
  case bc0t offset => exact (ends_testCond s id offset).changes _
  case rfe =>
    refine ends_withCp0 s ((ordinary_cp0Unusable s).changes _) ?_
    split
    · trivial
    · exact ⟨((ordinary_cp0Unusable s).trans (ordinary_popModes _)).changes _, fun _ => rfl⟩
  case cop1 cofun => exact (ends_absentUnit s 1).changes _
  case cop2 cofun => exact (ends_absentUnit s 2).changes _
  case cop3 cofun => exact (ends_absentUnit s 3).changes _
  case lwc1 base rt offset | swc1 base rt offset => exact (ends_absentUnit s 1).changes _
  case lwc2 base rt offset | swc2 base rt offset => exact (ends_absentUnit s 2).changes _
  case lwc3 base rt offset | swc3 base rt offset => exact (ends_absentUnit s 3).changes _
  case lwc0 base rt offset | swc0 base rt offset => exact (ends_cop0Transfer s).changes _
  case tlbr | tlbwi | tlbwr | tlbp => exact (ends_removedTlb s).changes _

/-- All that the execution of an instruction can answer as the next state. -/
theorem exec_next {i : Instr} {s t : State} (h : exec i s = .next t) :
    (∃ r u, Changes i s u ∧ (r.branch = false → r.target = none) ∧ t = u.retire r) ∨
    (∃ x u, Changes i s u ∧ t = u.takeException x) ∨ (∃ read, t = s.stalled read) ∨ Changes i s t := by
  obtain ⟨a, he, ha⟩ := exec_finishes i s
  rw [he] at h
  cases a with
  | done r u =>
    cases h
    exact .inl ⟨r, u, ha.1, ha.2, rfl⟩
  | raise x u =>
    cases h
    exact .inr (.inl ⟨x, u, ha, rfl⟩)
  | stall read =>
    cases h
    exact .inr (.inr (.inl ⟨read, rfl⟩))
  | stuck u =>
    cases waits_next h
    exact .inr (.inr (.inr ha))
  | refuse r => cases h

/-! ### The named writers -/

/-- An exception entry, with the fetches that it aborts, writes no register of these. -/
theorem takeException_keeps (s : State) (x : Exc) :
    (s.takeException x).hi = s.hi ∧ (s.takeException x).lo = s.lo ∧ (s.takeException x).cause.sw = s.cause.sw ∧
      (s.takeException x).pteBase = s.pteBase ∧ (s.takeException x).mode = s.mode ∧
      (s.takeException x).platform = s.platform := by
  have h := (abortsAll ((s.wordsAhead x).zip s.inputs.abortedFetches) s).aside.rest
  unfold State.takeException State.abortFetches
  simp only [enter_hi, enter_lo, enter_sw, enter_pteBase, enter_mode, enter_platform]
  rw [h]
  exact ⟨rfl, rfl, rfl, rfl, rfl, rfl⟩

/-- Settles O59: an instruction's body changes these only where it is named, and neither its completion nor an exception
entry writes one of them. -/
theorem onlyTheNamedWriters : Obligations.OnlyTheNamedWriters := by
  intro i s t h
  rcases exec_next h with ⟨r, u, hu, -, rfl⟩ | ⟨x, u, hu, rfl⟩ | ⟨read, rfl⟩ | hu
  · exact ⟨hu.hiLo, hu.sw, hu.pteBase, hu.mode, hu.platform⟩
  · obtain ⟨hhi, hlo, hsw, hpte, hmode, hplatform⟩ := takeException_keeps u x
    rw [hhi, hlo, hsw, hpte, hmode, hplatform]
    exact ⟨hu.hiLo, hu.sw, hu.pteBase, hu.mode, hu.platform⟩
  · exact ⟨.inl ⟨rfl, rfl⟩, .inl rfl, .inl rfl, rfl, rfl⟩
  · exact ⟨hu.hiLo, hu.sw, hu.pteBase, hu.mode, hu.platform⟩

end Sys2Proof.Machine
end

section
/-! PROOFS. Every step keeps the invariant: the start of a step, the fetch, the instruction, an exception, a RESET
(10_state.md R27, R61, R63, R64; 20_memory.md R74, R93; 50_bus_interface.md R336). -/

namespace Sys2Proof.Machine

/-! ### The invariant by its parts -/

/-- The part of `Inv` that speaks of the sequencing cells (R27, R30, R110(e)). -/
structure Sequenced (s : State) : Prop where
  loadSlot : s.ldSlot ≠ some 0
  sequence : s.inDelaySlot = false → s.npc = s.pc + 4
  recent : s.recentStores.length ≤ 4

theorem inv_iff (s : State) : Inv s ↔ Kept s ∧ Sequenced s :=
  ⟨fun h => ⟨h.kept, h.loadSlot, h.sequence, h.recent⟩,
    fun ⟨hk, hs⟩ => ⟨hk.memory, hk.icache, hk.dcache, hk.buffer, hk.entries, hk.held, hs.loadSlot, hs.sequence, hs.recent,
      hk.mode⟩⟩

theorem Sequenced.of_eq {s t : State} (h : Sequenced s) (hl : t.ldSlot = s.ldSlot) (hd : t.inDelaySlot = s.inDelaySlot)
    (hp : t.pc = s.pc) (hn : t.npc = s.npc) (hr : t.recentStores = s.recentStores) : Sequenced t :=
  ⟨hl ▸ h.loadSlot, by rw [hd, hn, hp]; exact h.sequence, hr ▸ h.recent⟩

/-- An instruction that completes, in sequence unless it is a jump or branch, leaves the cells in order. -/
theorem sequenced_retire (s : State) {r : Retire} (h : r.branch = false → r.target = none) : Sequenced (s.retire r) := by
  refine ⟨fun hl => ?_, fun hb => ?_, List.length_take_le 4 _⟩
  · have := (Option.filter_eq_some_iff.1 hl).2
    simp at this
  · rw [retire_npc, retire_pc, h hb]
    rfl

/-- So does an exception entry, whatever they were. -/
theorem sequenced_takeException (s : State) (x : Exc) : Sequenced (s.takeException x) :=
  ⟨nofun, fun _ => rfl, Nat.zero_le 4⟩

theorem inv_takeException {s : State} (h : Kept s) (x : Exc) : Inv (s.takeException x) :=
  (inv_iff _).2 ⟨kept_takeException h x, sequenced_takeException s x⟩

theorem inv_stalled {s : State} (h : Inv s) (read : Bool) : Inv (s.stalled read) :=
  (inv_iff _).2 ⟨kept_stalled h.kept read, ((inv_iff s).1 h).2.of_eq rfl rfl rfl rfl rfl⟩

/-! ### The instruction -/

theorem Changes.inv {i : Instr} {s t : State} (h : Changes i s t) (hs : Inv s) : Inv t := by
  refine (inv_iff t).2 ⟨h.kept hs.kept, ((inv_iff s).1 hs).2.of_eq ?_ ?_ ?_ ?_ ?_⟩ <;> rw [h.rest]

/-- Every instruction keeps the invariant. -/
theorem exec_keeps_inv {i : Instr} {s t : State} (hs : Inv s) (h : exec i s = .next t) : Inv t := by
  rcases exec_next h with ⟨r, u, hu, hr, rfl⟩ | ⟨x, u, hu, rfl⟩ | ⟨read, rfl⟩ | hu
  · exact (inv_iff _).2 ⟨kept_retire (hu.kept hs.kept) r, sequenced_retire u hr⟩
  · exact inv_takeException (hu.kept hs.kept) x
  · exact inv_stalled hs read
  · exact hu.inv hs

/-! ### The start of a step -/

theorem masterWrite_wf (l : List Region) (writes : List (Word × Byte)) {m : Memory} (h : m.wf) :
    (masterWrite l writes m).wf := by
  induction writes generalizing m with
  | nil => exact h
  | cons e rest ih =>
    obtain ⟨a, b⟩ := e
    refine ih ?_
    split
    · exact write_wf m _ _ h a.isLt
    · exact h

/-- The environment grants no hold while a bus cycle is not complete (R327), and another master writes bytes (R109). -/
theorem kept_environment {s : State} (h : Kept s) : Kept s.environment := by
  cases hs : s.schedule with
  | nil =>
    rw [environment_end hs]
    exact ⟨h.memory, h.icache, h.dcache, h.buffer, h.entries, nofun, h.mode⟩
  | cons e rest =>
    rw [environment_cons hs]
    refine ⟨?_, h.icache, h.dcache, h.buffer, h.entries, fun hg => ?_, h.mode⟩
    · dsimp only
      split
      · exact masterWrite_wf _ _ h.memory
      · exact h.memory
    · have hg : s.granted e = true := hg
      simp only [State.granted, Bool.and_eq_true, beq_iff_eq] at hg
      exact hg.2

theorem kept_drain {s : State} (h : Kept s) : Kept s.drain := by
  by_cases hw : s.inputs.hold = true ∨ s.readWaiting = true
  · rw [drain_waits hw]
    exact h
  · simp only [not_or, Bool.not_eq_true] at hw
    rw [drain_runs hw.1 hw.2]
    exact kept_biuWriteN _ h hw.1

theorem inv_sample {s : State} (h : Inv s) : Inv s.sample := by
  refine (inv_iff _).2 ⟨kept_drain (kept_applyClearPins (kept_environment h.kept)),
    ((inv_iff s).1 h).2.of_eq ?_ ?_ ?_ ?_ ?_⟩ <;> rw [sample_frame]

/-- A RESET with an allowed combination of mode pins, whatever the state but for its memory (R69, R400). -/
theorem inv_resetBy {s : State} {r : ResetPulse} (hm : s.mem.wf) (hr : r.mode.legal = true) : Inv (s.resetBy r) where
  memory := hm
  icache := ⟨List.Pairwise.nil, nofun⟩
  dcache := ⟨List.Pairwise.nil, nofun⟩
  buffer := Nat.zero_le 4
  entries := nofun
  held := nofun
  loadSlot := nofun
  sequence _ := rfl
  recent := Nat.zero_le 4
  mode := hr

/-! ### The fetch -/

/-- A state in which used free values differ meets the invariant as well. -/
theorem inv_free {s t : State} (hs : Inv s) (h : t = { s with freeIndex := t.freeIndex }) : Inv t := by
  rw [h]
  exact ⟨hs.memory, hs.icache, hs.dcache, hs.buffer, hs.entries, hs.held, hs.loadSlot, hs.sequence, hs.recent, hs.mode⟩

/-- A fetch keeps the invariant, done, raising or stuck. -/
theorem inv_fetchWord {s : State} (h : Inv s) : s.fetchWord.All Inv := by
  have hk := kept_fetchFrom h.kept s.inputs.fetchSizrq s.pc
  have ha := abortsOne_fetch s s.pc s.inputs.fetchSizrq
  have seq : ∀ {t}, Kept t → AbortsOne s t s.pc → Inv t := fun {t} hk ha => by
    refine (inv_iff t).2 ⟨hk, ((inv_iff s).1 h).2.of_eq ?_ ?_ ?_ ?_ ?_⟩ <;> rw [ha.aside.rest]
  unfold State.fetchWord
  cases hf : s.fetchFrom s.inputs.fetchSizrq s.pc <;> rw [hf] at hk ha
  case stall | refuse => trivial
  all_goals exact seq hk ha

theorem rejected_keeps_inv {s t : State} {r : Reject} (hs : Inv s) (h : s.rejected r = .next t) : Inv t := by
  cases r with
  | reservedInstruction =>
    cases h
    exact inv_takeException hs.kept .ri
  | unlistedCop0 =>
    unfold State.rejected at h
    dsimp only at h
    split at h
    · cases h
      exact inv_takeException (inv_free hs (cp0Unusable_free s)).kept (.cpu 0)
    · cases h
  | blankBcond => cases h
  | nonzeroConstantField => cases h

/-- What precedes execution leads to keeps the invariant: the state in which an instruction is run, or the next one. -/
def Fetched.Meets (f : Fetched) (P : State → Prop) : Prop :=
  match f with
  | .run _ t => P t
  | .ended o => ∀ t, o = .next t → P t

theorem meets_next {P : State → Prop} {t : State} (h : P t) : (Fetched.ended (.next t)).Meets P :=
  fun _ hu => Host.Outcome.next.inj hu ▸ h

theorem meets_waits {P : State → Prop} {t : State} (h : P t) : (Fetched.ended t.waits).Meets P :=
  fun _ hu => waits_next hu ▸ h

theorem meets_refused {P : State → Prop} (r : Refusal) : (Fetched.ended (.refused r)).Meets P :=
  fun _ hu => by cases hu

theorem inv_fetchDecode {s : State} (h : Inv s) : s.fetchDecode.Meets Inv := by
  have hf := inv_fetchWord h
  unfold State.fetchDecode
  cases hw : s.fetchWord with
  | done w t =>
    rw [hw] at hf
    dsimp only
    cases decode w with
    | ok i => exact hf
    | error r => exact fun u hu => rejected_keeps_inv hf hu
  | raise x t =>
    rw [hw] at hf
    exact meets_next (inv_takeException hf.kept x)
  | stall read => exact meets_next (inv_stalled h read)
  | stuck t =>
    rw [hw] at hf
    exact meets_waits hf
  | refuse r => exact meets_refused r

theorem inv_fetchPhase {s : State} (h : Inv s) : s.fetchPhase.Meets Inv := by
  have hs := inv_sample h
  have hi : Inv s.sample.interrupted.2 := inv_free hs (useCp0_free _ _)
  unfold State.fetchPhase
  dsimp only
  split
  · split
    · exact meets_next (inv_resetBy (kept_environment h.kept).memory ‹_›)
    · exact meets_refused _
  · split
    · exact meets_refused _
    · split
      · exact meets_waits hs
      · split
        · exact meets_next hs
        · split
          · exact meets_next (inv_takeException hi.kept .interrupt)
          · exact inv_fetchDecode hi

/-- Settles O14: the start of a step leads to a state that meets the invariant, and every instruction keeps it. -/
theorem stepKeepsInv : Obligations.StepKeepsInv := by
  intro s t hs h
  have hf := inv_fetchPhase hs
  unfold step at h
  cases hp : s.fetchPhase with
  | run i u =>
    rw [hp] at h hf
    exact exec_keeps_inv hf h
  | ended o =>
    rw [hp] at h hf
    exact hf t h

end Sys2Proof.Machine
end

section
/-! PROOFS. The state after reset (10_state.md R69). -/

namespace Sys2Proof.Machine

/-- Settles O11: each clause is a field of `State.reset`, and r0 reads as zero. -/
theorem resetState : Obligations.ResetState := by
  unfold Obligations.ResetState
  exact ⟨rfl, rfl, rfl, rfl, rfl, rfl, rfl, rfl, rfl, rfl, rfl, rfl, rfl, rfl, rfl, rfl, rfl, readGpr_zero _⟩

end Sys2Proof.Machine
end

section
/-! PROOFS. A step of the core in which no interrupt is requested: the fetch from the pc, and the execution of the
instruction that the fetched word decodes to (10_state.md R27; 20_memory.md R94, R95, R110). -/

namespace Sys2Proof.Machine

/-! ### The interrupt test (R361) -/

theorem ne_zero_iff_getLsbD {n : Nat} (x : BitVec n) : x ≠ 0 ↔ ∃ k < n, x.getLsbD k = true := by
  constructor
  · intro hx
    by_contra hn
    exact hx (BitVec.eq_of_getLsbD_eq fun k hk => by simpa using fun hb => hn ⟨k, hk, hb⟩)
  · rintro ⟨k, -, hk⟩ rfl
    simp at hk

/-- The interrupt test with the values that a step sees is what the statements call a request. -/
theorem intRequest_iff (s : State) (v : Cp0View) : intRequest s.inputs.int v = true ↔ s.Requested v := by
  have bits : ((s.inputs.int ++ v.sw) &&& v.sr.intMask : BitVec 8) ≠ 0 ↔ ∃ k < 8, v.sr.intMask.getLsbD k = true ∧
      (if k < 2 then v.sw.getLsbD k else s.inputs.int.getLsbD (k - 2)) = true := by
    simp only [ne_zero_iff_getLsbD, BitVec.getLsbD_and, BitVec.getLsbD_append, Bool.and_eq_true, and_comm]
  unfold intRequest State.Requested
  rw [Bool.and_eq_true, bne_iff_ne, bits]

/-- Where no view that the step may see asks for an interrupt, none is taken. -/
theorem not_interrupted {s : State} (h : s.Undisturbed) : s.interrupted.1 = false :=
  useCp0_all s _ false fun v hv => Bool.eq_false_iff.2 fun hr => h v hv ((intRequest_iff s v).1 hr)

theorem interrupted_free (s : State) : s.interrupted.2 = { s with freeIndex := s.interrupted.2.freeIndex } :=
  useCp0_free _ _

/-! ### The phase before execution -/

/-- Without RESET and interrupt, a step of the core comes to its fetch (R27). -/
theorem fetchPhase_undisturbed {s t : State} (hs : Starts s t) (hn : t.Undisturbed) :
    s.fetchPhase = t.interrupted.2.fetchDecode := by
  obtain ⟨rfl, hreset, hlegal, hrunning, hcore⟩ := hs
  unfold State.fetchPhase
  simp only [hreset, hlegal, hrunning, hcore, not_interrupted hn, Bool.not_true, Bool.false_eq_true, if_false]

theorem step_of_fetched {s t u : State} {w : Word} {i : Instr} (hs : Starts s t) (hn : t.Undisturbed)
    (hf : t.interrupted.2.fetchWord = .done w u) (hi : decode w = .ok i) : step s = exec i u := by
  unfold step
  rw [fetchPhase_undisturbed hs hn]
  unfold State.fetchDecode
  simp only [hf, hi]

theorem step_of_refused {s t : State} {r : Refusal} (hs : Starts s t) (hn : t.Undisturbed)
    (hf : t.interrupted.2.fetchWord = .refuse r) : step s = .refused r := by
  unfold step
  rw [fetchPhase_undisturbed hs hn]
  unfold State.fetchDecode
  simp only [hf]

/-! ### The fetch from the pc -/

/-- A fetch that is allowed, in a state `u` that differs from `t` in used free values only: which way it goes (R94). -/
theorem fetchWord_ok {t u : State} (hf : t.Fetchable) (hu : u = { t with freeIndex := u.freeIndex }) :
    ∃ (v : State) (stores : List (Option StoredWord)), v = { t with freeIndex := v.freeIndex } ∧
      (∀ x, some x ∈ stores → some x ∈ t.recentStores) ∧ u.fetchWord =
        if inKseg1 t.pc then
          (v.busRead t.inputs.fetchSizrq (physical t.pc) (.uncached Size.word.accessType)).bind fun w t' =>
            .done (wordBefore stores (physical t.pc) w) t'
        else if (v.useCp0 fun x => x.sr.swc).1 then .refuse .swappedFetch
        else (v.useCp0 fun x => x.sr.swc).2.cacheRead .instr (physical t.pc) fun t' =>
          t'.fetchRefill t.inputs.fetchSizrq stores (physical t.pc) := by
  obtain ⟨v, stores, hv, hl, he⟩ := fetchFrom_ok hf hu
  refine ⟨v, stores, hv, hl, Eq.trans ?_ (he t.inputs.fetchSizrq)⟩
  unfold State.fetchWord
  rw [hu]

theorem busOnly_of_free {s t u : State} (h : t = { s with freeIndex := t.freeIndex }) (g : BusOnly t u) :
    BusOnly s u := by
  refine ⟨?_, fun a => (g.seen a).trans (free_seen h a), fun e he => ?_⟩
  · rw [g.rest, h]
  · have := g.buffer e he
    rw [h] at this
    exact this

theorem BusOnly.onlyBus {s t : State} (h : BusOnly s t) : OnlyBus s { t with icache := s.icache } := by
  refine ⟨by rw [h.rest], fun a => ?_⟩
  exact (seenByte_of_eq (s := t) (t := { t with icache := s.icache }) rfl rfl rfl rfl a).trans (h.seen a)

/-- In kseg1 the word is read from memory (R94, R110). -/
theorem fetchWord_kseg1 {t u : State} (hf : t.Fetchable) (hu : u = { t with freeIndex := u.freeIndex })
    (hk : inKseg1 t.pc = true) (hr : t.Readable false t.pc) :
    ∃ w x, u.fetchWord = .done w x ∧ t.MayFetch (physical t.pc) w ∧ FetchedOnly t x := by
  obtain ⟨v, stores, hv, hl, he⟩ := fetchWord_ok hf hu
  obtain ⟨w, x, hx, hb, hw⟩ := busRead_spec t.inputs.fetchSizrq (physical t.pc) (.uncached Size.word.accessType)
    (ready_free hv hr.ready) (by rw [answer_free hv]; exact not_absent_of_backed hr.backed)
  rw [backed_free hv, wordAddr_physical hf.1, free_word hv] at hw
  obtain rfl := hw hr.backed
  have hb := busOnly_of_free hv hb
  refine ⟨_, x, ?_, mayFetch_before hl _, hb.onlyBus, fun _ => by rw [hb.rest], fun hc => ?_⟩
  · rw [he, if_pos hk, hx]
    rfl
  · rw [hk] at hc
    cases hc

/-- A valid entry of the instruction cache with the tag of the pc answers its word, and nothing happens (R95). -/
theorem fetchWord_hit {t u : State} {w : Word} (hf : t.Fetchable) (hu : u = { t with freeIndex := u.freeIndex })
    (hc : t.CachedFetch) (hi : t.inputs.icclr = false)
    (he : t.icacheEntry (physical t.pc) = some (.line true ((physical t.pc).extractLsb' 12 20) w)) :
    ∃ x, u.fetchWord = .done w x ∧ x = { t with freeIndex := x.freeIndex } := by
  obtain ⟨v, stores, hv, -, hw⟩ := fetchWord_ok hf hu
  have hx := free_trans hv (useCp0_free v fun x => x.sr.swc)
  refine ⟨_, ?_, hx⟩
  rw [hw, if_neg (by simp [hc.1]), if_neg (by simp [useCp0_swc hv hc])]
  unfold State.cacheRead
  rw [look_icache hx hi, he]
  simp [lookEntry, icacheTag]

/-- On a miss the word is read from memory and filled in (R95, R98, R110). -/
theorem fetchWord_miss {t u : State} (hf : t.Fetchable) (hu : u = { t with freeIndex := u.freeIndex })
    (hc : t.CachedFetch) (hm : t.MissesInstr (physical t.pc)) (hr : t.Readable t.mode.iblock t.pc) :
    ∃ w x, u.fetchWord = .done w x ∧ t.MayFetch (physical t.pc) w ∧ FetchedOnly t x ∧
      (t.inputs.icclr = false →
        x.icacheEntry (physical t.pc) = some (.line true ((physical t.pc).extractLsb' 12 20) w)) := by
  obtain ⟨v, stores, hv, hl, he⟩ := fetchWord_ok hf hu
  obtain ⟨x, hx, hbus, hfill, hentry⟩ := fetch_miss (free_trans hv (useCp0_free v fun x => x.sr.swc)) hf.1 hc.1 hm hr
    t.inputs.fetchSizrq stores hl
  refine ⟨_, x, ?_, mayFetch_before hl _, ⟨hbus, fun h => ?_, fun _ _ => hfill⟩, hentry⟩
  · rw [he, if_neg (by simp [hc.1]), if_neg (by simp [useCp0_swc hv hc]), hx]
  · rcases h with h | h
    · rw [hc.1] at h
      cases h
    · exact absurd hm h

/-- With the caches swapped, whichever value the step sees, a fetch outside kseg1 is refused (R101). -/
theorem fetchWord_swapped {t u : State} (hf : t.Fetchable) (hu : u = { t with freeIndex := u.freeIndex })
    (hk : inKseg1 t.pc = false) (hs : ∀ v, t.MaySee v → v.sr.swc = true) : u.fetchWord = .refuse .swappedFetch := by
  obtain ⟨v, stores, hv, -, he⟩ := fetchWord_ok hf hu
  have hsw : (v.useCp0 fun x => x.sr.swc).1 = true := useCp0_all v _ true fun x hx => hs x ((maySee_of hv x).1 hx)
  rw [he, if_neg (by simp [hk]), if_pos hsw]

/-- Settles O5: the step comes to the fetch from the pc, which is one of the four above. -/
theorem stepRunsDecoded : Obligations.StepRunsDecoded := by
  intro s t hs hn hf
  have hu := interrupted_free t
  refine ⟨fun hk hr => ?kseg1, fun w i hc hi he hd => ?hit, fun hc hm hr => ?miss, fun hk hsw => ?swapped⟩
  case kseg1 =>
    obtain ⟨w, x, hw, hmay, honly⟩ := fetchWord_kseg1 hf hu hk hr
    exact ⟨w, x, hmay, honly, fun i => step_of_fetched hs hn hw⟩
  case hit =>
    obtain ⟨x, hw, hx⟩ := fetchWord_hit hf hu hc hi he
    exact ⟨x, hx, step_of_fetched hs hn hw hd⟩
  case miss =>
    obtain ⟨w, x, hw, hmay, honly, hentry⟩ := fetchWord_miss hf hu hc hm hr
    exact ⟨w, x, hmay, honly, hentry, fun i => step_of_fetched hs hn hw⟩
  case swapped => exact step_of_refused hs hn (fetchWord_swapped hf hu hk hsw)

end Sys2Proof.Machine
end

section
/-! PROOFS. Loads and stores through whatever the source read of their base gives (10_state.md R30; 20_memory.md R77,
R93; 41_load_store.md R163): the address, the exception, what a load answers, what a store leaves. -/

namespace Sys2Proof.Machine

/-! ### The address -/

/-- A load or store that does not follow an MTC0 uses what its base read gives (R150, R417). -/
theorem access_settled {s : State} (hm : s.afterMtc0 = none) (base : Reg) (offset : Half)
    (k : Word → State → Act Retire) :
    s.access base offset k = k (effectiveAddr (s.readSrc base).1 offset) (s.readSrc base).2 := by
  unfold State.access
  rw [if_neg (by simp [hm])]

theorem translate_forbidden {s : State} {va : Word} (h : s.mayAccess va = false) : translate s.sr.kuc va = none := by
  unfold State.mayAccess at h
  unfold translate
  rw [if_pos (by simpa using h)]

theorem loadWord_forbidden {s : State} {va : Word} (h : s.mayAccess va = false) (length : BitVec 2) :
    s.loadWord va length = .raise (.adel va) s := by
  unfold State.loadWord
  rw [translate_forbidden h]

theorem storeLanes_forbidden {s : State} {va : Word} (h : s.mayAccess va = false) (mask : BitVec 4) (w : Word) :
    s.storeLanes va mask w = .raise (.ades va) s := by
  unfold State.storeLanes
  rw [translate_forbidden h]

theorem memRead_raises {s : State} {va : Word} {n : Size} (h : s.mayAccess va = false ∨ aligned n va = false) :
    s.memRead va n = .raise (.adel va) s := by
  unfold State.memRead
  split
  · rename_i ha
    rw [loadWord_forbidden (h.resolve_right (by simp [ha]))]
    rfl
  · rfl

/-! ### A source read may have used a free value -/

section
variable {s u : State} (h : u = { s with freeIndex := u.freeIndex })
include h

theorem free_bigEndianCPU : u.bigEndianCPU = s.bigEndianCPU := by
  rw [h]
  rfl

theorem free_mayAccess (va : Word) : u.mayAccess va = s.mayAccess va := by
  rw [h]
  rfl

theorem free_readable {block : Bool} {va : Word} (hr : s.Readable block va) : u.Readable block va :=
  ⟨ready_free h hr.ready, by rw [backed_free h]; exact hr.backed, by rw [answer_free h]; exact hr.block⟩

theorem free_hasRoom (hr : s.HasRoom) : u.HasRoom := by
  rw [h]
  exact hr

theorem cacheOnly_of_free {t : State} (g : CacheOnly u t) : CacheOnly s t := by
  refine ⟨?_, fun a => (g.seen a).trans (free_seen h a), fun e he => ?_⟩
  · rw [g.rest, h]
  · have := g.buffer e he
    rw [h] at this
    exact this

/-- What `LoadWord` answers, in a state in which a source read may have used a free value. -/
theorem free_loadWord {va : Word} (length : BitVec 2) (hm : s.mayAccess va = true) (hi : s.sr.isc = false)
    (hv : s.SeesMemory va) (hr : s.Readable s.mode.dblock va) :
    ∃ t, u.loadWord va length = .done (s.seenWord (wordAddr (physical va))) t ∧ CacheOnly s t ∧ t.icache = s.icache := by
  have hmode : u.mode = s.mode := by rw [h]
  obtain ⟨t, ht, hc, hic, -⟩ := loadWord_spec va length ((free_mayAccess h va).trans hm) (by rw [h]; exact hi)
    (free_sees h hv) (by rw [hmode]; exact free_readable h hr)
  exact ⟨t, by rw [ht, free_word h], cacheOnly_of_free h hc, by rw [hic, h]⟩

end

/-! ### Loads -/

section
variable {s : State} {base : Reg} {offset : Half} {va : Word} (hva : va = effectiveAddr (s.readSrc base).1 offset)
  (hm : s.afterMtc0 = none)
include hva hm

/-- A load that its mode or alignment forbids raises AdEL (R71, R83). -/
theorem load_enters (n : Size) (extend : Word → Word) (rt : Reg) (h : s.mayAccess va = false ∨ aligned n va = false) :
    ∃ t, s.finish (s.load n extend base rt offset) = .next t ∧ Enters s t 4 none (some va) := by
  have hu := readSrc_free s base
  refine ⟨_, ?_, enters_take s (s.readSrc base).2 (.adel va) hu⟩
  unfold State.load
  rw [access_settled hm, ← hva, memRead_raises (by rwa [free_mayAccess hu])]
  rfl

/-- A load that is allowed answers the bytes of the word that the program sees at its address (R90, R92, R163). -/
theorem load_loads (n : Size) (extend : Word → Word) (rt : Reg) (hma : s.mayAccess va = true) (ha : aligned n va = true)
    (hi : s.sr.isc = false) (hv : s.SeesMemory va) (hr : s.Readable s.mode.dblock va) :
    ∃ t, s.finish (s.load n extend base rt offset) = .next t ∧
      Loads s t rt (extend (selectLoaded n s.bigEndianCPU va (s.seenWord (wordAddr (physical va))))) := by
  have hu := readSrc_free s base
  obtain ⟨t, ht, hc, hic⟩ := free_loadWord hu n.accessType hma hi hv hr
  refine ⟨_, ?_, loads_retire rt _ hc hic⟩
  unfold State.load State.memRead
  rw [access_settled hm, ← hva, if_pos ha, ht, free_bigEndianCPU hu]
  rfl

theorem loadPart_enters (length : Nat → BitVec 2) (merge : Nat → Word → Word → Word) (rt : Reg)
    (h : s.mayAccess va = false) :
    ∃ t, s.finish (s.loadPart length merge base rt offset) = .next t ∧ Enters s t 4 none (some va) := by
  have hu := readSrc_free s base
  refine ⟨_, ?_, enters_take s (s.readSrc base).2 (.adel va) hu⟩
  unfold State.loadPart
  rw [access_settled hm, ← hva, loadWord_forbidden (by rwa [free_mayAccess hu])]
  rfl

theorem loadPart_loads (length : Nat → BitVec 2) (merge : Nat → Word → Word → Word) (rt : Reg)
    (hma : s.mayAccess va = true) (hi : s.sr.isc = false) (hv : s.SeesMemory va) (hr : s.Readable s.mode.dblock va) :
    ∃ t, s.finish (s.loadPart length merge base rt offset) = .next t ∧
      Loads s t rt (merge (byteLane s.bigEndianCPU va) (s.seenWord (wordAddr (physical va))) (s.readGpr rt)) := by
  obtain ⟨t, ht, hc, hic⟩ := free_loadWord (readSrc_free s base) (length (byteLane s.bigEndianCPU va)) hma hi hv hr
  refine ⟨_, ?_, loads_retire rt _ hc hic⟩
  unfold State.loadPart
  rw [access_settled hm, ← hva, ht]
  rfl

end

/-- LB, LBU, LH, LHU and LW: each is a load of a size and an extension, and the statements' list of loads gives the
value that these make of the word at its address, where the address is aligned (R90, R151 to R155). -/
theorem load_form {i : Instr} {base rt : Reg} {offset : Half}
    (hi : i ∈ [Instr.lb base rt offset, .lbu base rt offset, .lh base rt offset, .lhu base rt offset,
      .lw base rt offset]) :
    ∃ n extend, (∀ s, exec i s = s.finish (s.load n extend base rt offset)) ∧ ∀ (s : State) (va w : Word),
      (i, w) ∈ s.loadsAt base rt offset va ↔
        aligned n va = true ∧ w = extend (selectLoaded n s.bigEndianCPU va (s.seenWord (wordAddr (physical va)))) := by
  have low8 : ∀ b : Byte, (b.setWidth 32).extractLsb' 0 8 = b := fun b => by
    rw [BitVec.extractLsb'_setWidth_of_le (by decide), BitVec.extractLsb'_eq_self]
  have low16 : ∀ h : Half, (h.setWidth 32).extractLsb' 0 16 = h := fun h => by
    rw [BitVec.extractLsb'_setWidth_of_le (by decide), BitVec.extractLsb'_eq_self]
  simp only [List.mem_cons, List.not_mem_nil, or_false] at hi
  rcases hi with rfl | rfl | rfl | rfl | rfl
  · refine ⟨.byte, sextByte, fun _ => rfl, fun s va w => ?_⟩
    simp [State.loadsAt, aligned, selectLoaded, sextByte, selectByte_touched, low8]
  · refine ⟨.byte, id, fun _ => rfl, fun s va w => ?_⟩
    simp [State.loadsAt, aligned, selectLoaded, selectByte_touched]
  · refine ⟨.half, sextHalf, fun _ => rfl, fun s va w => ?_⟩
    cases h0 : va.getLsbD 0
    · simp [State.loadsAt, aligned, selectLoaded, sextHalf, selectHalf_touched s va h0, low16, h0,
        -BitVec.getLsbD_eq_getElem]
    · simp [State.loadsAt, aligned, h0, -BitVec.getLsbD_eq_getElem]
  · refine ⟨.half, id, fun _ => rfl, fun s va w => ?_⟩
    cases h0 : va.getLsbD 0
    · simp [State.loadsAt, aligned, selectLoaded, selectHalf_touched s va h0, h0, -BitVec.getLsbD_eq_getElem]
    · simp [State.loadsAt, aligned, h0, -BitVec.getLsbD_eq_getElem]
  · refine ⟨.word, id, fun _ => rfl, fun s va w => ?_⟩
    by_cases h0 : va.extractLsb' 0 2 = 0#2 <;> simp [State.loadsAt, aligned, selectLoaded, wordAddr_physical, h0]

/-- LWL and LWR: each is a partial load, whose merge is what the statements say of its lanes (R156, R157). -/
theorem loadPart_form {i : Instr} {base rt : Reg} {offset : Half}
    (hi : i ∈ [Instr.lwl base rt offset, .lwr base rt offset]) :
    ∃ length merge, (∀ s, exec i s = s.finish (s.loadPart length merge base rt offset)) ∧
      ∀ big va w old, merge (byteLane big va) w old = loadedFrom big va w old i := by
  simp only [List.mem_cons, List.not_mem_nil, or_false] at hi
  rcases hi with rfl | rfl
  · refine ⟨_, lwlMerge, fun _ => rfl, fun big va w old => word_ext fun j hj => ?_⟩
    have hk := byteLane_lt big va
    rw [lwlMerge_lane _ hk _ _ _ hj]
    unfold loadedFrom
    dsimp only
    rw [← byteLane_eq, laneByte_append _ _ _ _ _ hj]
    interval_cases j <;> rfl
  · refine ⟨_, lwrMerge, fun _ => rfl, fun big va w old => word_ext fun j hj => ?_⟩
    have hk := byteLane_lt big va
    rw [lwrMerge_lane _ hk _ _ _ hj]
    unfold loadedFrom
    dsimp only
    rw [← byteLane_eq, laneByte_append _ _ _ _ _ hj]
    interval_cases j <;> rfl

/-! ### Stores -/

/-- A store by the lanes that it puts into its word, where its address is aligned: what SB, SH and SW, through
`MemWrite`, and SWL and SWR have in common. -/
def State.storeBy (s : State) (n : Size) (lanes : Bool → Word → Word → BitVec 4 × Word) (base rt : Reg)
    (offset : Half) : Act Retire :=
  s.access base offset fun va t =>
    (if aligned n va then
      (t.readSrc rt).2.storeLanes va (lanes s.bigEndianCPU va (t.readSrc rt).1).1
        (lanes s.bigEndianCPU va (t.readSrc rt).1).2
    else .raise (.ades va) (t.readSrc rt).2).bind fun _ u => stored (t.overwritten va) u

/-- A lane's byte where the mask has it. -/
def maskedLane (lanes : BitVec 4 × Word) (j : Nat) : Option Byte :=
  if lanes.1.getLsbD j then some (laneByte lanes.2 j) else none

theorem readSrc2_free (s : State) (r q : Reg) :
    ((s.readSrc r).2.readSrc q).2 = { s with freeIndex := ((s.readSrc r).2.readSrc q).2.freeIndex } :=
  free_trans (readSrc_free s r) (readSrc_free _ q)

theorem store_eq_storeBy (s : State) (n : Size) (base rt : Reg) (offset : Half) :
    s.store n base rt offset = s.storeBy n (storeLanesOf n) base rt offset := by
  unfold State.store State.storeBy State.access State.memWrite
  dsimp only
  rw [free_bigEndianCPU (readSrc2_free s base rt)]

theorem storePart_eq_storeBy (s : State) (lanes : Nat → Word → BitVec 4 × Word) (base rt : Reg) (offset : Half) :
    s.storePart lanes base rt offset =
      s.storeBy .byte (fun big va v => lanes (byteLane big va) v) base rt offset := rfl

section
variable {s : State} {base : Reg} {offset : Half} {va : Word} (hva : va = effectiveAddr (s.readSrc base).1 offset)
  (hm : s.afterMtc0 = none)
include hva hm

/-- A store that its mode or alignment forbids raises AdES (R71, R83). -/
theorem storeBy_enters (n : Size) (lanes : Bool → Word → Word → BitVec 4 × Word) (rt : Reg)
    (h : s.mayAccess va = false ∨ aligned n va = false) :
    ∃ t, s.finish (s.storeBy n lanes base rt offset) = .next t ∧ Enters s t 5 none (some va) := by
  have hu := readSrc2_free s base rt
  refine ⟨_, ?_, enters_take s _ (.ades va) hu⟩
  unfold State.storeBy
  rw [access_settled hm, ← hva]
  split
  · rename_i ha
    rw [storeLanes_forbidden (by rw [free_mayAccess hu]; exact h.resolve_right (by simp [ha]))]
    rfl
  · rfl

/-- A store that is allowed puts its lanes into the word at its address, where ordinary memory answers (R77, R91, R93). -/
theorem storeBy_stores (n : Size) (lanes : Bool → Word → Word → BitVec 4 × Word) (rt : Reg)
    (hma : s.mayAccess va = true) (ha : aligned n va = true) (hi : s.sr.isc = false) (hv : s.SeesMemory va)
    (hw : s.mem.wf) (hr : s.HasRoom) {v : Word} (hrt : v = ((s.readSrc base).2.readSrc rt).1)
    (hs : storeMask (lanes s.bigEndianCPU va v).1 = true) :
    ∃ t, s.finish (s.storeBy n lanes base rt offset) = .next t ∧ StoresOnly s t va ∧ ∀ a, t.seenByte a =
      if wordAddr a = wordAddr (physical va) ∧ s.answer a = .memory then
        (maskedLane (lanes s.bigEndianCPU va v) (laneOf s.mode.bigEndianMem (a.toNat % 4))).getD (s.seenByte a)
      else s.seenByte a := by
  subst hrt
  have hu := readSrc2_free s base rt
  have hmode : ((s.readSrc base).2.readSrc rt).2.mode = s.mode := by simp
  obtain ⟨t, ht, hto, hb⟩ := storeLanes_spec va _ (lanes s.bigEndianCPU va ((s.readSrc base).2.readSrc rt).1).2
    ((free_mayAccess hu va).trans hma) (by simp [hi]) (free_sees hu hv) (by simpa using hw) (free_hasRoom hu hr) hs
  refine ⟨_, ?_, stores_retire va hu hto, fun a => ?_⟩
  · unfold State.storeBy
    rw [access_settled hm, ← hva, if_pos ha, ht]
    show s.finish (stored _ _) = _
    rw [overwritten_eq (readSrc_free s base) hi (by simpa only [State.mayAccess, Bool.not_eq_true'] using hma)]
    rfl
  · refine Eq.trans (seenByte_of_eq (by rfl) (by rfl) (by rfl) (by rfl) a) ((hb a).trans ?_)
    rw [hmode, answer_free hu, free_seen hu]
    unfold maskedLane
    by_cases hword : wordAddr a = wordAddr (physical va) ∧ s.answer a = .memory
    · simp only [hword, true_and, if_true]
      split <;> rfl
    · rw [if_neg fun h => hword ⟨h.1, h.2.1⟩, if_neg hword]

end

/-! ### The lanes that each store puts (R91, R161, R162) -/

theorem laneByte_ushiftRight (v : Word) (a j : Nat) : laneByte (v >>> (8 * a)) j = laneByte v (a + j) := by
  refine BitVec.eq_of_getLsbD_eq fun i hi => ?_
  simp only [laneByte, BitVec.getLsbD_extractLsb', BitVec.getLsbD_ushiftRight,
    show 8 * a + (8 * j + i) = 8 * (a + j) + i by omega]

theorem laneByte_shiftLeft (v : Word) {a j : Nat} (ha : a ≤ j) (hj : j < 4) :
    laneByte (v <<< (8 * a)) j = laneByte v (j - a) := by
  refine BitVec.eq_of_getLsbD_eq fun i hi => ?_
  simp only [laneByte, BitVec.getLsbD_extractLsb', BitVec.getLsbD_shiftLeft,
    show 8 * j + i - 8 * a = 8 * (j - a) + i by omega, show 8 * j + i < 32 by omega,
    show ¬ 8 * j + i < 8 * a by omega, decide_true, decide_false, Bool.not_false, Bool.true_and]

/-- The low lanes of a word stay when the lanes above them are masked out. -/
theorem laneByte_and_low (v : Word) {n j : Nat} (hj : j < n) (hn : n ≤ 4) :
    laneByte (v &&& BitVec.ofNat 32 (2 ^ (8 * n) - 1)) j = laneByte v j := by
  refine BitVec.eq_of_getLsbD_eq fun i hi => ?_
  simp only [laneByte, BitVec.getLsbD_extractLsb', BitVec.getLsbD_and, BitVec.getLsbD_ofNat,
    Nat.testBit_two_pow_sub_one, show 8 * j + i < 32 by omega, show 8 * j + i < 8 * n by omega, decide_true,
    Bool.and_true]

section
variable (big : Bool) (va v : Word) (base rt : Reg) (offset : Half) {j : Nat} (hj : j < 4)
include hj

theorem storedLane_sb : storedLane big va v (.sb base rt offset) j = maskedLane (storeLanesOf .byte big va v) j := by
  have mask : ∀ k < 4, ∀ j < 4, (0b0001#4 <<< k).getLsbD j = decide (j = k) := by decide
  have hk := byteLane_lt big va
  unfold storedLane maskedLane storeLanesOf
  dsimp only
  rw [mask _ hk j hj, ← byteLane_eq]
  by_cases h : j = byteLane big va
  · rw [if_pos h, if_pos (by simpa using h), laneByte_shiftLeft _ (Nat.le_of_eq h.symm) hj, h, Nat.sub_self]
    exact congrArg some (laneByte_and_low v (n := 1) (by decide) (by decide)).symm
  · rw [if_neg h, if_neg (by simpa using h)]

theorem storedLane_sh (ha : va.getLsbD 0 = false) :
    storedLane big va v (.sh base rt offset) j = maskedLane (storeLanesOf .half big va v) j := by
  have mask : ∀ k < 3, ∀ j < 4, (0b0011#4 <<< k).getLsbD j = decide (k ≤ j ∧ j < k + 2) := by decide
  have hk : halfLane big va < 3 := by rcases halfLane_cases big va ha with h | h <;> omega
  unfold storedLane maskedLane storeLanesOf
  dsimp only
  rw [mask _ hk j hj, ← halfLane_eq big va ha]
  by_cases h : halfLane big va ≤ j ∧ j < halfLane big va + 2
  · rw [if_pos h, if_pos (by simpa using h), laneByte_shiftLeft _ h.1 hj]
    exact congrArg some (laneByte_and_low v (n := 2) (by omega) (by decide)).symm
  · rw [if_neg h, if_neg (by simpa using h)]

theorem storedLane_sw : storedLane big va v (.sw base rt offset) j = maskedLane (storeLanesOf .word big va v) j := by
  have mask : ∀ j < 4, (0b1111#4).getLsbD j = true := by decide
  unfold storedLane maskedLane storeLanesOf
  dsimp only
  rw [mask j hj, if_pos rfl]

theorem storedLane_swl :
    storedLane big va v (.swl base rt offset) j = maskedLane (swlLanes (byteLane big va) v) j := by
  have mask : ∀ k < 4, ∀ j < 4, (BitVec.ofNat 4 (2 ^ (k + 1) - 1)).getLsbD j = decide (j ≤ k) := by decide
  have hk := byteLane_lt big va
  unfold storedLane maskedLane swlLanes
  dsimp only
  rw [mask _ hk j hj, ← byteLane_eq, show 24 - 8 * byteLane big va = 8 * (3 - byteLane big va) by omega,
    laneByte_ushiftRight]
  simp only [decide_eq_true_eq]

theorem storedLane_swr :
    storedLane big va v (.swr base rt offset) j = maskedLane (swrLanes (byteLane big va) v) j := by
  have mask : ∀ k < 4, ∀ j < 4, (0b1111#4 <<< k).getLsbD j = decide (k ≤ j) := by decide
  unfold storedLane maskedLane swrLanes
  dsimp only
  rw [mask _ (byteLane_lt big va) j hj, ← byteLane_eq]
  by_cases h : byteLane big va ≤ j
  · rw [if_pos h, if_pos (by simpa using h), laneByte_shiftLeft _ h hj]
  · rw [if_neg h, if_neg (by simpa using h)]

end

/-- SB, SH, SW, SWL and SWR: each puts lanes where its address is aligned, which the statements' list of stores says as
well, and the lanes are those that the statements give (R91, R158 to R162). -/
theorem store_form {i : Instr} {base rt : Reg} {offset : Half}
    (hi : i ∈ [Instr.sb base rt offset, .sh base rt offset, .sw base rt offset, .swl base rt offset,
      .swr base rt offset]) :
    ∃ n lanes, (∀ s, exec i s = s.finish (s.storeBy n lanes base rt offset)) ∧
      (∀ va, i ∈ storesAt base rt offset va ↔ aligned n va = true) ∧
      ∀ big va v, aligned n va = true → storeMask (lanes big va v).1 = true ∧
        ∀ j < 4, storedLane big va v i j = maskedLane (lanes big va v) j := by
  have mem : ∀ (n : Size) (s : State),
      s.finish (s.store n base rt offset) = s.finish (s.storeBy n (storeLanesOf n) base rt offset) :=
    fun n s => by rw [store_eq_storeBy]
  simp only [List.mem_cons, List.not_mem_nil, or_false] at hi
  rcases hi with rfl | rfl | rfl | rfl | rfl
  · exact ⟨.byte, _, mem .byte, fun va => by simp [storesAt, aligned], fun big va v ha =>
      ⟨storeMask_storeLanesOf _ _ _ _ ha, fun j hj => storedLane_sb big va v base rt offset hj⟩⟩
  · refine ⟨.half, _, mem .half, fun va => ?_, fun big va v ha =>
      ⟨storeMask_storeLanesOf _ _ _ _ ha, fun j hj =>
        storedLane_sh big va v base rt offset hj (by simpa [aligned] using ha)⟩⟩
    cases h0 : va.getLsbD 0 <;> simp [storesAt, aligned, h0, -BitVec.getLsbD_eq_getElem]
  · refine ⟨.word, _, mem .word, fun va => ?_, fun big va v ha =>
      ⟨storeMask_storeLanesOf _ _ _ _ ha, fun j hj => storedLane_sw big va v base rt offset hj⟩⟩
    by_cases h0 : va.extractLsb' 0 2 = 0#2 <;> simp [storesAt, aligned, h0]
  · exact ⟨.byte, _, fun s => congrArg s.finish (storePart_eq_storeBy s swlLanes base rt offset),
      fun va => by simp [storesAt, aligned], fun big va v _ =>
      ⟨storeMask_swlLanes _ (byteLane_lt _ _) _, fun j hj => storedLane_swl big va v base rt offset hj⟩⟩
  · exact ⟨.byte, _, fun s => congrArg s.finish (storePart_eq_storeBy s swrLanes base rt offset),
      fun va => by simp [storesAt, aligned], fun big va v _ =>
      ⟨storeMask_swrLanes _ (byteLane_lt _ _) _, fun j hj => storedLane_swr big va v base rt offset hj⟩⟩

/-- Settles O49: every load and store is one of the three forms, at the address that its base read gives. -/
theorem loadThroughLoadingBase : Obligations.LoadThroughLoadingBase := by
  intro s base rt offset va hva hm hi hc hsw hw
  have hv : s.SeesMemory va := .inr ⟨hc, hsw⟩
  refine ⟨reads_readSrc s base, ?loads, ?parts, _, ?reads, rfl, ?stores⟩
  case reads => exact reads_readSrc_of (readSrc_ldSlot s base) (readSrc_regs s base) rt
  case loads =>
    intro i him
    obtain ⟨n, extend, he, hl⟩ := load_form him
    rw [he]
    refine ⟨fun h => load_enters hva hm n extend rt (h.imp_right fun hn => ?_), fun w hma hlw hr => ?_⟩
    · exact Bool.eq_false_iff.2 fun ha => hn _ ((hl s va _).2 ⟨ha, rfl⟩)
    · obtain ⟨ha, rfl⟩ := (hl s va w).1 hlw
      exact load_loads hva hm n extend rt hma ha hi hv hr
  case parts =>
    intro i him
    obtain ⟨length, merge, he, hmerge⟩ := loadPart_form him
    rw [he, ← hmerge]
    exact ⟨loadPart_enters hva hm length merge rt, fun hma hr => loadPart_loads hva hm length merge rt hma hi hv hr⟩
  case stores =>
    intro i him
    obtain ⟨n, lanes, he, hat, hlanes⟩ := store_form him
    rw [he, hat]
    refine ⟨fun h => storeBy_enters hva hm n lanes rt (h.imp_right (by simp)), fun hma ha hr => ?_⟩
    obtain ⟨hmask, hlane⟩ := hlanes s.bigEndianCPU va ((s.readSrc base).2.readSrc rt).1 ha
    obtain ⟨t, ht, hst, hb⟩ := storeBy_stores hva hm n lanes rt hma ha hi hv hw hr rfl hmask
    exact ⟨t, ht, hst, fun b => by rw [hb, hlane _ (laneOf_lt _ _ (Nat.mod_lt _ (by decide)))]⟩

end Sys2Proof.Machine
end

section
/-! PROOFS. A word store through kseg1: the entry at the tail of the write buffer, and the cached copy of its word
(10_state.md R61; 20_memory.md R93, R103, R106). -/

namespace Sys2Proof.Machine

/-- With room, an append puts its entry at the tail, a full buffer having lost its oldest entry, and no cache sees it
(R103). -/
theorem appendWrite_tail {s : State} (e : WriteEntry) (h : s.HasRoom) :
    ∃ t, s.appendWrite e = .done () t ∧ t.icache = s.icache ∧ t.dcache = s.dcache ∧
      t.writeBuffer = (if s.writeBuffer.length < 4 then s.writeBuffer else s.writeBuffer.tail) ++ [e] := by
  unfold State.appendWrite
  by_cases hl : s.writeBuffer.length < 4
  · rw [if_pos hl, if_pos hl]
    exact ⟨_, rfl, rfl, rfl, rfl⟩
  · obtain ⟨hh, hf, htail, -⟩ := biuWrite_room h hl
    rw [if_neg hl, if_neg hl, if_neg (by simp [hh]), if_neg (by simp [hf]), ← htail]
    exact ⟨_, rfl, biuWrite_icache s, biuWrite_dcache s, rfl⟩

/-- Without a valid entry for its word, or with the caches swapped, a store through kseg1 leaves the data cache (D21). -/
theorem dropAlias_none {s : State} {a : Word}
    (h : s.sr.swc = true ∨ ∀ d, s.dcacheEntry a ≠ some (.line true (a.extractLsb' 10 22) d)) : s.dropAlias a = s := by
  unfold State.dropAlias
  split
  · rfl
  · rename_i hs
    have hn := h.resolve_left hs
    unfold lookEntry
    split
    · rename_i d hd
      split at hd
      · cases hd
      · cases hd
      · rename_i valid tag w he
        split at hd
        · rename_i hv
          simp only [Bool.and_eq_true, beq_iff_eq] at hv
          obtain ⟨rfl, rfl⟩ := hv
          exact absurd he (hn w)
        · cases hd
    · rfl
    · rfl

/-- A valid entry for its word is made invalid, and no other entry changes (D21). -/
theorem dropAlias_hit {s : State} {a d : Word} (hs : s.sr.swc = false)
    (he : s.dcacheEntry a = some (.line true (a.extractLsb' 10 22) d)) :
    (s.dropAlias a).dcacheEntry a = some (.line false (a.extractLsb' 10 22) d) ∧
      ∀ k, k ≠ (a.extractLsb' 2 8).toNat → tableGet k (s.dropAlias a).dcache = tableGet k s.dcache := by
  have he' : tableGet (dcacheIndex a) s.dcache = some (.line true (dcacheTag a) d) := he
  have hd : (s.dropAlias a).dcache = tableSet (dcacheIndex a) (some (.line false (dcacheTag a) d)) s.dcache := by
    unfold State.dropAlias
    simp only [hs, he', lookEntry, Bool.true_and, beq_self_eq_true, if_true, Bool.false_eq_true, if_false,
      State.invalidate, invalidEntry]
  refine ⟨?_, fun k hk => ?_⟩
  · unfold State.dcacheEntry
    rw [hd]
    exact tableGet_set_some ..
  · rw [hd]
    exact tableGet_set_ne _ _ hk

/-- A word store through kseg1 that goes to memory: one append, after the cached copy of its word was dropped (R93,
D21). -/
theorem storeLanes_kseg1_word {s : State} {va : Word} (hma : s.mayAccess va = true) (hi : s.sr.isc = false)
    (hk : inKseg1 va = true) (ha : va.extractLsb' 0 2 = 0#2) (hr : s.HasRoom) (v : Word) :
    ∃ t, s.storeLanes va 0b1111#4 v = .done () t ∧ t.icache = s.icache ∧ t.dcache = (s.dropAlias (physical va)).dcache ∧
      t.writeBuffer = (if s.writeBuffer.length < 4 then s.writeBuffer else s.writeBuffer.tail) ++
        [{ addr := physical va, mask := 0b1111, data := v }] := by
  have shown : ∀ big, ((physical va).extractLsb' 2 30 ++ lowestOffset big 0b1111#4 : Word) = physical va := fun big => by
    rw [show lowestOffset big 0b1111#4 = 0#2 by cases big <;> rfl]
    exact wordAddr_physical ha
  have hrest := dropAlias_rest s (physical va)
  obtain ⟨t, ht, hic, hdc, hwb⟩ := appendWrite_tail { addr := physical va, mask := 0b1111, data := v }
    (show (s.dropAlias (physical va)).HasRoom by rw [hrest]; exact hr)
  refine ⟨t, ?_, by rw [hic, hrest], hdc, by rw [hwb, hrest]⟩
  unfold State.storeLanes
  rw [translate_ok _ _ (by simpa only [State.mayAccess, Bool.not_eq_true'] using hma)]
  simp only [hi, hk, shown, wordAddr_physical ha, if_true, Bool.false_eq_true, if_false]
  exact ht

/-- Settles O53: with its base settled the store is that append, in a state in which its register was read. -/
theorem storeEntersBufferTail : Obligations.StoreEntersBufferTail := by
  intro s base rt offset va h hk ha hroom
  have hu := readSrc_free s rt
  obtain ⟨t, ht, hic, hdc, hwb⟩ := storeLanes_kseg1_word ((free_mayAccess hu va).trans h.mode)
    (by simp [h.isolated]) hk ha (free_hasRoom hu hroom) (s.readSrc rt).1
  simp only [readSrc_icache, readSrc_writeBuffer] at hic hwb
  refine ⟨(s.readSrc rt).1, t.retire { store := true, memory := true, overwrote := s.overwritten va },
    reads_readSrc s rt, ?run, hic, fun hn => ?kept, fun d hs he => ?dropped, hwb⟩
  case run =>
    show s.finish (s.store .word base rt offset) = _
    unfold State.store State.memWrite
    rw [access_ok h.settled h.addr h.mtc0, if_pos (by simpa [aligned] using ha)]
    dsimp only [storeLanesOf]
    rw [ht]
    rfl
  case kept => rw [retire_dcache, hdc, dropAlias_none (by rw [hu]; exact hn), readSrc_dcache]
  case dropped =>
    have hdrop := dropAlias_hit (s := (s.readSrc rt).2) (by simp [hs]) (by rw [hu]; exact he)
    rw [readSrc_dcache] at hdrop
    unfold State.dcacheEntry at *
    rw [retire_dcache, hdc]
    exact hdrop

end Sys2Proof.Machine
end

section
/-! PROOFS. What an instruction's body can be: it works on registers alone, raises its exception, is refused, loads, or
stores (10_state.md R27; 20_memory.md R77, R92, R93); and what follows of its outcome (60_exceptions.md R351). -/

namespace Sys2Proof.Machine

/-! ### The forms of a body -/

/-- `t` is `s` after a body that makes no access to memory: registers, HI and LO, SR, the software interrupt bits and
PTEBase may have changed, and free values may have been used. -/
def Internal (s t : State) : Prop :=
  t = { s with
    regs := t.regs, hi := t.hi, lo := t.lo, mdFresh := t.mdFresh, sr := t.sr,
    cause := { s.cause with sw := t.cause.sw }, pteBase := t.pteBase, freeIndex := t.freeIndex }

theorem Internal.trans {s t u : State} (h : Internal s t) (g : Internal t u) : Internal s u := by
  unfold Internal at *
  rw [g, h]

theorem internal_free {s t : State} (h : t = { s with freeIndex := t.freeIndex }) : Internal s t := by
  unfold Internal
  rw [h]

theorem internal_setGpr {s t : State} (h : t = { s with freeIndex := t.freeIndex }) (r : Reg) (v : Word) :
    Internal s (t.setGpr r v) :=
  (internal_free h).trans (by unfold Internal; rw [setGpr_rest])

theorem internal_hiLo {s t : State} (h : t = { s with freeIndex := t.freeIndex }) (hi lo : Word) (fresh : Bool) :
    Internal s { t with hi := hi, lo := lo, mdFresh := fresh } :=
  (internal_free h).trans rfl

theorem internal_popModes {s t : State} (h : t = { s with freeIndex := t.freeIndex }) : Internal s t.popModes := by
  refine (internal_free h).trans ?_
  unfold Internal State.popModes
  dsimp only
  rw [useCp0_free]

/-- MTC0 writes SR, the software interrupt bits, PTEBase or nothing (R260). -/
theorem internal_writeCp0 {s t u : State} {rd : Reg} {v : Word} (h : t = { s with freeIndex := t.freeIndex })
    (hw : t.writeCp0 rd v = some u) : Internal s u := by
  refine (internal_free h).trans ?_
  unfold State.writeCp0 at hw
  split at hw
  case h_3 => split at hw <;> cases hw <;> rfl
  case h_7 => cases hw
  all_goals cases hw; rfl

/-- What the body of an instruction can be. A load and a store are said by their access to memory, made in a state `u`
in which source reads may have used free values. -/
inductive Body (i : Instr) (s : State) : Act Retire → Prop where
  | completes (r : Retire) (t : State) : Internal s t → Body i s (.done r t)
  | raises (x : Exc) (t : State) : t = { s with freeIndex := t.freeIndex } → Body i s (.raise x t)
  | refuses (r : Refusal) : Body i s (.refuse r)
  | loads (u : State) (va : Word) (length : BitVec 2) (rt : Reg) (value : Word → Word) :
      u = { s with freeIndex := u.freeIndex } →
      Body i s ((u.loadWord va length).bind fun w t => loaded rt (t.setGpr rt (value w)))
  | stores (u : State) (base : Reg) (offset : Half) (mask : BitVec 4) (w : Word) (overwrote : Option StoredWord) :
      u = { s with freeIndex := u.freeIndex } → storeOperand i = some (base, offset) → storeMask mask = true →
      Body i s ((u.storeLanes (effectiveAddr (s.readSrc base).1 offset) mask w).bind fun _ t => stored overwrote t)

section
variable {i : Instr} (s : State)

theorem body_unary (src dst : Reg) (f : Word → Word) : Body i s (s.unary src dst f) :=
  .completes _ _ (internal_setGpr (readSrc_free s src) dst _)

theorem body_binary (rs rt rd : Reg) (f : Word → Word → Word) : Body i s (s.binary rs rt rd f) :=
  .completes _ _ (internal_setGpr (readSrc2_free s rs rt) rd _)

theorem body_unaryOv (src dst : Reg) (c : Word) (overflow : Word → Word → Bool) (f : Word → Word → Word) :
    Body i s (s.unaryOv src dst c overflow f) := by
  unfold State.unaryOv
  dsimp only
  split
  · exact .raises _ _ (readSrc_free s src)
  · exact .completes _ _ (internal_setGpr (readSrc_free s src) dst _)

theorem body_binaryOv (rs rt rd : Reg) (overflow : Word → Word → Bool) (f : Word → Word → Word) :
    Body i s (s.binaryOv rs rt rd overflow f) := by
  unfold State.binaryOv
  dsimp only
  split
  · exact .raises _ _ (readSrc2_free s rs rt)
  · exact .completes _ _ (internal_setGpr (readSrc2_free s rs rt) rd _)

theorem body_transfer (t : State) {a : Act Retire} (h : Body i s a) : Body i s (t.transfer a) := by
  unfold State.transfer
  split
  · exact .refuses _
  · exact h

theorem body_withCp0 {k : State → Act Retire} (hk : Body i s (k s.cp0Unusable.2)) : Body i s (s.withCp0 k) := by
  unfold State.withCp0
  split
  · exact .raises _ _ (cp0Unusable_free s)
  · exact hk

theorem testCond_free (t : State) : t.testCond.2 = { t with freeIndex := t.testCond.2.freeIndex } := by
  unfold State.testCond
  split <;> rfl

/-- BC0F and BC0T (R245, R246). -/
theorem body_testCond (taken : Bool → Bool) (offset : Half) :
    Body i s
      (s.withCp0 fun t => t.transfer (.done (branchTo (taken t.testCond.1) (branchTarget t.pc offset)) t.testCond.2)) :=
  body_withCp0 s
    (body_transfer s _ (.completes _ _ (internal_free (free_trans (cp0Unusable_free s) (testCond_free _)))))

theorem body_absentUnit (z : BitVec 2) : Body i s (s.absentUnit z) := by
  unfold State.absentUnit
  dsimp only
  split
  · exact .refuses _
  · exact .raises _ _ (useCp0_free s _)

theorem body_multiplyDivide (rs rt : Reg) {result : Word → Word → State → (Word × Word) × State}
    (hr : ∀ a b t, (result a b t).2 = { t with freeIndex := (result a b t).2.freeIndex }) :
    Body i s (s.multiplyDivide rs rt result) := by
  unfold State.multiplyDivide
  split
  · exact .refuses _
  · exact .completes _ _ (internal_hiLo (free_trans (readSrc2_free s rs rt) (hr _ _ _)) _ _ _)

theorem divideOr_free (defined : Bool) (r : Word × Word) (t : State) :
    (divideOr defined r t).2 = { t with freeIndex := (divideOr defined r t).2.freeIndex } := by
  unfold divideOr
  split <;> rfl

theorem spoilt_free (t : State) (v : Word) : (t.spoilt v).2 = { t with freeIndex := (t.spoilt v).2.freeIndex } := by
  unfold State.spoilt
  split <;> rfl

theorem Act.bind_assoc {α β γ : Type} (a : Act α) (f : α → State → Act β) (g : β → State → Act γ) :
    (a.bind f).bind g = a.bind fun x t => (f x t).bind g := by
  cases a <;> rfl

theorem body_load (n : Size) (extend : Word → Word) (base rt : Reg) (offset : Half) :
    Body i s (s.load n extend base rt offset) := by
  unfold State.load State.access State.memRead
  split
  · exact .refuses _
  · dsimp only
    split
    · rw [Act.bind_assoc]
      exact .loads _ _ _ rt _ (readSrc_free s base)
    · exact .raises _ _ (readSrc_free s base)

theorem body_loadPart (length : Nat → BitVec 2) (merge : Nat → Word → Word → Word) (base rt : Reg) (offset : Half) :
    Body i s (s.loadPart length merge base rt offset) := by
  unfold State.loadPart State.access
  split
  · exact .refuses _
  · exact .loads _ _ _ rt _ (readSrc_free s base)

theorem body_storeBy (n : Size) (lanes : Bool → Word → Word → BitVec 4 × Word) (base rt : Reg) (offset : Half)
    (ho : storeOperand i = some (base, offset))
    (hl : ∀ big va v, aligned n va = true → storeMask (lanes big va v).1 = true) :
    Body i s (s.storeBy n lanes base rt offset) := by
  unfold State.storeBy State.access
  split
  · exact .refuses _
  · dsimp only
    split
    · exact .stores _ base offset _ _ _ (readSrc2_free s base rt) ho (hl _ _ _ ‹_›)
    · exact .raises _ _ (readSrc2_free s base rt)

theorem body_store (n : Size) (base rt : Reg) (offset : Half) (ho : storeOperand i = some (base, offset)) :
    Body i s (s.store n base rt offset) := by
  rw [store_eq_storeBy]
  exact body_storeBy s n _ base rt offset ho fun _ _ _ ha => storeMask_storeLanesOf _ _ _ _ ha

theorem body_storePart (lanes : Nat → Word → BitVec 4 × Word) (base rt : Reg) (offset : Half)
    (ho : storeOperand i = some (base, offset)) (hl : ∀ b < 4, ∀ v, storeMask (lanes b v).1 = true) :
    Body i s (s.storePart lanes base rt offset) := by
  rw [storePart_eq_storeBy]
  exact body_storeBy s .byte _ base rt offset ho fun _ _ _ _ => hl _ (byteLane_lt _ _) _

end

/-- Every instruction is the outcome of a body of one of these forms. -/
theorem exec_body (i : Instr) (s : State) : ∃ a, exec i s = s.finish a ∧ Body i s a := by
  have same : s = { s with freeIndex := s.freeIndex } := rfl
  cases i <;> simp only [exec, execAddiu, execSlti, execSltiu, execAndi, execOri, execXori, execLui, execNor, execSll,
    execSrl, execSra, execSllv, execSrlv, execSrav, execMfhi, execMflo] <;> refine ⟨_, rfl, ?_⟩
  case lb base rt offset | lbu base rt offset | lh base rt offset | lhu base rt offset | lw base rt offset =>
    exact body_load s _ _ base rt offset
  case lwl base rt offset | lwr base rt offset => exact body_loadPart s _ _ base rt offset
  case sb base rt offset | sh base rt offset | sw base rt offset => exact body_store s _ base rt offset rfl
  case swl base rt offset => exact body_storePart s _ base rt offset rfl storeMask_swlLanes
  case swr base rt offset => exact body_storePart s _ base rt offset rfl storeMask_swrLanes
  case addi rs rt imm => exact body_unaryOv s rs rt _ _ _
  case addiu rs rt imm | slti rs rt imm | sltiu rs rt imm | andi rs rt imm | ori rs rt imm | xori rs rt imm =>
    exact body_unary s rs rt _
  case lui rt imm => exact .completes _ _ (internal_setGpr same rt _)
  case add rs rt rd | sub rs rt rd => exact body_binaryOv s rs rt rd _ _
  case addu rs rt rd | subu rs rt rd | and rs rt rd | or rs rt rd | xor rs rt rd | nor rs rt rd | slt rs rt rd |
      sltu rs rt rd | sllv rs rt rd | srlv rs rt rd | srav rs rt rd => exact body_binary s rs rt rd _
  case sll rt rd sa | srl rt rd sa | sra rt rd sa => exact body_unary s rt rd _
  case mult rs rt | multu rs rt => exact body_multiplyDivide s rs rt fun _ _ _ => rfl
  case div rs rt | divu rs rt => exact body_multiplyDivide s rs rt fun _ _ t => divideOr_free _ _ t
  case mfhi rd | mflo rd => exact .completes _ _ ((internal_setGpr same rd _).trans rfl)
  case mthi rs | mtlo rs =>
    split
    · exact .refuses _
    · exact .completes _ _ (internal_hiLo (free_trans (readSrc_free s rs) (spoilt_free _ _)) _ _ _)
  case j target => exact body_transfer s s (.completes _ _ (internal_free same))
  case jal target => exact body_transfer s s (.completes _ _ (internal_setGpr same 31 _))
  case jr rs => exact body_transfer s s (.completes _ _ (internal_free (readSrc_free s rs)))
  case jalr rs rd =>
    refine body_transfer s s ?_
    split
    · exact .refuses _
    · exact .completes _ _ (internal_setGpr (readSrc_free s rs) rd _)
  case beq rs rt offset | bne rs rt offset =>
    exact body_transfer s s (.completes _ _ (internal_free (readSrc2_free s rs rt)))
  case blez rs offset | bgtz rs offset | bltz rs offset | bgez rs offset =>
    exact body_transfer s s (.completes _ _ (internal_free (readSrc_free s rs)))
  case bltzal rs offset | bgezal rs offset =>
    exact body_transfer s s (.completes _ _ (internal_setGpr (readSrc_free s rs) 31 _))
  case syscall | brk code => exact .raises _ _ same
  case mfc0 rt rd =>
    refine body_withCp0 s ?_
    split
    · exact .refuses _
    · exact .completes _ _ (internal_setGpr (free_trans (cp0Unusable_free s) (readCp0_free ‹_›)) rt _)
  case mtc0 rt rd =>
    refine body_withCp0 s ?_
    split
    · exact .refuses _
    · exact .completes _ _ (internal_writeCp0 (free_trans (cp0Unusable_free s) (readSrc_free _ rt)) ‹_›)
  case bc0f offset => exact body_testCond s (!·) offset
  case bc0t offset => exact body_testCond s id offset
  case rfe =>
    refine body_withCp0 s ?_
    split
    · exact .refuses _
    · exact .completes _ _ (internal_popModes (cp0Unusable_free s))
  case cop1 cofun | cop2 cofun | cop3 cofun => exact body_absentUnit s _
  case lwc1 base rt offset | swc1 base rt offset | lwc2 base rt offset | swc2 base rt offset | lwc3 base rt offset |
      swc3 base rt offset => exact body_absentUnit s _
  case lwc0 base rt offset | swc0 base rt offset | tlbr | tlbwi | tlbwr | tlbp => exact body_withCp0 s (.refuses _)

/-! ### How a body ends -/

/-- How a part of an instruction ends: done in a state that meets `D`; with an exception, nothing done but that free
values were used (R351); or waiting for ever in a state that meets `Q` (R77). -/
def Act.Splits {α : Type} (s : State) (a : Act α) (D Q : State → Prop) : Prop :=
  match a with
  | .done _ t => D t
  | .raise _ t => t = { s with freeIndex := t.freeIndex }
  | .stall _ => True
  | .stuck t => Q t
  | .refuse _ => True

theorem Act.Splits.bind {α β : Type} {s : State} {D E Q : State → Prop} {a : Act α} {f : α → State → Act β}
    (ha : a.Splits s D Q) (hf : ∀ x t, D t → (f x t).Splits s E Q) : (a.bind f).Splits s E Q := by
  cases a with
  | done x t => exact hf x t ha
  | raise x t => exact ha
  | stall read => trivial
  | stuck t => exact ha
  | refuse r => trivial

theorem Act.Splits.mono {α : Type} {s : State} {D E Q R : State → Prop} {a : Act α} (h : a.Splits s D Q)
    (hd : ∀ x t, a = .done x t → D t → E t) (hq : ∀ t, Q t → R t) : a.Splits s E R := by
  cases a with
  | done x t => exact hd x t rfl h
  | raise x t => exact h
  | stall read => trivial
  | stuck t => exact hq t h
  | refuse r => trivial

/-- A part that starts after source reads ends as one that starts before them. -/
theorem Act.Splits.of_free {α : Type} {s u : State} {D Q : State → Prop} {a : Act α}
    (hu : u = { s with freeIndex := u.freeIndex }) (h : a.Splits u D Q) : a.Splits s D Q := by
  cases a with
  | raise x t => exact free_trans hu h
  | done x t => exact h
  | stall read => trivial
  | stuck t => exact h
  | refuse r => trivial

/-- All that the execution of an instruction can answer as the next state, given how its loads and stores end. -/
theorem exec_splits {i : Instr} {s t : State} {D Q : State → Prop} (h : exec i s = .next t)
    (hint : ∀ u, Internal s u → D u) (hset : ∀ (u : State) r v, D u → D (u.setGpr r v))
    (hload : ∀ (u : State) va length, u = { s with freeIndex := u.freeIndex } → (u.loadWord va length).Splits u D Q)
    (hstore : ∀ (u : State) base offset mask w, u = { s with freeIndex := u.freeIndex } →
      storeOperand i = some (base, offset) → storeMask mask = true →
      (u.storeLanes (effectiveAddr (s.readSrc base).1 offset) mask w).Splits u D Q) :
    (∃ r u, D u ∧ t = u.retire r) ∨
    (∃ (x : Exc) (u : State), u = { s with freeIndex := u.freeIndex } ∧ t = u.takeException x) ∨
      (∃ read, t = s.stalled read) ∨ Q t := by
  obtain ⟨a, he, hb⟩ := exec_body i s
  have ha : a.Splits s D Q := by
    cases hb with
    | completes r u hu => exact hint u hu
    | raises x u hu => exact hu
    | refuses r => trivial
    | loads u va length rt value hu =>
      exact ((hload u va length hu).of_free hu).bind fun w v hv => hset v rt _ hv
    | stores u base offset mask w overwrote hu ho hm =>
      exact ((hstore u base offset mask w hu ho hm).of_free hu).bind fun _ _ hv => hv
  rw [he] at h
  cases a with
  | done r u =>
    cases h
    exact .inl ⟨r, u, ha, rfl⟩
  | raise x u =>
    cases h
    exact .inr (.inl ⟨x, u, ha, rfl⟩)
  | stall read =>
    cases h
    exact .inr (.inr (.inl ⟨read, rfl⟩))
  | stuck u =>
    cases waits_next h
    exact .inr (.inr (.inr ha))
  | refuse r => cases h

/-! ### Accesses that never complete -/

/-- `t` is `s` with the core waiting for a bus cycle that never completes: the bus, memory, buffer and caches may
differ, and free values may have been used (R77). -/
def WaitsForEver (s t : State) : Prop :=
  t.bus = .coreStuck ∧ t = { s with
    bus := t.bus, mem := t.mem, writeBuffer := t.writeBuffer, trace := t.trace, icache := t.icache, dcache := t.dcache,
    freeIndex := t.freeIndex }

theorem StuckIn.waitsForEver {s t : State} (h : StuckIn s t) : WaitsForEver s t := ⟨h.bus, by rw [h.rest]⟩

theorem WaitsForEver.of_free {s u t : State} (hu : u = { s with freeIndex := u.freeIndex }) (h : WaitsForEver u t) :
    WaitsForEver s t := by
  obtain ⟨hbus, hrest⟩ := h
  exact ⟨hbus, by rw [hrest, hu]⟩

theorem splits_busRead (s : State) (sized : Bool) (a : Word) (type : ReadType) :
    (s.busRead sized a type).Splits s (Accessed s) (WaitsForEver s) := by
  rcases busRead_cases s sized a type with ⟨-, h⟩ | ⟨t, h, ht, -⟩ | ⟨w, t, h, ht, -⟩ <;> rw [h]
  · trivial
  · exact ht.waitsForEver
  · exact ht.accessed

theorem splits_refill (s : State) (sized : Bool) (side : CacheSide) (a : Word) :
    (s.refill sized side a).Splits s (Accessed s) (WaitsForEver s) := by
  have ha := accessed_refill s sized side a
  rcases refill_cases s sized side a with ⟨-, h⟩ | ⟨t, h, ht, -⟩ | ⟨v, w, u, -, h, -⟩ <;> rw [h] at ha ⊢
  · trivial
  · exact ht.waitsForEver
  · exact ha

theorem splits_cacheLoad (s : State) (sized : Bool) (side : CacheSide) (a : Word) :
    (s.cacheLoad sized side a).Splits s (Accessed s) (WaitsForEver s) := by
  unfold State.cacheLoad State.cacheRead
  split
  · exact accessed_free rfl
  · exact splits_refill s sized side a
  · split
    · exact accessed_free rfl
    · exact ((splits_refill s.freshBit.2 sized side a).of_free (u := s.freshBit.2) rfl).mono
        (fun _ _ _ ht => (accessed_free rfl).trans ht) fun _ ht => ht.of_free rfl

theorem splits_loadWord (s : State) (va : Word) (length : BitVec 2) :
    (s.loadWord va length).Splits s (Accessed s) (WaitsForEver s) := by
  unfold State.loadWord
  split
  · exact rfl
  · split
    · exact accessed_isolatedLoad s _
    · split
      · exact splits_busRead s _ _ _
      · exact splits_cacheLoad s _ _ _

/-- All that an append can do (R77, R103, R329): it waits for a held bus; the core waits behind a write that nothing
answers; or the entry is in the buffer. -/
theorem appendWrite_cases (s : State) (e : WriteEntry) :
    s.appendWrite e = .stall false ∨ (∃ t, s.appendWrite e = .stuck t ∧ WaitsForEver s t) ∨
      ∃ t, s.appendWrite e = .done () t ∧ Wrote s t e.addr (busMask s.mode e) e.data := by
  unfold State.appendWrite
  split
  · exact .inr (.inr ⟨_, rfl, wrote_append s s e rfl rfl⟩)
  · split
    · exact .inl rfl
    · split
      · exact .inr (.inl ⟨_, rfl, rfl, by unfold State.halt; rw [biuWrite_rest]⟩)
      · rename_i hb
        have hf : s.biuWrite.bus = .free := by simpa using hb
        have hr := biuWrite_rest s
        rw [hf, ← (biuWrite_free hf).1] at hr
        exact .inr (.inr ⟨_, rfl, wrote_append s s.biuWrite e hr (settled_biuWrite s)⟩)

/-- What the caches do for a store before it enters the write buffer: they change, and free values may be used. -/
theorem dcacheStore_rest (s : State) (a : Word) (mask : BitVec 4) (w : Word) :
    (s.dcacheStore a mask w).2 = { s with
      icache := (s.dcacheStore a mask w).2.icache, dcache := (s.dcacheStore a mask w).2.dcache,
      freeIndex := (s.dcacheStore a mask w).2.freeIndex } := by
  have put : ∀ side valid d, s.putLine side a valid d = { s with
      icache := (s.putLine side a valid d).icache, dcache := (s.putLine side a valid d).dcache } :=
    fun side _ _ => by cases side <;> rfl
  unfold State.dcacheStore
  dsimp only
  split
  · rw [put]
  · split
    · split
      · rw [put]
      · rfl
      · split <;> rfl
    · cases s.dataSide <;> rfl

theorem splits_storeLanes (s : State) (va : Word) (mask : BitVec 4) (w : Word) :
    (s.storeLanes va mask w).Splits s (Accessed s) (WaitsForEver s) := by
  have ha := accessed_storeLanes s va mask w
  have append : ∀ (u : State) (e : WriteEntry),
      u = { s with icache := u.icache, dcache := u.dcache, freeIndex := u.freeIndex } →
      (u.appendWrite e).All (Accessed s) →
      (u.appendWrite e).Splits s (Accessed s) (WaitsForEver s) := fun u e hu ha => by
    rcases appendWrite_cases u e with h | ⟨t, h, hbus, hrest⟩ | ⟨t, h, -⟩ <;> rw [h] at ha ⊢
    · trivial
    · exact ⟨hbus, by rw [hrest, hu]⟩
    · exact ha
  unfold State.storeLanes at ha ⊢
  split
  · exact rfl
  · rename_i pa uncached ht
    rw [ht] at ha
    dsimp only at ha
    split
    · rw [if_pos ‹_›] at ha
      exact ha
    · rw [if_neg ‹_›] at ha
      dsimp only
      split
      · rw [if_pos ‹_›] at ha
        exact append _ _ (by rw [dropAlias_rest]) ha
      · rw [if_neg ‹_›] at ha
        exact append _ _ (dcacheStore_rest s _ _ _) ha

/-! ### Completed or entered -/

/-- A body that completes leaves what tells how the instruction moves on, and EPC, BadVAddr and Cause but for the
software interrupt bits. -/
structure Untouched (s t : State) : Prop where
  npc : t.npc = s.npc
  counters : t.sinceMfhi = s.sinceMfhi ∧ t.sinceMflo = s.sinceMflo ∧ t.sinceStore = s.sinceStore
  recentStores : t.recentStores = s.recentStores
  cp0 : t.epc = s.epc ∧ t.badVAddr = s.badVAddr ∧ t.cause = { s.cause with sw := t.cause.sw }

theorem Internal.untouched {s t : State} (h : Internal s t) : Untouched s t := by
  unfold Internal at h
  constructor <;> rw [h] <;> simp

theorem Accessed.untouched {s t : State} (h : Accessed s t) : Untouched s t := by
  unfold Accessed at h
  constructor <;> rw [h] <;> simp

theorem Untouched.setGpr {s t : State} (h : Untouched s t) (r : Reg) (v : Word) : Untouched s (t.setGpr r v) := by
  rw [setGpr_rest]
  exact ⟨h.npc, h.counters, h.recentStores, h.cp0⟩

/-- Settles O57: an instruction has completed, taken its exception, waited for a held bus, or waits for ever. -/
theorem completesOrEnters : Obligations.CompletesOrEnters := by
  intro i s t h
  have free : ∀ {u : State}, u = { s with freeIndex := u.freeIndex } → Accessed s u := accessed_free
  rcases exec_splits (D := Untouched s) (Q := WaitsForEver s) h (fun u hu => hu.untouched)
    (fun u r v hu => hu.setGpr r v)
    (fun u va length hu => (splits_loadWord u va length).mono
      (fun _ _ _ ht => ((free hu).trans ht).untouched) fun _ ht => ht.of_free hu)
    (fun u base offset mask w hu _ _ => (splits_storeLanes u _ mask w).mono
      (fun _ _ _ ht => ((free hu).trans ht).untouched) fun _ ht => ht.of_free hu) with
    ⟨r, u, hu, rfl⟩ | ⟨x, u, hu, rfl⟩ | ⟨read, rfl⟩ | hw
  · obtain ⟨hmfhi, hmflo, hstore⟩ := hu.counters
    exact .inr (.inr (.inr ⟨r, completes_retire s u r hu.npc hmfhi hmflo hstore hu.recentStores, hu.cp0⟩))
  · refine .inr (.inr (.inl ⟨_, _, _, enters_take s u x hu, ?_⟩))
    cases x <;> simp [Exc.code]
  · exact .inl ⟨read, rfl⟩
  · exact .inr (.inl hw)

end Sys2Proof.Machine
end

section
/-! PROOFS. What precedes execution, for any property of states that its parts keep (10_state.md R27). -/

namespace Sys2Proof.Machine

section
variable {P : State → Prop} (hfree : ∀ t u : State, P t → u = { t with freeIndex := u.freeIndex } → P u)
  (htake : ∀ (t : State) (x : Exc), P t → P (t.takeException x))
include hfree htake

theorem meets_rejected {s : State} (h : P s) (r : Reject) : (Fetched.ended (s.rejected r)).Meets P := by
  cases r with
  | reservedInstruction => exact meets_next (htake s .ri h)
  | unlistedCop0 =>
    unfold State.rejected
    dsimp only
    split
    · exact meets_next (htake _ (.cpu 0) (hfree s _ h (cp0Unusable_free s)))
    · exact meets_refused _
  | blankBcond => exact meets_refused _
  | nonzeroConstantField => exact meets_refused _

variable (hstall : ∀ (t : State) (read : Bool), P t → P (t.stalled read))
  (hfetch : ∀ t : State, P t → t.fetchWord.All P)
include hstall hfetch

theorem meets_fetchDecode {s : State} (h : P s) : s.fetchDecode.Meets P := by
  have hf := hfetch s h
  unfold State.fetchDecode
  cases hw : s.fetchWord <;> rw [hw] at hf
  case done w t =>
    dsimp only
    cases decode w with
    | ok i => exact hf
    | error r => exact meets_rejected hfree htake hf r
  case raise x t => exact meets_next (htake t x hf)
  case stall read => exact meets_next (hstall s read h)
  case stuck t => exact meets_waits hf
  case refuse r => exact meets_refused r

/-- A property that the sampled state and the state after a RESET have, and that a fetch and an exception keep. -/
theorem meets_fetchPhase {s : State} (hsample : P s.sample) (hreset : ∀ r, P (s.environment.resetBy r)) :
    s.fetchPhase.Meets P := by
  have hi : P s.sample.interrupted.2 := hfree _ _ hsample (useCp0_free _ _)
  unfold State.fetchPhase
  dsimp only
  split
  · split
    · exact meets_next (hreset _)
    · exact meets_refused _
  · split
    · exact meets_refused _
    · split
      · exact meets_waits hsample
      · split
        · exact meets_next hsample
        · split
          · exact meets_next (htake _ .interrupt hi)
          · exact meets_fetchDecode hfree htake hstall hfetch hi

end

/-- An instruction runs in the sampled state after its fetch. -/
theorem fetchPhase_run {s u : State} {i : Instr} (h : s.fetchPhase = .run i u) : Aside s.sample u := by
  have hd : s.sample.interrupted.2.fetchDecode = .run i u := by
    unfold State.fetchPhase at h
    dsimp only at h
    split at h
    · split at h <;> cases h
    · split at h
      · cases h
      · split at h
        · cases h
        · split at h
          · cases h
          · split at h
            · cases h
            · exact h
  have ha := abortsOne_fetch s.sample.interrupted.2 s.sample.interrupted.2.pc s.sample.interrupted.2.inputs.fetchSizrq
  unfold State.fetchDecode at hd
  split at hd
  · rename_i w t hw
    unfold State.fetchWord at hw
    rw [hw] at ha
    split at hd
    · cases hd
      exact (aside_free (interrupted_free s.sample)).trans ha.aside
    · cases hd
  all_goals cases hd

end Sys2Proof.Machine
end

section
/-! PROOFS. Every step keeps the data cache in agreement with memory (20_memory.md R93, R96, R97, D21). -/

namespace Sys2Proof.Machine

/-! ### The start of a step and an exception -/

theorem Aside.coherent {s t : State} (h : Aside s t) (hs : Coherent s) : Coherent t :=
  hs.of_eq (by rw [h.rest]) (by rw [h.rest]) (by rw [h.rest]) h.seen

theorem StuckIn.coherent {s t : State} (h : StuckIn s t) (hs : Coherent s) : Coherent t := h.aside.coherent hs

theorem BusOnly.coherent {s t : State} (h : BusOnly s t) (hs : Coherent s) : Coherent t :=
  hs.of_eq (by rw [h.rest]) h.mode h.platform h.seen

theorem coherent_takeException {s : State} (h : Coherent s) (x : Exc) : Coherent (s.takeException x) := by
  have ha : Coherent (s.abortFetches x) := (abortsAll _ s).aside.coherent h
  refine ha.of_eq (enter_dcache _ x) (enter_mode _ x) (enter_platform _ x) fun a => ?_
  exact seenByte_of_eq (enter_mem _ x) (enter_writeBuffer _ x) (enter_mode _ x) (enter_platform _ x) a

theorem clearCache_line {n : Nat} {c : List (Nat × CacheEntry n)} {e : Nat × CacheEntry n} (h : e ∈ clearCache c) :
    ∃ k tag d, e = (k, .line false tag d) := by
  obtain ⟨a, -, ha⟩ := List.mem_filterMap.1 h
  split at ha
  · cases ha
    exact ⟨_, _, _, rfl⟩
  · cases ha

/-- No entry of a cleared cache is valid (R98). -/
theorem clearCache_invalid {n : Nat} (c : List (Nat × CacheEntry n)) (k : Nat) (tag : BitVec n) (d : Word) :
    tableGet k (clearCache c) ≠ some (.line true tag d) := fun h => by
  obtain ⟨_, _, _, he⟩ := clearCache_line (mem_of_tableGet h)
  cases he

theorem coherent_sample {s : State} (h : Coherent s) (hn : s.NoMasterWrites) : Coherent s.sample := by
  have same : Coherent { s.sample with dcache := s.dcache } :=
    h.of_eq rfl (by rw [sample_frame]) (by rw [sample_frame]) fun a =>
      (seenByte_dcache _ _ a).trans (seenByte_sample hn a)
  have hd := sample_dcache s
  cases hc : s.environment.inputs.dcclr <;> rw [hc] at hd
  · exact same.of_eq hd rfl rfl fun a => (seenByte_dcache _ _ a).symm
  · refine ⟨fun e he => ?_, fun k tag d he => absurd he ?_⟩ <;> rw [hd] at *
    · obtain ⟨_, _, _, rfl⟩ := clearCache_line he
      simp
    · exact clearCache_invalid _ _ _ _

/-! ### Loads -/

theorem coherent_busRead {s : State} (h : Coherent s) (sized : Bool) (a : Word) (type : ReadType) :
    (s.busRead sized a type).All Coherent := by
  rcases busRead_cases s sized a type with ⟨-, e⟩ | ⟨t, e, ht, -⟩ | ⟨w, t, e, ht, -⟩ <;> rw [e]
  · trivial
  · exact ht.coherent h
  · exact ht.coherent h

theorem coherent_refill {s : State} (h : Coherent s) (sized : Bool) (a : Word) :
    (s.refill sized .data a).All Coherent := by
  rcases refill_cases s sized .data a with ⟨-, e⟩ | ⟨t, e, ht, -⟩ | ⟨v, w, u, hu, e, hv, hw, -⟩ <;> rw [e]
  · trivial
  · exact ht.coherent h
  · show Coherent _
    split
    · exact coherent_fillBlock (hu.coherent h) hu.cacheOnly a w hw
    · exact coherent_fill (hu.coherent h) a v (by rw [hu.cacheOnly.word, hu.backed]; exact hv)

theorem coherent_cacheLoad {s : State} (h : Coherent s) (sized : Bool) (a : Word) :
    (s.cacheLoad sized .data a).All Coherent := by
  unfold State.cacheLoad State.cacheRead
  rcases look_coherent h a with hl | ⟨d, hl, -⟩ <;> rw [hl]
  · exact coherent_refill h sized a
  · exact h

/-- What an instruction finds in a step from a coherent state whose caches are neither isolated nor swapped: an active
clear pin has left no valid entry (R98). -/
structure Ready (s : State) : Prop where
  coherent : Coherent s
  cleared : s.inputs.dcclr = true → ∀ k tag d, tableGet k s.dcache ≠ some (.line true tag d)
  keys : ∀ e ∈ s.dcache, e.1 < 256
  memory : s.mem.wf
  isolated : s.sr.isc = false
  swapped : s.sr.swc = false

theorem Ready.dataSide {s : State} (h : Ready s) : s.dataSide = .data := by
  unfold State.dataSide
  rw [h.swapped]
  rfl

theorem Ready.of_free {s u : State} (h : Ready s) (hu : u = { s with freeIndex := u.freeIndex }) : Ready u := by
  refine ⟨(aside_free hu).coherent h.coherent, ?_, ?_, ?_, ?_, ?_⟩ <;> rw [hu]
  exacts [h.cleared, h.keys, h.memory, h.isolated, h.swapped]

theorem coherent_loadWord {s : State} (h : Ready s) (va : Word) (length : BitVec 2) :
    (s.loadWord va length).All Coherent := by
  unfold State.loadWord
  rw [h.dataSide]
  split
  · exact h.coherent
  · rw [if_neg (by simp [h.isolated])]
    split
    · exact coherent_busRead h.coherent _ _ _
    · exact coherent_cacheLoad h.coherent _ _

/-! ### A write to the word at an address -/

/-- Agreement but for the word at an address. -/
structure CoherentBut (s : State) (a : Word) : Prop where
  known : ∀ e ∈ s.dcache, e.2 ≠ .unknown
  agrees : ∀ (k : Nat) (tag : BitVec 22) (d : Word), tableGet k s.dcache = some (.line true tag d) →
    (tag ++ BitVec.ofNat 8 k ++ 0#2 : Word) ≠ wordAddr a →
    s.backed (tag ++ BitVec.ofNat 8 k ++ 0#2) = true → d = s.seenWord (tag ++ BitVec.ofNat 8 k ++ 0#2)
  keys : ∀ e ∈ s.dcache, e.1 < 256

/-- Without a valid entry for that word, the cache agrees as a whole. -/
theorem CoherentBut.coherent {s : State} {a : Word} (h : CoherentBut s a)
    (hn : ∀ d, tableGet (dcacheIndex a) s.dcache ≠ some (.line true (dcacheTag a) d)) : Coherent s := by
  refine ⟨h.known, fun k tag d he => h.agrees k tag d he fun hl => ?_⟩
  have hk : k = dcacheIndex a := by
    by_contra hk
    exact line_ne (h.keys _ (mem_of_tableGet he)) hk hl
  subst hk
  rw [line_eq_tag hl] at he
  exact hn d he

/-- A line put into the entry of that word, invalid or with the word that memory holds, makes the cache agree. -/
theorem CoherentBut.set {s : State} {a : Word} (h : CoherentBut s a) {valid : Bool} {tag : BitVec 22} {d : Word}
    (hd : valid = true → tag = dcacheTag a ∧ (s.backed a = true → d = s.seenWord (wordAddr a))) :
    Coherent { s with dcache := tableSet (dcacheIndex a) (some (.line valid tag d)) s.dcache } := by
  refine ⟨fun e he => ?_, fun k tg w he hb => ?_⟩
  · rcases mem_tableSet he with he | ⟨x, hx, rfl⟩
    · exact h.known e he
    · cases hx
      simp
  · rw [seenWord_dcache]
    have hb : s.backed (tg ++ BitVec.ofNat 8 k ++ 0#2) = true := hb
    by_cases hk : k = dcacheIndex a
    · subst hk
      have he' := (tableGet_set_some (dcacheIndex a) (CacheEntry.line valid tag d) s.dcache).symm.trans he
      simp only [Option.some.injEq, CacheEntry.line.injEq] at he'
      obtain ⟨rfl, rfl, rfl⟩ := he'
      obtain ⟨rfl, hword⟩ := hd rfl
      rw [line_of] at hb ⊢
      exact hword (by rwa [backed_wordAddr] at hb)
    · have he' := (tableGet_set_ne (some (CacheEntry.line valid tag d)) s.dcache hk).symm.trans he
      exact h.agrees k tg w he' (line_ne (h.keys _ (mem_of_tableGet he')) hk) hb

theorem Wrote.mode {s t : State} {p : Word} {mask : BitVec 4} {w : Word} (h : Wrote s t p mask w) :
    t.mode = s.mode := by
  rw [h.rest]

theorem Wrote.backed {s t : State} {p : Word} {mask : BitVec 4} {w : Word} (h : Wrote s t p mask w) (a : Word) :
    t.backed a = s.backed a := by
  rw [h.rest]
  rfl

/-- What a word is after a store: the stored lanes merged in where it is the store's own and ordinary memory, else what
it was (R93). -/
theorem Wrote.word {s t : State} {p : Word} {mask : BitVec 4} {w : Word} (h : Wrote s t p mask w) (hm : s.mem.wf)
    (a : Word) :
    t.seenWord (wordAddr a) =
      if wordAddr a = wordAddr p ∧ s.answer a = .memory then mergeLanes (s.seenWord (wordAddr a)) mask w
      else s.seenWord (wordAddr a) := by
  refine word_ext fun i hi => ?_
  have hl := laneOf_lt s.mode.bigEndianMem i hi
  have hb := wordAddr_add_toNat a _ hl
  have hword : wordAddr (wordAddr a + BitVec.ofNat 32 (laneOf s.mode.bigEndianMem i)) = wordAddr a := by
    apply BitVec.eq_of_toNat_eq
    rw [wordAddr_toNat, hb, wordAddr_toNat]
    omega
  have hlow : (wordAddr a + BitVec.ofNat 32 (laneOf s.mode.bigEndianMem i)).toNat % 4 =
      laneOf s.mode.bigEndianMem i := by
    rw [hb, wordAddr_toNat]
    omega
  rw [laneByte_seenWord t a i hi, h.mode, h.byte hm, hlow, laneOf_laneOf _ _ hi, hword, answer_of_word hword,
    ← laneByte_seenWord s a i hi]
  by_cases hc : wordAddr a = wordAddr p ∧ s.answer a = .memory
  · rw [if_pos hc, laneByte_mergeLanes _ _ _ _ hi]
    simp only [hc, true_and]
  · rw [if_neg hc, if_neg fun hf => hc ⟨hf.1, hf.2.1⟩]

/-- A store leaves the cache that it finds in agreement but for its own word. -/
theorem Wrote.coherentBut {s t : State} {a p : Word} {mask : BitVec 4} {w : Word} (h : Wrote s t p mask w)
    (hs : Ready s) (ha : wordAddr p = wordAddr a) : CoherentBut t a := by
  have hd : t.dcache = s.dcache := by rw [h.rest]
  refine ⟨by rw [hd]; exact hs.coherent.known, fun k tag d he hne hb => ?_, by rw [hd]; exact hs.keys⟩
  rw [hd] at he
  rw [h.backed] at hb
  have hline : wordAddr (tag ++ BitVec.ofNat 8 k ++ 0#2) = (tag ++ BitVec.ofNat 8 k ++ 0#2 : Word) := by
    apply BitVec.eq_of_toNat_eq
    rw [wordAddr_toNat, line_toNat]
    omega
  have hword := h.word hs.memory (tag ++ BitVec.ofNat 8 k ++ 0#2)
  rw [hline, if_neg fun hc => hne (hc.1.trans ha)] at hword
  rw [hword]
  exact hs.coherent.agrees k tag d he hb

/-! ### Stores -/

theorem tableSet_unlisted {α : Type} {k : Nat} {t : List (Nat × α)} (h : tableGet k t = none) :
    tableSet k none t = t := by
  induction t with
  | nil => rfl
  | cons e t ih =>
    obtain ⟨j, y⟩ := e
    have hk : k ≠ j := fun hk => by simp [tableGet, hk] at h
    have ht : tableGet k t = none := by simpa [tableGet, hk] using h
    simp [tableSet, hk, ih ht]

/-- `u` is `s` after a store's part in the data cache that leaves no valid entry of its word: there was none, or the
entry at the index is invalid now. -/
def NoCopy (s u : State) (a : Word) : Prop :=
  (u = s ∧ ∀ d, tableGet (dcacheIndex a) s.dcache ≠ some (.line true (dcacheTag a) d)) ∨
    ∃ tag d, u = { s with dcache := tableSet (dcacheIndex a) (some (.line false tag d)) s.dcache }

/-- `u` is `s` after a store's part in the data cache that leaves a valid entry of its word with this content. -/
def Copied (s u : State) (a v : Word) : Prop :=
  u = { s with dcache := tableSet (dcacheIndex a) (some (.line true (dcacheTag a) v)) s.dcache }

theorem noCopy_invalidate {s : State} (h : Coherent s) (a : Word) : NoCopy s (s.invalidate .data a) a := by
  unfold State.invalidate
  cases he : tableGet (dcacheIndex a) s.dcache with
  | none => exact .inl ⟨by simp only [invalidEntry, tableSet_unlisted he], fun d => by simp [he]⟩
  | some e =>
    cases e with
    | unknown => exact absurd rfl (h.known _ (mem_of_tableGet he))
    | line valid tag d => exact .inr ⟨tag, d, rfl⟩

/-- Where the comparison with the listed entry misses, the word has no valid entry. -/
theorem no_copy_of_miss {s : State} {a : Word}
    (h : lookEntry (tableGet (dcacheIndex a) s.dcache) (dcacheTag a) = .miss) (d : Word) :
    tableGet (dcacheIndex a) s.dcache ≠ some (.line true (dcacheTag a) d) := fun he => by
  rw [he] at h
  simp [lookEntry] at h

theorem noCopy_dropAlias {s : State} (h : Ready s) (a : Word) : NoCopy s (s.dropAlias a) a := by
  unfold State.dropAlias
  rw [if_neg (by simp [h.swapped])]
  split
  · exact noCopy_invalidate h.coherent a
  · exact .inl ⟨rfl, no_copy_of_miss ‹_›⟩
  · rename_i hl
    unfold lookEntry at hl
    split at hl
    · cases hl
    · rename_i he
      exact absurd rfl (h.coherent.known _ (mem_of_tableGet he))
    · split at hl <;> cases hl

theorem mergeLanes_whole (old w : Word) : mergeLanes old 0b1111 w = w :=
  word_ext fun i hi => by
    rw [laneByte_mergeLanes _ _ _ _ hi, if_pos]
    interval_cases i <;> rfl

/-- More lanes of a merged word merged in give the merged word. -/
theorem mergeLanes_merged (old w : Word) {mask more : BitVec 4}
    (h : ∀ i < 4, mask.getLsbD i = true → more.getLsbD i = true) :
    mergeLanes old more (mergeLanes old mask w) = mergeLanes old mask w := by
  refine word_ext fun i hi => ?_
  rw [laneByte_mergeLanes _ _ _ _ hi, laneByte_mergeLanes _ _ _ _ hi]
  by_cases hm : mask.getLsbD i = true
  · rw [if_pos (h i hi hm)]
  · rw [if_neg hm, ite_self]

/-- The data cache's part of a store (R96): its lanes go on as they are and no valid copy stays, or the whole word, with
the lanes merged in, goes on and into the entry. -/
theorem dcacheStore_ready {s : State} (h : Ready s) (a : Word) (mask : BitVec 4) (w : Word) :
    ((s.dcacheStore a mask w).1 = (mask, w) ∧ NoCopy s (s.dcacheStore a mask w).2 a) ∨
      ∃ v, (s.dcacheStore a mask w).1 = (0b1111, v) ∧ Copied s (s.dcacheStore a mask w).2 a v ∧
        (s.backed a = true → v = mergeLanes (s.seenWord (wordAddr a)) mask w) := by
  unfold State.dcacheStore
  rw [h.dataSide]
  dsimp only
  by_cases hwhole : mask = 0b1111
  · rw [if_pos hwhole]
    cases hc : s.clearing .data
    · exact .inr ⟨w, by rw [hwhole], rfl, fun _ => by rw [hwhole, mergeLanes_whole]⟩
    · exact .inl ⟨rfl, .inr ⟨dcacheTag a, w, rfl⟩⟩
  rw [if_neg hwhole]
  by_cases hpart : s.mode.stpart = true
  swap
  · rw [if_neg hpart]
    exact .inl ⟨rfl, noCopy_invalidate h.coherent a⟩
  rw [if_pos hpart]
  rcases look_coherent h.coherent a with hl | ⟨d, hl, hd⟩ <;> rw [hl]
  · refine .inl ⟨rfl, .inl ⟨rfl, fun d => ?_⟩⟩
    unfold State.look at hl
    split at hl
    · exact h.cleared ‹_› _ _ d
    · exact no_copy_of_miss hl d
  · exact .inr ⟨_, rfl, rfl, fun hb => by rw [hd hb]⟩

/-- A store after the data cache changed, seen as a store with the data cache as it was. -/
theorem Wrote.before_dcache {s t : State} {c : DCache} {p : Word} {mask : BitVec 4} {w : Word}
    (h : Wrote { s with dcache := c } t p mask w) :
    Wrote s { t with dcache := s.dcache } p mask w ∧
      t = { ({ t with dcache := s.dcache } : State) with dcache := c } := by
  obtain ⟨hrest, hmem⟩ := h
  refine ⟨⟨?_, ?_⟩, ?_⟩
  · rw [hrest]
  · exact (settled_of_eq rfl rfl rfl rfl).trans hmem
  · rw [hrest]

theorem coherent_noCopy {s u t : State} (h : Ready s) {a p : Word} (hu : NoCopy s u a) {mask : BitVec 4} {w : Word}
    (hw : Wrote u t p mask w) (hp : wordAddr p = wordAddr a) : Coherent t := by
  rcases hu with ⟨rfl, hn⟩ | ⟨tag, d, rfl⟩
  · exact (hw.coherentBut h hp).coherent (by rw [show t.dcache = u.dcache by rw [hw.rest]]; exact hn)
  · obtain ⟨hw, ht⟩ := hw.before_dcache
    rw [ht]
    exact (hw.coherentBut h hp).set (fun hv => by cases hv)

theorem coherent_copied {s u t : State} (h : Ready s) {a p v w : Word} {mask more : BitVec 4} (hu : Copied s u a v)
    (hw : Wrote u t p more v) (hp : wordAddr p = wordAddr a) (hro : s.answer a ≠ .readOnly)
    (hv : s.backed a = true → v = mergeLanes (s.seenWord (wordAddr a)) mask w)
    (hmore : ∀ i < 4, mask.getLsbD i = true → more.getLsbD i = true) : Coherent t := by
  unfold Copied at hu
  subst hu
  obtain ⟨hw, ht⟩ := hw.before_dcache
  rw [ht]
  refine (hw.coherentBut h hp).set fun _ => ⟨rfl, fun hb => ?_⟩
  rw [hw.backed] at hb
  have hm : s.answer a = .memory := by
    unfold State.backed at hb
    simpa [hro] using hb
  rw [hw.word h.memory a, if_pos ⟨hp.symm, hm⟩, hv hb, mergeLanes_merged _ _ hmore]

/-- An address that the mode may use has a translation (R71, R72). -/
theorem translate_may {s : State} {va : Word} (h : s.mayAccess va = true) :
    translate s.sr.kuc va = some (physical va, inKseg1 va) :=
  translate_ok _ _ (by simpa only [State.mayAccess, Bool.not_eq_true'] using h)

/-- A store that is done, through the cache or through kseg1, keeps the data cache in agreement with memory (R96, R97).
-/
theorem coherent_storeLanes {s t : State} (h : Ready s) {va : Word} {mask : BitVec 4} {w : Word}
    (hm : storeMask mask = true) (hro : inKseg1 va = false → s.answer (physical va) ≠ .readOnly)
    (hd : s.storeLanes va mask w = .done () t) : Coherent t := by
  by_cases hma : s.mayAccess va = true
  swap
  · rw [storeLanes_forbidden (by simpa using hma)] at hd
    cases hd
  have append : ∀ {u : State} {e : WriteEntry}, u.appendWrite e = .done () t →
      Wrote u t e.addr (busMask u.mode e) e.data := fun {u e} he => by
    rcases appendWrite_cases u e with hc | ⟨v, hc, -⟩ | ⟨v, hc, hv⟩ <;> rw [hc] at he <;> cases he
    exact hv
  unfold State.storeLanes at hd
  rw [translate_may hma] at hd
  simp only [h.isolated, Bool.false_eq_true, if_false] at hd
  have hshown := fun l => (shown_word (physical va) l).trans (wordAddr_wordAddr (physical va)).symm
  split at hd
  · exact coherent_noCopy h (noCopy_dropAlias h _) (append hd) (hshown _)
  · rename_i hk
    have hmode : (s.dcacheStore (wordAddr (physical va)) mask w).2.mode = s.mode := by rw [dcacheStore_rest]
    have hw := append hd
    rcases dcacheStore_ready h (wordAddr (physical va)) mask w with ⟨-, hu⟩ | ⟨v, he, hu, hv⟩
    · exact coherent_noCopy h hu hw (hshown _)
    · rw [he, hmode] at hw
      refine coherent_copied h hu hw (hshown _) ?_ hv (busMask_merged s.mode (physical va) mask hm v)
      rw [answer_wordAddr]
      exact hro (by simpa using hk)

/-! ### The step -/

/-- Every instruction that a step runs in a coherent state keeps the agreement, or leaves the core waiting for ever. -/
theorem exec_coherent {i : Instr} {s t : State} (h : Ready s) (hi : s.StoresSeen i) (he : exec i s = .next t) :
    t.bus = .coreStuck ∨ Coherent t := by
  rcases exec_splits (D := Coherent) (Q := fun t => t.bus = .coreStuck) he
    (fun u hu => h.coherent.of_eq (by rw [hu]) (by rw [hu]) (by rw [hu]) fun a =>
      seenByte_of_eq (by rw [hu]) (by rw [hu]) (by rw [hu]) (by rw [hu]) a)
    (fun u r v hu => hu.of_eq (by simp) (by simp) (by simp) fun a =>
      seenByte_of_eq (by simp) (by simp) (by simp) (by simp) a)
    (fun u va length hu => (splits_loadWord u va length).mono
      (fun _ _ hd _ => by simpa [hd, Act.All] using coherent_loadWord (h.of_free hu) va length) fun _ hw => hw.1)
    (fun u base offset mask w hu ho hm => (splits_storeLanes u _ mask w).mono
      (fun _ _ hd _ => coherent_storeLanes (h.of_free hu) hm (fun hk => by
        rw [answer_free hu]
        exact hi base offset _ _ ho (reads_readSrc s base) rfl hk) hd) fun _ hw => hw.1) with
    ⟨r, u, hu, rfl⟩ | ⟨x, u, hu, rfl⟩ | ⟨read, rfl⟩ | hw
  · exact .inr (hu.of_eq rfl rfl rfl fun a => seenByte_of_eq rfl rfl rfl rfl a)
  · exact .inr (coherent_takeException ((aside_free hu).coherent h.coherent) x)
  · exact .inr (h.coherent.of_eq rfl rfl rfl fun a => seenByte_of_eq rfl rfl rfl rfl a)
  · exact .inl hw

theorem biuWriteN_busy (n : Nat) {s : State} (h : s.bus ≠ .free) : s.biuWriteN n = s := by
  induction n with
  | zero => rfl
  | succ n ih =>
    have hs : s.biuWrite = s := by
      rcases biuWrite_cases s with ⟨hs, -⟩ | ⟨_, _, -, hf, -⟩ | ⟨_, _, -, hf, -⟩
      · exact hs
      · exact absurd hf h
      · exact absurd hf h
    rw [State.biuWriteN, hs, ih]

/-- Only a RESET ends the wait for a bus cycle that never completes (R77). -/
theorem step_coreStuck {s t : State} (hb : s.bus = .coreStuck) (h : step s = .next t) :
    t.bus = .coreStuck ∨ ∃ r, t = s.environment.resetBy r := by
  have hs : s.sample.bus = .coreStuck := by
    unfold State.sample
    obtain ⟨n, hn⟩ := drain_eq_biuWriteN s.environment.applyClearPins
    have hc : s.environment.applyClearPins.bus = .coreStuck := (environment_bus s).trans hb
    rw [hn, biuWriteN_busy n (by simp [hc]), hc]
  cases hr : s.resetPulse with
  | none =>
    have hf : s.fetchPhase =
        .ended (if s.sample.mode.legal then s.sample.waits else .refused .forbiddenModePins) := by
      unfold State.fetchPhase
      cases hl : s.sample.mode.legal <;> simp [hr, hl, hs]
    rw [step, hf] at h
    dsimp only at h
    split at h
    · cases waits_next h
      exact .inl hs
    · cases h
  | some r =>
    have hf : s.fetchPhase =
        .ended (if r.mode.legal then .next (s.environment.resetBy r) else .refused .forbiddenModePins) := by
      unfold State.fetchPhase
      cases hl : r.mode.legal <;> simp [hr, hl]
    rw [step, hf] at h
    dsimp only at h
    split at h <;> cases h
    exact .inr ⟨r, rfl⟩

/-- Settles O15: a core that waits for ever goes on waiting or is reset; else every part of the start of a step keeps
the agreement, and so does the instruction. -/
theorem stepKeepsCoherent : Obligations.StepKeepsCoherent := by
  intro s t hinv hc hcp0 hn hstores h
  obtain ⟨hisc, hswc⟩ := hcp0 s.cp0View (.inl rfl)
  have reset : ∀ r, Coherent (s.environment.resetBy r) := fun r => ⟨nofun, nofun⟩
  rcases hc with hb | hc
  · rcases step_coreStuck hb h with ht | ⟨r, rfl⟩
    · exact .inl ht
    · exact .inr (reset r)
  have hsample := coherent_sample hc hn
  have hphase := meets_fetchPhase (P := Coherent) (fun t u ht hu => (aside_free hu).coherent ht)
    (fun t x ht => coherent_takeException ht x)
    (fun t read ht => ht.of_eq rfl rfl rfl fun a => seenByte_of_eq rfl rfl rfl rfl a)
    (fun t ht => (abortsOne_fetch t t.pc t.inputs.fetchSizrq).mono fun u hu => hu.aside.coherent ht) hsample reset
  have hkept := inv_fetchPhase hinv
  unfold step at h
  cases hp : s.fetchPhase with
  | ended o =>
    rw [hp] at h hphase
    exact .inr (hphase t h)
  | run i u =>
    have ha := fetchPhase_run hp
    rw [hp] at h hphase hkept
    have hsr : u.sr = s.sr := by rw [ha.rest, sample_frame]
    have hd : u.dcache = s.sample.dcache := by rw [ha.rest]
    have hi : u.inputs = s.sample.inputs := by rw [ha.rest]
    have hready : Ready u := by
      refine ⟨hphase, fun hcl => ?_, hkept.dcache.2, hkept.memory, by rw [hsr]; exact hisc, by rw [hsr]; exact hswc⟩
      rw [hi, sample_inputs] at hcl
      rw [hd, sample_dcache, if_pos hcl]
      exact clearCache_invalid _
    exact exec_coherent hready (hstores i u hp) h

end Sys2Proof.Machine
end

section
/-! PROOFS. The chip never drives the unused 1 GB of physical addresses (20_memory.md R74): what the bus shows of a
write, of a read and of a block read, and what the parts of a step add to it. -/

namespace Sys2Proof.Machine

/-! ### The addresses that bus cycles show -/

/-- No buffered write is to the unused space, and no bus cycle so far showed an address of it (R74). -/
structure Quiet (s : State) : Prop where
  buffer : ∀ e ∈ s.writeBuffer, unusedSpace e.addr = false
  trace : ∀ c ∈ s.trace, unusedSpace c.addr = false

theorem Quiet.of_eq {s t : State} (h : Quiet s) (hb : t.writeBuffer = s.writeBuffer) (ht : t.trace = s.trace) :
    Quiet t :=
  ⟨hb ▸ h.buffer, ht ▸ h.trace⟩

theorem Quiet.free {s t : State} (h : Quiet s) (ht : t = { s with freeIndex := t.freeIndex }) : Quiet t :=
  h.of_eq (by rw [ht]) (by rw [ht])

/-- More cycles, none of them in the unused space. -/
theorem Quiet.cycles {s : State} (h : Quiet s) {new : List BusCycle} (hn : ∀ c ∈ new, unusedSpace c.addr = false) :
    Quiet { s with trace := new ++ s.trace } :=
  ⟨h.buffer, fun c hc => (List.mem_append.1 hc).elim (hn c) (h.trace c)⟩

theorem writeCycles_used (p : ModePins) {e : WriteEntry} (h : unusedSpace e.addr = false) :
    ∀ c ∈ writeCycles p e, unusedSpace c.addr = false := by
  have upper : unusedSpace (e.addr.extractLsb' 2 30 ++ 2#2) = false := by rw [unusedSpace_shown, h]
  unfold writeCycles
  dsimp only
  split
  · split <;> simp [BusCycle.addr, h, upper]
  · simp [BusCycle.addr, h]

theorem readCycles_used (p : ModePins) (sized : Bool) {a : Word} (type : ReadType) (h : unusedSpace a = false) :
    ∀ c ∈ readCycles p sized a type, unusedSpace c.addr = false := by
  intro c hc
  obtain ⟨k, -, rfl⟩ := List.mem_map.1 hc
  exact (unusedSpace_shown a k).trans h

theorem unusedSpace_iff (a : Word) : unusedSpace a = decide (a.toNat / 2 ^ 30 = 2) := by
  have htop : (a.extractLsb' 30 2).toNat = a.toNat / 2 ^ 30 := by
    have := a.isLt
    simp only [BitVec.extractLsb'_toNat, Nat.shiftRight_eq_div_pow]
    omega
  unfold unusedSpace
  rw [← htop, Bool.eq_iff_iff, beq_iff_eq, decide_eq_true_eq, ← BitVec.toNat_inj]
  rfl

theorem unusedSpace_blockAddr (a : Word) : unusedSpace (blockAddr a) = unusedSpace a := by
  rw [unusedSpace_iff, unusedSpace_iff, blockAddr_toNat]
  congr 2
  omega

theorem unusedSpace_wordAddr (a : Word) : unusedSpace (wordAddr a) = unusedSpace a := unusedSpace_shown a 0

/-! ### The BIU and reads of the bus -/

theorem quiet_biuWrite {s : State} (h : Quiet s) : Quiet s.biuWrite := by
  rcases biuWrite_cases s with ⟨hs, -⟩ | ⟨e, rest, hw, -, -, hs⟩ | ⟨e, rest, hw, -, -, hs⟩ <;> rw [hs]
  · exact h
  all_goals have he := writeCycles_used s.mode (h.buffer e (by rw [hw]; exact List.mem_cons_self ..))
  · exact (h.cycles fun c hc => he c (List.mem_of_mem_take hc)).of_eq rfl rfl
  · have ht := (h.cycles fun c hc => he c (List.mem_reverse.1 hc)).trace
    exact ⟨fun x hx => h.buffer x (by rw [hw]; exact List.mem_cons_of_mem _ hx), ht⟩

theorem quiet_biuWriteN (n : Nat) {s : State} (h : Quiet s) : Quiet (s.biuWriteN n) := by
  induction n generalizing s with
  | zero => exact h
  | succ n ih => exact ih (quiet_biuWrite h)

theorem quiet_forceOut (p : WriteEntry → Bool) (n : Nat) {s : State} (h : Quiet s) : Quiet (s.forceOut p n) := by
  induction n generalizing s with
  | zero => exact h
  | succ n ih =>
    unfold State.forceOut
    split
    · exact ih (quiet_biuWrite h)
    · exact h

theorem quiet_halt {s : State} (h : Quiet s) {c : List BusCycle} (hc : ∀ x ∈ c, unusedSpace x.addr = false) :
    Quiet (s.halt c) :=
  (h.cycles hc).of_eq rfl rfl

theorem readWord_free (s : State) (a : Word) :
    (s.readWord a).2 = { s with freeIndex := (s.readWord a).2.freeIndex } := by
  unfold State.readWord
  split <;> rfl

theorem readBlock_free (s : State) (a : Word) :
    (s.readBlock a).2 = { s with freeIndex := (s.readBlock a).2.freeIndex } :=
  free_trans (free_trans (free_trans (readWord_free s _) (readWord_free _ _)) (readWord_free _ _)) (readWord_free _ _)

section
variable {s : State} (h : Quiet s) {a : Word} (ha : unusedSpace a = false)
include h ha

theorem quiet_busRead (sized : Bool) (type : ReadType) : (s.busRead sized a type).All Quiet := by
  unfold State.busRead
  split
  · trivial
  · have ht := quiet_forceOut (fun e => wordAddr e.addr == wordAddr a) s.writeBuffer.length h
    dsimp only
    generalize s.forceOut (fun e => wordAddr e.addr == wordAddr a) s.writeBuffer.length = t at ht
    have hc := readCycles_used t.mode sized type ha
    split
    · exact quiet_halt ht nofun
    · split
      · exact quiet_halt ht fun c hm => hc c (List.mem_of_mem_take hm)
      · have hr := ht.free (readWord_free t a)
        have hn := (ht.cycles fun c hm => hc c (List.mem_reverse.1 hm)).trace
        exact ⟨hr.buffer, hn⟩

theorem quiet_busReadBlock (type : ReadType) : (s.busReadBlock a type).All Quiet := by
  unfold State.busReadBlock
  split
  · trivial
  · have ht := quiet_forceOut (fun e => blockAddr e.addr == blockAddr a) s.writeBuffer.length h
    dsimp only
    generalize s.forceOut (fun e => blockAddr e.addr == blockAddr a) s.writeBuffer.length = t at ht
    have hc : ∀ c ∈ [BusCycle.blockRead (blockAddr a) type], unusedSpace c.addr = false := fun c hm => by
      rw [List.mem_singleton.1 hm]
      exact (unusedSpace_blockAddr a).trans ha
    split
    · exact quiet_halt ht nofun
    · split
      · exact quiet_halt ht hc
      · exact ⟨(ht.free (readBlock_free t a)).buffer, (ht.cycles hc).trace⟩

end

theorem quiet_appendWrite {s : State} (h : Quiet s) {e : WriteEntry} (he : unusedSpace e.addr = false) :
    (s.appendWrite e).All Quiet := by
  have append : ∀ {t : State}, Quiet t → Quiet { t with writeBuffer := t.writeBuffer ++ [e] } := fun ht =>
    ⟨fun x hx => (List.mem_append.1 hx).elim (ht.buffer x) fun hx =>
      (List.mem_singleton.1 hx) ▸ he, ht.trace⟩
  unfold State.appendWrite
  split
  · exact append h
  · split
    · trivial
    · split
      · exact quiet_halt (quiet_biuWrite h) nofun
      · exact append (quiet_biuWrite h)

/-! ### The caches, loads, stores and fetches -/

theorem fill_rest (s : State) (side : CacheSide) (a d : Word) :
    s.fill side a d = { s with icache := (s.fill side a d).icache, dcache := (s.fill side a d).dcache } := by
  unfold State.fill
  split
  · rfl
  · cases side <;> rfl

theorem quiet_fill {s : State} (h : Quiet s) (side : CacheSide) (a d : Word) : Quiet (s.fill side a d) :=
  h.of_eq (by rw [fill_rest]) (by rw [fill_rest])

section
variable {s : State} (h : Quiet s)
include h

theorem quiet_refill {a : Word} (ha : unusedSpace a = false) (sized : Bool) (side : CacheSide) :
    (s.refill sized side a).All Quiet := by
  unfold State.refill
  split
  · exact Act.all_bind (quiet_busReadBlock h ha _) fun _ _ ht =>
      quiet_fill (quiet_fill (quiet_fill (quiet_fill ht _ _ _) _ _ _) _ _ _) _ _ _
  · exact Act.all_bind (quiet_busRead h ha sized _) fun _ _ ht => quiet_fill ht _ _ _

theorem quiet_cacheRead (side : CacheSide) (a : Word) {miss : State → Act Word}
    (hm : ∀ t, Quiet t → (miss t).All Quiet) : (s.cacheRead side a miss).All Quiet := by
  unfold State.cacheRead
  split
  · exact h
  · exact hm s h
  · split
    · exact h.free rfl
    · exact hm _ (h.free rfl)

theorem quiet_loadWord (va : Word) (length : BitVec 2) : (s.loadWord va length).All Quiet := by
  unfold State.loadWord
  split
  · exact h
  · rename_i pa uncached ht
    have hu : unusedSpace (wordAddr pa) = false := (unusedSpace_wordAddr pa).trans (translate_used ht)
    split
    · refine h.of_eq ?_ ?_ <;> unfold State.isolatedLoad <;> dsimp only <;> split <;> split <;> rfl
    · split
      · exact quiet_busRead h hu _ _
      · exact quiet_cacheRead h _ _ fun t ht => quiet_refill ht hu _ _

theorem quiet_storeLanes (va : Word) (mask : BitVec 4) (w : Word) : (s.storeLanes va mask w).All Quiet := by
  unfold State.storeLanes
  split
  · exact h
  · rename_i pa uncached ht
    have hu := fun l => (unusedSpace_shown pa l).trans (translate_used ht)
    split
    · show Quiet (s.putUnknown s.dataSide _ _)
      cases s.dataSide <;> exact h.of_eq rfl rfl
    · dsimp only
      split
      · exact quiet_appendWrite (h.of_eq (by rw [dropAlias_rest]) (by rw [dropAlias_rest])) (hu _)
      · exact quiet_appendWrite (h.of_eq (by rw [dcacheStore_rest]) (by rw [dcacheStore_rest])) (hu _)

theorem quiet_fetchFrom (sized : Bool) (va : Word) : (s.fetchFrom sized va).All Quiet := by
  have h1 := h.free (useCp0_free s fun v => v.sr.kuc)
  have h2 := fun a => h1.free (storesAhead_spec _ a).2
  unfold State.fetchFrom
  dsimp only
  split
  · exact h
  · split
    · exact h1
    · rename_i pa uncached ht
      have hu := translate_used ht
      split
      · exact Act.all_bind (quiet_busRead (h2 pa) hu _ _) fun _ _ hv => hv
      · split
        · trivial
        · exact quiet_cacheRead ((h2 pa).free (useCp0_free _ _)) _ _ fun t ht =>
            Act.all_bind (quiet_refill ht hu _ _) fun _ _ hv =>
              hv.of_eq (by rw [refillBefore_rest]) (by rw [refillBefore_rest])

/-! ### The step -/

theorem quiet_takeException (x : Exc) : Quiet (s.takeException x) := by
  have aborted : ∀ (t : State) va sized, Quiet t → Quiet (t.fetchAborted va sized) := fun t va sized ht => by
    have hf := quiet_fetchFrom ht sized va
    unfold State.fetchAborted
    cases hw : t.fetchFrom sized va with
    | done w u | raise w u | stuck u =>
      rw [hw] at hf
      exact hf
    | stall read | refuse r => exact ht
  unfold State.takeException State.abortFetches
  generalize (s.wordsAhead x).zip s.inputs.abortedFetches = fetches
  refine Quiet.of_eq (s := fetches.foldl _ s) ?_ (enter_writeBuffer _ x) (enter_trace _ x)
  induction fetches generalizing s with
  | nil => exact h
  | cons f rest ih => exact ih (aborted s f.1 f.2 h)

theorem quiet_sample : Quiet s.sample := by
  obtain ⟨n, hn⟩ := drain_eq_biuWriteN s.environment.applyClearPins
  unfold State.sample
  rw [hn]
  exact quiet_biuWriteN n (h.of_eq (environment_writeBuffer s) (environment_trace s))

theorem exec_quiet {i : Instr} {t : State} (he : exec i s = .next t) : Quiet t := by
  have split : ∀ {α : Type} {u : State} {a : Act α} {D Q : State → Prop}, a.Splits u D Q → a.All Quiet →
      a.Splits u Quiet Quiet := fun {_ _ a _ _} hs ha => by
    cases a with
    | done x t | stuck t => exact ha
    | raise x t | stall read | refuse r => exact hs
  rcases exec_splits (D := Quiet) (Q := Quiet) he (fun u hu => h.of_eq (by rw [hu]) (by rw [hu]))
    (fun u r v hu => hu.of_eq (by simp) (by simp))
    (fun u va length hu => split (splits_loadWord u va length) (quiet_loadWord (h.free hu) va length))
    (fun u base offset mask w hu _ _ =>
      split (splits_storeLanes u _ mask w) (quiet_storeLanes (h.free hu) _ mask w)) with
    ⟨r, u, hu, rfl⟩ | ⟨x, u, hu, rfl⟩ | ⟨read, rfl⟩ | hw
  · exact hu.of_eq rfl rfl
  · exact quiet_takeException (h.free hu) x
  · exact h.of_eq rfl rfl
  · exact hw

/-- No step shows an address of the unused space on the bus. -/
theorem step_quiet {t : State} (he : step s = .next t) : Quiet t := by
  have hreset : ∀ r, Quiet (s.environment.resetBy r) := fun r => ⟨nofun, by
    show ∀ c ∈ s.environment.trace, _
    rw [environment_trace]
    exact h.trace⟩
  have hphase := meets_fetchPhase (P := Quiet) (fun t u ht hu => ht.free hu) (fun t x ht => quiet_takeException ht x)
    (fun t read ht => ht.of_eq rfl rfl) (fun t ht => quiet_fetchFrom ht _ _) (quiet_sample h) hreset
  unfold step at he
  cases hp : s.fetchPhase with
  | run i u =>
    rw [hp] at he hphase
    exact exec_quiet hphase he
  | ended o =>
    rw [hp] at he hphase
    exact hphase t he

end

/-! ### The three ranges -/

theorem segment_append (seg : BitVec 3) (x : BitVec 29) : (seg ++ x : Word).extractLsb' 29 3 = seg := by
  rw [BitVec.extractLsb'_append_eq_of_le (by omega)]
  exact BitVec.extractLsb'_eq_self

theorem within_append (seg : BitVec 3) (x : BitVec 29) : (seg ++ x : Word).extractLsb' 0 29 = x := by
  rw [BitVec.extractLsb'_append_eq_of_add_le (by omega)]
  exact BitVec.extractLsb'_eq_self

theorem translate_kuseg (user : Bool) (x : BitVec 29) : translate user (0#3 ++ x) = some (0#3 ++ x, false) := by
  have hu : (0#3 ++ x : Word).getLsbD 31 = false := by rw [BitVec.getLsbD_append]; rfl
  unfold translate
  rw [hu, Bool.and_false, segment_append]
  rfl

theorem translate_kseg0 (x : BitVec 29) : translate false (4#3 ++ x) = some (0#3 ++ x, false) := by
  unfold translate
  rw [segment_append, within_append]
  rfl

theorem translate_kseg1 (x : BitVec 29) : translate false (5#3 ++ x) = some (0#3 ++ x, true) := by
  unfold translate
  rw [segment_append, within_append]
  rfl

/-- Settles O16: the ranges are segments of the translation, no translation leads to the unused space, and so no step
drives it. -/
theorem busNeverDrivesUnusedSpace : Obligations.BusNeverDrivesUnusedSpace := by
  refine ⟨fun x => ⟨fun user => ?_, ?_, ?_⟩, fun user uncached va pa => translate_used, fun s t hs hq h => ?_⟩
  · exact translate_kuseg user x
  · exact translate_kseg0 x
  · exact translate_kseg1 x
  · exact (step_quiet ⟨fun e he => (hs.entries e he).2, hq⟩ h).trace

end Sys2Proof.Machine
end

section
/-! PROOFS. The BIU performs the oldest entry of the write buffer (20_memory.md R77, R93, R103; 50_bus_interface.md
R335). -/

namespace Sys2Proof.Machine

/-- On the 16-bit bus an entry that starts in the upper half writes the lanes of that half only (R335). -/
theorem busMask_lane (p : ModePins) (e : WriteEntry) (a : Word) :
    (busMask p e).getLsbD (laneOf p.bigEndianMem (a.toNat % 4)) = true ↔
      e.mask.getLsbD (laneOf p.bigEndianMem (a.toNat % 4)) = true ∧
        ¬ (p.sbussiz = true ∧ e.addr.getLsbD 1 = true ∧ a.getLsbD 1 = false) := by
  have hupper : (upperHalfMask p.bigEndianMem).getLsbD (laneOf p.bigEndianMem (a.toNat % 4)) = a.getLsbD 1 := by
    have hbit : a.getLsbD 1 = decide (2 ≤ a.toNat % 4) := by
      rw [BitVec.getLsbD, Nat.testBit_eq_decide_div_mod_eq, decide_eq_decide]
      omega
    have hm : a.toNat % 4 < 4 := Nat.mod_lt _ (by decide)
    rw [hbit]
    generalize a.toNat % 4 = k at hm
    cases p.bigEndianMem <;> interval_cases k <;> rfl
  unfold busMask
  by_cases hc : p.sbussiz = true ∧ e.addr.getLsbD 1 = true
  · rw [if_pos (by simp [hc]), BitVec.getLsbD_and, hupper]
    simp [hc]
  · rw [if_neg (by simpa using hc)]
    tauto

/-- The bytes that a buffered write leaves in memory (R77, R93). -/
theorem read_landed (s : State) (e : WriteEntry) (hm : s.mem.wf) (a : Word) :
    (landed s.mode s.platform e s.mem).read a.toNat =
      if wordAddr a = wordAddr e.addr ∧ s.answer a = .memory ∧
          (busMask s.mode e).getLsbD (laneOf s.mode.bigEndianMem (a.toNat % 4)) = true then
        laneByte e.data (laneOf s.mode.bigEndianMem (a.toNat % 4))
      else s.mem.read a.toNat := by
  have hw : Wrote { s with writeBuffer := [] } { s with writeBuffer := [], mem := landed s.mode s.platform e s.mem }
      e.addr (busMask s.mode e) e.data := ⟨rfl, rfl⟩
  exact hw.byte hm a

/-- Settles O54: the three clauses are the three cases of the BIU's write. -/
theorem biuPerformsOldestWrite : Obligations.BiuPerformsOldestWrite := by
  intro s e rest hm hbuf
  rcases biuWrite_cases s with ⟨hs, hc⟩ | ⟨f, r, hf, hfree, ha, hs⟩ | ⟨f, r, hf, hfree, ha, hs⟩
  · have hbusy : s.bus ≠ .free := hc.resolve_left (by simp [hbuf])
    exact ⟨fun h => absurd h hbusy, fun h => absurd h hbusy, fun _ => hs⟩
  all_goals obtain ⟨rfl, rfl⟩ := List.cons.inj (hbuf.symm.trans hf)
  · refine ⟨fun _ h => absurd ha h, fun _ _ => ?_, fun h => absurd hfree h⟩
    rw [hs]
  · refine ⟨fun _ _ => ?_, fun _ h => absurd h ha, fun h => absurd hfree h⟩
    rw [hs]
    refine ⟨rfl, hfree, fun a i hi => ?_⟩
    subst hi
    simp only [← busMask_lane]
    exact read_landed s e hm a

end Sys2Proof.Machine
end

section
/-! PROOFS. Cached loads (20_memory.md R95, R98, R101): what a load makes of the word that it finds, and a hit and a
miss in either array. -/

namespace Sys2Proof.Machine

/-! ### What a load makes of the word that it finds -/

/-- LB, LBU, LH, LHU and LW: each is a load of a size and an extension, allowed where its address is aligned, and these
make of every word what the statements say (R90, R151 to R155). -/
theorem load_extends {i : Instr} {base rt : Reg} {offset : Half}
    (hi : i ∈ [Instr.lb base rt offset, .lbu base rt offset, .lh base rt offset, .lhu base rt offset,
      .lw base rt offset]) :
    ∃ n extend, (∀ s, exec i s = s.finish (s.load n extend base rt offset)) ∧
      (∀ va, i ∈ loadInstrsAt base rt offset va ↔ aligned n va = true) ∧
      ∀ big va w old, aligned n va = true → extend (selectLoaded n big va w) = loadedFrom big va w old i := by
  have byte : ∀ big va w, selectByte big va w = laneByte w (if big then 3 - va.toNat % 4 else va.toNat % 4) :=
    fun big va w => by rw [← byteLane_eq]; rfl
  have half : ∀ big va w, aligned .half va = true → selectHalf big va w =
      laneByte w ((if big then 2 - va.toNat % 4 else va.toNat % 4) + 1) ++
        laneByte w (if big then 2 - va.toNat % 4 else va.toNat % 4) := fun big va w ha => by
    rw [← halfLane_eq big va (by simpa [aligned] using ha)]
    exact laneByte_pair w _
  have low8 : ∀ b : Byte, sextByte (b.setWidth 32) = b.signExtend 32 := fun b => by
    unfold sextByte
    rw [BitVec.extractLsb'_setWidth_of_le (by decide), BitVec.extractLsb'_eq_self]
  have low16 : ∀ h : Half, sextHalf (h.setWidth 32) = h.signExtend 32 := fun h => by
    unfold sextHalf
    rw [BitVec.extractLsb'_setWidth_of_le (by decide), BitVec.extractLsb'_eq_self]
  have athalf : ∀ va, i ∈ [Instr.lh base rt offset, .lhu base rt offset] →
      (i ∈ loadInstrsAt base rt offset va ↔ aligned .half va = true) := fun va h => by
    simp only [List.mem_cons, List.not_mem_nil, or_false] at h
    cases h0 : va.getLsbD 0 <;> rcases h with rfl | rfl <;>
      simp [loadInstrsAt, aligned, h0, -BitVec.getLsbD_eq_getElem]
  simp only [List.mem_cons, List.not_mem_nil, or_false] at hi
  rcases hi with rfl | rfl | rfl | rfl | rfl
  · exact ⟨.byte, sextByte, fun _ => rfl, fun va => by simp [loadInstrsAt, aligned], fun big va w old _ =>
      (low8 _).trans (by rw [byte]; rfl)⟩
  · exact ⟨.byte, id, fun _ => rfl, fun va => by simp [loadInstrsAt, aligned], fun big va w old _ =>
      congrArg (BitVec.setWidth 32) (byte big va w)⟩
  · exact ⟨.half, sextHalf, fun _ => rfl, fun va => athalf va (by simp), fun big va w old ha =>
      (low16 _).trans (by rw [half _ _ _ ha]; rfl)⟩
  · exact ⟨.half, id, fun _ => rfl, fun va => athalf va (by simp), fun big va w old ha =>
      congrArg (BitVec.setWidth 32) (half big va w ha)⟩
  · refine ⟨.word, id, fun _ => rfl, fun va => ?_, fun _ _ _ _ _ => rfl⟩
    by_cases h0 : va.extractLsb' 0 2 = 0#2 <;> simp [loadInstrsAt, aligned, h0]

/-- Every load that may use its address: `LoadWord`, and the register takes what the statements say of the word. -/
theorem exec_load {s : State} {base rt : Reg} {offset : Half} {va : Word} (hb : s.ldSlot ≠ some base)
    (hm : s.afterMtc0 = none) (hva : va = s.readGpr base + offset.signExtend 32) {i : Instr}
    (hi : i ∈ loadInstrsAt base rt offset va) :
    ∃ length, ∀ w t, s.loadWord va length = .done w t →
      exec i s = .next ((t.setGpr rt (loadedFrom s.bigEndianCPU va w (s.readGpr rt) i)).retire
        { load := some rt, memory := true }) := by
  have hcases : i ∈ [Instr.lwl base rt offset, .lwr base rt offset] ∨ i ∈ [Instr.lb base rt offset,
      .lbu base rt offset, .lh base rt offset, .lhu base rt offset, .lw base rt offset] := by
    unfold loadInstrsAt at hi
    split at hi <;> split at hi <;>
      simp only [List.mem_cons, List.mem_append, List.not_mem_nil, or_false] at hi ⊢ <;> tauto
  rcases hcases with hpart | hword
  · obtain ⟨length, merge, he, hmerge⟩ := loadPart_form hpart
    refine ⟨length (byteLane s.bigEndianCPU va), fun w t hl => ?_⟩
    rw [he]
    unfold State.loadPart
    rw [access_ok hb hva hm, hl, ← hmerge]
    rfl
  · obtain ⟨n, extend, he, hat, hext⟩ := load_extends hword
    have ha := (hat va).1 hi
    refine ⟨n.accessType, fun w t hl => ?_⟩
    rw [he]
    unfold State.load State.memRead
    rw [access_ok hb hva hm, if_pos ha, hl, ← hext _ _ _ _ ha]
    rfl

/-! ### Look-up -/

@[simp] theorem icacheIndex_wordAddr (a : Word) : icacheIndex (wordAddr a) = icacheIndex a := by
  rw [icacheIndex_toNat, icacheIndex_toNat, wordAddr_toNat]
  omega

@[simp] theorem dcacheIndex_wordAddr (a : Word) : dcacheIndex (wordAddr a) = dcacheIndex a := by
  rw [dcacheIndex_toNat, dcacheIndex_toNat, wordAddr_toNat]
  omega

@[simp] theorem icacheTag_wordAddr (a : Word) : icacheTag (wordAddr a) = icacheTag a := by
  apply BitVec.eq_of_toNat_eq
  rw [icacheTag_toNat, icacheTag_toNat, wordAddr_toNat]
  omega

@[simp] theorem dcacheTag_wordAddr (a : Word) : dcacheTag (wordAddr a) = dcacheTag a := by
  apply BitVec.eq_of_toNat_eq
  rw [dcacheTag_toNat, dcacheTag_toNat, wordAddr_toNat]
  omega

theorem dataSide_of_unswapped {s : State} (h : s.sr.swc = false) : s.dataSide = .data := by
  unfold State.dataSide
  rw [h]
  rfl

theorem dataSide_of_swapped {s : State} (h : s.sr.swc = true) : s.dataSide = .instr := if_pos h

/-- A look-up finds the same at every address of a word. -/
theorem look_wordAddr (s : State) (side : CacheSide) (a : Word) : s.look side (wordAddr a) = s.look side a := by
  unfold State.look
  cases side <;> simp only [icacheIndex_wordAddr, dcacheIndex_wordAddr, icacheTag_wordAddr, dcacheTag_wordAddr]

theorem lookEntry_hit {n : Nat} (tag : BitVec n) (d : Word) : lookEntry (some (.line true tag d)) tag = .hit d := by
  simp [lookEntry]

theorem look_data {s : State} (hc : s.inputs.dcclr = false) (a : Word) :
    s.look .data a = lookEntry (s.dcacheEntry a) (dcacheTag a) := by
  unfold State.look State.clearing
  rw [if_neg (Bool.eq_false_iff.1 hc)]
  rfl

theorem look_missesData {s : State} {a : Word} (h : s.MissesData a) : s.look .data a = .miss := by
  cases hc : s.inputs.dcclr
  case true => exact if_pos hc
  case false =>
    rw [look_data hc]
    rcases h with h | h | ⟨valid, tag, w, h, hv⟩
    · simp [hc] at h
    · rw [h]
      rfl
    · rw [h]
      unfold lookEntry dcacheTag
      rcases hv with hv | hv <;> simp [hv]

/-! ### Cached loads -/

/-- What a refill from `s` leaves of the state `u` after its bus cycles: the block of four words, or the one word,
filled in (R95). -/
def State.refilledFrom (s u : State) (side : CacheSide) (a : Word) (w : Nat → Word) (v : Word) : State :=
  if s.blockRefill side then u.fillBlock side a w else u.fill side a v

section
variable {s u : State} (h : BusOnly s u) (a : Word) (w : Nat → Word) (v : Word)
include h

theorem cacheOnly_refilledFrom (side : CacheSide) : CacheOnly s (s.refilledFrom u side a w v) := by
  unfold State.refilledFrom
  split
  · exact cacheOnly_fillBlock h.cacheOnly _ _ _
  · exact cacheOnly_fill h.cacheOnly _ _ _

theorem refilledFrom_icache : (s.refilledFrom u .data a w v).icache = s.icache := by
  have hu : u.icache = s.icache := by rw [h.rest]
  unfold State.refilledFrom
  split
  · exact (fillBlock_icache _ _ _).trans hu
  · exact (fill_icache _ _ _).trans hu

theorem refilledFrom_dcache : (s.refilledFrom u .instr a w v).dcache = s.dcache := by
  have hu : u.dcache = s.dcache := by rw [h.rest]
  unfold State.refilledFrom
  split
  · exact (fillBlock_dcache _ _ _).trans hu
  · exact (fill_dcache _ _ _).trans hu

end

section
variable {s : State} {va : Word} (hma : s.mayAccess va = true) (hk : inKseg1 va = false) (hisc : s.sr.isc = false)
include hma hk hisc

theorem loadWord_cached (length : BitVec 2) :
    s.loadWord va length = s.cacheLoad s.inputs.dataSizrq s.dataSide (wordAddr (physical va)) := by
  unfold State.loadWord
  rw [translate_may hma]
  simp only [hisc, hk, Bool.false_eq_true, if_false]

/-- A hit answers the entry's word and does nothing (R95). -/
theorem loadWord_hit {d : Word} (h : s.look s.dataSide (physical va) = .hit d) (length : BitVec 2) :
    s.loadWord va length = .done d s := by
  rw [loadWord_cached hma hk hisc]
  unfold State.cacheLoad State.cacheRead
  rw [look_wordAddr, h]

/-- A miss that is answered: the word of memory, and the refill of its array, after what the bus did (R95). -/
theorem loadWord_miss (h : s.look s.dataSide (physical va) = .miss)
    (hr : s.Readable (s.blockRefill s.dataSide) va) (length : BitVec 2) :
    ∃ (w : Nat → Word) (u : State), BusOnly s u ∧
      s.loadWord va length = .done (s.seenWord (wordAddr (physical va)))
        (s.refilledFrom u s.dataSide (wordAddr (physical va)) w (s.seenWord (wordAddr (physical va)))) ∧
      ∀ k < 4, s.backed (blockWord (wordAddr (physical va)) k) = true →
        w k = s.seenWord (blockWord (wordAddr (physical va)) k) := by
  obtain ⟨v, w, u, hb, hd, hv, hw⟩ := refill_spec s.inputs.dataSizrq s.dataSide (wordAddr (physical va)) hr.ready
    (refillAnswered_of s.dataSide hr hk)
  have hseen := hv (by rw [backed_wordAddr]; exact hr.backed)
  rw [wordAddr_wordAddr] at hseen
  subst hseen
  refine ⟨w, u, hb, ?_, hw⟩
  rw [loadWord_cached hma hk hisc]
  unfold State.cacheLoad State.cacheRead
  rw [look_wordAddr, h]
  exact hd

end

/-- The end of a load keeps the instruction cache that it finds. -/
theorem loadEnd_icache (u : State) (rt : Reg) (v : Word) (r : Retire) (c : List (Nat × CacheEntry 20)) :
    { (u.setGpr rt v).retire r with icache := c } = (({ u with icache := c } : State).setGpr rt v).retire r := by
  unfold State.setGpr
  split <;> rfl

theorem CacheOnly.with_icache {s t : State} (h : CacheOnly s t) (c : List (Nat × CacheEntry 20)) :
    CacheOnly s { t with icache := c } :=
  ⟨by rw [h.rest], h.seen, h.buffer⟩

/-- `loads_retire` where the instruction cache may have changed too. -/
theorem loads_retire_icache {s t : State} (rt : Reg) (v : Word) (h : CacheOnly s t) :
    Loads s { (t.setGpr rt v).retire { load := some rt, memory := true } with icache := s.icache } rt v := by
  rw [loadEnd_icache]
  exact loads_retire rt v (h.with_icache s.icache) rfl

/-- Settles O50: a load is `LoadWord`, which hits or misses in the array that data accesses use. -/
theorem cachedLoads : Obligations.CachedLoads := by
  intro s base rt offset va hb hm hva hma hk hisc i hi
  obtain ⟨length, hrun⟩ := exec_load hb hm hva hi
  have hpa := wordAddr_wordAddr (physical va)
  refine ⟨fun d hd => ?hit, fun hsw hmiss hr => ?missData, fun hsw hmiss hr => ?missInstr⟩
  case hit =>
    have hlook : s.look s.dataSide (physical va) = .hit d := by
      rcases hd with ⟨hsw, hc, hline⟩ | ⟨hsw, hc, hline⟩
      · rw [dataSide_of_unswapped hsw, look_data hc, hline, lookEntry_hit]
      · rw [dataSide_of_swapped hsw, look_icache rfl hc, hline, lookEntry_hit]
    have hl := loads_retire rt (loadedFrom s.bigEndianCPU va d (s.readGpr rt) i) (cacheOnly_refl s) rfl
    refine ⟨_, hrun d s (loadWord_hit hma hk hisc hlook length), hl.result, ?_, hl.frame.hiLo, hl.frame.cp0,
      hl.frame.pins, hl.frame.completes⟩
    constructor <;> simp
  case missData =>
    have hside := dataSide_of_unswapped hsw
    obtain ⟨w, u, hbus, hl, hw⟩ := loadWord_miss hma hk hisc (by rw [hside]; exact look_missesData hmiss)
      (by rw [hside]; exact hr) length
    rw [hside] at hl
    refine ⟨_, hrun _ _ hl, loads_retire rt _ (cacheOnly_refilledFrom hbus ..) (refilledFrom_icache hbus ..), ?_⟩
    rw [retire_dcache, setGpr_dcache]
    exact refilled_dcache hbus hpa (fun _ => by rw [hpa]) hw
  case missInstr =>
    have hside := dataSide_of_swapped hsw
    obtain ⟨w, u, hbus, hl, hw⟩ := loadWord_miss hma hk hisc (by rw [hside]; exact look_missesInstr rfl hmiss)
      (by rw [hside]; exact hr) length
    rw [hside] at hl
    refine ⟨_, hrun _ _ hl, loads_retire_icache rt _ (cacheOnly_refilledFrom hbus ..), ?_, ?_⟩
    · rw [retire_dcache, setGpr_dcache]
      exact refilledFrom_dcache hbus _ w _
    · rw [retire_icache, setGpr_icache]
      exact refilled_icache s.Finds (fun _ => rfl) hbus hpa (fun _ => by rw [hpa]) hw

end Sys2Proof.Machine
end

section
/-! PROOFS. What a store does to the array that data accesses use (20_memory.md R96, R101). -/

namespace Sys2Proof.Machine

/-! ### One entry of a cache, and a store -/

/-- A cache after a store of lanes to a known entry (R96): the part of `State.dcacheStore` that is the same for both
arrays (`dcacheStore_unswapped`, `dcacheStore_swapped`). -/
def storedCache {n : Nat} (stpart : Bool) (k : Nat) (tag : BitVec n) (lanes : BitVec 4 × Word)
    (c : List (Nat × CacheEntry n)) : List (Nat × CacheEntry n) :=
  if lanes.1 = 0b1111 then tableSet k (some (.line true tag lanes.2)) c
  else if stpart then
    match lookEntry (tableGet k c) tag with
    | .hit old => tableSet k (some (.line true tag (mergeLanes old lanes.1 lanes.2))) c
    | _ => c
  else tableSet k (invalidEntry (tableGet k c)) c

theorem storedCache_others {n : Nat} (stpart : Bool) {j k : Nat} (tag : BitVec n) (lanes : BitVec 4 × Word)
    (c : List (Nat × CacheEntry n)) (h : j ≠ k) : tableGet j (storedCache stpart k tag lanes c) = tableGet j c := by
  unfold storedCache
  split
  · exact tableGet_set_ne _ _ h
  · split
    · split
      · exact tableGet_set_ne _ _ h
      · rfl
    · exact tableGet_set_ne _ _ h

theorem maskedLane_all (lanes : BitVec 4 × Word) : (∀ j < 4, maskedLane lanes j ≠ none) ↔ lanes.1 = 0b1111 := by
  have key : ∀ m : BitVec 4, (∀ j < 4, m.getLsbD j = true) ↔ m = 0b1111 := by decide
  rw [← key]
  refine forall₂_congr fun j _ => ?_
  unfold maskedLane
  split <;> simp_all

theorem maskedLane_part (lanes : BitVec 4 × Word) : (∃ j < 4, maskedLane lanes j = none) ↔ lanes.1 ≠ 0b1111 := by
  rw [Ne, ← maskedLane_all]
  push Not
  rfl

/-- The entry that a store selects (R96). -/
theorem storedLine_storedCache {n : Nat} (stpart : Bool) (k : Nat) (tag : BitVec n) (lanes : BitVec 4 × Word)
    (c : List (Nat × CacheEntry n)) :
    StoredLine stpart tag (maskedLane lanes) (tableGet k c) (tableGet k (storedCache stpart k tag lanes c)) := by
  constructor
  case whole =>
    intro hall
    have hm := (maskedLane_all lanes).1 hall
    refine ⟨lanes.2, ?_, fun j hj => ?_⟩
    · unfold storedCache
      rw [if_pos hm, tableGet_set_some]
    · have hbit : ∀ j < 4, (0b1111#4).getLsbD j = true := by decide
      exact if_pos (hm ▸ hbit j hj)
  all_goals
    intro hpart
    have hm := (maskedLane_part lanes).1 hpart
    unfold storedCache
    rw [if_neg hm]
  case invalidated =>
    intro hst valid tag' d hold
    rw [hst, if_neg Bool.false_ne_true, hold]
    exact tableGet_set_some ..
  case missed =>
    intro hst valid tag' d hold hv
    have hlook : lookEntry (tableGet k c) tag = .miss := by
      rw [hold]
      rcases hv with hv | hv <;> simp [lookEntry, hv]
    rw [if_pos hst, hlook]
  case merged =>
    intro hst d hold
    refine ⟨mergeLanes d lanes.1 lanes.2, ?_, fun j hj => ?_⟩
    · rw [if_pos hst, hold, lookEntry_hit]
      exact tableGet_set_some ..
    · rw [laneByte_mergeLanes _ _ _ _ hj]
      unfold maskedLane
      split <;> rfl
  case unlisted =>
    intro hold
    rw [hold]
    split
    · exact hold
    · exact (congrArg (tableGet k) (tableSet_unlisted hold)).trans hold

/-! ### `DCacheStore` -/

section
variable {s : State} (a : Word) (mask : BitVec 4) (w : Word)

/-- With no clear, a store acts on the data cache (R96). -/
theorem dcacheStore_unswapped (h : s.sr.swc = false) (hc : s.inputs.dcclr = false) :
    (s.dcacheStore a mask w).2.icache = s.icache ∧ (s.dcacheStore a mask w).2.dcache =
      storedCache s.mode.stpart (dcacheIndex a) (dcacheTag a) (mask, w) s.dcache := by
  have hlook : s.look .data a = lookEntry (tableGet (dcacheIndex a) s.dcache) (dcacheTag a) := look_data hc a
  have hcl : s.clearing .data = false := hc
  unfold State.dcacheStore storedCache
  dsimp only
  rw [dataSide_of_unswapped h, hlook, hcl]
  split
  · exact ⟨rfl, rfl⟩
  · split
    · cases lookEntry (tableGet (dcacheIndex a) s.dcache) (dcacheTag a) with
      | hit old => exact ⟨rfl, rfl⟩
      | miss => exact ⟨rfl, rfl⟩
      | unknown =>
        dsimp only
        split <;> exact ⟨rfl, rfl⟩
    · exact ⟨rfl, rfl⟩

/-- With the caches swapped and no clear, a store acts on the instruction-cache array (R101). -/
theorem dcacheStore_swapped (h : s.sr.swc = true) (hc : s.inputs.icclr = false) :
    (s.dcacheStore a mask w).2.dcache = s.dcache ∧ (s.dcacheStore a mask w).2.icache =
      storedCache s.mode.stpart (icacheIndex a) (icacheTag a) (mask, w) s.icache := by
  have hlook : s.look .instr a = lookEntry (tableGet (icacheIndex a) s.icache) (icacheTag a) := look_icache rfl hc a
  have hcl : s.clearing .instr = false := hc
  unfold State.dcacheStore storedCache
  dsimp only
  rw [dataSide_of_swapped h, hlook, hcl]
  split
  · exact ⟨rfl, rfl⟩
  · split
    · cases lookEntry (tableGet (icacheIndex a) s.icache) (icacheTag a) with
      | hit old => exact ⟨rfl, rfl⟩
      | miss => exact ⟨rfl, rfl⟩
      | unknown =>
        dsimp only
        split <;> exact ⟨rfl, rfl⟩
    · exact ⟨rfl, rfl⟩

end

/-! ### Stores -/

/-- Every store that may use its address, in a state in which its register was read: its lanes are those that the
statements give, and where `StoreLanes` is done so is the store. -/
theorem exec_store {s : State} {base rt : Reg} {offset : Half} {va : Word} (hb : s.ldSlot ≠ some base)
    (hm : s.afterMtc0 = none) (hva : va = s.readGpr base + offset.signExtend 32) {i : Instr}
    (hi : i ∈ storesAt base rt offset va) :
    ∃ lanes : BitVec 4 × Word,
      (∀ j < 4, storedLane s.bigEndianCPU va (s.readSrc rt).1 i j = maskedLane lanes j) ∧
      ∀ t, (s.readSrc rt).2.storeLanes va lanes.1 lanes.2 = .done () t →
        exec i s = .next (t.retire { store := true, memory := true, overwrote := s.overwritten va }) := by
  have hform : i ∈ [Instr.sb base rt offset, .sh base rt offset, .sw base rt offset, .swl base rt offset,
      .swr base rt offset] := by
    unfold storesAt at hi
    split at hi <;> split at hi <;>
      simp only [List.mem_cons, List.mem_append, List.not_mem_nil, or_false] at hi ⊢ <;> tauto
  obtain ⟨n, lanes, he, hat, hlanes⟩ := store_form hform
  have ha := (hat va).1 hi
  refine ⟨lanes s.bigEndianCPU va (s.readSrc rt).1, (hlanes _ _ _ ha).2, fun t ht => ?_⟩
  rw [he]
  unfold State.storeBy
  rw [access_ok hb hva hm, if_pos ha, ht]
  rfl

/-- A store that goes through the caches and finds room: they are as `DCacheStore` leaves them. -/
theorem storeLanes_cached {s : State} {va : Word} (hma : s.mayAccess va = true) (hk : inKseg1 va = false)
    (hisc : s.sr.isc = false) (hroom : s.HasRoom) (mask : BitVec 4) (w : Word) :
    ∃ t, s.storeLanes va mask w = .done () t ∧
      t.icache = (s.dcacheStore (wordAddr (physical va)) mask w).2.icache ∧
      t.dcache = (s.dcacheStore (wordAddr (physical va)) mask w).2.dcache := by
  have hrest := dcacheStore_rest s (wordAddr (physical va)) mask w
  unfold State.storeLanes
  rw [translate_may hma]
  simp only [hisc, hk, Bool.false_eq_true, if_false]
  generalize s.dcacheStore (wordAddr (physical va)) mask w = r at hrest
  obtain ⟨t, ht, hic, hdc, -⟩ := appendWrite_tail (s := r.2)
    { addr := (physical va).extractLsb' 2 30 ++ lowestOffset s.mode.bigEndianMem mask, mask := r.1.1, data := r.1.2 }
    (by rw [hrest]; exact hroom)
  exact ⟨t, ht, hic, hdc⟩

/-- `StoredLine` is about the lanes below 4 only. -/
theorem StoredLine.congr {n : Nat} {stpart : Bool} {tag : BitVec n} {f g : Nat → Option Byte}
    {old new : Option (CacheEntry n)} (h : StoredLine stpart tag g old new) (hfg : ∀ j < 4, f j = g j) :
    StoredLine stpart tag f old new := by
  have hpart : (∃ j < 4, f j = none) → ∃ j < 4, g j = none := fun ⟨j, hj, hn⟩ => ⟨j, hj, hfg j hj ▸ hn⟩
  refine ⟨fun hall => ?_, fun hp => h.invalidated (hpart hp), fun hp => h.missed (hpart hp), fun hp hst d hold => ?_,
    fun hp => h.unlisted (hpart hp)⟩
  · obtain ⟨d, hd, hl⟩ := h.whole fun j hj => hfg j hj ▸ hall j hj
    exact ⟨d, hd, fun j hj => (hfg j hj).trans (hl j hj)⟩
  · obtain ⟨e, he, hl⟩ := h.merged (hpart hp) hst d hold
    exact ⟨e, he, fun j hj => (hl j hj).trans (by rw [hfg j hj])⟩

/-- Settles O51: a store leaves its array as `storedCache` says, and the other as it was. -/
theorem cachedStores : Obligations.CachedStores := by
  intro s base rt offset va hb hm hva hma hk hisc hroom i hi
  have hu := readSrc_free s rt
  obtain ⟨lanes, hlanes, hrun⟩ := exec_store hb hm hva hi
  obtain ⟨t, ht, hic, hdc⟩ := storeLanes_cached ((free_mayAccess hu va).trans hma) hk (by simp [hisc])
    (free_hasRoom hu hroom) lanes.1 lanes.2
  refine ⟨(s.readSrc rt).1, _, reads_readSrc s rt, hrun t ht, fun hsw hc => ?data, fun hsw hc => ?instr⟩
  case data =>
    obtain ⟨h1, h2⟩ := dcacheStore_unswapped (s := (s.readSrc rt).2) (wordAddr (physical va)) lanes.1 lanes.2
      (by simp [hsw]) (by simp [hc])
    rw [h1] at hic
    rw [h2] at hdc
    simp only [readSrc_icache, readSrc_dcache, readSrc_mode, dcacheIndex_wordAddr, dcacheTag_wordAddr] at hic hdc
    refine ⟨hic, StoredLine.congr ?_ hlanes, fun k hne => ?_⟩
    · unfold State.dcacheEntry
      rw [retire_dcache, hdc]
      exact storedLine_storedCache ..
    · rw [retire_dcache, hdc]
      exact storedCache_others _ _ _ _ hne
  case instr =>
    obtain ⟨h1, h2⟩ := dcacheStore_swapped (s := (s.readSrc rt).2) (wordAddr (physical va)) lanes.1 lanes.2
      (by simp [hsw]) (by simp [hc])
    rw [h1] at hdc
    rw [h2] at hic
    simp only [readSrc_icache, readSrc_dcache, readSrc_mode, icacheIndex_wordAddr, icacheTag_wordAddr] at hic hdc
    refine ⟨hdc, StoredLine.congr ?_ hlanes, fun k hne => ?_⟩
    · unfold State.icacheEntry
      rw [retire_icache, hic]
      exact storedLine_storedCache ..
    · rw [retire_icache, hic]
      exact storedCache_others _ _ _ _ hne

end Sys2Proof.Machine
end

section
/-! PROOFS. Isolated caches (20_memory.md R98, R100, R101; D20): what a load finds in the entry that it selects, and
what a store leaves of it. -/

namespace Sys2Proof.Machine

theorem dcacheEntry_wordAddr (s : State) (a : Word) : s.dcacheEntry (wordAddr a) = s.dcacheEntry a :=
  congrArg (tableGet · s.dcache) (dcacheIndex_wordAddr a)

theorem icacheEntry_wordAddr (s : State) (a : Word) : s.icacheEntry (wordAddr a) = s.icacheEntry a :=
  congrArg (tableGet · s.icache) (icacheIndex_wordAddr a)

/-! ### Isolated loads -/

/-- What an isolated load makes of what it found in its entry, in either array: free values where the entry gives none
(`isolatedLoad_data`, `isolatedLoad_instr`). -/
def State.takeFound (s : State) (found : Option Bool × Option Word) : Word × State :=
  let cm := match found.1 with
    | some m => (m, s)
    | none => s.freshBit
  let data := match found.2 with
    | some d => (d, cm.2)
    | none => cm.2.freshWord
  (data.1, { data.2 with sr := { s.sr with cm := cm.1 } })

theorem isolatedLoad_data {s : State} (h : s.sr.swc = false) (a : Word) :
    s.isolatedLoad a = s.takeFound (isolatedEntry (s.dcacheEntry a) (dcacheTag a) s.inputs.dcclr) := by
  unfold State.isolatedLoad
  rw [dataSide_of_unswapped h]
  rfl

theorem isolatedLoad_instr {s : State} (h : s.sr.swc = true) (a : Word) :
    s.isolatedLoad a = s.takeFound (isolatedEntry (s.icacheEntry a) (icacheTag a) s.inputs.icclr) := by
  unfold State.isolatedLoad
  rw [dataSide_of_swapped h]
  rfl

/-- An isolated load takes what the entry gives, where it gives anything, and changes CM alone (R98, R100). -/
theorem takeFound_finds {n : Nat} (s : State) (entry : Option (CacheEntry n)) (tag : BitVec n) (cleared : Bool) :
    ∃ d cm f, s.takeFound (isolatedEntry entry tag cleared) =
        (d, { s with freeIndex := f, sr := { s.sr with cm := cm } }) ∧
      IsolatedFinds entry tag cleared d cm := by
  match entry with
  | none => exact ⟨_, true, _, rfl, nofun, fun _ => rfl, nofun⟩
  | some (.line valid tag' e) =>
    refine ⟨e, _, s.freeIndex, rfl, fun v t d h => ?_, nofun, nofun⟩
    cases h
    exact ⟨rfl, rfl⟩
  | some .unknown =>
    cases cleared
    · exact ⟨_, _, _, rfl, nofun, nofun, nofun⟩
    · exact ⟨_, true, _, rfl, nofun, nofun, fun _ _ => rfl⟩

theorem isolatedLoad_spec (s : State) (a : Word) :
    ∃ d cm f, s.isolatedLoad a = (d, { s with freeIndex := f, sr := { s.sr with cm := cm } }) ∧
      (s.sr.swc = false → IsolatedFinds (s.dcacheEntry a) (dcacheTag a) s.inputs.dcclr d cm) ∧
      (s.sr.swc = true → IsolatedFinds (s.icacheEntry a) (icacheTag a) s.inputs.icclr d cm) := by
  cases hs : s.sr.swc
  · obtain ⟨d, cm, f, hd, hf⟩ := takeFound_finds s (s.dcacheEntry a) (dcacheTag a) s.inputs.dcclr
    exact ⟨d, cm, f, (isolatedLoad_data hs a).trans hd, fun _ => hf, nofun⟩
  · obtain ⟨d, cm, f, hd, hf⟩ := takeFound_finds s (s.icacheEntry a) (icacheTag a) s.inputs.icclr
    exact ⟨d, cm, f, (isolatedLoad_instr hs a).trans hd, nofun, fun _ => hf⟩

/-! ### Isolated loads and stores -/

section
variable {s : State} {va : Word} (hma : s.mayAccess va = true) (hisc : s.sr.isc = true)
include hma hisc

theorem loadWord_isolated (length : BitVec 2) :
    s.loadWord va length =
      .done (s.isolatedLoad (wordAddr (physical va))).1 (s.isolatedLoad (wordAddr (physical va))).2 := by
  unfold State.loadWord
  rw [translate_may hma]
  exact if_pos hisc

theorem storeLanes_isolated (mask : BitVec 4) (w : Word) :
    s.storeLanes va mask w = .done () (s.isolatedStore (wordAddr (physical va))) := by
  unfold State.storeLanes
  rw [translate_may hma]
  exact if_pos hisc

/-- An isolated store reaches no memory (R100). -/
theorem overwritten_isolated : s.overwritten va = none := by
  unfold State.overwritten
  rw [translate_may hma]
  exact if_pos (by simp [hisc])

end

theorem isolatedStore_rest (s : State) (a : Word) :
    s.isolatedStore a = { s with icache := (s.isolatedStore a).icache, dcache := (s.isolatedStore a).dcache } := by
  unfold State.isolatedStore
  cases s.dataSide <;> rfl

/-- An isolated store leaves the entry that it selects unknown, or not listed while the clear pin is active, and every
other entry as it was (R98, R100). -/
theorem isolatedStore_unswapped {s : State} (h : s.sr.swc = false) (hr : tableRising s.dcache) (a : Word) :
    (s.isolatedStore a).dcacheEntry a = (if s.inputs.dcclr then none else some .unknown) ∧
      (s.isolatedStore a).icache = s.icache ∧
      ∀ k, k ≠ (a.extractLsb' 2 8).toNat → tableGet k (s.isolatedStore a).dcache = tableGet k s.dcache := by
  unfold State.isolatedStore
  rw [dataSide_of_unswapped h]
  exact ⟨tableGet_set_self _ _ _ hr, rfl, fun k hk => tableGet_set_ne _ _ hk⟩

/-- With the caches swapped the same holds of the instruction-cache array (R101). -/
theorem isolatedStore_swapped {s : State} (h : s.sr.swc = true) (hr : tableRising s.icache) (a : Word) :
    (s.isolatedStore a).icacheEntry a = (if s.inputs.icclr then none else some .unknown) ∧
      (s.isolatedStore a).dcache = s.dcache ∧
      ∀ k, k ≠ (a.extractLsb' 2 10).toNat → tableGet k (s.isolatedStore a).icache = tableGet k s.icache := by
  unfold State.isolatedStore
  rw [dataSide_of_swapped h]
  exact ⟨tableGet_set_self _ _ _ hr, rfl, fun k hk => tableGet_set_ne _ _ hk⟩

theorem isolatedStore_wordAddr (s : State) (a : Word) : s.isolatedStore (wordAddr a) = s.isolatedStore a := by
  unfold State.isolatedStore State.putUnknown
  simp only [icacheIndex_wordAddr, dcacheIndex_wordAddr]

/-- Settles O52: an isolated load takes what its entry gives and changes CM alone; an isolated store changes its entry
alone. -/
theorem isolatedAccesses : Obligations.IsolatedAccesses := by
  intro s base rt offset va hinv hb hm hva hma hisc
  refine ⟨fun i hi => ?load, fun i hi => ?store⟩
  case load =>
    obtain ⟨length, hrun⟩ := exec_load hb hm hva hi
    obtain ⟨d, cm, f, hd, hdata, hinstr⟩ := isolatedLoad_spec s (wordAddr (physical va))
    rw [dcacheEntry_wordAddr, dcacheTag_wordAddr] at hdata
    rw [icacheEntry_wordAddr, icacheTag_wordAddr] at hinstr
    have hl := loadWord_isolated hma hisc length
    rw [hd] at hl
    have hw := writesOnly_setGpr { s with freeIndex := f, sr := { s.sr with cm := cm } } rt
      (loadedFrom s.bigEndianCPU va d (s.readGpr rt) i)
    refine ⟨d, cm, _, _, hrun _ _ hl, rfl, ⟨hw.value, rfl, hw.others⟩, hdata, hinstr, ?_, ?_, ?_, ?_⟩
    · constructor <;> simp
    · constructor <;> simp
    · constructor <;> simp
    · refine ⟨by simp, by simp, by simp, by simp, by simp, ?_⟩
      apply completes_retire <;> simp
  case store =>
    have hu := readSrc_free s rt
    obtain ⟨lanes, -, hrun⟩ := exec_store hb hm hva hi
    have hstore := storeLanes_isolated ((free_mayAccess hu va).trans hma) (by simp [hisc]) lanes.1 lanes.2
    rw [isolatedStore_wordAddr] at hstore
    have hnext := hrun _ hstore
    rw [overwritten_isolated hma hisc] at hnext
    have hrest := isolatedStore_rest (s.readSrc rt).2 (physical va)
    refine ⟨_, hnext, fun hsw => ?_, fun hsw => ?_, ?_⟩
    · have h := isolatedStore_unswapped (s := (s.readSrc rt).2) (by simpa using hsw) (by simpa using hinv.dcache.1)
        (physical va)
      simp only [readSrc_icache, readSrc_dcache, readSrc_inputs] at h
      exact h
    · have h := isolatedStore_swapped (s := (s.readSrc rt).2) (by simpa using hsw) (by simpa using hinv.icache.1)
        (physical va)
      simp only [readSrc_icache, readSrc_dcache, readSrc_inputs] at h
      exact h
    · generalize (s.readSrc rt).2.isolatedStore (physical va) = t at hrest
      rw [hrest]
      refine ⟨fun q => readGpr_of_regs (by simp) q, ?_, ?_, ?_, ?_, ?_⟩
      · constructor <;> simp
      · constructor <;> simp
      · constructor <;> simp
      · constructor <;> simp
      · apply completes_retire <;> simp

end Sys2Proof.Machine
end

section
/-! PROOFS. The decoder and the encoder are inverse to each other, and which words are reserved (30_encoding.md R130 to
R137). -/

namespace Sys2Proof

/-! ### The opcode maps (R130 to R133) -/

theorem decode_special {w : Word} (hop : opField w = 0) : decode w = decodeSpecial w := by simp [decode, hop]
theorem decode_bcond {w : Word} (hop : opField w = 1) : decode w = decodeBcond w := by simp [decode, hop]
theorem decode_cop0 {w : Word} (hop : opField w = 16) : decode w = decodeCop0 w := by simp [decode, hop]

@[simp] theorem whenZero_true (i : Instr) : whenZero true i = .ok i := rfl

/-! ### Decoding after encoding -/

/-- Settles O1: in each of the opcode maps the decoder finds the fields that the encoder put into the word. -/
theorem encodeThenDecode : Obligations.EncodeThenDecode := by
  intro i
  cases i
  case add | addu | sub | subu | and | or | xor | nor | slt | sltu | sll | srl | sra | sllv | srlv | srav | mult | multu |
      div | divu | mfhi | mthi | mflo | mtlo | jr | jalr | syscall =>
    refine (decode_special (rType_op ..)).trans ?_
    simp [decodeSpecial, rType_rs, rType_rt, rType_rd, rType_sa, rType_funct]
  case brk code =>
    refine (decode_special (break_op ..)).trans ?_
    simp [decodeSpecial, break_funct, break_code]
  case bltz | bgez | bltzal | bgezal =>
    refine (decode_bcond (iType_op ..)).trans ?_
    simp [decodeBcond, iType_rs, iType_rt, iType_imm]
  case mfc0 | mtc0 | rfe | tlbr | tlbwi | tlbwr | tlbp =>
    refine (decode_cop0 (rType_op ..)).trans ?_
    simp [decodeCop0, rType_rs, rType_rt, rType_rd, rType_sa, rType_funct]
  case bc0f | bc0t =>
    refine (decode_cop0 (iType_op ..)).trans ?_
    simp [decodeCop0, iType_rs, iType_rt, iType_imm]
  case j | jal | cop1 | cop2 | cop3 => simp [decode, encode, jType_op, jType_target]
  -- what remains are the I-type instructions with a major opcode of their own
  all_goals simp [decode, encode, iType_op, iType_rs, iType_rt, iType_imm]

/-! ### A word from what is known of its fields -/

theorem iType_eq {w : Word} {op : BitVec 6} {rs rt : Reg} {imm : Half} (hop : opField w = op) (hrs : rsField w = rs)
    (hrt : rtField w = rt) (himm : immField w = imm) : iType op rs rt imm = w := by
  rw [← hop, ← hrs, ← hrt, ← himm, iType_fields]

theorem rType_eq {w : Word} {op : BitVec 6} {rs rt rd sa : BitVec 5} {funct : BitVec 6} (hop : opField w = op)
    (hrs : rsField w = rs) (hrt : rtField w = rt) (hrd : rdField w = rd) (hsa : saField w = sa)
    (hfunct : functField w = funct) : rType op rs rt rd sa funct = w := by
  rw [← hop, ← hrs, ← hrt, ← hrd, ← hsa, ← hfunct, rType_fields]

theorem jType_eq {w : Word} {op : BitVec 6} (hop : opField w = op) : jType op (targetField w) = w := by
  rw [← hop, jType_fields]

theorem break_eq {w : Word} {op funct : BitVec 6} (hop : opField w = op) (hfunct : functField w = funct) :
    (op ++ codeField w ++ funct : BitVec 32) = w := by
  rw [← hop, ← hfunct, break_fields]

/-! ### Encoding after decoding -/

/-- What the decoder answers, if it is an instruction, is one whose word is `w`. -/
def Answers (w : Word) (r : Except Reject Instr) : Prop := ∀ i, r = .ok i → encode i = w

theorem answers_ok {w : Word} {i : Instr} (h : encode i = w) : Answers w (.ok i) := by
  rintro _ ⟨⟩
  exact h

theorem answers_error {w : Word} (r : Reject) : Answers w (.error r) := by
  rintro _ ⟨⟩

theorem answers_ite {w : Word} {b : Prop} [Decidable b] {r r' : Except Reject Instr} (h : b → Answers w r)
    (h' : ¬ b → Answers w r') : Answers w (if b then r else r') := by
  split
  · exact h ‹_›
  · exact h' ‹_›

theorem answers_whenZero {w : Word} {b : Bool} {i : Instr} (h : b = true → encode i = w) : Answers w (whenZero b i) :=
  answers_ite (fun hb => answers_ok (h hb)) fun _ => answers_error _

theorem answers_special {w : Word} (hop : opField w = 0) : Answers w (decodeSpecial w) := by
  unfold decodeSpecial
  dsimp only
  split
  -- BREAK, and the functions without a row
  case h_10 hfunct => exact answers_ok (break_eq hop (BitVec.eq_of_toNat_eq hfunct))
  case h_29 => exact answers_error _
  all_goals
    rename_i hfunct
    refine answers_whenZero fun hz => ?_
    simp only [Bool.and_eq_true, beq_iff_eq] at hz
    refine rType_eq hop ?_ ?_ ?_ ?_ (BitVec.eq_of_toNat_eq hfunct) <;> simp only [hz]

theorem answers_bcond {w : Word} (hop : opField w = 1) : Answers w (decodeBcond w) := by
  unfold decodeBcond
  split
  case h_5 => exact answers_error _
  all_goals exact answers_ok (iType_eq hop rfl (BitVec.eq_of_toNat_eq ‹_›) rfl)

theorem answers_cop0 {w : Word} (hop : opField w = 16) : Answers w (decodeCop0 w) := by
  unfold decodeCop0
  split
  -- MFC0 and MTC0
  case h_1 hrs | h_2 hrs =>
    refine answers_ite (fun hz => answers_ok ?_) fun _ => answers_error _
    simp only [Bool.and_eq_true, beq_iff_eq] at hz
    obtain ⟨hsa, hfunct⟩ := hz
    exact rType_eq hop (BitVec.eq_of_toNat_eq hrs) rfl rfl hsa hfunct
  -- BC0F and BC0T
  case h_3 hrs =>
    split
    case h_3 => exact answers_error _
    all_goals exact answers_ok (iType_eq hop (BitVec.eq_of_toNat_eq hrs) (BitVec.eq_of_toNat_eq ‹_›) rfl)
  -- RFE and the TLB instructions
  case h_4 hrs =>
    refine answers_ite (fun hz => ?_) fun _ => answers_error _
    simp only [Bool.and_eq_true, beq_iff_eq] at hz
    obtain ⟨⟨hrt, hrd⟩, hsa⟩ := hz
    split
    case h_6 => exact answers_error _
    all_goals exact answers_ok (rType_eq hop (BitVec.eq_of_toNat_eq hrs) hrt hrd hsa (BitVec.eq_of_toNat_eq ‹_›))
  case h_5 => exact answers_error _

theorem answers_decode (w : Word) : Answers w (decode w) := by
  unfold decode
  dsimp only
  split
  all_goals rename_i hop
  -- SPECIAL, BCOND and COP0
  case h_1 => exact answers_special (BitVec.eq_of_toNat_eq hop)
  case h_2 => exact answers_bcond (BitVec.eq_of_toNat_eq hop)
  case h_17 => exact answers_cop0 (BitVec.eq_of_toNat_eq hop)
  -- J, JAL and COP1 to COP3
  case h_3 | h_4 | h_18 | h_19 | h_20 => exact answers_ok (jType_eq (BitVec.eq_of_toNat_eq hop))
  -- BLEZ and BGTZ, whose `rt` is 0, and LUI, whose `rs` is 0
  case h_7 | h_8 => exact answers_whenZero fun hz => iType_eq (BitVec.eq_of_toNat_eq hop) rfl (eq_of_beq hz) rfl
  case h_16 => exact answers_whenZero fun hz => iType_eq (BitVec.eq_of_toNat_eq hop) (eq_of_beq hz) rfl rfl
  -- the reserved opcodes
  case h_41 => exact answers_error _
  all_goals exact answers_ok (iType_eq (BitVec.eq_of_toNat_eq hop) rfl rfl rfl)

/-- Settles O2: in each row the decoder keeps a field as an operand or has found it to be the row's constant. -/
theorem decodeThenEncode : Obligations.DecodeThenEncode := answers_decode

/-! ### Reserved words (R136) -/

/-- The functions of SPECIAL without a row (R136(b)). -/
def reservedFunctions : List Nat :=
  [0x01, 0x05, 0x0A, 0x0B, 0x0E, 0x0F, 0x14, 0x15, 0x16, 0x17, 0x1C, 0x1D, 0x1E, 0x1F, 0x28, 0x29, 0x2C, 0x2D, 0x2E, 0x2F,
    0x30, 0x31, 0x32, 0x33, 0x34, 0x35, 0x36, 0x37, 0x38, 0x39, 0x3A, 0x3B, 0x3C, 0x3D, 0x3E, 0x3F]

theorem whenZero_ne_reserved (b : Bool) (i : Instr) : whenZero b i ≠ .error .reservedInstruction := by
  cases b <;> simp [whenZero]

theorem decodeSpecial_reserved (w : Word) :
    decodeSpecial w = .error .reservedInstruction ↔ (functField w).toNat ∈ reservedFunctions := by
  have hlt : (functField w).toNat < 64 := (functField w).isLt
  unfold decodeSpecial
  generalize (functField w).toNat = funct at *
  interval_cases funct <;> simp [whenZero_ne_reserved, reservedFunctions]

theorem decodeBcond_ne_reserved (w : Word) : decodeBcond w ≠ .error .reservedInstruction := by
  unfold decodeBcond
  split <;> simp

theorem decodeCop0_ne_reserved (w : Word) : decodeCop0 w ≠ .error .reservedInstruction := by
  unfold decodeCop0
  repeat' split
  all_goals simp

/-- Settles O4: one major opcode after the other, with SPECIAL going by its function. -/
theorem reservedWords : Obligations.ReservedWords := by
  intro w
  rw [← functField, ← opField, ← reservedFunctions]
  have hlt : (opField w).toNat < 64 := (opField w).isLt
  unfold decode
  generalize (opField w).toNat = op at *
  interval_cases op <;>
    simp [whenZero_ne_reserved, decodeSpecial_reserved, decodeBcond_ne_reserved, decodeCop0_ne_reserved]

end Sys2Proof
end

section
/-! PROOFS. A step whose fetched word has no row (30_encoding.md R132, R135, R136; 46_coprocessor.md R251). -/

namespace Sys2Proof.Machine

/-! ### What a rejection does -/

theorem cp0Unusable_hasCp0 {s : State} (h : s.HasCp0) : s.cp0Unusable.1 = false :=
  useCp0_all s (fun v => v.sr.kuc && !v.sr.cu.getLsbD 0) false fun v hv => by
    rcases h v hv with hk | hcu
    · rw [hk]
      rfl
    · rw [hcu]
      simp

theorem cp0Unusable_noCp0 {s : State} (h : s.NoCp0) : s.cp0Unusable.1 = true :=
  useCp0_all s (fun v => v.sr.kuc && !v.sr.cu.getLsbD 0) true fun v hv => by
    obtain ⟨hk, hcu⟩ := h v hv
    rw [hk, hcu]
    rfl

theorem rejected_reserved (s : State) : ∃ t, s.rejected .reservedInstruction = .next t ∧ Enters s t 10 none none :=
  ⟨_, rfl, enters_take s s .ri rfl⟩

theorem rejected_cop0_noCp0 {s : State} (h : s.NoCp0) :
    ∃ t, s.rejected .unlistedCop0 = .next t ∧ Enters s t 11 (some 0) none :=
  ⟨_, if_pos (cp0Unusable_noCp0 h), enters_take s s.cp0Unusable.2 (.cpu 0) (cp0Unusable_free s)⟩

theorem rejected_cop0_hasCp0 {s : State} (h : s.HasCp0) : s.rejected .unlistedCop0 = .refused .unlistedCop0 :=
  if_neg (by simp [cp0Unusable_hasCp0 h])

/-! ### The fetch of the word -/

/-- A fetch leaves the values of CP0 that the step may see. -/
theorem maySee_fetched {t u : State} (h : FetchedOnly t u) (v : Cp0View) : u.MaySee v ↔ t.MaySee v := by
  have hv : State.MaySee { u with icache := t.icache } v ↔ t.MaySee v := by
    rw [h.bus.rest]
    exact Iff.rfl
  exact hv

theorem onlyBus_free {t u : State} (h : u = { t with freeIndex := u.freeIndex }) : OnlyBus t u :=
  ⟨by rw [h], free_seen h⟩

theorem not_missesInstr {t : State} {pa w : Word} (hi : t.inputs.icclr = false)
    (he : t.icacheEntry pa = some (.line true (pa.extractLsb' 12 20) w)) : ¬ t.MissesInstr pa := by
  simp [State.MissesInstr, hi, he]

/-- A hit in the instruction cache is a fetch that fills nothing (R95). -/
theorem fetchedOnly_hit {t u : State} {w : Word} (hi : t.inputs.icclr = false)
    (he : t.icacheEntry (physical t.pc) = some (.line true ((physical t.pc).extractLsb' 12 20) w))
    (hu : u = { t with freeIndex := u.freeIndex }) : FetchedOnly t u := by
  have hic : u.icache = t.icache := by rw [hu]
  refine ⟨?_, fun _ => hic, fun _ hm => absurd hm (not_missesInstr hi he)⟩
  rw [← hic]
  exact onlyBus_free hu

/-- A fetch that can answer one word only answers it. -/
theorem fetchWord_fetches {t u : State} {w : Word} (hf : t.Fetchable) (hu : u = { t with freeIndex := u.freeIndex })
    (h : t.Fetches w) : ∃ x, u.fetchWord = .done w x ∧ FetchedOnly t x := by
  rcases h with ⟨hk, hr, hw⟩ | ⟨hc, hi, he⟩ | ⟨hc, hm, hr, hw⟩
  · obtain ⟨v, x, hx, hmay, honly⟩ := fetchWord_kseg1 hf hu hk hr
    obtain rfl := hw v hmay
    exact ⟨x, hx, honly⟩
  · obtain ⟨x, hx, hfree⟩ := fetchWord_hit hf hu hc hi he
    exact ⟨x, hx, fetchedOnly_hit hi he hfree⟩
  · obtain ⟨v, x, hx, hmay, honly, -⟩ := fetchWord_miss hf hu hc hm hr
    obtain rfl := hw v hmay
    exact ⟨x, hx, honly⟩

/-! ### The step -/

theorem step_of_rejected {s t u : State} {w : Word} {r : Reject} (hs : Starts s t) (hn : t.Undisturbed)
    (hf : t.interrupted.2.fetchWord = .done w u) (hr : decode w = .error r) : step s = u.rejected r := by
  unfold step
  rw [fetchPhase_undisturbed hs hn]
  unfold State.fetchDecode
  simp only [hf, hr]

theorem step_of_fetches {s t : State} {w : Word} {r : Reject} (hs : Starts s t) (hn : t.Undisturbed) (hf : t.Fetchable)
    (hw : t.Fetches w) (hr : decode w = .error r) : ∃ u, FetchedOnly t u ∧ step s = u.rejected r := by
  obtain ⟨u, hu, honly⟩ := fetchWord_fetches hf (interrupted_free t) hw
  exact ⟨u, honly, step_of_rejected hs hn hu hr⟩

/-- Settles O9: the step fetches the word and ends with what its rejection does, which the fetch does not bear on. -/
theorem wordsWithoutRow : Obligations.WordsWithoutRow := by
  intro s t w hs hn hf hw
  refine ⟨fun hd => ?reserved, fun hd => ?cop0, fun hd => ?blank⟩
  case reserved =>
    obtain ⟨u, honly, hstep⟩ := step_of_fetches hs hn hf hw hd
    obtain ⟨v, hv, he⟩ := rejected_reserved u
    exact ⟨u, v, honly, hstep.trans hv, he⟩
  case cop0 =>
    obtain ⟨u, honly, hstep⟩ := step_of_fetches hs hn hf hw hd
    refine ⟨fun hc => ?_, fun hc => hstep.trans (rejected_cop0_hasCp0 fun x hx => hc x ((maySee_fetched honly x).1 hx))⟩
    obtain ⟨v, hv, he⟩ := rejected_cop0_noCp0 fun x hx => hc x ((maySee_fetched honly x).1 hx)
    exact ⟨u, v, honly, hstep.trans hv, he⟩
  case blank =>
    rcases hd with hd | hd
    · obtain ⟨u, -, hstep⟩ := step_of_fetches hs hn hf hw hd
      exact hstep
    · obtain ⟨u, -, hstep⟩ := step_of_fetches hs hn hf hw hd
      exact hstep

end Sys2Proof.Machine
end

section
/-! PROOFS. Loads at an address whose base is settled (41_load_store.md R151 to R157, R166): the value of each, and
LWL and LWR one after the other. -/

namespace Sys2Proof.Machine

/-! ### One load -/

/-- A base that is not being loaded gives its register's content (R30, R150). -/
theorem Addresses.effective {s : State} {base : Reg} {offset : Half} {va : Word} (h : Addresses s base offset va) :
    va = effectiveAddr (s.readSrc base).1 offset := by
  unfold State.readSrc
  rw [if_neg h.settled, h.addr]
  rfl

/-- Settles O43: each of the five is a load of a size and an extension, and the list of loads gives its value. -/
theorem loadsFromMemory : Obligations.LoadsFromMemory := by
  intro s base rt offset va h hr
  have load : ∀ {i w}, i ∈ [Instr.lb base rt offset, .lbu base rt offset, .lh base rt offset, .lhu base rt offset,
      .lw base rt offset] → (i, w) ∈ s.loadsAt base rt offset va → ∃ t, exec i s = .next t ∧ Loads s t rt w := by
    intro i w him hw
    obtain ⟨n, extend, he, hl⟩ := load_form him
    obtain ⟨ha, rfl⟩ := (hl s va w).1 hw
    rw [he]
    exact load_loads h.effective h.mtc0 n extend rt h.mode ha h.isolated h.sees hr
  exact ⟨load (by simp) (by simp [State.loadsAt]), load (by simp) (by simp [State.loadsAt]),
    fun ha => load (by simp) (by simp only [State.loadsAt, ha]; simp),
    fun ha => load (by simp) (by simp only [State.loadsAt, ha]; simp),
    fun ha => load (by simp) (by simp [State.loadsAt, ha])⟩

/-- Settles O44: LWL and LWR merge the word into the register, lane by lane. -/
theorem loadWordParts : Obligations.LoadWordParts := by
  intro s base rt offset va k h hr hk
  rw [← byteLane_eq] at hk
  subst hk
  have hlane := byteLane_lt s.bigEndianCPU va
  refine ⟨?lwl, ?lwr⟩
  case lwl =>
    obtain ⟨t, ht, hl⟩ :=
      loadPart_loads h.effective h.mtc0 (fun byte => BitVec.ofNat 2 byte) lwlMerge rt h.mode h.isolated h.sees hr
    exact ⟨_, t, ht, hl, lwlMerge_lane _ hlane _ _⟩
  case lwr =>
    obtain ⟨t, ht, hl⟩ :=
      loadPart_loads h.effective h.mtc0 (fun byte => BitVec.ofNat 2 (3 - byte)) lwrMerge rt h.mode h.isolated h.sees hr
    exact ⟨_, t, ht, hl, lwrMerge_lane _ hlane _ _⟩

/-! ### A load after a load -/

/-- A partial load leaves the data cache in agreement with memory and the BIU ready. -/
theorem loadPart_goesOn {s : State} {base : Reg} {offset : Half} {va : Word} (h : Addresses s base offset va)
    (hr : s.Readable s.mode.dblock va) (length : Nat → BitVec 2) (merge : Nat → Word → Word → Word) (rt : Reg) :
    ∃ t, s.finish (s.loadPart length merge base rt offset) = .next t ∧
      Loads s t rt (merge (byteLane s.bigEndianCPU va) (s.seenWord (wordAddr (physical va))) (s.readGpr rt)) ∧
      (Coherent s → Coherent t) ∧ t.BusReady := by
  obtain ⟨u, hu, hc, hic, hcoh⟩ := loadWord_spec va (length (byteLane s.bigEndianCPU va)) h.mode h.isolated h.sees hr
  have hready := hc.ready hr.ready
  refine ⟨_, ?_, loads_retire rt _ hc hic, fun hs => (hcoh hs).of_eq (by simp) (by simp) (by simp) fun a =>
    seenByte_of_eq (by simp) (by simp) (by simp) (by simp) a,
    ready_of_eq hready (by simp) (by simp) (fun e he => by simpa using he) (by simp)⟩
  unfold State.loadPart
  rw [access_ok h.settled h.addr h.mtc0, hu]
  rfl

section
variable {s t : State} {base rt : Reg} {v : Word} (hl : Loads s t rt v)
include hl

/-- An address that a load or store may use may be used after a load of another register than its base. -/
theorem Addresses.after_load {offset : Half} {va : Word} (h : Addresses s base offset va) (hne : rt ≠ base)
    (hc : Coherent s → Coherent t) : Addresses t base offset va := by
  have hsr := hl.frame.cp0.sr
  refine ⟨?_, ?_, hl.frame.completes.afterMtc0, by rw [hsr]; exact h.isolated, ?_, ?_⟩
  · rw [hl.frame.completes.ldSlot]
    split
    · exact nofun
    · exact fun e => hne (Option.some.inj e)
  · rw [hl.result.others base hne.symm]
    exact h.addr
  · unfold State.mayAccess
    rw [hsr]
    exact h.mode
  · exact h.sees.imp_right fun ⟨hcoh, hswc⟩ => ⟨hc hcoh, by rw [hsr]; exact hswc⟩

theorem State.Readable.after_load {block : Bool} {va : Word} (h : s.Readable block va) (hb : t.BusReady) :
    t.Readable block va := by
  have ha : ∀ a, t.answer a = s.answer a := fun a => by
    unfold State.answer
    rw [hl.frame.pins.platform]
  refine ⟨hb, ?_, by rw [ha]; exact h.block⟩
  unfold State.backed
  rw [ha]
  exact h.backed

theorem Loads.bigEndianCPU : t.bigEndianCPU = s.bigEndianCPU := by
  unfold State.bigEndianCPU
  rw [hl.frame.pins.mode, hl.frame.cp0.sr]

end

/-- Two partial loads into one register: the second merges into what the first has left. -/
theorem loadPart_pair {s : State} {base rt : Reg} {offset offset' : Half} {va va' : Word}
    (h : Addresses s base offset va) (h' : Addresses s base offset' va') (hr : s.Readable s.mode.dblock va)
    (hr' : s.Readable s.mode.dblock va') (hne : rt ≠ base) (h0 : rt ≠ 0) (length length' : Nat → BitVec 2)
    (merge merge' : Nat → Word → Word → Word) :
    ∃ t u, s.finish (s.loadPart length merge base rt offset) = .next t ∧
      t.finish (t.loadPart length' merge' base rt offset') = .next u ∧
      u.readGpr rt = merge' (byteLane s.bigEndianCPU va') (s.seenWord (wordAddr (physical va')))
        (merge (byteLane s.bigEndianCPU va) (s.seenWord (wordAddr (physical va))) (s.readGpr rt)) := by
  obtain ⟨t, ht, hl, hcoh, hready⟩ := loadPart_goesOn h hr length merge rt
  have hmode := hl.frame.pins.mode
  obtain ⟨u, hu, hl', -⟩ := loadPart_goesOn (h'.after_load hl hne hcoh)
    (by rw [hmode]; exact hr'.after_load hl hready) length' merge' rt
  refine ⟨t, u, ht, hu, ?_⟩
  rw [hl'.result.value h0, hl.result.value h0, hl.bigEndianCPU, seenWord_of_bytes hmode hl.frame.bytes]

/-! ### The bytes of an unaligned word (R84) -/

/-- The byte that a byte reference to a virtual address finds (R80). -/
def State.byteAt (s : State) (va : Word) : Byte := s.seenByte (s.touched .byte (physical va))

/-- Translation takes words to words. -/
theorem wordAddr_physical_of_word {x y : Word} (h : wordAddr x = wordAddr y) :
    wordAddr (physical x) = wordAddr (physical y) := by
  have hxy := congrArg BitVec.toNat h
  rw [wordAddr_toNat, wordAddr_toNat] at hxy
  apply BitVec.eq_of_toNat_eq
  rw [wordAddr_toNat, wordAddr_toNat, physical_toNat, physical_toNat]
  split <;> split <;> omega

theorem byteAt_of_word (s : State) {x y : Word} (h : wordAddr x = wordAddr y) :
    s.byteAt x = laneByte (s.seenWord (wordAddr (physical y))) (byteLane s.bigEndianCPU x) := by
  rw [← wordAddr_physical_of_word h]
  exact (selectByte_touched s x).symm

section
variable (s : State) (va : Word) {n : Nat}

/-- The bytes from an address on that are in its own word. -/
theorem byteAt_forward (hn : va.toNat % 4 + n < 4) :
    s.byteAt (va + BitVec.ofNat 32 n) = laneByte (s.seenWord (wordAddr (physical va)))
      (if s.bigEndianCPU then 3 - (va.toNat % 4 + n) else va.toNat % 4 + n) := by
  have hadd : (va + BitVec.ofNat 32 n).toNat = va.toNat + n := by
    have := va.isLt
    rw [BitVec.toNat_add, BitVec.toNat_ofNat]
    omega
  have hword : wordAddr (va + BitVec.ofNat 32 n) = wordAddr va := by
    apply BitVec.eq_of_toNat_eq
    rw [wordAddr_toNat, wordAddr_toNat, hadd]
    omega
  rw [byteAt_of_word s hword, byteLane_eq, hadd, show (va.toNat + n) % 4 = va.toNat % 4 + n by omega]

/-- The bytes from an address on that are in the word of the fourth of them. -/
theorem byteAt_back (h3 : n ≤ 3) (hn : 3 - n ≤ (va + 3).toNat % 4) :
    s.byteAt (va + BitVec.ofNat 32 n) = laneByte (s.seenWord (wordAddr (physical (va + 3))))
      (if s.bigEndianCPU then 3 - ((va + 3).toNat % 4 - (3 - n)) else (va + 3).toNat % 4 - (3 - n)) := by
  have hsub : (va + BitVec.ofNat 32 n).toNat = (va + 3).toNat - (3 - n) := by
    have := va.isLt
    have h3' : (va + 3).toNat = (va.toNat + 3) % 2 ^ 32 := BitVec.toNat_add va 3
    rw [BitVec.toNat_add, BitVec.toNat_ofNat]
    omega
  have hword : wordAddr (va + BitVec.ofNat 32 n) = wordAddr (va + 3) := by
    apply BitVec.eq_of_toNat_eq
    rw [wordAddr_toNat, wordAddr_toNat, hsub]
    omega
  rw [byteAt_of_word s hword, byteLane_eq, hsub,
    show ((va + 3).toNat - (3 - n)) % 4 = (va + 3).toNat % 4 - (3 - n) by omega]

/-- The low bits of the fourth address. -/
theorem add_three_mod : (va + 3).toNat % 4 = (va.toNat % 4 + 3) % 4 := by
  have h : (va + 3).toNat = (va.toNat + 3) % 2 ^ 32 := BitVec.toNat_add va 3
  omega

/-- LWL and then LWR in big-endian order (R166). -/
theorem lwl_lwr_word (hbig : s.bigEndianCPU = true) (old : Word) :
    lwrMerge (byteLane s.bigEndianCPU (va + 3)) (s.seenWord (wordAddr (physical (va + 3))))
        (lwlMerge (byteLane s.bigEndianCPU va) (s.seenWord (wordAddr (physical va))) old) =
      s.byteAt va ++ s.byteAt (va + 1) ++ s.byteAt (va + 2) ++ s.byteAt (va + 3) := by
  refine word_ext fun j hj => ?_
  have target : laneByte (s.byteAt va ++ s.byteAt (va + 1) ++ s.byteAt (va + 2) ++ s.byteAt (va + 3)) j =
      s.byteAt (va + BitVec.ofNat 32 (3 - j)) := by
    rw [laneByte_append _ _ _ _ _ hj]
    interval_cases j <;> simp
  have h3 := add_three_mod va
  have hl := byteLane_eq s.bigEndianCPU va
  have hr := byteLane_eq s.bigEndianCPU (va + 3)
  rw [hbig, if_pos rfl] at hl hr
  rw [target, lwrMerge_lane _ (byteLane_lt _ _) _ _ _ hj, hbig]
  split
  · rw [byteAt_back s va (by omega) (by omega), hbig, if_pos rfl]
    congr 1
    omega
  · rw [lwlMerge_lane _ (byteLane_lt _ _) _ _ _ hj, if_pos (by omega), byteAt_forward s va (by omega), hbig, if_pos rfl]
    congr 1
    omega

/-- LWR and then LWL in little-endian order (R166). -/
theorem lwr_lwl_word (hbig : s.bigEndianCPU = false) (old : Word) :
    lwlMerge (byteLane s.bigEndianCPU (va + 3)) (s.seenWord (wordAddr (physical (va + 3))))
        (lwrMerge (byteLane s.bigEndianCPU va) (s.seenWord (wordAddr (physical va))) old) =
      s.byteAt (va + 3) ++ s.byteAt (va + 2) ++ s.byteAt (va + 1) ++ s.byteAt va := by
  refine word_ext fun j hj => ?_
  have target : laneByte (s.byteAt (va + 3) ++ s.byteAt (va + 2) ++ s.byteAt (va + 1) ++ s.byteAt va) j =
      s.byteAt (va + BitVec.ofNat 32 j) := by
    rw [laneByte_append _ _ _ _ _ hj]
    interval_cases j <;> simp
  have h3 := add_three_mod va
  have hl := byteLane_eq s.bigEndianCPU va
  have hr := byteLane_eq s.bigEndianCPU (va + 3)
  rw [hbig, if_neg Bool.false_ne_true] at hl hr
  rw [target, lwlMerge_lane _ (byteLane_lt _ _) _ _ _ hj, hbig]
  split
  · rw [byteAt_back s va (by omega) (by omega), hbig, if_neg Bool.false_ne_true]
    congr 1
    omega
  · rw [lwrMerge_lane _ (byteLane_lt _ _) _ _ _ hj, if_pos (by omega), byteAt_forward s va (by omega), hbig,
      if_neg Bool.false_ne_true]
    congr 1
    omega

end

/-- Settles O45: the second load merges into what the first has left, and each byte comes from the word that it is in. -/
theorem unalignedLoadPair : Obligations.UnalignedLoadPair := by
  intro s base rt offset offset' va h h' hr hr' hne h0
  refine ⟨fun hbig => ?big, fun hbig => ?little⟩
  case big =>
    obtain ⟨t, u, ht, hu, hv⟩ := loadPart_pair h h' hr hr' hne h0 (fun byte => BitVec.ofNat 2 byte)
      (fun byte => BitVec.ofNat 2 (3 - byte)) lwlMerge lwrMerge
    exact ⟨t, u, ht, hu, hv.trans (lwl_lwr_word s va hbig _)⟩
  case little =>
    obtain ⟨t, u, ht, hu, hv⟩ := loadPart_pair h h' hr hr' hne h0 (fun byte => BitVec.ofNat 2 (3 - byte))
      (fun byte => BitVec.ofNat 2 byte) lwrMerge lwlMerge
    exact ⟨t, u, ht, hu, hv.trans (lwr_lwl_word s va hbig _)⟩

end Sys2Proof.Machine
end

section
/-! PROOFS. Stores at an address whose base is settled (41_load_store.md R158 to R162): the bytes that each stores, and
that every other byte stays. -/

namespace Sys2Proof.Machine

/-! ### Any store -/

/-- The byte of memory that a store of instruction `i` and register value `v` leaves at a physical address: its lane's,
where the store has one and ordinary memory answers (R77, R93). -/
def State.byteAfter (s : State) (va v : Word) (i : Instr) (a : Word) : Byte :=
  if wordAddr a = wordAddr (physical va) ∧ s.answer a = .memory then
    (storedLane s.bigEndianCPU va v i (laneOf s.mode.bigEndianMem (a.toNat % 4))).getD (s.seenByte a)
  else s.seenByte a

/-- Every store that may use its address stores its lanes. -/
theorem Addresses.stores {s : State} {base : Reg} {offset : Half} {va : Word} (h : Addresses s base offset va)
    (rt : Reg) (hw : s.mem.wf) (hr : s.HasRoom) {i : Instr}
    (hi : i ∈ [Instr.sb base rt offset, .sh base rt offset, .sw base rt offset, .swl base rt offset,
      .swr base rt offset]) (hva : i ∈ storesAt base rt offset va) :
    ∃ v t, s.Reads rt v ∧ exec i s = .next t ∧ StoresOnly s t va ∧ ∀ a, t.seenByte a = s.byteAfter va v i a := by
  obtain ⟨n, lanes, he, hat, hlanes⟩ := store_form hi
  have ha := (hat va).1 hva
  obtain ⟨hmask, hlane⟩ := hlanes s.bigEndianCPU va ((s.readSrc base).2.readSrc rt).1 ha
  obtain ⟨t, ht, hst, hb⟩ :=
    storeBy_stores h.effective h.mtc0 n lanes rt h.mode ha h.isolated h.sees hw hr rfl hmask
  refine ⟨_, t, reads_readSrc_of (readSrc_ldSlot s base) (readSrc_regs s base) rt, (he s).trans ht, hst, fun a => ?_⟩
  unfold State.byteAfter
  rw [hb, hlane _ (laneOf_lt _ _ (Nat.mod_lt _ (by decide)))]

/-! ### The bytes of each store -/

/-- An address is its word and its lane. -/
theorem eq_iff_word_lane (big : Bool) (a b : Word) :
    a = b ↔ wordAddr a = wordAddr b ∧ laneOf big (a.toNat % 4) = laneOf big (b.toNat % 4) := by
  refine ⟨fun h => h ▸ ⟨rfl, rfl⟩, fun ⟨hw, hl⟩ => BitVec.eq_of_toNat_eq ?_⟩
  have hw' := congrArg BitVec.toNat hw
  rw [wordAddr_toNat, wordAddr_toNat] at hw'
  have hlow := congrArg (laneOf big) hl
  rw [laneOf_laneOf _ _ (Nat.mod_lt _ (by decide)), laneOf_laneOf _ _ (Nat.mod_lt _ (by decide))] at hlow
  omega

section
variable (s : State) (va v : Word) (base rt : Reg) (offset : Half)

/-- A store that puts one byte into its lane, or none. -/
theorem byteAfter_of_lane {i : Instr} {a : Word} {P : Prop} [Decidable P] {b : Byte}
    (h : storedLane s.bigEndianCPU va v i (laneOf s.mode.bigEndianMem (a.toNat % 4)) = if P then some b else none) :
    s.byteAfter va v i a =
      if wordAddr a = wordAddr (physical va) ∧ P ∧ s.answer a = .memory then b else s.seenByte a := by
  unfold State.byteAfter
  rw [h]
  by_cases hm : wordAddr a = wordAddr (physical va) ∧ s.answer a = .memory
  · simp only [hm, true_and, and_true, if_true]
    split <;> rfl
  · rw [if_neg hm, if_neg fun h => hm ⟨h.1, h.2.2⟩]

/-- SB stores the low byte at the byte that its reference touches (R80, R158). -/
theorem byteAfter_sb (a : Word) :
    s.byteAfter va v (.sb base rt offset) a =
      if a = s.touched .byte (physical va) ∧ s.answer a = .memory then v.extractLsb' 0 8 else s.seenByte a := by
  obtain ⟨hword, hlane⟩ := touched_byte_lane s va
  rw [byteAfter_of_lane s va v rfl]
  simp only [eq_iff_word_lane s.mode.bigEndianMem a, hword, hlane, byteLane_eq, and_assoc]
  rfl

/-- The two bytes that a halfword reference touches are those of the two lanes of its word from `halfLane` up (R80,
R90). -/
theorem touched_half_bytes (h0 : va.getLsbD 0 = false) :
    (wordAddr (s.touched .half (physical va)) = wordAddr (physical va) ∧
      laneOf s.mode.bigEndianMem ((s.touched .half (physical va)).toNat % 4) =
        if s.mode.bigEndianMem then halfLane s.bigEndianCPU va + 1 else halfLane s.bigEndianCPU va) ∧
    (wordAddr (s.touched .half (physical va) + 1) = wordAddr (physical va) ∧
      laneOf s.mode.bigEndianMem ((s.touched .half (physical va) + 1).toNat % 4) =
        if s.mode.bigEndianMem then halfLane s.bigEndianCPU va else halfLane s.bigEndianCPU va + 1) := by
  obtain ⟨hp, hlow⟩ := touched_half_lane s va h0
  have hcases := halfLane_cases s.bigEndianCPU va h0
  generalize halfLane s.bigEndianCPU va = l at *
  generalize s.touched .half (physical va) = p at *
  generalize s.mode.bigEndianMem = big at *
  have hmod : p.toNat % 4 = 0 ∨ p.toNat % 4 = 2 := by cases big <;> simp at hlow <;> omega
  have hsucc : (p + 1).toNat = p.toNat + 1 := by
    have h1 : (p + 1).toNat = (p.toNat + 1) % 2 ^ 32 := BitVec.toNat_add p 1
    have := p.isLt
    omega
  have hword : wordAddr (p + 1) = wordAddr p := by
    apply BitVec.eq_of_toNat_eq
    rw [wordAddr_toNat, wordAddr_toNat, hsucc]
    omega
  rw [hword, hsucc]
  unfold laneOf
  refine ⟨⟨hp, ?_⟩, hp, ?_⟩ <;> cases big <;>
    simp only [if_true, if_false, Bool.false_eq_true] at hlow ⊢ <;> omega

/-- SH stores the low halfword at the two bytes that its reference touches, in the byte order of memory (R80, R159). -/
theorem byteAfter_sh (h0 : va.getLsbD 0 = false) (a : Word) :
    s.byteAfter va v (.sh base rt offset) a =
      if a = s.touched .half (physical va) ∧ s.answer a = .memory then
        (if s.mode.bigEndianMem then laneByte v 1 else laneByte v 0)
      else if a = s.touched .half (physical va) + 1 ∧ s.answer a = .memory then
        (if s.mode.bigEndianMem then laneByte v 0 else laneByte v 1)
      else s.seenByte a := by
  obtain ⟨⟨hword, hlane⟩, hword', hlane'⟩ := touched_half_bytes s va h0
  unfold State.byteAfter storedLane
  simp only [eq_iff_word_lane s.mode.bigEndianMem a, hword, hlane, hword', hlane', ← halfLane_eq _ _ h0]
  generalize laneOf s.mode.bigEndianMem (a.toNat % 4) = j
  generalize halfLane s.bigEndianCPU va = l
  by_cases hm : wordAddr a = wordAddr (physical va) ∧ s.answer a = .memory
  · simp only [hm, true_and, and_true, if_true]
    by_cases hlow : j = l
    · subst hlow
      cases s.mode.bigEndianMem <;> simp
    · by_cases hhigh : j = l + 1
      · subst hhigh
        cases s.mode.bigEndianMem <;> simp
      · rw [if_neg (by omega)]
        cases s.mode.bigEndianMem <;> simp [hlow, hhigh]
  · rw [if_neg hm, if_neg fun h => hm ⟨h.1.1, h.2⟩, if_neg fun h => hm ⟨h.1.1, h.2⟩]

end

/-! ### The halfword and the word stored -/

section
variable {s t : State} {va v : Word} {base rt : Reg} {offset : Half} (hmode : t.mode = s.mode)
  (hm : s.answer (physical va) = .memory)
include hmode hm

theorem seenHalf_sh (h0 : va.getLsbD 0 = false) (hb : ∀ a, t.seenByte a = s.byteAfter va v (.sh base rt offset) a) :
    t.seenHalf (s.touched .half (physical va)) = v.extractLsb' 0 16 := by
  obtain ⟨⟨hword, -⟩, hword', -⟩ := touched_half_bytes s va h0
  have hne : s.touched .half (physical va) + 1 ≠ s.touched .half (physical va) := by simp
  have hpair : v.extractLsb' 0 16 = laneByte v 1 ++ laneByte v 0 := laneByte_pair v 0
  unfold State.seenHalf
  simp only [hb, byteAfter_sh s va v base rt offset h0, answer_of_word hword, answer_of_word hword', hm, hmode, hne,
    hpair, and_true, if_true, if_false]
  cases s.mode.bigEndianMem <;> rfl

theorem seenWord_sw (ha : va.extractLsb' 0 2 = 0#2)
    (hb : ∀ a, t.seenByte a = s.byteAfter va v (.sw base rt offset) a) : t.seenWord (physical va) = v := by
  refine word_ext fun j hj => ?_
  have hl := laneOf_lt s.mode.bigEndianMem j hj
  have hadd := wordAddr_add_toNat (physical va) _ hl
  have hbase := wordAddr_toNat (physical va)
  have hword : wordAddr (wordAddr (physical va) + BitVec.ofNat 32 (laneOf s.mode.bigEndianMem j)) =
      wordAddr (physical va) := by
    apply BitVec.eq_of_toNat_eq
    rw [wordAddr_toNat, hadd]
    omega
  rw [← wordAddr_physical ha, laneByte_seenWord _ _ _ hj, hb, hmode]
  unfold State.byteAfter
  rw [if_pos ⟨hword, (answer_of_word hword).trans hm⟩, hadd,
    show ((wordAddr (physical va)).toNat + laneOf s.mode.bigEndianMem j) % 4 = laneOf s.mode.bigEndianMem j by omega,
    laneOf_laneOf _ _ hj]
  rfl

end

/-- Settles O46: the lanes of each store are the bytes that its reference touches. -/
theorem storesToMemory : Obligations.StoresToMemory := by
  intro s base rt offset va h hw hr
  refine ⟨?sb, fun h0 => ?sh, fun ha => ?sw⟩
  case sb =>
    obtain ⟨v, t, hv, ht, hst, hb⟩ := h.stores rt hw hr (i := .sb base rt offset) (by simp) (by simp [storesAt])
    exact ⟨v, t, hv, ht, hst, fun a => (hb a).trans (byteAfter_sb s va v base rt offset a)⟩
  case sh =>
    obtain ⟨v, t, hv, ht, hst, hb⟩ := h.stores rt hw hr (i := .sh base rt offset) (by simp)
      (by simp only [storesAt, h0]; simp)
    refine ⟨v, t, hv, ht, hst, fun hm => seenHalf_sh hst.pins.mode hm h0 hb, fun a hout => ?_⟩
    rw [hb, byteAfter_sh s va v base rt offset h0, if_neg, if_neg]
    · exact fun hin => hout.elim (fun hne => hne.2 hin.1) fun hne => hne hin.2
    · exact fun hin => hout.elim (fun hne => hne.1 hin.1) fun hne => hne hin.2
  case sw =>
    obtain ⟨v, t, hv, ht, hst, hb⟩ := h.stores rt hw hr (i := .sw base rt offset) (by simp)
      (by simp [storesAt, ha])
    refine ⟨v, t, hv, ht, hst, fun hm => seenWord_sw hst.pins.mode hm ha hb, fun a hout => (hb a).trans ?_⟩
    refine if_neg fun hin => ?_
    rw [wordAddr_physical ha] at hin
    exact hout.elim (fun hne => hne hin.1) fun hne => hne hin.2

/-- Settles O47: the lanes of SWL and SWR are those up to and from that of the address. -/
theorem storeWordParts : Obligations.StoreWordParts := by
  intro s base rt offset va k h hw hr hk
  subst hk
  refine ⟨?swl, ?swr⟩
  case swl =>
    obtain ⟨v, t, hv, ht, hst, hb⟩ := h.stores rt hw hr (i := .swl base rt offset) (by simp) (by simp [storesAt])
    refine ⟨v, t, hv, ht, hst, fun a j hj => ?_⟩
    subst hj
    exact (hb a).trans (byteAfter_of_lane s va v rfl)
  case swr =>
    obtain ⟨v, t, hv, ht, hst, hb⟩ := h.stores rt hw hr (i := .swr base rt offset) (by simp) (by simp [storesAt])
    refine ⟨v, t, hv, ht, hst, fun a j hj => ?_⟩
    subst hj
    exact (hb a).trans (byteAfter_of_lane s va v rfl)

end Sys2Proof.Machine
end

section
/-! PROOFS. What leaves memory as the program sees it (10_state.md R27; 20_memory.md R92, R100, R103; 41_load_store.md
R167): every load, every isolated access, every part of an instruction that makes no access. -/

namespace Sys2Proof.Machine

/-- No byte of memory as the program sees it changed. -/
def SameBytes (s t : State) : Prop := ∀ a, t.seenByte a = s.seenByte a

theorem sameBytes_of_eq {s t : State} (hm : t.mem = s.mem) (hb : t.writeBuffer = s.writeBuffer)
    (ho : t.mode = s.mode) (hp : t.platform = s.platform) : SameBytes s t := seenByte_of_eq hm hb ho hp

theorem SameBytes.trans {s t u : State} (h : SameBytes s t) (g : SameBytes t u) : SameBytes s u :=
  fun a => (g a).trans (h a)

theorem Internal.sameBytes {s t : State} (h : Internal s t) : SameBytes s t := by
  unfold Internal at h
  apply sameBytes_of_eq <;> rw [h]

/-! ### Loads -/

theorem sameBytes_busRead (s : State) (sized : Bool) (a : Word) (type : ReadType) :
    (s.busRead sized a type).Splits s (SameBytes s) (SameBytes s) := by
  rcases busRead_cases s sized a type with ⟨-, h⟩ | ⟨t, h, ht, -⟩ | ⟨w, t, h, ht, -⟩ <;> rw [h]
  · trivial
  · exact ht.seen
  · exact ht.seen

theorem sameBytes_refill (s : State) (sized : Bool) (side : CacheSide) (a : Word) :
    (s.refill sized side a).Splits s (SameBytes s) (SameBytes s) := by
  rcases refill_cases s sized side a with ⟨-, h⟩ | ⟨t, h, ht, -⟩ | ⟨v, w, u, hu, h, -⟩ <;> rw [h]
  · trivial
  · exact ht.seen
  · show SameBytes s _
    split
    · exact (cacheOnly_fillBlock hu.cacheOnly side a w).seen
    · exact (cacheOnly_fill hu.cacheOnly side a v).seen

theorem sameBytes_cacheLoad (s : State) (sized : Bool) (side : CacheSide) (a : Word) :
    (s.cacheLoad sized side a).Splits s (SameBytes s) (SameBytes s) := by
  have free : SameBytes s s.freshBit.2 := sameBytes_of_eq rfl rfl rfl rfl
  unfold State.cacheLoad State.cacheRead
  split
  · exact fun _ => rfl
  · exact sameBytes_refill s sized side a
  · split
    · exact sameBytes_of_eq rfl rfl rfl rfl
    · exact ((sameBytes_refill s.freshBit.2 sized side a).of_free rfl).mono (fun _ _ _ ht => free.trans ht)
        fun _ ht => free.trans ht

/-- A load changes no byte that the program sees, whatever the caches hold (R92, R100, R167). -/
theorem sameBytes_loadWord (s : State) (va : Word) (length : BitVec 2) :
    (s.loadWord va length).Splits s (SameBytes s) (SameBytes s) := by
  unfold State.loadWord
  split
  · rfl
  · split
    · obtain ⟨d, cm, f, h, -⟩ := isolatedLoad_spec s (wordAddr ‹_›)
      rw [h]
      exact sameBytes_of_eq rfl rfl rfl rfl
    · split
      · exact sameBytes_busRead s _ _ _
      · exact sameBytes_cacheLoad s _ _ _

/-! ### Isolated stores -/

/-- An isolated store reaches no memory (R100). -/
theorem sameBytes_isolated {s : State} (hi : s.sr.isc = true) (va : Word) (mask : BitVec 4) (w : Word) :
    (s.storeLanes va mask w).Splits s (SameBytes s) (SameBytes s) := by
  cases hma : s.mayAccess va
  · rw [storeLanes_forbidden hma]
    rfl
  · rw [storeLanes_isolated hma hi]
    show SameBytes s _
    rw [isolatedStore_rest]
    exact sameBytes_of_eq rfl rfl rfl rfl

/-- An instruction with a store's operands is one of the stores (R150). -/
theorem store_of_storeOperand {i : Instr} {base : Reg} {offset : Half} (h : storeOperand i = some (base, offset)) :
    ∃ rt, i = .sb base rt offset ∨ i = .sh base rt offset ∨ i = .sw base rt offset ∨ i = .swl base rt offset ∨
      i = .swr base rt offset := by
  unfold storeOperand at h
  split at h
  case h_6 => cases h
  all_goals
    cases h
    rename_i rt
    exact ⟨rt, by simp⟩

/-- Settles O58: a body makes no access, loads, or stores while isolated, and neither its completion nor an exception
entry nor a wait changes a byte. -/
theorem onlyStoresChangeMemory : Obligations.OnlyStoresChangeMemory := by
  intro i s t h hno
  have free : ∀ {u : State}, u = { s with freeIndex := u.freeIndex } → SameBytes s u := fun hu => free_seen hu
  have isolated : ∀ {base offset}, storeOperand i = some (base, offset) → s.sr.isc = true := fun {base offset} ho => by
    obtain ⟨rt, hstore⟩ := store_of_storeOperand ho
    refine hno.resolve_right fun hn => ?_
    obtain ⟨hsb, hsh, hsw, hswl, hswr⟩ := hn base rt offset
    rcases hstore with hs | hs | hs | hs | hs <;> contradiction
  rcases exec_splits (D := SameBytes s) (Q := SameBytes s) h (fun u hu => hu.sameBytes)
    (fun u r v hu => hu.trans (sameBytes_of_eq (by simp) (by simp) (by simp) (by simp)))
    (fun u va length hu => (sameBytes_loadWord u va length).mono (fun _ _ _ ht => (free hu).trans ht)
      fun _ ht => (free hu).trans ht)
    (fun u base offset mask w hu ho _ => (sameBytes_isolated (by rw [hu]; exact isolated ho) _ mask w).mono
      (fun _ _ _ ht => (free hu).trans ht) fun _ ht => (free hu).trans ht) with
    ⟨r, u, hu, rfl⟩ | ⟨x, u, hu, rfl⟩ | ⟨read, rfl⟩ | hq
  · exact hu.trans (sameBytes_of_eq rfl rfl rfl rfl)
  · exact (enters_take s u x hu).aborts.bytes
  · exact sameBytes_of_eq rfl rfl rfl rfl
  · exact hq

end Sys2Proof.Machine
end

section
/-! PROOFS. The computational instructions (42_computational.md R170 to R195): what the four shapes of them do, one source
or two, with and without the overflow test, and what the operations compute. -/

namespace Sys2Proof.Machine

/-! ### The shapes of the group (R170) -/

/-- The second of two source reads (R30). -/
theorem reads_readSrc2 (s : State) (rs rt : Reg) : s.Reads rt ((s.readSrc rs).2.readSrc rt).1 :=
  reads_readSrc_of (readSrc_ldSlot s rs) (readSrc_regs s rs) rt

section
variable {i : Instr} {s : State}

/-- One source: whatever holds of each source word and its result, holds of what is read and written. -/
theorem unary_writes {src dst : Reg} {f : Word → Word} {p : Word → Word → Prop}
    (hi : exec i s = s.finish (s.unary src dst f)) (hf : ∀ a, p a (f a)) :
    ∃ a v t, s.Reads src a ∧ exec i s = .next t ∧ Computes s t dst v ∧ p a v :=
  ⟨_, _, _, reads_readSrc s src, hi, computes_write s _ dst _ (readSrc_free s src), hf _⟩

/-- Two sources: whatever holds of each pair of source words and their result, holds of what is read and written. -/
theorem binary_writes {rs rt rd : Reg} {f : Word → Word → Word} {p : Word → Word → Word → Prop}
    (hi : exec i s = s.finish (s.binary rs rt rd f)) (hf : ∀ a b, p a b (f a b)) :
    ∃ a b v t, s.Reads rs a ∧ s.Reads rt b ∧ exec i s = .next t ∧ Computes s t rd v ∧ p a b v :=
  ⟨_, _, _, _, reads_readSrc s rs, reads_readSrc2 s rs rt, hi, computes_write s _ rd _ (readSrc2_free s rs rt), hf _ _⟩

/-- One source, where the result is a function `g` of it. -/
theorem unary_computes {src dst : Reg} {f g : Word → Word} (hi : exec i s = s.finish (s.unary src dst f))
    (hf : ∀ a, f a = g a) : ∃ a t, s.Reads src a ∧ exec i s = .next t ∧ Computes s t dst (g a) := by
  obtain ⟨a, _, t, ha, he, hc, rfl⟩ := unary_writes (p := fun a v => v = g a) hi hf
  exact ⟨a, t, ha, he, hc⟩

/-- Two sources, where the result is a function `g` of them. -/
theorem binary_computes {rs rt rd : Reg} {f g : Word → Word → Word} (hi : exec i s = s.finish (s.binary rs rt rd f))
    (hf : ∀ a b, f a b = g a b) :
    ∃ a b t, s.Reads rs a ∧ s.Reads rt b ∧ exec i s = .next t ∧ Computes s t rd (g a b) := by
  obtain ⟨a, b, _, t, ha, hb, he, hc, rfl⟩ := binary_writes (p := fun a b v => v = g a b) hi hf
  exact ⟨a, b, t, ha, hb, he, hc⟩

end

/-! ### Comparisons and extensions -/

theorem flagWord_decide (p : Prop) [Decidable p] : flagWord (decide p) = if p then 1 else 0 := by
  by_cases hp : p <;> simp [flagWord, hp]

theorem setLess_eq (a b : Word) : setLess a b = if a.toInt < b.toInt then 1 else 0 := flagWord_decide _

theorem setLessU_eq (a b : Word) : setLessU a b = if a.toNat < b.toNat then 1 else 0 := flagWord_decide _

theorem zext16_eq (imm : Half) : zext16 imm = imm.setWidth 32 := (BitVec.setWidth_eq_append (by decide)).symm

/-- Settles O17: one source and the sign-extended immediate. -/
theorem immediateArithmetic : Obligations.ImmediateArithmetic := fun _ _ _ imm =>
  ⟨unary_computes rfl fun _ => rfl,
    unary_computes rfl fun a => setLess_eq a (sext16 imm),
    unary_computes rfl fun a => setLessU_eq a (sext16 imm)⟩

/-- Settles O18: one source and the zero-extended immediate; LUI has no source. -/
theorem immediateLogic : Obligations.ImmediateLogic := fun s _ rt imm =>
  ⟨unary_computes rfl fun a => congrArg (a &&& ·) (zext16_eq imm),
    unary_computes rfl fun a => congrArg (a ||| ·) (zext16_eq imm),
    unary_computes rfl fun a => congrArg (a ^^^ ·) (zext16_eq imm),
    _, rfl, computes_write s s rt _ rfl⟩

/-- Settles O19: two sources; the comparisons give 1 or 0. -/
theorem registerArithmetic : Obligations.RegisterArithmetic := fun _ _ _ _ =>
  ⟨binary_computes rfl fun _ _ => rfl, binary_computes rfl fun _ _ => rfl,
    binary_computes rfl setLess_eq, binary_computes rfl setLessU_eq⟩

/-- Settles O20: two sources, and the operations are those of the statement. -/
theorem registerLogic : Obligations.RegisterLogic := fun _ _ _ _ =>
  ⟨binary_computes rfl fun _ _ => rfl, binary_computes rfl fun _ _ => rfl,
    binary_computes rfl fun _ _ => rfl, binary_computes rfl fun _ _ => rfl⟩

/-! ### Shifts, bit by bit -/

section
variable (b : Word) (n : Nat)

theorem getLsbD_shiftLeft_word : ∀ k < 32, (b <<< n).getLsbD k = (decide (n ≤ k) && b.getLsbD (k - n)) := by
  intro k hk
  rw [BitVec.getLsbD_shiftLeft, ← decide_not]
  simp [hk]

/-- Zeros come in from the left: a bit past the word is zero. -/
theorem getLsbD_shiftRight_word : ∀ k < 32, (b >>> n).getLsbD k = (decide (k + n < 32) && b.getLsbD (k + n)) := by
  intro k _
  rw [BitVec.getLsbD_ushiftRight, Nat.add_comm n k]
  by_cases hkn : k + n < 32
  · simp [hkn]
  · simp [hkn, BitVec.getLsbD_of_ge b (k + n) (by omega)]

theorem getLsbD_shiftRightArith :
    ∀ k < 32, (shiftRightArith b n).getLsbD k = if k + n < 32 then b.getLsbD (k + n) else b.getLsbD 31 := by
  intro k hk
  have hin : ¬ 32 ≤ k := by omega
  unfold shiftRightArith
  rw [BitVec.getLsbD_sshiftRight, Nat.add_comm n k, BitVec.msb_eq_getLsbD_last]
  simp [hin]

end

theorem shiftAmount_eq (a : Word) : shiftAmount a = a.toNat % 32 := by simp [shiftAmount]

/-- Settles O21: one source, `rt`, shifted by the constant. -/
theorem shiftsByConstant : Obligations.ShiftsByConstant := fun _ _ _ sa =>
  ⟨unary_writes rfl fun b => getLsbD_shiftLeft_word b sa.toNat,
    unary_writes rfl fun b => getLsbD_shiftRight_word b sa.toNat,
    unary_writes rfl fun b => getLsbD_shiftRightArith b sa.toNat⟩

/-- Settles O22: two sources, `rt` shifted by the low five bits of `rs`. -/
theorem shiftsByRegister : Obligations.ShiftsByRegister := by
  intro s rs rt rd
  simp only [← shiftAmount_eq]
  exact ⟨binary_writes rfl fun a b => getLsbD_shiftLeft_word b (shiftAmount a),
    binary_writes rfl fun a b => getLsbD_shiftRight_word b (shiftAmount a),
    binary_writes rfl fun a b => getLsbD_shiftRightArith b (shiftAmount a)⟩

/-! ### Overflow (R195) -/

/-- A word operation `f` and its overflow test stand for an integer operation: the test answers false exactly where the
integer result fits in 32 bits, and `f` gives that result, wrapped where it does not fit (R171, R179, R181, R195). -/
structure Exact (op : Int → Int → Int) (overflow : Word → Word → Bool) (f : Word → Word → Word) : Prop where
  fits : ∀ a b, overflow a b = false ↔ -2 ^ 31 ≤ op a.toInt b.toInt ∧ op a.toInt b.toInt < 2 ^ 31
  result : ∀ a b, f a b = BitVec.ofInt 32 (op a.toInt b.toInt)

theorem addOverflow_eq (a b : Word) : addOverflow a b = a.saddOverflow b := by
  rw [BitVec.saddOverflow_eq]
  rfl

theorem subOverflow_eq (a b : Word) : subOverflow a b = a.ssubOverflow b := by
  rw [BitVec.ssubOverflow_eq]
  simp only [subOverflow, BitVec.msb_eq_getLsbD_last]
  cases a.getLsbD 31 <;> cases b.getLsbD 31 <;> simp

theorem exact_add : Exact (· + ·) addOverflow (· + ·) where
  fits a b := by
    simp only [addOverflow_eq, BitVec.saddOverflow, Bool.or_eq_false_iff, decide_eq_false_iff_not]
    omega
  result a b := by simp only [BitVec.ofInt_add, BitVec.ofInt_toInt]

theorem exact_sub : Exact (· - ·) subOverflow (· - ·) where
  fits a b := by
    simp only [subOverflow_eq, BitVec.ssubOverflow, Bool.or_eq_false_iff, decide_eq_false_iff_not]
    omega
  result a b := BitVec.eq_of_toInt_eq (by rw [BitVec.toInt_sub, BitVec.toInt_ofInt])

section
variable {op : Int → Int → Int} {overflow : Word → Word → Bool} {f : Word → Word → Word} {i : Instr} {s : State}

/-- What the overflow test leads to, once the sources are read (R195, R358). -/
theorem Exact.outcome (h : Exact op overflow f) {u : State} (hu : u = { s with freeIndex := u.freeIndex }) (rd : Reg)
    (a b : Word) :
    ∃ t, s.finish (if overflow a b then .raise .ov u else .done {} (u.setGpr rd (f a b))) = .next t ∧
      if -2 ^ 31 ≤ op a.toInt b.toInt ∧ op a.toInt b.toInt < 2 ^ 31 then
        Computes s t rd (BitVec.ofInt 32 (op a.toInt b.toInt))
      else Enters s t 12 none none := by
  cases ho : overflow a b
  case false =>
    refine ⟨_, rfl, ?_⟩
    rw [if_pos ((h.fits a b).1 ho), ← h.result]
    exact computes_write s u rd _ hu
  case true =>
    refine ⟨_, rfl, ?_⟩
    rw [if_neg fun hfits => by rw [(h.fits a b).2 hfits] at ho; cases ho]
    exact enters_take s u .ov hu

/-- One source and a constant of integer value `x`, with the overflow test. -/
theorem Exact.unaryOv (h : Exact op overflow f) {src dst : Reg} {c : Word} {x : Int} (hx : c.toInt = x)
    (hi : exec i s = s.finish (s.unaryOv src dst c overflow f)) :
    ∃ a t, s.Reads src a ∧ exec i s = .next t ∧
      if -2 ^ 31 ≤ op a.toInt x ∧ op a.toInt x < 2 ^ 31 then Computes s t dst (BitVec.ofInt 32 (op a.toInt x))
      else Enters s t 12 none none := by
  subst hx
  obtain ⟨t, hend, ht⟩ := h.outcome (readSrc_free s src) dst (s.readSrc src).1 c
  exact ⟨_, t, reads_readSrc s src, hi.trans hend, ht⟩

/-- Two sources, with the overflow test. -/
theorem Exact.binaryOv (h : Exact op overflow f) {rs rt rd : Reg}
    (hi : exec i s = s.finish (s.binaryOv rs rt rd overflow f)) :
    ∃ a b t, s.Reads rs a ∧ s.Reads rt b ∧ exec i s = .next t ∧
      if -2 ^ 31 ≤ op a.toInt b.toInt ∧ op a.toInt b.toInt < 2 ^ 31 then
        Computes s t rd (BitVec.ofInt 32 (op a.toInt b.toInt))
      else Enters s t 12 none none := by
  obtain ⟨t, hend, ht⟩ := h.outcome (readSrc2_free s rs rt) rd (s.readSrc rs).1 ((s.readSrc rs).2.readSrc rt).1
  exact ⟨_, _, t, reads_readSrc s rs, reads_readSrc2 s rs rt, hi.trans hend, ht⟩

end

theorem sext16_toInt (imm : Half) : (sext16 imm).toInt = imm.toInt := BitVec.toInt_signExtend_of_le (by decide)

/-- Settles O23: the word tests are those of the exact sum and difference, and ADDI's constant is the immediate. -/
theorem overflowTraps : Obligations.OverflowTraps := fun _ _ _ _ imm =>
  ⟨exact_add.binaryOv rfl, exact_sub.binaryOv rfl, exact_add.unaryOv (sext16_toInt imm) rfl⟩

end Sys2Proof.Machine
end

section
/-! PROOFS. Multiply, divide and the moves of HI and LO (43_multiply_divide.md R200 to R210): a write of the pair, the
products, the moves; and the sequences that are refused, those of R209 and those of R417 (70_reset_and_hazards.md). -/

namespace Sys2Proof.Machine

/-! ### Writes of the pair (R210, R213) -/

section
variable {i : Instr} {s u : State}

/-- A body that ends in a write of HI and LO, source reads before it having used free values only. -/
theorem hiLo_written {hi lo : Word} {fresh : Bool} (hu : u = { s with freeIndex := u.freeIndex })
    (he : exec i s = s.finish (.done {} { u with hi := hi, lo := lo, mdFresh := fresh })) :
    ∃ t, exec i s = .next t ∧ t.hi = hi ∧ t.lo = lo ∧ t.mdFresh = fresh ∧ KeepsAllButHiLo s t :=
  ⟨_, he, rfl, rfl, rfl, hiLo_retire s u hi lo fresh hu⟩

/-- Far enough from MFHI and MFLO: whatever holds of each pair of source words and the result, holds of what is read and
what HI and LO then are. -/
theorem multiplyDivide_writes {rs rt : Reg} {result : Word → Word → State → (Word × Word) × State}
    {p : Word → Word → Word → Word → Prop} (hmfhi : s.sinceMfhi = 2) (hmflo : s.sinceMflo = 2)
    (hi : exec i s = s.finish (s.multiplyDivide rs rt result))
    (hfree : ∀ a b t, (result a b t).2 = { t with freeIndex := (result a b t).2.freeIndex })
    (hp : ∀ a b t, p a b (result a b t).1.1 (result a b t).1.2) :
    ∃ a b t, s.Reads rs a ∧ s.Reads rt b ∧ exec i s = .next t ∧ p a b t.hi t.lo ∧ t.mdFresh = true ∧
      KeepsAllButHiLo s t := by
  unfold State.multiplyDivide at hi
  rw [if_neg (by simp [hmfhi, hmflo])] at hi
  obtain ⟨t, he, hhi, hlo, hfresh, hkeeps⟩ := hiLo_written (free_trans (readSrc2_free s rs rt) (hfree _ _ _)) hi
  exact ⟨_, _, t, reads_readSrc s rs, reads_readSrc2 s rs rt, he, hhi ▸ hlo ▸ hp _ _ _, hfresh, hkeeps⟩

end

/-! ### Products (R200, R201) -/

theorem append_halves (p : BitVec 64) : p.extractLsb' 32 32 ++ p.extractLsb' 0 32 = p :=
  (BitVec.extractLsb'_append_extractLsb'_eq_extractLsb' rfl).trans BitVec.extractLsb'_eq_self

/-- The product of two signed words fits in 64 bits. -/
theorem productSigned_exact (a b : Word) :
    ((productSigned a b).1 ++ (productSigned a b).2 : BitVec 64).toInt = a.toInt * b.toInt := by
  have hlow : -2 ^ 62 ≤ a.toInt * b.toInt := BitVec.le_toInt_mul_toInt
  have hhigh : a.toInt * b.toInt ≤ 2 ^ 62 := BitVec.toInt_mul_toInt_le
  exact (congrArg BitVec.toInt (append_halves _)).trans
    (BitVec.toInt_ofInt_eq_self (by decide) (by omega) (by omega))

/-- The product of two unsigned words fits in 64 bits. -/
theorem productUnsigned_exact (a b : Word) :
    ((productUnsigned a b).1 ++ (productUnsigned a b).2 : BitVec 64).toNat = a.toNat * b.toNat :=
  (congrArg BitVec.toNat (append_halves _)).trans (Nat.mod_eq_of_lt BitVec.toNat_mul_toNat_lt)

/-- Settles O24: each writes the two halves of its product, which has 64 bits. -/
theorem multiplyWritesHiLo : Obligations.MultiplyWritesHiLo := fun _ _ _ hmfhi hmflo =>
  ⟨multiplyDivide_writes (p := fun a b hi lo => (hi ++ lo : BitVec 64).toInt = a.toInt * b.toInt) hmfhi hmflo rfl
      (fun _ _ _ => rfl) fun a b _ => productSigned_exact a b,
    multiplyDivide_writes (p := fun a b hi lo => (hi ++ lo : BitVec 64).toNat = a.toNat * b.toNat) hmfhi hmflo rfl
      (fun _ _ _ => rfl) fun a b _ => productUnsigned_exact a b⟩

/-! ### Moves -/

/-- A move of `v`, which is HI or LO, to register `rd`, the counters going on as `r` says (R204, R205). -/
theorem moveFrom_writes {i : Instr} {s : State} {rd : Reg} {v : Word} {r : Retire}
    (he : exec i s = s.finish (.done r { s.setGpr rd v with mdFresh := false })) :
    ∃ t, exec i s = .next t ∧ WritesOnly s t rd v ∧ t.hi = s.hi ∧ t.lo = s.lo ∧ t.mdFresh = false ∧
      SameCp0 s t ∧ SameMemory s t ∧ SamePins s t ∧ Completes s t r := by
  obtain ⟨hvalue, hzero, hothers⟩ := writesOnly_setGpr s rd v
  refine ⟨_, he, ⟨hvalue, hzero, hothers⟩, by simp, by simp, rfl, ?cp0, ?memory, ?pins, ?completes⟩
  case cp0 => constructor <;> simp
  case memory => constructor <;> simp
  case pins => constructor <;> simp
  case completes => apply completes_retire <;> simp

/-- Settles O26: one move, from HI and from LO. -/
theorem moveFromHiLo : Obligations.MoveFromHiLo := fun _ _ => ⟨moveFrom_writes rfl, moveFrom_writes rfl⟩

/-- A register of the pair that no multiply or divide was the last to write is not spoilt (R210). -/
theorem spoilt_value {s : State} (h : s.mdFresh = false) (v : Word) : (s.spoilt v).1 = v := by
  unfold State.spoilt
  rw [if_neg (by simp [h])]

/-- Settles O27: far enough from the move out of its register, each writes the pair, the other register spoilt only
after a multiply or divide. -/
theorem moveToHiLo : Obligations.MoveToHiLo := by
  intro s rs
  have free : ∀ v, ((s.readSrc rs).2.spoilt v).2 = { s with freeIndex := ((s.readSrc rs).2.spoilt v).2.freeIndex } :=
    fun v => free_trans (readSrc_free s rs) (spoilt_free _ v)
  have kept : s.mdFresh = false → ∀ v, ((s.readSrc rs).2.spoilt v).1 = v :=
    fun h v => spoilt_value ((readSrc_mdFresh s rs).trans h) v
  refine ⟨fun h => ?mthi, fun h => ?mtlo⟩
  case mthi =>
    obtain ⟨t, he, hhi, hlo, hfresh, hkeeps⟩ :=
      hiLo_written (i := .mthi rs) (free s.lo) (congrArg s.finish (if_neg (not_not.2 h)))
    exact ⟨_, t, reads_readSrc s rs, he, hhi, fun hf => hlo.trans (kept hf _), hfresh, hkeeps⟩
  case mtlo =>
    obtain ⟨t, he, hhi, hlo, hfresh, hkeeps⟩ :=
      hiLo_written (i := .mtlo rs) (free s.hi) (congrArg s.finish (if_neg (not_not.2 h)))
    exact ⟨_, t, reads_readSrc s rs, he, hlo, fun hf => hhi.trans (kept hf _), hfresh, hkeeps⟩

/-! ### Hazards (R209, R417) -/

section
variable {s : State}

theorem multiplyDivide_refused (h : s.sinceMfhi ≠ 2 ∨ s.sinceMflo ≠ 2) (rs rt : Reg)
    (result : Word → Word → State → (Word × Word) × State) :
    s.finish (s.multiplyDivide rs rt result) = .refused .hiLoWriteTooSoon :=
  congrArg s.finish (if_pos h)

theorem access_refused (h : s.afterMtc0 ≠ none) (base : Reg) (offset : Half) (k : Word → State → Act Retire) :
    s.finish (s.access base offset k) = .refused .memoryAfterMtc0 :=
  congrArg s.finish (if_pos (Option.isSome_iff_ne_none.2 h))

end

/-- Every load and store is an access through its base and offset, which begins with the test of the hazard (R150,
R417). -/
theorem exec_eq_access (s : State) {i : Instr} {base rt : Reg} {offset : Half}
    (hi : i ∈ [Instr.lb base rt offset, .lbu base rt offset, .lh base rt offset, .lhu base rt offset,
      .lw base rt offset, .lwl base rt offset, .lwr base rt offset, .sb base rt offset, .sh base rt offset,
      .sw base rt offset, .swl base rt offset, .swr base rt offset]) :
    ∃ k, exec i s = s.finish (s.access base offset k) := by
  simp only [List.mem_cons, List.not_mem_nil, or_false] at hi
  rcases hi with rfl | rfl | rfl | rfl | rfl | rfl | rfl | rfl | rfl | rfl | rfl | rfl <;> exact ⟨_, rfl⟩

/-- Settles O28: a multiply or divide, a move to HI or LO, and the access of a load or store test their hazard first. -/
theorem hazardsRefused : Obligations.HazardsRefused := by
  intro s rs rt offset
  refine ⟨fun h i hi => ?multiplyDivide, fun h => congrArg s.finish (if_pos h), fun h => congrArg s.finish (if_pos h),
    fun h i hi => ?memory⟩
  case multiplyDivide =>
    simp only [List.mem_cons, List.not_mem_nil, or_false] at hi
    rcases hi with rfl | rfl | rfl | rfl <;> exact multiplyDivide_refused h rs rt _
  case memory =>
    obtain ⟨k, he⟩ := exec_eq_access s hi
    exact he.trans (access_refused h rs offset k)

end Sys2Proof.Machine
end

section
/-! PROOFS. Jumps and branches (44_jump_branch.md R215 to R231): the conditions as signed comparisons, the shapes of the
group, one or two registers tested, linking or not; and the refusal of each in a delay slot (R216). -/

namespace Sys2Proof.Machine

/-! ### Conditions (R223 to R226) -/

theorem isNegative_eq (a : Word) : isNegative a = decide (a.toInt < 0) :=
  (BitVec.msb_eq_getLsbD_last a).symm.trans BitVec.msb_eq_toInt

theorem not_isNegative_eq (a : Word) : (!isNegative a) = decide (0 ≤ a.toInt) := by
  rw [isNegative_eq, ← decide_not]
  exact decide_eq_decide.2 not_lt

/-- The sign bit and the test for zero together are the signed comparison. -/
theorem isNonPositive_eq (a : Word) : isNonPositive a = decide (a.toInt ≤ 0) := by
  have hzero : a = 0 ↔ a.toInt = 0 := (BitVec.toInt_inj (y := 0)).symm
  calc isNonPositive a = (isNegative a || decide (a = 0)) := rfl
    _ = decide (a.toInt < 0 ∨ a = 0) := by rw [isNegative_eq, Bool.decide_or]
    _ = decide (a.toInt ≤ 0) := decide_eq_decide.2 (by rw [hzero]; exact le_iff_lt_or_eq.symm)

theorem not_isNonPositive_eq (a : Word) : (!isNonPositive a) = decide (0 < a.toInt) := by
  rw [isNonPositive_eq, ← decide_not]
  exact decide_eq_decide.2 not_le

/-! ### The shapes of the group (R215, R227, R228) -/

section
variable {i : Instr} {s : State} (hslot : s.inDelaySlot = false)
include hslot

/-- Outside a delay slot: a transfer that writes no register, source reads before it having used free values only. -/
theorem transfer_plain {u : State} {taken : Bool} {target : Word} (hu : u = { s with freeIndex := u.freeIndex })
    (hi : exec i s = s.finish (s.transfer (.done (branchTo taken target) u))) :
    ∃ t, exec i s = .next t ∧ SameGprs s t ∧ Transfers s t taken target := by
  rw [transfer_ok hslot] at hi
  exact ⟨_, hi, transfers_retire s u taken target hu⟩

/-- Outside a delay slot: a transfer that links in `rd`. -/
theorem transfer_links {u : State} {taken : Bool} {target : Word} {rd : Reg}
    (hu : u = { s with freeIndex := u.freeIndex })
    (hi : exec i s = s.finish (s.transfer (.done (branchTo taken target) (u.setGpr rd (linkAddr s.pc))))) :
    ∃ t, exec i s = .next t ∧ WritesOnly s t rd (s.pc + 8) ∧ Transfers s t taken target := by
  rw [transfer_ok hslot] at hi
  exact ⟨_, hi, transfers_link s u taken target rd _ hu⟩

/-- A branch on one register, whose condition is `g`. -/
theorem branch1_transfers {rs : Reg} {offset : Half} {cond g : Word → Bool}
    (hi : exec i s = s.finish (s.branch1 rs offset cond)) (hc : ∀ a, cond a = g a) :
    ∃ a t, s.Reads rs a ∧ exec i s = .next t ∧ SameGprs s t ∧ Transfers s t (g a) (branchTarget s.pc offset) := by
  obtain ⟨t, he, hgprs, ht⟩ := transfer_plain hslot (readSrc_free s rs) hi
  exact ⟨_, t, reads_readSrc s rs, he, hgprs, hc _ ▸ ht⟩

/-- A branch on two registers, whose condition is `g`. -/
theorem branch2_transfers {rs rt : Reg} {offset : Half} {cond g : Word → Word → Bool}
    (hi : exec i s = s.finish (s.branch2 rs rt offset cond)) (hc : ∀ a b, cond a b = g a b) :
    ∃ a b t, s.Reads rs a ∧ s.Reads rt b ∧ exec i s = .next t ∧ SameGprs s t ∧
      Transfers s t (g a b) (branchTarget s.pc offset) := by
  obtain ⟨t, he, hgprs, ht⟩ := transfer_plain hslot (readSrc2_free s rs rt) hi
  exact ⟨_, _, t, reads_readSrc s rs, reads_readSrc2 s rs rt, he, hgprs, hc _ _ ▸ ht⟩

/-- A branch that links, whose condition is `g`. -/
theorem branchLink_transfers {rs : Reg} {offset : Half} {cond g : Word → Bool}
    (hi : exec i s = s.finish (s.branchLink rs offset cond)) (hc : ∀ a, cond a = g a) :
    ∃ a t, s.Reads rs a ∧ exec i s = .next t ∧ WritesOnly s t 31 (s.pc + 8) ∧
      Transfers s t (g a) (branchTarget s.pc offset) := by
  obtain ⟨t, he, hlink, ht⟩ := transfer_links hslot (readSrc_free s rs) hi
  exact ⟨_, t, reads_readSrc s rs, he, hlink, hc _ ▸ ht⟩

end

/-- Settles O29: a transfer to the constant target, which links in r31 or not. -/
theorem jumpAndLink : Obligations.JumpAndLink := fun _ _ hslot =>
  ⟨transfer_plain hslot rfl rfl, transfer_links hslot rfl rfl⟩

/-- Settles O30: a transfer to the register read; JALR tests its two registers first. -/
theorem jumpRegister : Obligations.JumpRegister := by
  intro s rs rd hslot
  refine ⟨?jr, fun hne => ?jalr, ?same⟩
  case jr =>
    obtain ⟨t, ht⟩ := transfer_plain (i := .jr rs) hslot (readSrc_free s rs) rfl
    exact ⟨_, t, reads_readSrc s rs, ht⟩
  case jalr =>
    obtain ⟨t, ht⟩ := transfer_links (i := .jalr rs rd) hslot (readSrc_free s rs)
      (congrArg (fun body => s.finish (s.transfer body)) (if_neg hne))
    exact ⟨_, t, reads_readSrc s rs, ht⟩
  case same =>
    calc exec (.jalr rs rs) s = s.finish (s.transfer (.refuse .jalrSameRegister)) :=
          congrArg (fun body => s.finish (s.transfer body)) (if_pos rfl)
      _ = .refused .jalrSameRegister := congrArg s.finish (transfer_ok hslot _)

/-- Settles O31: two registers, equal or not. -/
theorem branchOnEqual : Obligations.BranchOnEqual := fun _ _ _ _ hslot =>
  ⟨branch2_transfers hslot rfl beq_eq_decide,
    branch2_transfers hslot rfl fun a b => by rw [bne, beq_eq_decide, ← decide_not]⟩

/-- Settles O32: one register, and its sign bit and test for zero are the signed comparisons. -/
theorem branchOnSign : Obligations.BranchOnSign := fun _ _ _ hslot =>
  ⟨branch1_transfers hslot rfl isNonPositive_eq, branch1_transfers hslot rfl not_isNonPositive_eq,
    branch1_transfers hslot rfl isNegative_eq, branch1_transfers hslot rfl not_isNegative_eq⟩

/-- Settles O33: the link is written whatever the condition, which is on the register as read before. -/
theorem branchAndLink : Obligations.BranchAndLink := fun _ _ _ hslot =>
  ⟨branchLink_transfers hslot rfl isNegative_eq, branchLink_transfers hslot rfl not_isNegative_eq⟩

/-! ### In a delay slot (R216) -/

/-- Every jump and branch on general registers is a transfer, which begins with the test of the delay slot. -/
theorem exec_eq_transfer (s : State) {i : Instr} {rs rt rd : Reg} {offset : Half} {target : BitVec 26}
    (hi : i ∈ [Instr.j target, .jal target, .jr rs, .jalr rs rd, .beq rs rt offset, .bne rs rt offset, .blez rs offset,
      .bgtz rs offset, .bltz rs offset, .bgez rs offset, .bltzal rs offset, .bgezal rs offset]) :
    ∃ body, exec i s = s.finish (s.transfer body) := by
  simp only [List.mem_cons, List.not_mem_nil, or_false] at hi
  rcases hi with rfl | rfl | rfl | rfl | rfl | rfl | rfl | rfl | rfl | rfl | rfl | rfl <;> exact ⟨_, rfl⟩

/-- BC0F and BC0T with CP0 usable are transfers in the state that the usability test leaves (R245, R246). -/
theorem exec_eq_transfer_of_hasCp0 {s : State} (hcp0 : s.HasCp0) {i : Instr} {offset : Half}
    (hi : i ∈ [Instr.bc0f offset, .bc0t offset]) :
    ∃ body, exec i s = s.finish (s.cp0Unusable.2.transfer body) := by
  simp only [List.mem_cons, List.not_mem_nil, or_false] at hi
  rcases hi with rfl | rfl <;> exact ⟨_, congrArg s.finish (withCp0_ok hcp0 _)⟩

/-- Settles O34: each is a transfer, in a state that is in the delay slot as well. -/
theorem jumpInDelaySlotRefused : Obligations.JumpInDelaySlotRefused := by
  intro s rs rt rd offset target hslot
  refine ⟨fun i hi => ?general, fun hcp0 i hi => ?cop0⟩
  case general =>
    obtain ⟨body, he⟩ := exec_eq_transfer s hi
    exact he.trans (congrArg s.finish (transfer_refused hslot body))
  case cop0 =>
    obtain ⟨body, he⟩ := exec_eq_transfer_of_hasCp0 hcp0 hi
    have hslot' : s.cp0Unusable.2.inDelaySlot = true := (cp0Unusable_inDelaySlot s).trans hslot
    exact he.trans (congrArg s.finish (transfer_refused hslot' body))

end Sys2Proof.Machine
end

section
/-! PROOFS. SYSCALL and BREAK (45_special.md R240 to R242): each is its exception raised in the state it started in. -/

namespace Sys2Proof.Machine

theorem exec_syscall_eq_takeException (s : State) : exec .syscall s = .next (s.takeException .sys) := rfl

/-- The code field does not occur on the right (R241). -/
theorem exec_brk_eq_takeException (code : BitVec 20) (s : State) : exec (.brk code) s = .next (s.takeException .bp) := rfl

/-- Settles O35: each takes its exception at once, with no free value used before it, and `enters_take` says all that taking
one does. -/
theorem syscallAndBreakTrap : Obligations.SyscallAndBreakTrap := fun s code =>
  ⟨⟨_, exec_syscall_eq_takeException s, enters_take s s .sys rfl⟩,
    ⟨_, exec_brk_eq_takeException code s, enters_take s s .bp rfl⟩⟩

end Sys2Proof.Machine
end

section
/-! PROOFS. BC0F and BC0T with CP0 usable (46_coprocessor.md R245 to R247), and the words of coprocessors 1 to 3 with
their Cu bit 0 (R249, R250; 60_exceptions.md R356). -/

namespace Sys2Proof.Machine

/-! ### The test of CpCond0 (R247) -/

theorem condReliable_iff (s : State) :
    s.condReliable = true ↔ s.sinceStore = 2 ∧
      ¬ (s.mode.iblock = true ∧ s.mode.istream = true ∧ inKseg1 s.pc = false ∧ s.pc.getLsbD 3 = false) := by
  have hsegment : cachedSegment s.pc = !inKseg1 s.pc := rfl
  simp only [State.condReliable, hsegment, Bool.and_eq_true, beq_iff_eq, Bool.not_eq_true', Bool.eq_false_iff, ne_eq,
    and_assoc]

/-- A reliable test gives CpCond0: whether the write buffer is empty. -/
theorem testCond_of_reliable {s : State} (h : s.condReliable = true) : s.testCond.1 = s.writeBuffer.isEmpty :=
  congrArg Prod.fst (if_pos h)

/-- The usability test of CP0 before the test of CpCond0 leaves all that the latter rests on. -/
theorem condReliable_cp0Unusable (s : State) : s.cp0Unusable.2.condReliable = s.condReliable := by
  unfold State.condReliable
  rw [cp0Unusable_sinceStore, cp0Unusable_mode, cp0Unusable_pc]

theorem testCond_cp0Unusable_of_reliable {s : State} (h : s.condReliable = true) :
    s.cp0Unusable.2.testCond.1 = s.writeBuffer.isEmpty := by
  rw [testCond_of_reliable ((condReliable_cp0Unusable s).trans h), cp0Unusable_writeBuffer]

/-! ### BC0F and BC0T (R245, R246) -/

/-- With CP0 usable and outside a delay slot: a branch on the test of CpCond0, which is taken as `taken` says. -/
theorem branchOnCond_transfers {i : Instr} {s : State} {offset : Half} (hcp0 : s.HasCp0) (hslot : s.inDelaySlot = false)
    (taken : Bool → Bool)
    (hi : exec i s = s.finish (s.withCp0 fun t =>
      t.transfer (.done (branchTo (taken t.testCond.1) (branchTarget t.pc offset)) t.testCond.2))) :
    ∃ t, exec i s = .next t ∧ SameGprs s t ∧
      Transfers s t (taken s.cp0Unusable.2.testCond.1) (branchTarget s.pc offset) := by
  have hslot' : s.cp0Unusable.2.inDelaySlot = false := (cp0Unusable_inDelaySlot s).trans hslot
  rw [withCp0_ok hcp0, transfer_ok hslot', cp0Unusable_pc] at hi
  exact ⟨_, hi, transfers_retire s _ _ _ (free_trans (cp0Unusable_free s) (testCond_free _))⟩

/-- Settles O36: both branch on one test, BC0F on its negation, and the test is that of the write buffer when it is
reliable. -/
theorem branchOnWriteBuffer : Obligations.BranchOnWriteBuffer := by
  intro s offset hcp0 hslot
  obtain ⟨t, het, hgprst, ht⟩ := branchOnCond_transfers (i := .bc0f offset) hcp0 hslot (!·) rfl
  obtain ⟨u, heu, hgprsu, hu⟩ := branchOnCond_transfers (i := .bc0t offset) hcp0 hslot id rfl
  refine ⟨_, _, t, u, het, hgprst, ht, heu, hgprsu, hu, fun hstore hplace => ?_⟩
  have htest : s.cp0Unusable.2.testCond.1 = s.writeBuffer.isEmpty :=
    testCond_cp0Unusable_of_reliable ((condReliable_iff s).2 ⟨hstore, hplace⟩)
  rw [htest]
  exact ⟨by simp, List.isEmpty_iff⟩

/-! ### Coprocessors 1 to 3 (R249, R250) -/

/-- Every word of coprocessors 1 to 3 is the test of its unit; the word's other fields do not occur on the right. -/
theorem exec_eq_absentUnit (s : State) {z : BitVec 2} {i : Instr} {cofun : BitVec 26} {base rt : Reg} {offset : Half}
    (hi : (z, i) ∈ [(1#2, Instr.cop1 cofun), (2#2, .cop2 cofun), (3#2, .cop3 cofun), (1#2, .lwc1 base rt offset),
      (2#2, .lwc2 base rt offset), (3#2, .lwc3 base rt offset), (1#2, .swc1 base rt offset),
      (2#2, .swc2 base rt offset), (3#2, .swc3 base rt offset)]) :
    exec i s = s.finish (s.absentUnit z) := by
  simp only [List.mem_cons, List.not_mem_nil, or_false, Prod.mk.injEq] at hi
  rcases hi with ⟨rfl, rfl⟩ | ⟨rfl, rfl⟩ | ⟨rfl, rfl⟩ | ⟨rfl, rfl⟩ | ⟨rfl, rfl⟩ | ⟨rfl, rfl⟩ | ⟨rfl, rfl⟩ | ⟨rfl, rfl⟩ |
    ⟨rfl, rfl⟩ <;> rfl

/-- With Cu[z] = 0 in every view that the step may see, nothing precedes the exception but the use of CP0. -/
theorem absentUnit_raises {s : State} {z : BitVec 2} (h : ∀ v, s.MaySee v → v.sr.cu.getLsbD z.toNat = false) :
    s.absentUnit z = .raise (.cpu z) (s.useCp0 fun v => v.sr.cu.getLsbD z.toNat).2 :=
  if_neg (Bool.eq_false_iff.1 (useCp0_all s _ false h))

/-- Settles O38: each word is the test of its unit, which raises CpU, and `enters_take` says all that taking it does. -/
theorem absentCoprocessorsTrap : Obligations.AbsentCoprocessorsTrap := by
  intro s z cofun base rt offset hcu i hi
  have he : exec i s = .next ((s.useCp0 fun v => v.sr.cu.getLsbD z.toNat).2.takeException (.cpu z)) :=
    (exec_eq_absentUnit s hi).trans (congrArg s.finish (absentUnit_raises hcu))
  exact ⟨_, he, enters_take s _ (.cpu z) (useCp0_free _ _)⟩

end Sys2Proof.Machine
end

section
/-! PROOFS. Coprocessor 0 (46_coprocessor.md R248 to R250; 47_cp0.md R255 to R260): the usability test before each of its
instructions, the words that are refused, what MTC0 writes and MFC0 reads of each register, the pop of RFE. -/

namespace Sys2Proof.Machine

/-! ### The usability test (R248, R258) -/

/-- Every instruction of coprocessor 0 begins with the usability test. -/
theorem exec_eq_withCp0 (s : State) {i : Instr} {rt rd base : Reg} {offset : Half}
    (hi : i ∈ [Instr.mtc0 rt rd, .mfc0 rt rd, .rfe, .bc0f offset, .bc0t offset, .lwc0 base rt offset,
      .swc0 base rt offset, .tlbr, .tlbwi, .tlbwr, .tlbp]) : ∃ k, exec i s = s.finish (s.withCp0 k) := by
  simp only [List.mem_cons, List.not_mem_nil, or_false] at hi
  rcases hi with rfl | rfl | rfl | rfl | rfl | rfl | rfl | rfl | rfl | rfl | rfl <;> exact ⟨_, rfl⟩

/-- Settles O37: the usability test, which fails in every view that the step may see, comes first, and `enters_take` says
all that taking its exception does. -/
theorem cop0Unusable : Obligations.Cop0Unusable := by
  intro s rt rd base offset hno i hi
  obtain ⟨k, he⟩ := exec_eq_withCp0 s hi
  exact ⟨_, he.trans (congrArg s.finish (withCp0_no hno k)), enters_take s _ (.cpu 0) (cp0Unusable_free s)⟩

/-! ### The registers that the chip has (R260) -/

/-- The numbers of the CP0 registers, as the tests of MTC0 and MFC0 compare them. -/
theorem mem_cp0Registers_iff (rd : Reg) :
    rd ∈ [4#5, 8#5, 12#5, 13#5, 14#5, 15#5] ↔ rd.toNat ∈ [4, 8, 12, 13, 14, 15] := by
  revert rd
  decide

theorem readCp0_eq_none_iff (s : State) (rd : Reg) :
    s.readCp0 rd = none ↔ rd ∉ [4#5, 8#5, 12#5, 13#5, 14#5, 15#5] := by
  rw [mem_cp0Registers_iff]
  unfold State.readCp0
  dsimp only
  split
  case h_3 hrd => split <;> simp [hrd]
  case h_7 h4 h8 h12 h13 h14 h15 => simpa using ⟨h4, h8, h12, h13, h14, h15⟩
  all_goals simp [*]

theorem writeCp0_eq_none_iff (s : State) (rd : Reg) (w : Word) :
    s.writeCp0 rd w = none ↔ rd ∉ [4#5, 8#5, 12#5, 13#5, 14#5, 15#5] := by
  rw [mem_cp0Registers_iff]
  unfold State.writeCp0
  split
  case h_3 hrd => split <;> simp [hrd]
  case h_7 h4 h8 h12 h13 h14 h15 => simpa using ⟨h4, h8, h12, h13, h14, h15⟩
  all_goals simp [*]

section
variable {s : State} (hcp0 : s.HasCp0)
include hcp0

/-! ### MTC0 and MFC0 with CP0 usable -/

theorem exec_mtc0_absent {rt rd : Reg} (hrd : rd ∉ [4#5, 8#5, 12#5, 13#5, 14#5, 15#5]) :
    exec (.mtc0 rt rd) s = .refused (.absentCp0Register rd) := by
  change execMtc0 rt rd s = _
  unfold execMtc0
  rw [withCp0_ok hcp0, (writeCp0_eq_none_iff _ rd _).2 hrd]
  rfl

theorem exec_mtc0_present {rt rd : Reg} {u : State}
    (hu : (s.cp0Unusable.2.readSrc rt).2.writeCp0 rd (s.cp0Unusable.2.readSrc rt).1 = some u) :
    exec (.mtc0 rt rd) s = .next (u.retire { mtc0 := some s.cp0View }) := by
  change execMtc0 rt rd s = _
  unfold execMtc0
  rw [withCp0_ok hcp0, hu]
  rfl

theorem exec_mfc0_absent {rt rd : Reg} (hrd : rd ∉ [4#5, 8#5, 12#5, 13#5, 14#5, 15#5]) :
    exec (.mfc0 rt rd) s = .refused (.absentCp0Register rd) := by
  change execMfc0 rt rd s = _
  unfold execMfc0
  rw [withCp0_ok hcp0, (readCp0_eq_none_iff _ rd).2 hrd]
  rfl

theorem exec_mfc0_present {rt rd : Reg} {r : Word × State} (hr : s.cp0Unusable.2.readCp0 rd = some r) :
    exec (.mfc0 rt rd) s = .next ((r.2.setGpr rt r.1).retire { load := some rt }) := by
  change execMfc0 rt rd s = _
  unfold execMfc0
  rw [withCp0_ok hcp0, hr]
  rfl

theorem exec_removedTlb {i : Instr} (hi : i ∈ [Instr.tlbr, .tlbwi, .tlbwr, .tlbp]) :
    exec i s = .refused .removedTlbInstruction := by
  have he : exec i s = s.finish s.removedTlb := by
    simp only [List.mem_cons, List.not_mem_nil, or_false] at hi
    rcases hi with rfl | rfl | rfl | rfl <;> rfl
  exact he.trans (congrArg s.finish (withCp0_ok hcp0 _))

end

/-! ### Refusals (R249, R250, R259, R260) -/

/-- With Cu[z] = 1 in every view that the step may see. -/
theorem absentUnit_refuses {s : State} {z : BitVec 2} (h : ∀ v, s.MaySee v → v.sr.cu.getLsbD z.toNat = true) :
    s.absentUnit z = .refuse (.absentCoprocessor z) :=
  if_pos (useCp0_all s _ true h)

/-- Settles O39: each unit's test, and with CP0 usable what follows its usability test. -/
theorem coprocessorRefusals : Obligations.CoprocessorRefusals := by
  intro s cofun base rt rd offset
  refine ⟨fun z i hcu hi => ?units, fun hcp0 => ⟨?lwc0, ?swc0, fun i hi => exec_removedTlb hcp0 hi,
    fun hrd => ⟨exec_mtc0_absent hcp0 hrd, exec_mfc0_absent hcp0 hrd⟩⟩⟩
  case units => exact (exec_eq_absentUnit s hi).trans (congrArg s.finish (absentUnit_refuses hcu))
  case lwc0 | swc0 => exact congrArg s.finish (withCp0_ok hcp0 _)

/-! ### The frame of MTC0, MFC0 and RFE -/

/-- What an instruction without an access to memory leaves, when it completes. -/
theorem Internal.frame {s u : State} (h : Internal s u) (r : Retire) :
    SameMemory s (u.retire r) ∧ SamePins s (u.retire r) ∧ Completes s (u.retire r) r := by
  unfold Internal at h
  refine ⟨?memory, ?pins, ?completes⟩
  case memory => rw [h]; constructor <;> intros <;> rfl
  case pins => rw [h]; constructor <;> rfl
  case completes => apply completes_retire <;> rw [h]

/-! ### MTC0 (R255) -/

/-- `u` is `s` after `w` was written to CP0 register `rd`: PTEBase, the fields of SR but CM, and SW are written through
their registers, and no other register of the chip is (R40, R51, R60; D9, D30). -/
structure Cp0Written (s u : State) (rd : Reg) (w : Word) : Prop where
  rest : u = { s with pteBase := u.pteBase, cause := u.cause, sr := u.sr, freeIndex := u.freeIndex }
  pteBase : u.pteBase = if rd = 4#5 then w.extractLsb' 21 11 else s.pteBase
  cause : u.cause = if rd = 13#5 then { s.cause with sw := w.extractLsb' 8 2 } else s.cause
  otherSr : rd ≠ 12#5 → u.sr = s.sr
  sr : rd = 12#5 → u.sr = { s.sr.written w with cm := u.sr.cm }
  cm : s.sr.isc = true → u.sr.cm = s.sr.cm

/-- SR is written field by field; CM is spoilt only where IsC goes from 0 to 1 (R45). -/
theorem writeCp0_status {s u : State} {w : Word} (h : s.writeCp0 12#5 w = some u) :
    u = { s with sr := u.sr, freeIndex := u.freeIndex } ∧ u.sr = { s.sr.written w with cm := u.sr.cm } ∧
      (s.sr.isc = true → u.sr.cm = s.sr.cm) := by
  change (if (s.sr.written w).isc && !s.sr.isc then
      some { s.freshBit.2 with sr := { s.sr.written w with cm := s.freshBit.1 } }
    else some { s with sr := s.sr.written w }) = some u at h
  split at h
  case isTrue hisc =>
    cases h
    exact ⟨rfl, rfl, fun hs => by simp [hs] at hisc⟩
  case isFalse =>
    cases h
    exact ⟨rfl, rfl, fun _ => rfl⟩

theorem writeCp0_written {s u : State} {rd : Reg} {w : Word} (hrd : rd ∈ [4#5, 8#5, 12#5, 13#5, 14#5, 15#5])
    (h : s.writeCp0 rd w = some u) : Cp0Written s u rd w := by
  simp only [List.mem_cons, List.not_mem_nil, or_false] at hrd
  rcases hrd with rfl | rfl | rfl | rfl | rfl | rfl
  case inr.inr.inl => -- SR, the only one with a free value (R45)
    obtain ⟨hrest, hsr, hcm⟩ := writeCp0_status h
    exact ⟨by rw [hrest], by rw [hrest]; rfl, by rw [hrest]; rfl, fun hne => absurd rfl hne, fun _ => hsr, hcm⟩
  all_goals
    cases Option.some.inj h
    exact ⟨rfl, rfl, rfl, fun _ => rfl, fun he => absurd he (by decide), fun _ => rfl⟩

/-- The same where free values were used before the write. -/
theorem Cp0Written.of_free {s t u : State} {rd : Reg} {w : Word} (ht : t = { s with freeIndex := t.freeIndex })
    (h : Cp0Written t u rd w) : Cp0Written s u rd w := by
  generalize t.freeIndex = n at ht
  subst ht
  exact ⟨h.rest, h.pteBase, h.cause, h.otherSr, h.sr, h.cm⟩

/-- Settles O40: the usability test and the source read use free values only, and `Cp0Written` says what the write does. -/
theorem mtc0Writes : Obligations.Mtc0Writes := by
  intro s rt rd hcp0 hrd
  have hfree := free_trans (cp0Unusable_free s) (readSrc_free _ rt)
  obtain ⟨u, hu⟩ := Option.ne_none_iff_exists'.1 fun hnone =>
    (writeCp0_eq_none_iff (s.cp0Unusable.2.readSrc rt).2 rd (s.cp0Unusable.2.readSrc rt).1).1 hnone hrd
  obtain ⟨hrest, hpte, hcause, hother, hsr, hcm⟩ := (writeCp0_written hrd hu).of_free hfree
  obtain ⟨hmemory, hpins, hcompletes⟩ := (internal_writeCp0 hfree hu).frame { mtc0 := some s.cp0View }
  refine ⟨_, _, reads_readSrc_of (cp0Unusable_ldSlot s) (cp0Unusable_regs s) rt, exec_mtc0_present hcp0 hu, hpte, hcause,
    hother, fun he => ⟨hsr he, hcm⟩, ?epc, ?badVAddr, fun q => ?gprs, ?hiLo, hmemory, hpins, hcompletes⟩
  case epc => rw [retire_epc, hrest]
  case badVAddr => rw [retire_badVAddr, hrest]
  case gprs => rw [readGpr_retire, hrest]; rfl
  case hiLo => rw [hrest]; constructor <;> rfl

/-! ### MFC0 (R256) -/

/-- `w` is what CP0 register `rd` may read as: a field that MTC0 can write as the step may see it, VPN any value, and CM
any value while IsC = 0 (R40, R45, R51, R60, R255). -/
structure Cp0Reads (s : State) (rd : Reg) (w : Word) : Prop where
  badVAddr : rd = 8#5 → w = s.badVAddr
  epc : rd = 14#5 → w = s.epc
  prid : rd = 15#5 → w = Config.pridValue
  context : rd = 4#5 → ∃ v vpn, s.MaySee v ∧ w = contextWord v.pteBase vpn
  cause : rd = 13#5 → ∃ v, s.MaySee v ∧ w = s.cause.toWord s.inputs.int v.sw
  status : rd = 12#5 → ∃ v cm, s.MaySee v ∧ (v.sr.isc = true → cm = v.sr.cm) ∧ w = v.sr.toWord cm

/-- SR with CM as it stands, or any value while IsC = 0. -/
theorem readCp0_status {s : State} {r : Word × State} (h : s.readCp0 12#5 = some r) :
    ∃ cm, ((s.useCp0 id).1.sr.isc = true → cm = (s.useCp0 id).1.sr.cm) ∧ r.1 = (s.useCp0 id).1.sr.toWord cm := by
  change (if (s.useCp0 id).1.sr.isc then
      some ((s.useCp0 id).1.sr.toWord (s.useCp0 id).1.sr.cm, (s.useCp0 id).2)
    else some ((s.useCp0 id).1.sr.toWord (s.useCp0 id).2.freshBit.1, (s.useCp0 id).2.freshBit.2)) = some r at h
  split at h
  case isTrue =>
    cases h
    exact ⟨_, fun _ => rfl, rfl⟩
  case isFalse hisc =>
    cases h
    exact ⟨_, fun hs => absurd hs hisc, rfl⟩

theorem readCp0_reads {s : State} {rd : Reg} {r : Word × State} (h : s.readCp0 rd = some r) : Cp0Reads s rd r.1 := by
  obtain ⟨v, hv, hview⟩ := useCp0_mayView s id
  constructor <;> rintro rfl
  case badVAddr | epc | prid => cases Option.some.inj h; rfl
  case context => cases Option.some.inj h; exact ⟨v, _, hv, by rw [hview]; rfl⟩
  case cause => cases Option.some.inj h; exact ⟨v, hv, by rw [hview]; rfl⟩
  case status =>
    obtain ⟨cm, hcm, hw⟩ := readCp0_status h
    rw [hview] at hcm hw
    exact ⟨v, cm, hv, hcm, hw⟩

/-- The same where free values were used before the read. -/
theorem Cp0Reads.of_free {s t : State} {rd : Reg} {w : Word} (ht : t = { s with freeIndex := t.freeIndex })
    (h : Cp0Reads t rd w) : Cp0Reads s rd w := by
  generalize t.freeIndex = n at ht
  subst ht
  exact ⟨h.badVAddr, h.epc, h.prid, h.context, h.cause, h.status⟩

/-- Settles O41: the usability test and the read use free values only, `Cp0Reads` says what is read, and the words of
Context, Cause and SR are taken apart field by field. -/
theorem mfc0Reads : Obligations.Mfc0Reads := by
  intro s rt rd hcp0 hrd
  obtain ⟨⟨w, u⟩, hr⟩ := Option.ne_none_iff_exists'.1 fun hnone => (readCp0_eq_none_iff s.cp0Unusable.2 rd).1 hnone hrd
  have hfree : u = { s with freeIndex := u.freeIndex } := free_trans (cp0Unusable_free s) (readCp0_free hr)
  have hreads : Cp0Reads s rd w := (readCp0_reads hr).of_free (cp0Unusable_free s)
  obtain ⟨hvalue, hzero, hothers⟩ := writesOnly_setGpr u rt w
  obtain ⟨hmemory, hpins, hcompletes⟩ := (internal_setGpr hfree rt w).frame { load := some rt }
  refine ⟨w, _, exec_mfc0_present hcp0 hr, ⟨hvalue, hzero, fun q hq => ?gprs⟩, ?hiLo, ?cp0, hmemory, hpins, hcompletes,
    hreads.badVAddr, hreads.epc, hreads.prid, fun he => ?context, fun he => ?cause, fun he => ?status⟩
  case gprs => exact (hothers q hq).trans (readGpr_of_regs (by rw [hfree]) q)
  case hiLo => rw [hfree]; constructor <;> simp
  case cp0 => rw [hfree]; constructor <;> simp
  case context =>
    obtain ⟨v, vpn, hv, rfl⟩ := hreads.context he
    obtain ⟨hpte, -, hlow⟩ := contextWord_fields v.pteBase vpn
    exact ⟨v, hv, hpte, hlow⟩
  case cause =>
    obtain ⟨v, hv, rfl⟩ := hreads.cause he
    exact ⟨v, hv, causeWord_fields s.cause s.inputs.int v.sw⟩
  case status =>
    obtain ⟨v, cm, hv, hcm, rfl⟩ := hreads.status he
    obtain ⟨hcu, h26, hre, h23, hbev, h20, h19, hrest⟩ := toWord_fields v.sr cm
    exact ⟨v, hv, hcu, h26, hre, h23, hbev, h20, fun hisc => h19.trans (hcm hisc), hrest⟩

/-! ### RFE (R257) -/

/-- The levels popped are those of a view that the step may see. -/
theorem popModes_stack (s : State) :
    ∃ v, s.MaySee v ∧ StackIs s s.popModes s.sr.kuo s.sr.ieo v.sr.kuo v.sr.ieo v.sr.kup v.sr.iep := by
  obtain ⟨v, hv, hseen⟩ := useCp0_mayView s fun v => (v.sr.kuo, v.sr.ieo, v.sr.kup, v.sr.iep)
  have hsr : s.popModes.sr = s.sr.pop (v.sr.kuo, v.sr.ieo, v.sr.kup, v.sr.iep) := congrArg s.sr.pop hseen
  exact ⟨v, hv, by constructor <;> simp [hsr, Status.pop]⟩

theorem exec_rfe {s : State} (hcp0 : s.HasCp0) :
    exec .rfe s = if s.prevMem then .refused .rfeAfterMemory else .next (s.cp0Unusable.2.popModes.retire {}) := by
  change execRfe s = _
  unfold execRfe
  rw [withCp0_ok hcp0, cp0Unusable_prevMem]
  cases s.prevMem <;> rfl

/-- Settles O42: after the usability test, which uses free values only, the pop or the refusal. -/
theorem rfePops : Obligations.RfePops := by
  intro s hcp0
  refine ⟨fun hprev => ?pops, fun hprev => by rw [exec_rfe hcp0, if_pos hprev]⟩
  obtain ⟨v, hv, hstack⟩ := popModes_stack s.cp0Unusable.2
  obtain ⟨hmemory, hpins, hcompletes⟩ := (internal_popModes (cp0Unusable_free s)).frame {}
  rw [maySee_of (cp0Unusable_free s)] at hv
  refine ⟨v, _, hv, by rw [exec_rfe hcp0, if_neg (by simp [hprev])], ?stack, ?cause, ?epc, ?badVAddr, ?pteBase,
    fun q => ?gprs, ?hiLo, hmemory, hpins, hcompletes⟩
  case stack =>
    obtain ⟨hkuo, hieo, hkup, hiep, hkuc, hiec, hrest⟩ := hstack
    rw [cp0Unusable_sr] at hkuo hieo hrest
    exact ⟨hkuo, hieo, hkup, hiep, hkuc, hiec, hrest⟩
  case gprs => exact readGpr_of_regs (by simp) q
  case hiLo => constructor <;> simp
  all_goals simp

end Sys2Proof.Machine
end

section
/-! PROOFS. User mode is confined while Cu0 = 0 (20_memory.md R73; 60_exceptions.md R386, R387): what precedes execution
leaves CP0 alone or takes an exception, the instructions of coprocessor 0 raise CpU, the others leave CP0 alone, and no
store reaches physical memory from 0x80000000 up. -/

namespace Sys2Proof.Machine

/-! ### What precedes execution -/

/-- What can become of a state before an instruction is executed in it (R27): fetches were done, and perhaps an exception
taken or a held bus waited for. -/
inductive Precedes (s : State) : State → Prop where
  | aside (t : State) : Aside s t → Precedes s t
  | takes (x : Exc) (u : State) : Aside s u → Precedes s (u.takeException x)
  | stalls (read : Bool) (u : State) : Aside s u → Precedes s (u.stalled read)

theorem rejected_precedes {s u : State} (h : Aside s u) (r : Reject) :
    (Fetched.ended (u.rejected r)).Meets (Precedes s) := by
  cases r with
  | reservedInstruction => exact meets_next (.takes .ri u h)
  | unlistedCop0 =>
    unfold State.rejected
    dsimp only
    split
    · exact meets_next (.takes (.cpu 0) _ (h.trans (aside_free (cp0Unusable_free u))))
    · exact meets_refused _
  | blankBcond => exact meets_refused _
  | nonzeroConstantField => exact meets_refused _

theorem fetchDecode_precedes {s u : State} (h : Aside s u) : u.fetchDecode.Meets (Precedes s) := by
  have hf := abortsOne_fetch u u.pc u.inputs.fetchSizrq
  unfold State.fetchDecode State.fetchWord
  cases hw : u.fetchFrom u.inputs.fetchSizrq u.pc <;> rw [hw] at hf
  case done w t =>
    dsimp only
    cases decode w with
    | ok i => exact .aside t (h.trans hf.aside)
    | error r => exact rejected_precedes (h.trans hf.aside) r
  case raise x t => exact meets_next (.takes x t (h.trans hf.aside))
  case stall read => exact meets_next (.stalls read u h)
  case stuck t => exact meets_waits (.aside t (h.trans hf.aside))
  case refuse r => exact meets_refused r

/-- Without a RESET, what precedes execution starts from the sampled state. -/
theorem fetchPhase_precedes {s : State} (hr : s.resetPulse = none) : s.fetchPhase.Meets (Precedes s.sample) := by
  have hs : Aside s.sample s.sample := aside_free rfl
  have hi : Aside s.sample s.sample.interrupted.2 := aside_free (interrupted_free _)
  unfold State.fetchPhase
  simp only [hr]
  split
  · exact meets_refused _
  · split
    · exact meets_waits (.aside _ hs)
    · split
      · exact meets_next (.aside _ hs)
      · split
        · exact meets_next (.takes .interrupt _ hi)
        · exact fetchDecode_precedes hi

/-! ### The instructions that are not of coprocessor 0 -/

/-- CP0 is as it was, but for the CM bit of SR, which an isolated load sets (R45). -/
structure KeepsCp0 (s t : State) : Prop where
  sr : t.sr = { s.sr with cm := t.sr.cm }
  cause : t.cause = s.cause
  epc : t.epc = s.epc
  badVAddr : t.badVAddr = s.badVAddr
  pteBase : t.pteBase = s.pteBase

theorem KeepsCp0.trans {s t u : State} (h : KeepsCp0 s t) (g : KeepsCp0 t u) : KeepsCp0 s u :=
  ⟨by rw [g.sr, h.sr], g.cause.trans h.cause, g.epc.trans h.epc, g.badVAddr.trans h.badVAddr, g.pteBase.trans h.pteBase⟩

theorem Accessed.keepsCp0 {s t : State} (h : Accessed s t) : KeepsCp0 s t := by
  unfold Accessed at h
  constructor <;> rw [h]

theorem WaitsForEver.keepsCp0 {s t : State} (h : WaitsForEver s t) : KeepsCp0 s t := by
  constructor <;> rw [h.2]

theorem keepsCp0_setGpr {s t : State} (h : KeepsCp0 s t) (r : Reg) (v : Word) : KeepsCp0 s (t.setGpr r v) := by
  rw [setGpr_rest]
  exact ⟨h.sr, h.cause, h.epc, h.badVAddr, h.pteBase⟩

/-- How a body ends that spares CP0: done, and it is no MTC0 and leaves CP0 alone; with an exception, nothing done but that
free values were used; or waiting for ever. -/
def Act.Spares (s : State) (a : Act Retire) : Prop :=
  match a with
  | .done r t => r.mtc0 = none ∧ KeepsCp0 s t
  | .raise _ t => t = { s with freeIndex := t.freeIndex }
  | .stall _ => True
  | .stuck t => WaitsForEver s t
  | .refuse _ => True

/-- A body that goes on after an access. -/
theorem Act.Splits.spares {α : Type} {s u : State} {a : Act α} {f : α → State → Act Retire}
    (hu : u = { s with freeIndex := u.freeIndex }) (ha : a.Splits u (Accessed u) (WaitsForEver u))
    (hf : ∀ x t, KeepsCp0 s t → (f x t).Spares s) : (a.bind f).Spares s := by
  cases a with
  | done x t => exact hf x t ((accessed_free hu).keepsCp0.trans (Accessed.keepsCp0 ha))
  | raise x t => exact free_trans hu ha
  | stall read => trivial
  | stuck t => exact WaitsForEver.of_free hu ha
  | refuse r => trivial

section
variable {s u : State} (hu : u = { s with freeIndex := u.freeIndex })
include hu

theorem spares_free {r : Retire} (hr : r.mtc0 = none) : (Act.done r u).Spares s :=
  ⟨hr, (accessed_free hu).keepsCp0⟩

theorem spares_write {r : Retire} (hr : r.mtc0 = none) (rd : Reg) (v : Word) : (Act.done r (u.setGpr rd v)).Spares s :=
  ⟨hr, keepsCp0_setGpr (accessed_free hu).keepsCp0 rd v⟩

theorem spares_hiLo {r : Retire} (hr : r.mtc0 = none) (hi lo : Word) (fresh : Bool) :
    (Act.done r { u with hi := hi, lo := lo, mdFresh := fresh }).Spares s := by
  obtain ⟨hsr, hcause, hepc, hbad, hpte⟩ := (accessed_free hu).keepsCp0
  exact ⟨hr, hsr, hcause, hepc, hbad, hpte⟩

end

section
variable (s : State)

theorem spares_unary (src dst : Reg) (f : Word → Word) : (s.unary src dst f).Spares s :=
  spares_write (readSrc_free s src) rfl dst _

theorem spares_binary (rs rt rd : Reg) (f : Word → Word → Word) : (s.binary rs rt rd f).Spares s :=
  spares_write (readSrc2_free s rs rt) rfl rd _

theorem spares_unaryOv (src dst : Reg) (c : Word) (overflow : Word → Word → Bool) (f : Word → Word → Word) :
    (s.unaryOv src dst c overflow f).Spares s := by
  unfold State.unaryOv
  dsimp only
  split
  · exact readSrc_free s src
  · exact spares_write (readSrc_free s src) rfl dst _

theorem spares_binaryOv (rs rt rd : Reg) (overflow : Word → Word → Bool) (f : Word → Word → Word) :
    (s.binaryOv rs rt rd overflow f).Spares s := by
  unfold State.binaryOv
  dsimp only
  split
  · exact readSrc2_free s rs rt
  · exact spares_write (readSrc2_free s rs rt) rfl rd _

theorem spares_multiplyDivide (rs rt : Reg) {result : Word → Word → State → (Word × Word) × State}
    (hr : ∀ a b t, (result a b t).2 = { t with freeIndex := (result a b t).2.freeIndex }) :
    (s.multiplyDivide rs rt result).Spares s := by
  unfold State.multiplyDivide
  split
  · trivial
  · exact spares_hiLo (free_trans (readSrc2_free s rs rt) (hr _ _ _)) rfl _ _ _

theorem spares_transfer {body : Act Retire} (h : body.Spares s) : (s.transfer body).Spares s := by
  unfold State.transfer
  split
  · trivial
  · exact h

theorem spares_absentUnit (z : BitVec 2) : (s.absentUnit z).Spares s := by
  unfold State.absentUnit
  dsimp only
  split
  · trivial
  · exact useCp0_free s _

theorem spares_load (n : Size) (extend : Word → Word) (base rt : Reg) (offset : Half) :
    (s.load n extend base rt offset).Spares s := by
  unfold State.load State.access State.memRead
  split
  · trivial
  · dsimp only
    split
    · rw [Act.bind_assoc]
      exact (splits_loadWord _ _ _).spares (readSrc_free s base) fun w t ht => ⟨rfl, keepsCp0_setGpr ht rt _⟩
    · exact readSrc_free s base

theorem spares_loadPart (length : Nat → BitVec 2) (merge : Nat → Word → Word → Word) (base rt : Reg) (offset : Half) :
    (s.loadPart length merge base rt offset).Spares s := by
  unfold State.loadPart State.access
  split
  · trivial
  · exact (splits_loadWord _ _ _).spares (readSrc_free s base) fun w t ht => ⟨rfl, keepsCp0_setGpr ht rt _⟩

theorem spares_storeBy (n : Size) (lanes : Bool → Word → Word → BitVec 4 × Word) (base rt : Reg) (offset : Half) :
    (s.storeBy n lanes base rt offset).Spares s := by
  unfold State.storeBy State.access
  split
  · trivial
  · dsimp only
    split
    · exact (splits_storeLanes _ _ _ _).spares (readSrc2_free s base rt) fun _ t ht => ⟨rfl, ht⟩
    · exact readSrc2_free s base rt

end

/-- Every instruction but those of coprocessor 0 spares CP0. -/
theorem exec_spares (i : Instr) (s : State) :
    (∃ rt rd base offset, i ∈ [Instr.mtc0 rt rd, .mfc0 rt rd, .rfe, .bc0f offset, .bc0t offset, .lwc0 base rt offset,
      .swc0 base rt offset, .tlbr, .tlbwi, .tlbwr, .tlbp]) ∨ ∃ a, exec i s = s.finish a ∧ a.Spares s := by
  have same : s = { s with freeIndex := s.freeIndex } := rfl
  cases i
  case mtc0 rt rd | mfc0 rt rd => exact .inl ⟨rt, rd, 0, 0, by simp⟩
  case lwc0 base rt offset | swc0 base rt offset => exact .inl ⟨rt, 0, base, offset, by simp⟩
  case bc0f offset | bc0t offset => exact .inl ⟨0, 0, 0, offset, by simp⟩
  case rfe | tlbr | tlbwi | tlbwr | tlbp => exact .inl ⟨0, 0, 0, 0, by simp⟩
  all_goals
    refine .inr ?_
    simp only [exec, execAddiu, execSlti, execSltiu, execAndi, execOri, execXori, execLui, execNor, execSll, execSrl,
      execSra, execSllv, execSrlv, execSrav, execMfhi, execMflo]
    refine ⟨_, rfl, ?_⟩
  case lb base rt offset | lbu base rt offset | lh base rt offset | lhu base rt offset | lw base rt offset =>
    exact spares_load s _ _ base rt offset
  case lwl base rt offset | lwr base rt offset => exact spares_loadPart s _ _ base rt offset
  case sb base rt offset | sh base rt offset | sw base rt offset =>
    rw [store_eq_storeBy]
    exact spares_storeBy s _ _ base rt offset
  case swl base rt offset | swr base rt offset =>
    rw [storePart_eq_storeBy]
    exact spares_storeBy s _ _ base rt offset
  case addi rs rt imm => exact spares_unaryOv s rs rt _ _ _
  case addiu rs rt imm | slti rs rt imm | sltiu rs rt imm | andi rs rt imm | ori rs rt imm | xori rs rt imm =>
    exact spares_unary s rs rt _
  case lui rt imm => exact spares_write same rfl rt _
  case add rs rt rd | sub rs rt rd => exact spares_binaryOv s rs rt rd _ _
  case addu rs rt rd | subu rs rt rd | and rs rt rd | or rs rt rd | xor rs rt rd | nor rs rt rd | slt rs rt rd |
      sltu rs rt rd | sllv rs rt rd | srlv rs rt rd | srav rs rt rd => exact spares_binary s rs rt rd _
  case sll rt rd sa | srl rt rd sa | sra rt rd sa => exact spares_unary s rt rd _
  case mult rs rt | multu rs rt => exact spares_multiplyDivide s rs rt fun _ _ _ => rfl
  case div rs rt | divu rs rt => exact spares_multiplyDivide s rs rt fun _ _ t => divideOr_free _ _ t
  case mfhi rd | mflo rd =>
    obtain ⟨-, hsr, hcause, hepc, hbad, hpte⟩ := spares_write same (r := {}) rfl rd _
    exact ⟨rfl, hsr, hcause, hepc, hbad, hpte⟩
  case mthi rs | mtlo rs =>
    split
    · trivial
    · exact spares_hiLo (free_trans (readSrc_free s rs) (spoilt_free _ _)) rfl _ _ _
  case j target => exact spares_transfer s (spares_free same rfl)
  case jal target => exact spares_transfer s (spares_write same rfl 31 _)
  case jr rs => exact spares_transfer s (spares_free (readSrc_free s rs) rfl)
  case jalr rs rd =>
    refine spares_transfer s ?_
    split
    · trivial
    · exact spares_write (readSrc_free s rs) rfl rd _
  case beq rs rt offset | bne rs rt offset => exact spares_transfer s (spares_free (readSrc2_free s rs rt) rfl)
  case blez rs offset | bgtz rs offset | bltz rs offset | bgez rs offset =>
    exact spares_transfer s (spares_free (readSrc_free s rs) rfl)
  case bltzal rs offset | bgezal rs offset => exact spares_transfer s (spares_write (readSrc_free s rs) rfl 31 _)
  case syscall | brk code => exact same
  case cop1 cofun | cop2 cofun | cop3 cofun => exact spares_absentUnit s _
  case lwc1 base rt offset | swc1 base rt offset | lwc2 base rt offset | swc2 base rt offset | lwc3 base rt offset |
      swc3 base rt offset => exact spares_absentUnit s _

/-- With CP0 unusable an instruction takes its exception, or leaves CP0 alone and is no MTC0 (R258). -/
theorem exec_noCp0 {i : Instr} {s t : State} (hno : s.NoCp0) (h : exec i s = .next t) :
    (∃ code ce bad, Enters s t code ce bad) ∨ (KeepsCp0 s t ∧ (t.afterMtc0 = none ∨ t.afterMtc0 = s.afterMtc0)) := by
  rcases exec_spares i s with ⟨rt, rd, base, offset, hi⟩ | ⟨a, he, ha⟩
  · obtain ⟨u, hu, henters⟩ := cop0Unusable s rt rd base offset hno i hi
    cases hu.symm.trans h
    exact .inl ⟨_, _, _, henters⟩
  · rw [he] at h
    cases a with
    | done r u =>
      cases h
      obtain ⟨hmtc0, hsr, hcause, hepc, hbad, hpte⟩ := ha
      exact .inr ⟨⟨hsr, hcause, hepc, hbad, hpte⟩, .inl hmtc0⟩
    | raise x u =>
      cases h
      exact .inl ⟨_, _, _, enters_take s u x ha⟩
    | stall read =>
      cases h
      exact .inr ⟨⟨rfl, rfl, rfl, rfl, rfl⟩, .inr rfl⟩
    | stuck u =>
      cases waits_next h
      exact .inr ⟨WaitsForEver.keepsCp0 ha, .inr (by rw [ha.2])⟩
    | refuse r => cases h

/-! ### The bytes from 0x80000000 up -/

theorem bit31_eq (a : Word) : a.getLsbD 31 = decide (2 ^ 31 ≤ a.toNat) :=
  (BitVec.msb_eq_getLsbD_last a).symm.trans (BitVec.msb_eq_decide a)

/-- No byte of physical memory from 0x80000000 up, as the program sees it, changed. -/
def SameHighBytes (s t : State) : Prop := ∀ a : Word, a.getLsbD 31 = true → t.seenByte a = s.seenByte a

theorem SameHighBytes.trans {s t u : State} (h : SameHighBytes s t) (g : SameHighBytes t u) : SameHighBytes s u :=
  fun a ha => (g a ha).trans (h a ha)

theorem SameBytes.high {s t : State} (h : SameBytes s t) : SameHighBytes s t := fun a _ => h a

/-- A write to the word at an address below 0x80000000 leaves the bytes from there up. -/
theorem Wrote.sameHighBytes {s t : State} {p : Word} {mask : BitVec 4} {w : Word} (h : Wrote s t p mask w)
    (hp : p.getLsbD 31 = false) : SameHighBytes s t := by
  intro a ha
  rw [bit31_eq, decide_eq_true_eq] at ha
  rw [bit31_eq, decide_eq_false_iff_not] at hp
  unfold State.seenByte
  rw [h.mem]
  split
  · exact read_writeLanes_outside _ _ _ _ _ _ (.inr (by rw [wordAddr_toNat]; omega))
  · rfl

/-- An append that waits for ever, behind a write that nothing answers, has changed no byte (R77). -/
theorem sameBytes_of_append_stuck {s t : State} {e : WriteEntry} (h : s.appendWrite e = .stuck t) : SameBytes s t := by
  unfold State.appendWrite at h
  split at h
  · cases h
  · split at h
    · cases h
    · split at h
      · cases h
        exact SameBytes.trans (seenByte_biuWrite s) (sameBytes_of_eq rfl rfl rfl rfl)
      · cases h

theorem sameHighBytes_append {s u : State} (hu : SameBytes s u) {e : WriteEntry} (he : e.addr.getLsbD 31 = false) :
    (u.appendWrite e).Splits s (SameHighBytes s) (SameHighBytes s) := by
  rcases appendWrite_cases u e with h | ⟨t, h, -⟩ | ⟨t, h, hw⟩
  · rw [h]
    trivial
  · have hb := sameBytes_of_append_stuck h
    rw [h]
    exact (hu.trans hb).high
  · rw [h]
    exact hu.high.trans (hw.sameHighBytes he)

/-- The address that a store in user mode shows lies below 0x80000000 (R73). -/
theorem shown_low {va : Word} (h : va.getLsbD 31 = false) (l : BitVec 2) :
    ((physical va).extractLsb' 2 30 ++ l : Word).getLsbD 31 = false := by
  rw [bit31_eq, decide_eq_false_iff_not] at h ⊢
  rw [append_low_toNat, high_toNat, physical_toNat, if_neg (by omega)]
  omega

/-- A store in user mode reaches no byte from 0x80000000 up (R73, R387). -/
theorem sameHighBytes_storeLanes {s : State} (hk : s.sr.kuc = true) (va : Word) (mask : BitVec 4) (w : Word) :
    (s.storeLanes va mask w).Splits s (SameHighBytes s) (SameHighBytes s) := by
  cases hma : s.mayAccess va with
  | false =>
    rw [storeLanes_forbidden hma]
    rfl
  | true =>
    have hva : va.getLsbD 31 = false := by simpa only [State.mayAccess, hk, Bool.true_and, Bool.not_eq_true'] using hma
    cases hi : s.sr.isc with
    | true => exact (sameBytes_isolated hi va mask w).mono (fun _ _ _ ht => ht.high) fun _ ht => ht.high
    | false =>
      unfold State.storeLanes
      rw [translate_may hma]
      simp only [hi, Bool.false_eq_true, if_false]
      split
      · exact sameHighBytes_append (sameBytes_of_eq (by rw [dropAlias_rest]) (by rw [dropAlias_rest])
          (by rw [dropAlias_rest]) (by rw [dropAlias_rest])) (shown_low hva _)
      · exact sameHighBytes_append (sameBytes_of_eq (by rw [dcacheStore_rest]) (by rw [dcacheStore_rest])
          (by rw [dcacheStore_rest]) (by rw [dcacheStore_rest])) (shown_low hva _)

/-- In user mode no instruction changes a byte from 0x80000000 up. -/
theorem exec_sameHighBytes {i : Instr} {s t : State} (hk : s.sr.kuc = true) (h : exec i s = .next t) :
    SameHighBytes s t := by
  have free : ∀ {u : State}, u = { s with freeIndex := u.freeIndex } → SameBytes s u := fun hu => free_seen hu
  rcases exec_splits (D := SameHighBytes s) (Q := SameHighBytes s) h (fun u hu => hu.sameBytes.high)
    (fun u r v hu => hu.trans (sameBytes_of_eq (by simp) (by simp) (by simp) (by simp)).high)
    (fun u va length hu => (sameBytes_loadWord u va length).mono (fun _ _ _ ht => ((free hu).trans ht).high)
      fun _ ht => ((free hu).trans ht).high)
    (fun u base offset mask w hu _ _ => (sameHighBytes_storeLanes (by rw [hu]; exact hk) _ mask w).mono
      (fun _ _ _ ht => (free hu).high.trans ht) fun _ ht => (free hu).high.trans ht) with
    ⟨r, u, hu, rfl⟩ | ⟨x, u, hu, rfl⟩ | ⟨read, rfl⟩ | hq
  · exact hu.trans (sameBytes_of_eq rfl rfl rfl rfl).high
  · exact fun a _ => (enters_take s u x hu).aborts.bytes a
  · exact (sameBytes_of_eq rfl rfl rfl rfl).high
  · exact hq

/-! ### The step -/

/-- Still in user mode: CP0 is as it was but for CM, and no MTC0 was done. -/
def StaysUser (s t : State) : Prop :=
  t.sr = { s.sr with cm := t.sr.cm } ∧ t.cause = s.cause ∧ t.epc = s.epc ∧ t.badVAddr = s.badVAddr ∧
    t.pteBase = s.pteBase ∧ t.afterMtc0 = none

/-- In the kernel, at the exception vector, with user mode as the previous one (R370 to R373). -/
def EntersKernel (s t : State) : Prop :=
  t.sr.kuc = false ∧ t.sr.iec = false ∧ t.sr.kup = true ∧ t.sr.iep = s.sr.iec ∧ t.inDelaySlot = false ∧
    t.pc = (if s.sr.bev then 0xBFC00180 else 0x80000080) ∧ SameGprs s t

/-- The parts of the state that confine user mode are in `u` what they are in `s`. -/
structure SameMode (s u : State) : Prop where
  cp0 : SameCp0 s u
  regs : u.regs = s.regs
  afterMtc0 : u.afterMtc0 = none

/-- With no MTC0 just before, only the SR that stands can be seen (R255). -/
theorem SameMode.seen {s u : State} (h : SameMode s u) (v : Cp0View) (hv : u.MaySee v) : v.sr = s.sr := by
  rcases hv with rfl | hv
  · exact h.cp0.sr
  · rw [h.afterMtc0] at hv
    cases hv

theorem Aside.sameMode {s u : State} (h : Aside s.sample u) (hm : s.afterMtc0 = none) : SameMode s u := by
  refine ⟨⟨?_, ?_, ?_, ?_, ?_⟩, ?_, ?_⟩ <;> rw [h.rest, sample_frame]
  exact hm

theorem SameMode.staysUser {s u t : State} (h : SameMode s u) (hc : KeepsCp0 u t) (ht : t.afterMtc0 = none) :
    StaysUser s t := by
  obtain ⟨hsr, hcause, hepc, hbad, hpte⟩ := h.cp0
  exact ⟨by rw [hc.sr, hsr], hc.cause.trans hcause, hc.epc.trans hepc, hc.badVAddr.trans hbad, hc.pteBase.trans hpte, ht⟩

/-- Only the CP0 values that stand can be seen, so that the entry pushes user mode. -/
theorem SameMode.entersKernel {s u t : State} (h : SameMode s u) (hk : s.sr.kuc = true) {code : BitVec 4}
    {ce : Option (BitVec 2)} {bad : Option Word} (he : Enters u t code ce bad) : EntersKernel s t := by
  obtain ⟨v, hv, hstack⟩ := he.stack
  obtain ⟨w, hw, hpc⟩ := he.pc
  refine ⟨hstack.kuc, hstack.iec, ?kup, ?iep, he.inDelaySlot, ?pc, fun q => (he.gprs q).trans (readGpr_of_regs h.regs q)⟩
  case kup => rw [hstack.kup, h.seen v hv, hk]
  case iep => rw [hstack.iep, h.seen v hv]
  case pc => rw [hpc, h.seen w hw]

/-- Settles O60: what precedes execution stays in user mode or takes an exception, and so does the instruction, as CP0 is
unusable; and of all this only stores change bytes, which they do below 0x80000000. -/
theorem userModeConfined : Obligations.UserModeConfined := by
  intro s t hkuc hcu hmtc0 hreset hmaster hstep
  have hbytes : SameBytes s s.sample := seenByte_sample hmaster
  have hphase := fetchPhase_precedes hreset
  suffices (StaysUser s t ∨ EntersKernel s t) ∧ SameHighBytes s t from this
  unfold step at hstep
  cases hp : s.fetchPhase with
  | ended o =>
    rw [hp] at hstep hphase
    cases hphase t hstep with
    | aside _ ha =>
      have hm := ha.sameMode hmtc0
      exact ⟨.inl (hm.staysUser ⟨rfl, rfl, rfl, rfl, rfl⟩ hm.afterMtc0), (hbytes.trans ha.seen).high⟩
    | takes x u ha =>
      have he := enters_take u u x rfl
      exact ⟨.inr ((ha.sameMode hmtc0).entersKernel hkuc he), ((hbytes.trans ha.seen).trans he.aborts.bytes).high⟩
    | stalls read u ha =>
      have hm := ha.sameMode hmtc0
      exact ⟨.inl (hm.staysUser ⟨rfl, rfl, rfl, rfl, rfl⟩ hm.afterMtc0),
        ((hbytes.trans ha.seen).trans (sameBytes_of_eq rfl rfl rfl rfl)).high⟩
  | run i u =>
    have ha := fetchPhase_run hp
    rw [hp] at hstep
    have hm := ha.sameMode hmtc0
    have hno : u.NoCp0 := fun v hv => by rw [hm.seen v hv]; exact ⟨hkuc, hcu⟩
    refine ⟨?mode, (hbytes.trans ha.seen).high.trans (exec_sameHighBytes (by rw [hm.cp0.sr]; exact hkuc) hstep)⟩
    rcases exec_noCp0 hno hstep with ⟨code, ce, bad, he⟩ | ⟨hc, ht⟩
    · exact .inr (hm.entersKernel hkuc he)
    · exact .inl (hm.staysUser hc (ht.elim id fun h => h.trans hm.afterMtc0))

end Sys2Proof.Machine
end

section
/-! PROOFS. A step that takes an exception in place of the instruction at the pc: an interrupt (60_exceptions.md R361, R370)
and a fetch from an address that may not be fetched from (20_memory.md R94; 60_exceptions.md R352). -/

namespace Sys2Proof.Machine

/-! ### Interrupts -/

/-- Where every view that the step may see asks for an interrupt, one is taken. -/
theorem interrupted_requested {s : State} (h : ∀ v, s.MaySee v → s.Requested v) : s.interrupted.1 = true :=
  useCp0_all s _ true fun v hv => (intRequest_iff s v).2 (h v hv)

/-- Settles O7: the test comes before the fetch, and has used free values only. -/
theorem interruptTaken : Obligations.InterruptTaken := by
  rintro s t ⟨rfl, hreset, hlegal, hrunning, hcore⟩ hreq
  have hphase : s.fetchPhase = .ended (.next (s.sample.interrupted.2.takeException .interrupt)) := by
    unfold State.fetchPhase
    simp only [hreset, hlegal, hrunning, hcore, interrupted_requested hreq, Bool.not_true, Bool.false_eq_true, if_false,
      if_true]
  exact ⟨_, by rw [step, hphase], enters_take _ _ .interrupt (interrupted_free _)⟩

/-! ### Fetches that are not allowed -/

/-- A fetch from an address that is misaligned, or of the kernel's half in user mode, raises AdEL, free values having been used
only. -/
theorem fetchFrom_forbidden {s u : State} (hu : u = { s with freeIndex := u.freeIndex }) (sized : Bool) {va : Word}
    (h : va.extractLsb' 0 2 ≠ 0#2 ∨ va.getLsbD 31 = true ∧ ∀ v, s.MaySee v → v.sr.kuc = true) :
    ∃ t, u.fetchFrom sized va = .raise (.adel va) t ∧ t = { s with freeIndex := t.freeIndex } := by
  unfold State.fetchFrom
  dsimp only
  by_cases ha : va.extractLsb' 0 2 = 0#2
  · obtain ⟨h31, huser⟩ := h.resolve_left (not_not_intro ha)
    have hkuc : (u.useCp0 fun v => v.sr.kuc).1 = true :=
      useCp0_all u _ true fun v hv => huser v ((maySee_of hu v).1 hv)
    rw [if_neg (by simp [aligned, ha]), hkuc, translate_none va h31]
    exact ⟨_, rfl, free_trans hu (useCp0_free u _)⟩
  · rw [if_pos (by simp [aligned, ha])]
    exact ⟨u, rfl, hu⟩

/-- Settles O8: the step comes to the fetch, which is not allowed. -/
theorem fetchAddressError : Obligations.FetchAddressError := by
  intro s t hs hn hva
  have hpc : t.interrupted.2.pc = t.pc := useCp0_pc t _
  obtain ⟨u, hfetch, hu⟩ := fetchFrom_forbidden (interrupted_free t) t.interrupted.2.inputs.fetchSizrq hva
  refine ⟨_, ?_, enters_take t u (.adel t.pc) hu⟩
  rw [step, fetchPhase_undisturbed hs hn]
  unfold State.fetchDecode State.fetchWord
  rw [hpc, hfetch]

end Sys2Proof.Machine
end

section
/-! PROOFS. Loads and stores of misaligned and forbidden addresses (20_memory.md R73, R83; 60_exceptions.md R353, R354). -/

namespace Sys2Proof.Machine

/-- A base that is not being loaded gives its register's content, whatever the access then does (R30, R150). -/
theorem effectiveAddr_settled {s : State} {base : Reg} (h : s.ldSlot ≠ some base) (offset : Half) :
    effectiveAddr (s.readSrc base).1 offset = s.readGpr base + offset.signExtend 32 := by
  unfold State.readSrc
  rw [if_neg h]
  rfl

/-- Settles O48: every load and store is one of three forms, each of which raises its exception where the mode forbids the
address or its size is not aligned there. -/
theorem dataAddressErrors : Obligations.DataAddressErrors := by
  intro s base rt offset va hslot hmtc0 hva
  have hva : va = effectiveAddr (s.readSrc base).1 offset := hva.trans (effectiveAddr_settled hslot offset).symm
  have load := fun n extend h => load_enters hva hmtc0 n extend rt h
  have store := fun n h => storeBy_enters hva hmtc0 n (storeLanesOf n) rt h
  refine ⟨fun hmode => ⟨fun i hi => ?loads, fun i hi => ?stores⟩, fun hodd => ?half, fun hlow => ?word⟩
  case loads =>
    have hcases : i ∈ [Instr.lb base rt offset, .lbu base rt offset, .lh base rt offset, .lhu base rt offset,
        .lw base rt offset] ∨ i ∈ [Instr.lwl base rt offset, .lwr base rt offset] := by
      simp only [List.mem_cons, List.not_mem_nil, or_false] at hi ⊢
      tauto
    rcases hcases with hi | hi
    · obtain ⟨n, extend, he, -⟩ := load_form hi
      rw [he]
      exact load n extend (.inl hmode)
    · obtain ⟨length, merge, he, -⟩ := loadPart_form hi
      rw [he]
      exact loadPart_enters hva hmtc0 length merge rt hmode
  case stores =>
    obtain ⟨n, lanes, he, -⟩ := store_form hi
    rw [he]
    exact storeBy_enters hva hmtc0 n lanes rt (.inl hmode)
  case half =>
    have ha : aligned .half va = false := by simpa [aligned] using hodd
    refine ⟨fun i hi => ?_, ?_⟩
    · simp only [List.mem_cons, List.not_mem_nil, or_false] at hi
      rcases hi with rfl | rfl
      · exact load .half sextHalf (.inr ha)
      · exact load .half id (.inr ha)
    · obtain ⟨t, ht, henters⟩ := store .half (.inr ha)
      exact ⟨t, (congrArg s.finish (store_eq_storeBy s .half base rt offset)).trans ht, henters⟩
  case word =>
    have ha : aligned .word va = false := by simpa [aligned] using hlow
    refine ⟨load .word id (.inr ha), ?_⟩
    obtain ⟨t, ht, henters⟩ := store .word (.inr ha)
    exact ⟨t, (congrArg s.finish (store_eq_storeBy s .word base rt offset)).trans ht, henters⟩

end Sys2Proof.Machine
end

section
/-! PROOFS. Reset: what a RESET pulse leaves (70_reset_and_hazards.md R400 to R405), and that the state after reset meets
the invariants (10_state.md section 8). -/

namespace Sys2Proof.Machine

/-- Another master does not write in a step with a RESET pulse (R330, R405). -/
theorem environment_mem_of_reset {s : State} {r : ResetPulse} (h : s.resetPulse = some r) :
    s.environment.mem = s.mem := by
  unfold State.resetPulse at h
  cases hs : s.schedule with
  | nil =>
    rw [hs] at h
    cases h
  | cons e rest =>
    rw [hs] at h
    have hg : s.granted e = false := by simp [State.granted, show e.reset = some r from h]
    rw [environment_cons hs, hg]
    rfl

/-- A step with a RESET pulse (R27(1), R336, R400). -/
theorem step_resetPulse {s : State} {r : ResetPulse} (h : s.resetPulse = some r) :
    step s = if r.mode.legal then .next (s.environment.resetBy r) else .refused .forbiddenModePins := by
  unfold step State.fetchPhase
  simp only [h]
  cases r.mode.legal <;> rfl

/-- The general registers after a RESET pulse (R21, R402). -/
theorem readGpr_resetBy (s : State) (r : ResetPulse) (q : Reg) :
    (s.resetBy r).readGpr q = if q = 0 then 0 else r.garbage.regs[q.toNat] := by
  unfold State.readGpr
  split
  · rfl
  · rename_i hq
    have h0 : 0 ≠ q.toNat := fun h => hq (BitVec.eq_of_toNat_eq h.symm)
    exact Vector.getElem_set_ne (by decide) _ h0

/-- Settles O12: each clause but those of the general registers and of memory is a field of the state after a pulse. -/
theorem resetPulseResets : Obligations.ResetPulseResets := by
  intro s r hr
  refine ⟨fun hl => by rw [step_resetPulse hr, hl]; rfl, fun hl => ⟨s.environment.resetBy r, ?step, ?state⟩⟩
  case step => rw [step_resetPulse hr, if_pos hl]
  case state =>
    exact ⟨rfl, rfl, rfl, rfl, rfl, rfl, rfl, rfl, rfl, rfl, rfl, rfl, rfl, rfl, rfl, rfl, rfl, rfl, readGpr_zero _,
      fun q hq => by rw [readGpr_resetBy, if_neg hq], rfl, rfl, rfl, rfl, environment_mem_of_reset hr, rfl, rfl,
      environment_platform s, environment_trace s⟩

/-- Settles O13: memory, caches and buffer are empty, and the pc is at the vector. -/
theorem resetMeetsInvariants : Obligations.ResetMeetsInvariants := by
  refine ⟨?inv, nofun, nofun⟩
  constructor
  case memory | icache | dcache => exact ⟨List.Pairwise.nil, nofun⟩
  case buffer | recent => exact Nat.zero_le 4
  case entries | loadSlot => nofun
  case held | sequence => exact fun _ => rfl
  case mode => rfl

end Sys2Proof.Machine
end

section
/-! PROOFS. DIV and DIVU (43_multiply_divide.md R202, R203, R211). -/

namespace Sys2Proof.Machine

theorem divideOr_defined {d : Bool} (h : d = true) (r : Word × Word) (s : State) : divideOr d r s = (r, s) := by
  rw [divideOr, if_pos h]

/-- Quotient and remainder of a signed division whose quotient fits: the dividend is made of them, the remainder is smaller
than the divisor and has the dividend's sign (R202, D6). -/
theorem divideSigned_exact {a b : Word} (hb : b ≠ 0) (hfit : ¬ (a = 0x80000000 ∧ b = 0xFFFFFFFF)) :
    (divideSigned a b).2.toInt * b.toInt + (divideSigned a b).1.toInt = a.toInt ∧
      (divideSigned a b).1.toInt.natAbs < b.toInt.natAbs ∧
      ((divideSigned a b).1 = 0 ∨ ((divideSigned a b).1.toInt < 0 ↔ a.toInt < 0)) := by
  have hrem : (divideSigned a b).1.toInt = a.toInt.tmod b.toInt := by
    unfold divideSigned
    rw [← BitVec.toInt_srem, BitVec.ofInt_toInt]
  have hquot : (divideSigned a b).2.toInt = a.toInt.tdiv b.toInt := by
    unfold divideSigned
    rw [← BitVec.toInt_sdiv_of_ne_or_ne a b (not_and_or.1 hfit), BitVec.ofInt_toInt]
  have hb : b.toInt ≠ 0 := fun h => hb (BitVec.toInt_inj.1 h)
  refine ⟨by rw [hrem, hquot]; exact Int.tdiv_mul_add_tmod _ _, ?smaller, ?sign⟩
  case smaller =>
    rw [hrem, Int.natAbs_tmod]
    exact Nat.mod_lt _ (Int.natAbs_pos.2 hb)
  case sign =>
    have hsign := Int.sign_tmod a.toInt b.toInt
    rw [← hrem] at hsign
    split at hsign
    · exact .inl (BitVec.toInt_inj.1 (Int.sign_eq_zero_iff_zero.1 hsign))
    · exact .inr (by rw [← Int.sign_eq_neg_one_iff_neg, hsign, Int.sign_eq_neg_one_iff_neg])

/-- Quotient and remainder of an unsigned division (R203). -/
theorem divideUnsigned_exact {a b : Word} (hb : b ≠ 0) :
    (divideUnsigned a b).2.toNat * b.toNat + (divideUnsigned a b).1.toNat = a.toNat ∧
      (divideUnsigned a b).1.toNat < b.toNat := by
  have hpos : 0 < b.toNat := Nat.pos_of_ne_zero fun h => hb (BitVec.eq_of_toNat_eq h)
  have hrem : (divideUnsigned a b).1.toNat = a.toNat % b.toNat :=
    Nat.mod_eq_of_lt ((Nat.mod_lt _ hpos).trans b.isLt)
  have hquot : (divideUnsigned a b).2.toNat = a.toNat / b.toNat :=
    Nat.mod_eq_of_lt ((Nat.div_le_self _ _).trans_lt a.isLt)
  rw [hrem, hquot]
  exact ⟨Nat.div_add_mod' _ _, Nat.mod_lt _ hpos⟩

/-- What the statement claims of DIV. -/
def SignedDivision (a b hi lo : Word) : Prop :=
  b ≠ 0 → ¬ (a = 0x80000000 ∧ b = 0xFFFFFFFF) →
    lo.toInt * b.toInt + hi.toInt = a.toInt ∧ hi.toInt.natAbs < b.toInt.natAbs ∧
      (hi = 0 ∨ (hi.toInt < 0 ↔ a.toInt < 0))

/-- What the statement claims of DIVU. -/
def UnsignedDivision (a b hi lo : Word) : Prop :=
  b ≠ 0 → lo.toNat * b.toNat + hi.toNat = a.toNat ∧ hi.toNat < b.toNat

/-- Settles O25: each writes the pair of its division where that is defined, else any values. -/
theorem divideWritesHiLo : Obligations.DivideWritesHiLo := by
  intro s rs rt hmfhi hmflo
  have signed := multiplyDivide_writes (i := .div rs rt) (p := SignedDivision) hmfhi hmflo rfl
    (fun _ _ t => divideOr_free _ _ t) fun a b t hb hfit => by
      rw [divideOr_defined (by simpa [divDefined] using ⟨hb, not_and_or.1 hfit⟩)]
      exact divideSigned_exact hb hfit
  have unsigned := multiplyDivide_writes (i := .divu rs rt) (p := UnsignedDivision) hmfhi hmflo rfl
    (fun _ _ t => divideOr_free _ _ t) fun a b t hb => by
      rw [divideOr_defined (by simpa using hb)]
      exact divideUnsigned_exact hb
  obtain ⟨a, b, t, ha, hb, he, hp, hfresh, hkeeps⟩ := signed
  obtain ⟨a', b', t', ha', hb', he', hp', hfresh', hkeeps'⟩ := unsigned
  exact ⟨⟨a, b, t, ha, hb, he, hfresh, hkeeps, hp⟩, ⟨a', b', t', ha', hb', he', hfresh', hkeeps', hp'⟩⟩

end Sys2Proof.Machine
end

section
/-! PROOFS. The words that the spec prints (95_test_vectors.md section 2.1). -/

namespace Sys2Proof.Machine

/-- Settles O3: each word is the encoding of its instruction, which decodes to it. -/
theorem publishedWordsDecode : Obligations.PublishedWordsDecode :=
  ⟨encodeThenDecode (.lw 3 2 0x7FFC), encodeThenDecode (.sb 3 2 1), encodeThenDecode (.addiu 3 2 0x1234),
    encodeThenDecode (.lui 2 0xBFC0), encodeThenDecode (.subu 2 3 4), encodeThenDecode (.sra 3 4 16),
    encodeThenDecode (.div 2 3), encodeThenDecode (.mflo 4), encodeThenDecode (.jalr 2 4),
    encodeThenDecode (.bgezal 2 0xFFFF), encodeThenDecode (.brk 0x12345), encodeThenDecode (.bc0f 0xFFFF),
    encodeThenDecode (.mtc0 8 12), encodeThenDecode .rfe⟩

end Sys2Proof.Machine
end

section
/-! PROOFS. What the bus does with one read (20_memory.md R77, R104, R105; 50_bus_interface.md R312, R329, R331 to R334): the
read of a held bus, of an address where nothing answers, and one for whose word the write buffer holds nothing; and loads
and stores by the access that they make. -/

namespace Sys2Proof.Machine

/-! ### A held bus (R329) -/

theorem busRead_held {s : State} (h : s.inputs.hold = true) (sized : Bool) (a : Word) (type : ReadType) :
    s.busRead sized a type = .stall true := if_pos h

theorem busReadBlock_held {s : State} (h : s.inputs.hold = true) (a : Word) (type : ReadType) :
    s.busReadBlock a type = .stall true := if_pos h

theorem refill_held {s : State} (h : s.inputs.hold = true) (sized : Bool) (side : CacheSide) (a : Word) :
    s.refill sized side a = .stall true := by
  unfold State.refill
  rw [busRead_held h, busReadBlock_held h]
  split <;> rfl

theorem appendWrite_held {s : State} (h : s.inputs.hold = true) (hfull : 4 ≤ s.writeBuffer.length) (e : WriteEntry) :
    s.appendWrite e = .stall false := by
  unfold State.appendWrite
  rw [if_neg (by omega), if_pos h]

/-! ### An address where nothing answers (R77) -/

theorem busRead_absent {s : State} (h : s.BusReady) {a : Word} (ha : s.answer a = .absent) (sized : Bool)
    (type : ReadType) : ∃ t, s.busRead sized a type = .stuck t ∧ StuckIn s t := by
  have hfree := (forceOut_ready (fun e => wordAddr e.addr == wordAddr a) h).2
  have hanswer := (busOnly_forceOut _ hfree).answer a
  unfold State.busRead
  dsimp only
  rw [if_neg (by simp [h.hold]), if_neg (by simp [hfree]), if_pos (hanswer.trans ha)]
  exact ⟨_, rfl, stuckIn_halt _ _ s _⟩

theorem busReadBlock_absent {s : State} (h : s.BusReady) {a : Word} (ha : s.answer (blockAddr a) = .absent)
    (type : ReadType) : ∃ t, s.busReadBlock a type = .stuck t ∧ StuckIn s t := by
  have hfree := (forceOut_ready (fun e => blockAddr e.addr == blockAddr a) h).2
  have hanswer := (busOnly_forceOut _ hfree).answer (blockAddr a)
  unfold State.busReadBlock
  dsimp only
  rw [if_neg (by simp [h.hold]), if_neg (by simp [hfree]), if_pos (hanswer.trans ha)]
  exact ⟨_, rfl, stuckIn_halt _ _ s _⟩

theorem refill_absent {s : State} (h : s.BusReady) {side : CacheSide} {a : Word} (ha : ¬ s.refillAnswered side a)
    (sized : Bool) : ∃ t, s.refill sized side a = .stuck t ∧ StuckIn s t := by
  unfold State.refillAnswered at ha
  unfold State.refill
  split at ha
  · obtain ⟨t, ht, hstuck⟩ := busReadBlock_absent h (not_not.1 ha) side.refillType
    rw [if_pos ‹_›, ht]
    exact ⟨t, rfl, hstuck⟩
  · obtain ⟨t, ht, hstuck⟩ := busRead_absent h (not_not.1 ha) sized side.refillType
    rw [if_neg ‹_›, ht]
    exact ⟨t, rfl, hstuck⟩

/-! ### A read that no buffered write is for (R104, R105) -/

theorem forceOut_none {p : WriteEntry → Bool} {s : State} (h : ∀ e ∈ s.writeBuffer, p e = false) (n : Nat) :
    s.forceOut p n = s := by
  cases n with
  | zero => rfl
  | succ n => exact if_neg (by simpa using h)

/-- The read goes before every buffered write: its cycles are shown, and nothing else happens. -/
theorem busRead_unbuffered {s : State} (hs : s.BusReady) {a : Word} (ha : s.answer a ≠ .absent)
    (hb : ∀ e ∈ s.writeBuffer, wordAddr e.addr ≠ wordAddr a) (sized : Bool) (type : ReadType) :
    ∃ w t, s.busRead sized a type = .done w t ∧ (s.backed a = true → w = s.seenWord (wordAddr a)) ∧
      t = { s with trace := (readCycles s.mode sized a type).reverse ++ s.trace, freeIndex := t.freeIndex } := by
  have hread : s.busRead sized a type = .done (s.readWord a).1
      { (s.readWord a).2 with trace := (readCycles s.mode sized a type).reverse ++ s.trace } := by
    unfold State.busRead
    dsimp only
    rw [if_neg (by simp [hs.hold]), forceOut_none (by simpa using hb), if_neg (by simp [hs.bus]), if_neg ha]
  refine ⟨_, _, hread, fun hk => ?_, by rw [readWord_free s a]⟩
  unfold State.readWord
  rw [if_pos hk]
  exact wordImage_unbuffered s a hb

theorem wordAddr_aligned {a : Word} (h : a.extractLsb' 0 2 = 0#2) : wordAddr a = a := by
  conv_rhs => rw [low_append a, h]
  rfl

/-! ### Loads and stores by their access -/

section
variable {s : State} {base : Reg} {offset : Half} {va : Word} (hb : s.ldSlot ≠ some base)
  (hva : va = s.readGpr base + offset.signExtend 32) (hm : s.afterMtc0 = none)
include hb hva hm

theorem load_settled {n : Size} (ha : aligned n va = true) (extend : Word → Word) (rt : Reg) :
    s.load n extend base rt offset = (s.loadWord va n.accessType).bind fun w t =>
      loaded rt (t.setGpr rt (extend (selectLoaded n s.bigEndianCPU va w))) := by
  unfold State.load State.memRead
  rw [access_ok hb hva hm, if_pos ha, Act.bind_assoc]
  rfl

theorem loadPart_settled (length : Nat → BitVec 2) (merge : Nat → Word → Word → Word) (rt : Reg) :
    s.loadPart length merge base rt offset = (s.loadWord va (length (byteLane s.bigEndianCPU va))).bind fun w t =>
      loaded rt (t.setGpr rt (merge (byteLane s.bigEndianCPU va) w (s.readGpr rt))) := by
  unfold State.loadPart
  rw [access_ok hb hva hm]

theorem storeBy_settled {n : Size} (ha : aligned n va = true) (lanes : Bool → Word → Word → BitVec 4 × Word) (rt : Reg) :
    s.storeBy n lanes base rt offset =
      ((s.readSrc rt).2.storeLanes va (lanes s.bigEndianCPU va (s.readSrc rt).1).1
        (lanes s.bigEndianCPU va (s.readSrc rt).1).2).bind fun _ u => stored (s.overwritten va) u := by
  unfold State.storeBy
  rw [access_ok hb hva hm, if_pos ha]

/-- Every load that may use its address is `LoadWord`, then a write of its register. -/
theorem exec_eq_loadWord {i : Instr} {rt : Reg} (hi : i ∈ loadInstrsAt base rt offset va) :
    ∃ (length : BitVec 2) (value : Word → Word), exec i s =
      s.finish ((s.loadWord va length).bind fun w t => loaded rt (t.setGpr rt (value w))) := by
  have hcases : i ∈ [Instr.lwl base rt offset, .lwr base rt offset] ∨ i ∈ [Instr.lb base rt offset,
      .lbu base rt offset, .lh base rt offset, .lhu base rt offset, .lw base rt offset] := by
    unfold loadInstrsAt at hi
    split at hi <;> split at hi <;>
      simp only [List.mem_cons, List.mem_append, List.not_mem_nil, or_false] at hi ⊢ <;> tauto
  rcases hcases with hpart | hword
  · obtain ⟨length, merge, he, -⟩ := loadPart_form hpart
    exact ⟨_, _, (he s).trans (congrArg s.finish (loadPart_settled hb hva hm length merge rt))⟩
  · obtain ⟨n, extend, he, hat, -⟩ := load_extends hword
    exact ⟨_, _, (he s).trans (congrArg s.finish (load_settled hb hva hm ((hat va).1 hi) extend rt))⟩

/-- Every store that may use its address is `StoreLanes` in a state in which its register was read. -/
theorem exec_eq_storeLanes {i : Instr} {rt : Reg} (hi : i ∈ storesAt base rt offset va) :
    ∃ mask w, exec i s = s.finish
      (((s.readSrc rt).2.storeLanes va mask w).bind fun _ u => stored (s.overwritten va) u) := by
  have hform : i ∈ [Instr.sb base rt offset, .sh base rt offset, .sw base rt offset, .swl base rt offset,
      .swr base rt offset] := by
    unfold storesAt at hi
    split at hi <;> split at hi <;>
      simp only [List.mem_cons, List.mem_append, List.not_mem_nil, or_false] at hi ⊢ <;> tauto
  obtain ⟨n, lanes, he, hat, -⟩ := store_form hform
  exact ⟨_, _, (he s).trans (congrArg s.finish (storeBy_settled hb hva hm ((hat va).1 hi) lanes rt))⟩

end

/-- A load in kseg1 reads the bus (R92). -/
theorem loadWord_kseg1 {s : State} {va : Word} (hma : s.mayAccess va = true) (hi : s.sr.isc = false)
    (hk : inKseg1 va = true) (length : BitVec 2) :
    s.loadWord va length = s.busRead s.inputs.dataSizrq (wordAddr (physical va)) (.uncached length) := by
  unfold State.loadWord
  rw [translate_may hma]
  simp only [hi, hk, Bool.false_eq_true, if_false, if_true]

/-- A load that misses in the data cache refills it (R95). -/
theorem loadWord_dataMiss {s : State} {base : Reg} {offset : Half} {va : Word} (h : Addresses s base offset va)
    (hk : inKseg1 va = false) (hmiss : s.MissesData (physical va)) (length : BitVec 2) :
    s.loadWord va length = s.refill s.inputs.dataSizrq .data (wordAddr (physical va)) := by
  have hsw : s.sr.swc = false := (h.sees.resolve_left (by simp [hk])).2
  rw [loadWord_cached h.mode hk h.isolated, dataSide_of_unswapped hsw]
  unfold State.cacheLoad State.cacheRead
  rw [look_wordAddr, look_missesData hmiss]

end Sys2Proof.Machine
end

section
/-! PROOFS. Waiting for the bus (50_bus_interface.md R329; 20_memory.md R77, R104, R105): what waits for a held bus, and what
waits for an answer that never comes. -/

namespace Sys2Proof.Machine

/-! ### A held bus -/

theorem loadWord_held {s : State} {base : Reg} {offset : Half} {va : Word} (h : Addresses s base offset va)
    (hh : s.inputs.hold = true) (hva : inKseg1 va = true ∨ s.MissesData (physical va)) (length : BitVec 2) :
    s.loadWord va length = .stall true := by
  cases hk : inKseg1 va with
  | true => rw [loadWord_kseg1 h.mode h.isolated hk, busRead_held hh]
  | false => rw [loadWord_dataMiss h hk (hva.resolve_left (by simp [hk])), refill_held hh]

theorem storeLanes_held {s : State} {va : Word} (hma : s.mayAccess va = true) (hi : s.sr.isc = false)
    (hh : s.inputs.hold = true) (hfull : 4 ≤ s.writeBuffer.length) (mask : BitVec 4) (w : Word) :
    s.storeLanes va mask w = .stall false := by
  unfold State.storeLanes
  rw [translate_may hma]
  simp only [hi, Bool.false_eq_true, if_false]
  split
  · exact appendWrite_held (by rw [dropAlias_rest]; exact hh) (by rw [dropAlias_rest]; exact hfull) _
  · exact appendWrite_held (by rw [dcacheStore_rest]; exact hh) (by rw [dcacheStore_rest]; exact hfull) _

theorem fetchWord_held {t u : State} (hf : t.Fetchable) (hu : u = { t with freeIndex := u.freeIndex })
    (hh : t.inputs.hold = true) (hpc : inKseg1 t.pc = true ∨ (t.CachedFetch ∧ t.MissesInstr (physical t.pc))) :
    u.fetchWord = .stall true := by
  obtain ⟨v, stores, hv, -, he⟩ := fetchWord_ok hf hu
  rw [he]
  cases hk : inKseg1 t.pc with
  | true =>
    rw [if_pos rfl, busRead_held (by rw [hv]; exact hh)]
    rfl
  | false =>
    obtain ⟨hc, hm⟩ := hpc.resolve_left (by simp [hk])
    have hx := free_trans hv (useCp0_free v fun x => x.sr.swc)
    rw [if_neg (by simp), if_neg (by simp [useCp0_swc hv hc])]
    unfold State.cacheRead State.fetchRefill
    rw [look_missesInstr hx hm]
    dsimp only
    rw [refill_held (by rw [hx]; exact hh)]
    rfl

/-- A step whose fetch waits for a held bus. -/
theorem step_of_stalled {s t : State} {read : Bool} (hs : Starts s t) (hn : t.Undisturbed)
    (hf : t.interrupted.2.fetchWord = .stall read) : step s = .next (t.interrupted.2.stalled read) := by
  unfold step
  rw [fetchPhase_undisturbed hs hn]
  unfold State.fetchDecode
  rw [hf]

/-! ### An answer that never comes -/

theorem blockAddr_wordAddr (a : Word) : blockAddr (wordAddr a) = blockAddr a := by
  apply BitVec.eq_of_toNat_eq
  rw [blockAddr_toNat, blockAddr_toNat, wordAddr_toNat]
  omega

theorem loadWord_absent {s : State} {base : Reg} {offset : Half} {va : Word} (h : Addresses s base offset va)
    (hr : s.BusReady)
    (hva : inKseg1 va = true ∧ s.answer (physical va) = .absent ∨ inKseg1 va = false ∧ s.MissesData (physical va) ∧
      s.answer (if s.mode.dblock then blockAddr (physical va) else physical va) = .absent) (length : BitVec 2) :
    ∃ t, s.loadWord va length = .stuck t ∧ StuckIn s t := by
  rcases hva with ⟨hk, ha⟩ | ⟨hk, hmiss, ha⟩
  · rw [loadWord_kseg1 h.mode h.isolated hk]
    exact busRead_absent hr ((answer_wordAddr s _).trans ha) _ _
  · rw [loadWord_dataMiss h hk hmiss]
    refine refill_absent hr (not_not_intro ?_) _
    rw [blockAddr_wordAddr]
    show s.answer (if s.mode.dblock then _ else _) = _
    split at ha
    · rwa [if_pos ‹_›]
    · rwa [if_neg ‹_›, answer_wordAddr]

/-- The BIU does nothing while the core waits for a bus cycle that never completes (R77). -/
theorem sample_bus_of_coreStuck {s : State} (h : s.bus = .coreStuck) : s.sample.bus = .coreStuck := by
  obtain ⟨n, hn⟩ := drain_eq_biuWriteN s.environment.applyClearPins
  have hc : s.environment.applyClearPins.bus = .coreStuck := (environment_bus s).trans h
  rw [State.sample, hn, biuWriteN_busy n (by simp [hc]), hc]

/-- Without a RESET a core that waits so goes on waiting. -/
theorem step_waits {s : State} (h : s.bus = .coreStuck) (hr : s.resetPulse = none) (hl : s.mode.legal = true) :
    step s = s.sample.waits := by
  have hmode : s.sample.mode.legal = true := by rw [sample_frame]; exact hl
  unfold step State.fetchPhase
  simp only [hr, hmode, sample_bus_of_coreStuck h, Bool.not_true, Bool.false_eq_true, if_false, if_true]

theorem waits_of_schedule {s : State} (h : s.schedule ≠ []) : s.waits = .next s := if_neg (by simpa using h)

theorem waits_at_end {s : State} (h : s.schedule = []) : s.waits = .fault .noAnswer := if_pos (by simp [h])

/-- Settles O10: a load is its `LoadWord`, a store its `StoreLanes`, and what these do where the bus is held or does not
answer, the instruction does. -/
theorem holdStalls : Obligations.HoldStalls := by
  refine ⟨fun s base rt offset va h hh => ⟨fun hva i hi => ?load, fun hfull i hi => ?store⟩,
    fun s t hs hn hf hh hpc => ?fetch, fun s base rt offset va h hk hr hb i hi => ?read,
    fun s base rt offset va h hr hva i hi => ?absent, fun s hb hr hl => ?waiting⟩
  case load =>
    obtain ⟨length, value, he⟩ := exec_eq_loadWord h.settled h.addr h.mtc0 hi
    rw [he, loadWord_held h hh hva]
    rfl
  case store =>
    have hu := readSrc_free s rt
    obtain ⟨mask, w, he⟩ := exec_eq_storeLanes h.settled h.addr h.mtc0 hi
    rw [he, storeLanes_held ((free_mayAccess hu va).trans h.mode) (by simp [h.isolated]) (by simp [hh]) (by simpa using hfull)]
    rfl
  case fetch =>
    refine ⟨_, ?_, step_of_stalled hs hn (fetchWord_held hf (interrupted_free t) hh hpc)⟩
    exact congrArg (State.stalled · true) (interrupted_free t)
  case read =>
    obtain ⟨length, value, he⟩ := exec_eq_loadWord h.settled h.addr h.mtc0 hi
    obtain ⟨w, t, ht, -, hrest⟩ := busRead_unbuffered (a := wordAddr (physical va)) hr.ready
      (by rw [answer_wordAddr]; exact not_absent_of_backed hr.backed) (by rwa [wordAddr_wordAddr])
      s.inputs.dataSizrq (.uncached length)
    refine ⟨(t.setGpr rt (value w)).retire { load := some rt, memory := true }, ?_, ?_, ?_⟩
    · rw [he, loadWord_kseg1 h.mode h.isolated hk, ht]
      rfl
    · rw [retire_writeBuffer, setGpr_writeBuffer, hrest]
    · rw [retire_mem, setGpr_mem, hrest]
  case absent =>
    obtain ⟨length, value, he⟩ := exec_eq_loadWord h.settled h.addr h.mtc0 hi
    obtain ⟨t, ht, hstuck⟩ := loadWord_absent h hr hva length
    have hwaits : exec i s = t.waits := by rw [he, ht]; rfl
    have hschedule : t.schedule = s.schedule := by rw [hstuck.rest]
    rw [hwaits, ← hschedule]
    refine ⟨fun hs => ⟨t, waits_of_schedule hs, hstuck.bus, by rw [hstuck.rest],
      readGpr_of_regs (by rw [hstuck.rest]), ?_⟩, waits_at_end⟩
    constructor <;> rw [hstuck.rest]
  case waiting =>
    rw [step_waits hb hr hl]
    exact ⟨waits_of_schedule, waits_at_end⟩

end Sys2Proof.Machine
end

section
/-! PROOFS. What the bus shows of stores and loads in kseg1, on the 32-bit bus with the buffer empty (50_bus_interface.md R312,
R320). -/

namespace Sys2Proof.Machine

/-! ### The write cycle of a store -/

/-- The buffer entry of a store to a physical address (R93, R320). -/
def storeEntry (big : Bool) (pa : Word) (lanes : BitVec 4 × Word) : WriteEntry :=
  { addr := pa.extractLsb' 2 30 ++ lowestOffset big lanes.1, mask := lanes.1, data := lanes.2 }

/-- A store through kseg1 is the only entry of a buffer that was empty. -/
theorem storeLanes_kseg1 {s : State} {va : Word} (hma : s.mayAccess va = true) (hi : s.sr.isc = false)
    (hk : inKseg1 va = true) (hb : s.writeBuffer = []) (lanes : BitVec 4 × Word) :
    ∃ t, s.storeLanes va lanes.1 lanes.2 = .done () t ∧ t = { s with
      dcache := t.dcache, writeBuffer := [storeEntry s.mode.bigEndianMem (physical va) lanes] } := by
  have hempty : (s.dropAlias (wordAddr (physical va))).writeBuffer = [] := by rw [dropAlias_rest]; exact hb
  unfold State.storeLanes State.appendWrite
  rw [translate_may hma]
  simp only [hi, hk, hempty, Bool.false_eq_true, if_false, if_true, List.length_nil, Nat.zero_lt_succ, List.nil_append]
  exact ⟨_, rfl, by rw [dropAlias_rest]; rfl⟩

/-- On the 32-bit bus a buffered write is one cycle (R320). -/
theorem biuWrite_trace32 {s : State} {e : WriteEntry} (hb : s.writeBuffer = [e]) (hf : s.bus = .free)
    (ha : s.answer e.addr ≠ .absent) (hm : s.mode.sbussiz = false) :
    s.biuWrite.trace = .write e.addr (accessType e.mask) (lanes32 e) :: s.trace := by
  unfold State.biuWrite writeCycles
  simp only [hb, hf, ha, hm, if_true, if_false, Bool.false_eq_true, List.reverse_singleton, List.singleton_append]

/-- What the bus shows of a store that goes to memory through kseg1, in a state in which its register was read. -/
theorem storeBy_shown {s : State} {base : Reg} {offset : Half} {va : Word} (h : Addresses s base offset va)
    (hk : inKseg1 va = true) (hr : s.BusReady) (ha : s.answer (physical va) ≠ .absent) (hm : s.mode.sbussiz = false)
    (hb : s.writeBuffer = []) {n : Size} (hva : aligned n va = true)
    (lanes : Bool → Word → Word → BitVec 4 × Word) (rt : Reg) {e : WriteEntry}
    (he : e = storeEntry s.mode.bigEndianMem (physical va) (lanes s.bigEndianCPU va (s.readSrc rt).1)) :
    ∃ t, s.finish (s.storeBy n lanes base rt offset) = .next t ∧
      t.biuWrite.trace = .write e.addr (accessType e.mask) (lanes32 e) :: s.trace := by
  have hu := readSrc_free s rt
  obtain ⟨t, ht, hrest⟩ := storeLanes_kseg1 (s := (s.readSrc rt).2) ((free_mayAccess hu va).trans h.mode)
    (by simp [h.isolated]) hk (by simp [hb]) (lanes s.bigEndianCPU va (s.readSrc rt).1)
  rw [readSrc_mode, ← he] at hrest
  refine ⟨t.retire { store := true, memory := true, overwrote := s.overwritten va }, ?run, ?shown⟩
  case run =>
    rw [storeBy_settled h.settled h.addr h.mtc0 hva, ht]
    rfl
  case shown =>
    have hanswer : s.answer e.addr = s.answer (physical va) := by
      rw [he]
      exact answer_of_word (shown_word (physical va) _)
    have hplatform : t.platform = s.platform := by rw [hrest]; exact readSrc_platform s rt
    have htrace : t.trace = s.trace := by rw [hrest]; exact readSrc_trace s rt
    refine (biuWrite_trace32 (e := e) ?_ ?_ ?_ ?_).trans (by rw [retire_trace, htrace])
    · rw [retire_writeBuffer, hrest]
    · rw [retire_bus, hrest]
      exact (readSrc_bus s rt).trans hr.bus
    · unfold State.answer at ha hanswer ⊢
      rw [retire_platform, hplatform, hanswer]
      exact ha
    · rw [retire_mode, hrest]
      simp [hm]

/-! ### Lanes and address of a byte -/

/-- The lane that a byte store selects is the only one (Table 4-2). -/
theorem lanes32_byte {l : Nat} (hl : l < 4) (a v : Word) :
    lanes32 { addr := a, mask := 0b0001#4 <<< l, data := (v &&& 0xFF#32) <<< (8 * l) } = [(l, v.extractLsb' 0 8)] := by
  have hlane : laneByte ((v &&& 0xFF#32) <<< (8 * l)) l = v.extractLsb' 0 8 := by
    rw [laneByte_shiftLeft _ le_rfl hl, Nat.sub_self]
    exact laneByte_and_low v (n := 1) (by decide) (by decide)
  have hfilter : [0, 1, 2, 3].filter ((0b0001#4 <<< l).getLsbD ·) = [l] := by
    interval_cases l <;> rfl
  unfold lanes32
  rw [hfilter, List.map_singleton, hlane]

/-- A word store selects all four lanes. -/
theorem lanes32_word (a v : Word) : lanes32 { addr := a, mask := 0b1111#4, data := v } =
    [(0, v.extractLsb' 0 8), (1, v.extractLsb' 8 8), (2, v.extractLsb' 16 8), (3, v.extractLsb' 24 8)] := by
  have hfilter : [0, 1, 2, 3].filter ((0b1111#4).getLsbD ·) = [0, 1, 2, 3] := by decide
  unfold lanes32
  rw [hfilter]
  rfl

theorem lowestOffset_byte (big : Bool) {l : Nat} (hl : l < 4) :
    (lowestOffset big (0b0001#4 <<< l)).toNat = laneOf big l := by
  cases big <;> interval_cases l <;> rfl

/-- The address that the bus shows for a byte store is that of the byte (R320). -/
theorem shown_byte (s : State) (va : Word) :
    ((physical va).extractLsb' 2 30 ++ lowestOffset s.mode.bigEndianMem (0b0001#4 <<< byteLane s.bigEndianCPU va) : Word) =
      s.touched .byte (physical va) := by
  obtain ⟨hword, hlane⟩ := touched_byte_lane s va
  have hword := congrArg BitVec.toNat hword
  rw [wordAddr_toNat, wordAddr_toNat] at hword
  apply BitVec.eq_of_toNat_eq
  rw [append_low_toNat, high_toNat, lowestOffset_byte _ (byteLane_lt _ _), ← hlane,
    laneOf_laneOf _ _ (Nat.mod_lt _ (by decide))]
  omega

/-! ### The three accesses -/

/-- The read cycle of a load through kseg1 that no buffered write is for, sized as the platform asks (R312, R331). -/
theorem load_shown {s : State} {base : Reg} {offset : Half} {va : Word} (h : Addresses s base offset va)
    (hk : inKseg1 va = true) (hr : s.BusReady) (ha : s.answer (physical va) ≠ .absent) (hb : s.writeBuffer = [])
    {n : Size} (hva : aligned n va = true) (extend : Word → Word) (rt : Reg) :
    ∃ t, s.finish (s.load n extend base rt offset) = .next t ∧ t.dcache = s.dcache ∧
      t.trace = shownReads s.mode s.inputs.dataSizrq (wordAddr (physical va)) (.uncached n.accessType) ++ s.trace := by
  obtain ⟨w, t, ht, -, hrest⟩ := busRead_unbuffered hr (a := wordAddr (physical va)) (by rwa [answer_wordAddr])
    (by simp [hb]) s.inputs.dataSizrq (.uncached n.accessType)
  refine ⟨(t.setGpr rt (extend (selectLoaded n s.bigEndianCPU va w))).retire { load := some rt, memory := true },
    ?_, ?_, ?_⟩
  · rw [load_settled h.settled h.addr h.mtc0 hva, loadWord_kseg1 h.mode h.isolated hk, ht]
    rfl
  · rw [retire_dcache, setGpr_dcache, hrest]
  · rw [retire_trace, setGpr_trace, hrest, readCycles_shown _ _ (wordAddr_wordAddr _)]

/-- Settles O55: a store's entry is shown with its lowest byte's address and its lanes, a load's read with its word's. -/
theorem busCyclesOfAccesses : Obligations.BusCyclesOfAccesses := by
  intro s base rt offset va l h hk hr ha hm hb hl
  refine ⟨?sb, fun hva => ?sw, fun hsize => ?lb⟩
  case sb =>
    obtain ⟨t, ht, hshown⟩ := storeBy_shown h hk hr ha hm hb (n := .byte) rfl (storeLanesOf .byte) rt rfl
    refine ⟨_, t, reads_readSrc s rt, (congrArg s.finish (store_eq_storeBy s .byte base rt offset)).trans ht, ?_⟩
    have hlane := byteLane_lt s.bigEndianCPU va
    have htype : accessType (0b0001#4 <<< byteLane s.bigEndianCPU va) = 0 := by
      generalize byteLane s.bigEndianCPU va = k at hlane
      interval_cases k <;> rfl
    rw [hshown, hl, (touched_byte_lane s va).2, ← shown_byte, ← lanes32_byte hlane, ← htype]
    rfl
  case sw =>
    have hword : ((physical va).extractLsb' 2 30 ++ lowestOffset s.mode.bigEndianMem 0b1111#4 : Word) = physical va := by
      rw [show lowestOffset s.mode.bigEndianMem 0b1111#4 = 0#2 by cases s.mode.bigEndianMem <;> rfl]
      exact wordAddr_physical hva
    obtain ⟨t, ht, hshown⟩ := storeBy_shown h hk hr ha hm hb (n := .word) (by simp [aligned, hva])
      (storeLanesOf .word) rt (e := ⟨physical va, 0b1111#4, (s.readSrc rt).1⟩)
      (congrArg (fun a => WriteEntry.mk a 0b1111#4 (s.readSrc rt).1) hword).symm
    refine ⟨_, t, reads_readSrc s rt, (congrArg s.finish (store_eq_storeBy s .word base rt offset)).trans ht, ?_⟩
    have htype : accessType 0b1111#4 = 3 := by decide
    simp only [hshown, lanes32_word, htype]
  case lb =>
    obtain ⟨t, ht, hdcache, htrace⟩ := load_shown h hk hr ha hb (n := .byte) rfl sextByte rt
    refine ⟨t, ht, hdcache, ?_⟩
    rw [htrace, hsize, shownReads, if_neg (by simp), if_neg (by simp [hm])]
    rfl

end Sys2Proof.Machine
end

section
/-! PROOFS. The bus cycles of a single read, access by access (50_bus_interface.md R331 to R334; 20_memory.md R88(d)). -/

namespace Sys2Proof.Machine

/-- The read of a fetch from kseg1 that no buffered write is for: which word it answers and what it shows (R94, R331). -/
theorem fetchFrom_shown {s u : State} (hu : u = { s with freeIndex := u.freeIndex }) {va : Word} (hf : s.FetchableAt va)
    (hk : inKseg1 va = true) (hr : s.Readable false va) (hb : s.writeBuffer = []) (sized : Bool) :
    ∃ w t, u.fetchFrom sized va = .done w t ∧ t = { s with
      trace := shownReads s.mode sized (physical va) (.uncached 3) ++ s.trace, freeIndex := t.freeIndex } := by
  obtain ⟨v, stores, hv, -, he⟩ := fetchFrom_ok hf hu
  obtain ⟨w, t, ht, -, hrest⟩ := busRead_unbuffered (ready_free hv hr.ready) (a := physical va)
    (by rw [answer_free hv]; exact not_absent_of_backed hr.backed) (by rw [hv]; simp [hb]) sized
    (.uncached Size.word.accessType)
  rw [readCycles_shown _ _ (wordAddr_physical hf.1), hv] at hrest
  refine ⟨wordBefore stores (physical va) w, t, ?_, hrest⟩
  rw [he sized, if_pos hk, ht]
  rfl

/-- An aborted fetch from kseg1 that no buffered write is for shows its read, and nothing else happens (R88(d)). -/
theorem fetchAborted_shown {s : State} {va : Word} (hf : s.FetchableAt va) (hk : inKseg1 va = true)
    (hr : s.Readable false va) (hb : s.writeBuffer = []) (sized : Bool) :
    s.fetchAborted va sized = { s with
      trace := shownReads s.mode sized (physical va) (.uncached 3) ++ s.trace
      freeIndex := (s.fetchAborted va sized).freeIndex } := by
  obtain ⟨w, t, ht, hrest⟩ := fetchFrom_shown (s := s) (u := s) rfl hf hk hr hb sized
  have ha : s.fetchAborted va sized = t := by rw [State.fetchAborted, ht]
  rw [ha]
  exact hrest

/-- Settles O56: each of the four reads is one for whose word the write buffer holds nothing. -/
theorem sizedReadCycles : Obligations.SizedReadCycles := by
  refine ⟨fun s sized a type hr hk ha hb => ?read, fun s base rt offset va h hk hva hr hb => ?load,
    fun s t hs hn hf hk hr hb => ?fetch, fun s first second hab hb hva => ?aborted⟩
  case read =>
    obtain ⟨w, t, ht, hw, hrest⟩ := busRead_unbuffered hr (not_absent_of_backed hk) (by simp [hb]) sized type
    have ha := wordAddr_aligned ha
    rw [hw hk, ha] at ht
    exact ⟨t, ht, by rw [hrest], by rw [hrest, readCycles_shown _ _ ha]⟩
  case load =>
    obtain ⟨w, u, hu, hw, hrest⟩ := busRead_unbuffered hr.ready (not_absent_of_backed hr.backed) (by simp [hb])
      s.inputs.dataSizrq (.uncached 3)
    have hpa := wordAddr_physical hva
    obtain ⟨t, ht, -, htrace⟩ := load_shown h hk hr.ready (not_absent_of_backed hr.backed) hb (n := .word)
      (by simp [aligned, hva]) id rt
    rw [hw hr.backed, hpa] at hu
    rw [hpa] at htrace
    exact ⟨t, u, hu, ht, by rw [htrace, hrest, readCycles_shown _ _ hpa]; rfl⟩
  case fetch =>
    obtain ⟨w, u, hw, hmay, honly⟩ := fetchWord_kseg1 hf (interrupted_free t) hk hr
    obtain ⟨w', u', hw', hrest⟩ := fetchFrom_shown (interrupted_free t) hf hk hr hb t.inputs.fetchSizrq
    have hu : u = u' := by
      have hpc : t.interrupted.2.pc = t.pc := useCp0_pc t _
      have hinputs : t.interrupted.2.inputs = t.inputs := useCp0_inputs t _
      unfold State.fetchWord at hw
      rw [hpc, hinputs, hw'] at hw
      cases hw
      rfl
    exact ⟨w, u, hmay, honly, by rw [hu, hrest], fun i => step_of_fetched hs hn hw⟩
  case aborted =>
    obtain ⟨hf, hk, hr⟩ := hva s.npc (by simp)
    obtain ⟨hf', hk', hr'⟩ := hva (s.npc + 4) (by simp)
    have h1 := fetchAborted_shown hf hk hr hb first
    generalize hu : s.fetchAborted s.npc first = u at h1
    have h2 := fetchAborted_shown (s := u) (va := s.npc + 4) (by rw [h1]; exact hf') hk'
      (by rw [h1]; exact ⟨⟨hr'.ready.hold, hr'.ready.bus, hr'.ready.answered⟩, hr'.backed, hr'.block⟩)
      (by rw [h1]; exact hb) second
    have hfetches : s.abortFetches .sys = u.fetchAborted (s.npc + 4) second := by
      unfold State.abortFetches
      rw [hab, ← hu]
      rfl
    refine ⟨_, exec_syscall_eq_takeException s, enters_take s s .sys rfl, ?_⟩
    rw [State.takeException, enter_trace, hfetches, h2, h1, List.append_assoc]

end Sys2Proof.Machine
end
